-- ==== Sys2Proof/Word.lean ====
section
/-! DEFINITION. The words of the part: bytes, addresses, the six-channel record and small tables of fixed length. -/

namespace Sys2Proof

/-- One byte of a request, a slot or a field-link exchange. -/
abbrev Byte := BitVec 8

/-- A 34-bit byte address of the memory path (R152). -/
abbrev Addr := BitVec 34

/-- One of the six ink channels, 0 to 5 (R1). -/
abbrev Channel := Fin 6

/-- One value for each of the six ink channels (R1). -/
structure Six (α : Type) where
  c0 : α
  c1 : α
  c2 : α
  c3 : α
  c4 : α
  c5 : α
  deriving DecidableEq, Repr

namespace Six

/-- The value of one channel. -/
def get {α : Type} (v : Six α) : Channel → α
  | ⟨0, _⟩ => v.c0
  | ⟨1, _⟩ => v.c1
  | ⟨2, _⟩ => v.c2
  | ⟨3, _⟩ => v.c3
  | ⟨4, _⟩ => v.c4
  | ⟨_ + 5, _⟩ => v.c5

/-- The record with the value of one channel replaced. -/
def set {α : Type} (v : Six α) (k : Channel) (a : α) : Six α :=
  match k with
  | ⟨0, _⟩ => { v with c0 := a }
  | ⟨1, _⟩ => { v with c1 := a }
  | ⟨2, _⟩ => { v with c2 := a }
  | ⟨3, _⟩ => { v with c3 := a }
  | ⟨4, _⟩ => { v with c4 := a }
  | ⟨_ + 5, _⟩ => { v with c5 := a }

/-- The same value for every channel. -/
def all {α : Type} (a : α) : Six α := ⟨a, a, a, a, a, a⟩

/-- The record of what a function gives for each channel. -/
def of {α : Type} (f : Channel → α) : Six α := ⟨f 0, f 1, f 2, f 3, f 4, f 5⟩

/-- The values in channel order. -/
def toList {α : Type} (v : Six α) : List α := [v.c0, v.c1, v.c2, v.c3, v.c4, v.c5]

end Six

/-- The channels in ascending order. -/
def channels : List Channel := [0, 1, 2, 3, 4, 5]

/-- A table of fixed length with every entry changed by one function. -/
def mapTable {α β : Type} {n : Nat} (f : α → β) (v : Vector α n) : Vector β n :=
  ⟨⟨v.toList.map f⟩, by simp⟩

end Sys2Proof
end

