-- ==== Sys2Proof/Syntax.lean ====
section
/-! DEFINITION. The commands of the block, one constructor of `Instr` per row of spec/opcode_table.json, and their operands. -/

namespace Sys2Proof

/-- A WRITE request: tag, byte address, and for each byte its enable and its data (R152).
The length in bytes is the length of the list. -/
structure WriteRequest where
  tag : Fin 32
  addr : Addr
  bytes : List (Bool × Byte)
  deriving DecidableEq, Repr

/-- A READ request: tag, byte address, length in bytes (R152). -/
structure ReadRequest where
  tag : Fin 32
  addr : Addr
  len : Nat
  deriving DecidableEq, Repr

/-- What memory answers to an issued read (R155): GOOD with the bytes read, or FAULT with no data. -/
inductive MemoryAnswer where
  | good (data : List Byte)
  | fault
  deriving DecidableEq, Repr

/-- CONFIGURE, fields as slot bytes 8 to 25 give them (12.4). -/
structure ConfigureArgs where
  base : BitVec 64
  bufferCount : BitVec 8
  spitColumns : BitVec 8
  capacity : BitVec 16
  holdLimit : BitVec 16
  journalCapacity : BitVec 16
  budget : BitVec 16
  deriving DecidableEq, Repr

/-- SET CHANNEL, fields as slot bytes 8 to 29 give them (12.4). -/
structure SetChannelArgs where
  channel : BitVec 8
  inkType : BitVec 8
  dropVolume : BitVec 8
  spitCount : BitVec 8
  tankCapacity : BitVec 32
  floor : BitVec 32
  refillMark : BitVec 32
  lowMark : BitVec 32
  idleLimit : BitVec 16
  deriving DecidableEq, Repr

/-- SET ROLL, fields as slot bytes 8 to 19 give them (12.4). -/
structure SetRollArgs where
  roll : BitVec 8
  enabled : BitVec 8
  mediaType : BitVec 8
  width : BitVec 16
  remaining : BitVec 32
  deriving DecidableEq, Repr

/-- QUEUE SHEET, fields as slot bytes 8 to 51 give them (12.4). -/
structure QueueSheetArgs where
  id : BitVec 16
  rollPreference : BitVec 8
  mediaType : BitVec 8
  length : BitVec 16
  topMargin : BitVec 16
  swathCount : BitVec 16
  cutMode : BitVec 8
  estimateMarker : BitVec 8
  swathAdvance : BitVec 32
  dryTime : BitVec 16
  estimates : Six (BitVec 32)
  deriving DecidableEq, Repr

/-- SWATH READY, fields as slot bytes 8 to 17 give them (12.4). -/
structure SwathReadyArgs where
  sheet : BitVec 16
  index : BitVec 16
  buffer : BitVec 8
  columns : BitVec 16
  deriving DecidableEq, Repr

/-- SET NOZZLE, fields as slot bytes 8 to 11 give them (12.4). -/
structure SetNozzleArgs where
  channel : BitVec 8
  action : BitVec 8
  nozzle : BitVec 16
  deriving DecidableEq, Repr

/-- One four-byte step of LOAD PROGRAM (12.4). -/
structure StepArgs where
  kind : BitVec 8
  mask : BitVec 8
  parameter : BitVec 16
  deriving DecidableEq, Repr

/-- LOAD PROGRAM: slot bytes 8 to 13, the ten step fields of bytes 16 to 55, and the declared duration at
bytes 56 to 59 (12.4, R95). -/
structure LoadProgramArgs where
  program : BitVec 8
  triggerKind : BitVec 8
  urgency : BitVec 8
  stepCount : BitVec 8
  triggerParameter : BitVec 16
  steps : List StepArgs
  duration : BitVec 32
  deriving DecidableEq, Repr

/-- A command of the ring as its slot spells it (R163, 12.4). -/
inductive RingCommand where
  | nop
  | configure (a : ConfigureArgs)
  | restart
  | setChannel (a : SetChannelArgs)
  | setRoll (a : SetRollArgs)
  | queueSheet (a : QueueSheetArgs)
  | swathReady (a : SwathReadyArgs)
  | cancelSheet (sheet : BitVec 16)
  | clearJam
  | setNozzle (a : SetNozzleArgs)
  | loadProgram (a : LoadProgramArgs)
  | runProgram (program : BitVec 8)
  | unknown (kind : BitVec 8)
  deriving DecidableEq, Repr

/-- What the addressed unit did in a frame that passed the line check and met no busy timeout (R142 to R144). -/
inductive Exchange where
  /-- the select byte was not acknowledged -/
  | selectNak
  /-- the order byte was not acknowledged -/
  | orderNak
  /-- this many write data bytes were acknowledged and the next was not -/
  | dataNak (acknowledged : Nat)
  /-- every byte was acknowledged; the bytes the unit then drove in the reply slots, length byte first -/
  | answered (reply : List Byte)
  deriving DecidableEq, Repr

/-- The end of a frame: the exchange, and through how many further slots past its end the unit kept FLDA low (R145). -/
structure FrameEnd where
  exchange : Exchange
  lowSlots : Nat
  deriving DecidableEq, Repr

/-- The commands of the block: one constructor per row of spec/opcode_table.json. -/
inductive Instr where
  | reset
  | resetRelease (straps : BitVec 3)
  | timeBaseTick
  | slotWrite (w : WriteRequest)
  | readIndexWrite (w : WriteRequest)
  | controllerWrite (w : WriteRequest)
  | controllerRead (r : ReadRequest)
  | headRead (r : ReadRequest)
  | headWrite (w : WriteRequest)
  | arbiterGrant
  | memoryAnswer (a : MemoryAnswer)
  | nop
  | configure (a : ConfigureArgs)
  | restart
  | setChannel (a : SetChannelArgs)
  | setRoll (a : SetRollArgs)
  | queueSheet (a : QueueSheetArgs)
  | swathReady (a : SwathReadyArgs)
  | cancelSheet (sheet : BitVec 16)
  | clearJam
  | setNozzle (a : SetNozzleArgs)
  | loadProgram (a : LoadProgramArgs)
  | runProgram (program : BitVec 8)
  | unknownKind (kind : BitVec 8)
  | holdTimerExpiry
  | pollTimerExpiry (k : Channel)
  | pumpStatusPoll (k : Channel)
  | pumpDeadlineExpiry (k : Channel)
  | stopDeadlineExpiry (k : Channel)
  | stationStatusPoll
  | stepDeadlineExpiry
  | waitStepEnd
  | reservationDeadlineExpiry
  | idleTrigger (p : Fin 8)
  | printTimeTrigger (p : Fin 8)
  | feedStatusPoll
  | orderDeadlineExpiry
  | dryTimerExpiry
  | lineCheckTimeout
  | busyTimeout
  | readTagOutcome (f : FrameEnd)
  | debitOutcome (f : FrameEnd)
  | levelOutcome (f : FrameEnd)
  | transferOutcome (f : FrameEnd)
  | stopOutcome (f : FrameEnd)
  | pumpStatusOutcome (f : FrameEnd)
  | stationOrderOutcome (f : FrameEnd)
  | stationStatusOutcome (f : FrameEnd)
  | checkPageOutcome (f : FrameEnd)
  | feedOrderOutcome (f : FrameEnd)
  | feedStatusOutcome (f : FrameEnd)
  | clearJamCheckOutcome (f : FrameEnd)
  deriving DecidableEq, Repr

end Sys2Proof
end

