-- ==== Sys2Proof/WellFormed.lean ====
section
/-! DEFINITION. Which operands a command may carry beyond what its type already says. -/

namespace Sys2Proof

/-- The kind codes of section 12.4. -/
def definedKinds : List (BitVec 8) :=
  [0x01#8, 0x02#8, 0x03#8, 0x10#8, 0x11#8, 0x12#8, 0x13#8, 0x14#8, 0x15#8, 0x16#8, 0x17#8, 0x18#8]

/-- A frame end is well formed when the unit drove no more reply bytes than a length byte, 255 content bytes
and a check byte (R144), and no more write data was acknowledged than any order carries (12.7). -/
def FrameEnd.wellFormed (f : FrameEnd) : Bool :=
  match f.exchange with
  | .answered reply => decide (reply.length ≤ 257)
  | .dataNak n => decide (n < 5)
  | .selectNak => true
  | .orderNak => true

/-- LOAD PROGRAM carries ten step fields, whatever its step count (12.4). -/
def LoadProgramArgs.wellFormed (a : LoadProgramArgs) : Bool := decide (a.steps.length = 10)

/-- A ring command is well formed when a slot can spell it. -/
def RingCommand.wellFormed : RingCommand → Bool
  | .loadProgram a => a.wellFormed
  | .unknown kind => !definedKinds.contains kind
  | .nop => true
  | .configure _ => true
  | .restart => true
  | .setChannel _ => true
  | .setRoll _ => true
  | .queueSheet _ => true
  | .swathReady _ => true
  | .cancelSheet _ => true
  | .clearJam => true
  | .setNozzle _ => true
  | .runProgram _ => true

/-- The check on a command's operands: what a slot, a memory answer or a frame can carry. -/
def Instr.wellFormed : Instr → Bool
  | .memoryAnswer (.good data) => decide (16 ≤ data.length ∧ data.length ≤ 1024 ∧ data.length % 16 = 0)
  | .memoryAnswer .fault => true
  | .loadProgram a => a.wellFormed
  | .unknownKind kind => !definedKinds.contains kind
  | .readTagOutcome f => f.wellFormed
  | .debitOutcome f => f.wellFormed
  | .levelOutcome f => f.wellFormed
  | .transferOutcome f => f.wellFormed
  | .stopOutcome f => f.wellFormed
  | .pumpStatusOutcome f => f.wellFormed
  | .stationOrderOutcome f => f.wellFormed
  | .stationStatusOutcome f => f.wellFormed
  | .checkPageOutcome f => f.wellFormed
  | .feedOrderOutcome f => f.wellFormed
  | .feedStatusOutcome f => f.wellFormed
  | .clearJamCheckOutcome f => f.wellFormed
  | .reset => true
  | .resetRelease _ => true
  | .timeBaseTick => true
  | .slotWrite _ => true
  | .readIndexWrite _ => true
  | .controllerWrite _ => true
  | .controllerRead _ => true
  | .headRead _ => true
  | .headWrite _ => true
  | .arbiterGrant => true
  | .nop => true
  | .configure _ => true
  | .restart => true
  | .setChannel _ => true
  | .setRoll _ => true
  | .queueSheet _ => true
  | .swathReady _ => true
  | .cancelSheet _ => true
  | .clearJam => true
  | .setNozzle _ => true
  | .runProgram _ => true
  | .holdTimerExpiry => true
  | .pollTimerExpiry _ => true
  | .pumpStatusPoll _ => true
  | .pumpDeadlineExpiry _ => true
  | .stopDeadlineExpiry _ => true
  | .stationStatusPoll => true
  | .stepDeadlineExpiry => true
  | .waitStepEnd => true
  | .reservationDeadlineExpiry => true
  | .idleTrigger _ => true
  | .printTimeTrigger _ => true
  | .feedStatusPoll => true
  | .orderDeadlineExpiry => true
  | .dryTimerExpiry => true
  | .lineCheckTimeout => true
  | .busyTimeout => true

end Sys2Proof
end

