-- ==== Sys2Proof/Decode.lean ====
section
/-! DEFINITION. The host's decoder over the table's bits (no row has any), and the slot codec of section 12.4:
how the 64 bytes of a command slot spell a ring command, and the bytes the print controller writes for one. -/

namespace Sys2Proof

/-- No row of spec/opcode_table.json gives bits, so no word spells a command. -/
def decodeTableWord (_nbits _w : Nat) : Option Instr := none

/-! ## Bytes, least significant first (R172) -/

/-- Byte `i` of a list; 0 past its end. -/
def byteAt (bs : List Byte) (i : Nat) : Byte := bs.getD i 0#8

/-- The 16-bit field at byte `i`. -/
def word16At (bs : List Byte) (i : Nat) : BitVec 16 := byteAt bs (i + 1) ++ byteAt bs i

/-- The 32-bit field at byte `i`. -/
def word32At (bs : List Byte) (i : Nat) : BitVec 32 := word16At bs (i + 2) ++ word16At bs i

/-- The 64-bit field at byte `i`. -/
def word64At (bs : List Byte) (i : Nat) : BitVec 64 := word32At bs (i + 4) ++ word32At bs i

/-- The two bytes of a 16-bit field. -/
def bytes16 (w : BitVec 16) : List Byte := [w.extractLsb' 0 8, w.extractLsb' 8 8]

/-- The four bytes of a 32-bit field. -/
def bytes32 (w : BitVec 32) : List Byte := bytes16 (w.extractLsb' 0 16) ++ bytes16 (w.extractLsb' 16 16)

/-- The eight bytes of a 64-bit field. -/
def bytes64 (w : BitVec 64) : List Byte := bytes32 (w.extractLsb' 0 32) ++ bytes32 (w.extractLsb' 32 32)

/-- So many zero bytes. -/
def zeros (n : Nat) : List Byte := List.replicate n 0#8

/-! ## The slot codec (12.4) -/

/-- Step `i` of LOAD PROGRAM, at slot byte 16 + 4i. -/
def stepAt (bs : List Byte) (i : Nat) : StepArgs :=
  { kind := byteAt bs (16 + 4 * i), mask := byteAt bs (17 + 4 * i), parameter := word16At bs (18 + 4 * i) }

def decodeConfigure (bs : List Byte) : ConfigureArgs :=
  { base := word64At bs 8, bufferCount := byteAt bs 16, spitColumns := byteAt bs 17, capacity := word16At bs 18,
    holdLimit := word16At bs 20, journalCapacity := word16At bs 22, budget := word16At bs 24 }

def decodeSetChannel (bs : List Byte) : SetChannelArgs :=
  { channel := byteAt bs 8, inkType := byteAt bs 9, dropVolume := byteAt bs 10, spitCount := byteAt bs 11,
    tankCapacity := word32At bs 12, floor := word32At bs 16, refillMark := word32At bs 20,
    lowMark := word32At bs 24, idleLimit := word16At bs 28 }

def decodeSetRoll (bs : List Byte) : SetRollArgs :=
  { roll := byteAt bs 8, enabled := byteAt bs 9, mediaType := byteAt bs 10, width := word16At bs 12,
    remaining := word32At bs 16 }

def decodeQueueSheet (bs : List Byte) : QueueSheetArgs :=
  { id := word16At bs 8, rollPreference := byteAt bs 10, mediaType := byteAt bs 11, length := word16At bs 12,
    topMargin := word16At bs 14, swathCount := word16At bs 16, cutMode := byteAt bs 18,
    estimateMarker := byteAt bs 19, swathAdvance := word32At bs 20, dryTime := word16At bs 24,
    estimates := ⟨word32At bs 28, word32At bs 32, word32At bs 36, word32At bs 40, word32At bs 44, word32At bs 48⟩ }

def decodeSwathReady (bs : List Byte) : SwathReadyArgs :=
  { sheet := word16At bs 8, index := word16At bs 10, buffer := byteAt bs 12, columns := word16At bs 16 }

def decodeSetNozzle (bs : List Byte) : SetNozzleArgs :=
  { channel := byteAt bs 8, action := byteAt bs 9, nozzle := word16At bs 10 }

def decodeLoadProgram (bs : List Byte) : LoadProgramArgs :=
  { program := byteAt bs 8, triggerKind := byteAt bs 9, urgency := byteAt bs 10, stepCount := byteAt bs 11,
    triggerParameter := word16At bs 12,
    steps := [stepAt bs 0, stepAt bs 1, stepAt bs 2, stepAt bs 3, stepAt bs 4, stepAt bs 5, stepAt bs 6,
      stepAt bs 7, stepAt bs 8, stepAt bs 9],
    duration := word32At bs 56 }

/-- The command a slot's 64 bytes spell (R163 and the kind table of 12.4). Reserved bytes are not read. -/
def decodeSlot (bs : List Byte) : RingCommand :=
  let kind := byteAt bs 0
  if kind = 0x01#8 then .nop
  else if kind = 0x02#8 then .configure (decodeConfigure bs)
  else if kind = 0x03#8 then .restart
  else if kind = 0x10#8 then .setChannel (decodeSetChannel bs)
  else if kind = 0x11#8 then .setRoll (decodeSetRoll bs)
  else if kind = 0x12#8 then .queueSheet (decodeQueueSheet bs)
  else if kind = 0x13#8 then .swathReady (decodeSwathReady bs)
  else if kind = 0x14#8 then .cancelSheet (word16At bs 8)
  else if kind = 0x15#8 then .clearJam
  else if kind = 0x16#8 then .setNozzle (decodeSetNozzle bs)
  else if kind = 0x17#8 then .loadProgram (decodeLoadProgram bs)
  else if kind = 0x18#8 then .runProgram (byteAt bs 8)
  else .unknown kind

def stepBytes (st : StepArgs) : List Byte := [st.kind, st.mask] ++ bytes16 st.parameter

/-- The kind code of a ring command (12.4). -/
def RingCommand.kindCode : RingCommand → Byte
  | .nop => 0x01#8
  | .configure _ => 0x02#8
  | .restart => 0x03#8
  | .setChannel _ => 0x10#8
  | .setRoll _ => 0x11#8
  | .queueSheet _ => 0x12#8
  | .swathReady _ => 0x13#8
  | .cancelSheet _ => 0x14#8
  | .clearJam => 0x15#8
  | .setNozzle _ => 0x16#8
  | .loadProgram _ => 0x17#8
  | .runProgram _ => 0x18#8
  | .unknown kind => kind

/-- The argument bytes of a ring command, from slot byte 8 on (12.4). -/
def RingCommand.argumentBytes : RingCommand → List Byte
  | .configure a =>
    bytes64 a.base ++ [a.bufferCount, a.spitColumns] ++ bytes16 a.capacity ++ bytes16 a.holdLimit
      ++ bytes16 a.journalCapacity ++ bytes16 a.budget
  | .setChannel a =>
    [a.channel, a.inkType, a.dropVolume, a.spitCount] ++ bytes32 a.tankCapacity ++ bytes32 a.floor
      ++ bytes32 a.refillMark ++ bytes32 a.lowMark ++ bytes16 a.idleLimit
  | .setRoll a => [a.roll, a.enabled, a.mediaType, 0#8] ++ bytes16 a.width ++ zeros 2 ++ bytes32 a.remaining
  | .queueSheet a =>
    bytes16 a.id ++ [a.rollPreference, a.mediaType] ++ bytes16 a.length ++ bytes16 a.topMargin
      ++ bytes16 a.swathCount ++ [a.cutMode, a.estimateMarker] ++ bytes32 a.swathAdvance ++ bytes16 a.dryTime
      ++ zeros 2 ++ bytes32 a.estimates.c0 ++ bytes32 a.estimates.c1 ++ bytes32 a.estimates.c2
      ++ bytes32 a.estimates.c3 ++ bytes32 a.estimates.c4 ++ bytes32 a.estimates.c5
  | .swathReady a => bytes16 a.sheet ++ bytes16 a.index ++ [a.buffer] ++ zeros 3 ++ bytes16 a.columns
  | .cancelSheet sheet => bytes16 sheet
  | .setNozzle a => [a.channel, a.action] ++ bytes16 a.nozzle
  | .loadProgram a =>
    [a.program, a.triggerKind, a.urgency, a.stepCount] ++ bytes16 a.triggerParameter ++ zeros 2
      ++ a.steps.flatMap stepBytes ++ bytes32 a.duration
  | .runProgram program => [program]
  | .nop => []
  | .restart => []
  | .clearJam => []
  | .unknown _ => []

/-- The 64 bytes the print controller writes to give a command: kind, zero reserved bytes and reference,
arguments, zeros, and a go word of 1 (12.4). -/
def encodeSlot (c : RingCommand) : List Byte :=
  let front := [c.kindCode] ++ zeros 7 ++ c.argumentBytes
  front ++ zeros (60 - front.length) ++ bytes32 1#32

end Sys2Proof
end

