-- ==== Sys2Proof/Config.lean ====
section
/-! DEFINITION. What the manual fixes for the part once and for all, and the values it leaves open. -/

namespace Sys2Proof.Config

/-- Credits each upstream port lends (R153). -/
def portCredits : Nat := 16
/-- Most reads outstanding on the M-port (R155). -/
def outstandingReads : Nat := 32
/-- Longest head run while another source waits (R156). -/
def headRunLimit : Nat := 8
/-- Places of the ordered list (R169). -/
def orderedPlaces : Nat := 32
/-- Places of the order queue (R147). -/
def linkPlaces : Nat := 16
/-- Most sheets queued (R110). -/
def sheetPlaces : Nat := 8
/-- Capacity of the nozzle-out list (R80). -/
def outPlaces : Nat := 96
/-- Capacity of the pending list of nozzle changes (R85). -/
def pendingPlaces : Nat := 16
/-- Largest value of a 32-bit saturating count (R6). -/
def countMax : Nat := 4294967295
/-- Bytes of one column and of one slice (R3). -/
def columnBytes : Nat := 768
def sliceBytes : Nat := 128
/-- Size of the control area and of the address space in bytes (R154). -/
def controlBytes : Nat := 65536
def addressSpace : Nat := 17179869184
/-- Least volume of a refill and least remaining of an ACTIVE cartridge, µL (R57, R63). -/
def leastTransfer : Nat := 500
/-- The CHECK step fires 20 drops from each of 1,024 nozzles (R99). -/
def checkDrops : Nat := 20480
/-- The clearing advance, µm (R136). -/
def clearingAdvance : Nat := 300000
/-- Largest value of the sheets and additions counters (R101). -/
def triggerCountMax : Nat := 65535
/-- Most pages of a check report (R99). -/
def checkPages : Nat := 128

/-! Times, in µs of the time base. -/

def pollTagTime : Nat := 500000
def pollStatusTime : Nat := 50000
def pumpDeadline : Nat := 120000000
def stopDeadline : Nat := 10000000
def stepDeadline : Nat := 60000000
def reservationDeadline : Nat := 30000000
def loadDeadline : Nat := 30000000
def feedDeadline : Nat := 10000000
def linkWait : Nat := 20000
/-- From the start mark to the acknowledge slot of the order byte: 20 bit slots of 2.5 µs (R141, R142). -/
def openingTime : Nat := 50

/-- FREE VALUE (log entry 19). Whether a cycle's duration of so many µs is rounded up to the next whole ms in
its SERVICE record: R106 gives the duration in ms and no rule gives its rounding. -/
opaque durationRoundsUp : Nat → Bool

/-- FREE VALUE (log entry 18). The amount that a FIELD FAULT record shows for an order byte whose rule names no amount (R46,
R65, R70, R74): its field has four bytes, and R172 codes an absent value only in fields of one and two. -/
opaque unstatedAmount : Nat → Nat

/-- FREE VALUE (log entry 18). The time added that a NOZZLE record shows where it concerns no entry of the list (R86, R87,
R89, R90), by its reason: its field has eight bytes, and R172 codes an absent value only in fields of one and two. -/
opaque unstatedTime : Nat → Nat

/-- FREE VALUE (log entry 16). How long FLDA keeps the line check of the frame with this number waiting, in µs: the units
decide it, and no command of the table carries it (R142). -/
opaque heldAtLineCheck : Nat → Nat

/-- The wait of a frame's line check, at most the 20 ms after which it would have failed (R142). -/
def lineCheckWait (frame : Nat) : Nat := min (heldAtLineCheck frame) linkWait

/-- A duration in whole ms of the µs given (R106), rounded as the manual leaves open. -/
def durationMs (us : Nat) : Nat :=
  us / 1000 + (if us % 1000 = 0 then 0 else if durationRoundsUp us then 1 else 0)

end Sys2Proof.Config
end

