-- ==== Sys2Proof/Machine/State.lean ====
section
/-! DEFINITION. The state of the part as plain data, block by block (00_scope.md, Block overview), and the state after reset.
Times are values of the time base in µs; an expiry or deadline that is not set is `none`. -/

namespace Sys2Proof.Machine

/-! ## Port switch (chapter 10) -/

inductive Port where
  | cPort
  | hPort
  deriving DecidableEq, Repr

inductive Window where
  | control
  | swath
  | plain
  deriving DecidableEq, Repr

/-- The status of a read response (R32, R155). -/
inductive ReadStatus where
  | good
  | fault
  | withheld
  deriving DecidableEq, Repr

/-- How far an accepted read has come (R155). -/
inductive ReadPhase where
  | waiting
  | issued
  | answered (status : ReadStatus) (data : List Byte)
  deriving DecidableEq, Repr

/-- One entry of an in-flight read list (R155). `id` is the model's name for the read (log entry 12). -/
structure InFlight where
  id : Nat
  tag : Fin 32
  addr : Addr
  len : Nat
  phase : ReadPhase
  deriving DecidableEq, Repr

/-- One request of a forward queue (R155). -/
inductive Forward where
  | write (w : WriteRequest)
  | read (id : Nat) (addr : Addr) (len : Nat)
  deriving DecidableEq, Repr

/-- One issued read of the outstanding list (R155). -/
structure Outstanding where
  port : Port
  id : Nat
  deriving DecidableEq, Repr

/-- The SWATH window: base, buffer count and capacity in columns (R5, R154). -/
structure SwathWindow where
  base : Nat
  count : Nat
  capacity : Nat
  deriving DecidableEq, Repr

/-- The arbiter's preference between the non-head sources (R156). -/
inductive Preference where
  | cPort
  | writer
  deriving DecidableEq, Repr

/-! ## Values the journal and the blocks share -/

inductive LevelState where
  | known
  | unknown
  deriving DecidableEq, Repr

inductive LevelReading where
  | idle
  | pending
  deriving DecidableEq, Repr

inductive Holder where
  | none
  | swath
  | prime
  deriving DecidableEq, Repr

inductive RefillState where
  | idle
  | queued
  | pumping
  | stopping
  | debiting
  deriving DecidableEq, Repr

/-- The level status of R47. -/
inductive LevelStatus where
  | unused
  | unknown
  | dry
  | low
  | ready
  deriving DecidableEq, Repr

inductive CartridgeState where
  | noCartridge
  | reading
  | active
  | wrongInk
  | spent
  deriving DecidableEq, Repr

inductive StopCause where
  | none
  | removed
  | timeout
  deriving DecidableEq, Repr

/-- The five outcomes of a frame (R145). -/
inductive LinkOutcome where
  | done
  | absent
  | refused
  | busyTimeout
  | checkError
  deriving DecidableEq, Repr

inductive RollNo where
  | one
  | two
  deriving DecidableEq, Repr

inductive Threaded where
  | none
  | roll (r : RollNo)
  | unknown
  deriving DecidableEq, Repr

inductive RollPreference where
  | roll1
  | roll2
  | either
  deriving DecidableEq, Repr

inductive CutMode where
  | cut
  | keepOn
  deriving DecidableEq, Repr

/-- The orders of the feed unit that move media (R146). -/
inductive FeedOp where
  | selectRoll (r : RollNo)
  | rewind
  | thread
  | align
  | advance (um : Nat)
  | cut
  deriving DecidableEq, Repr

inductive SheetState where
  | queued
  | waiting
  | loading
  | ready
  | printing
  | drying
  | cutting
  | clearing
  | halted
  deriving DecidableEq, Repr

inductive WaitingCause where
  | media
  | ink
  deriving DecidableEq, Repr

/-- A sheet's failure cause: SPOILED, MEDIA OUT, or one of the halt causes of R138. -/
inductive FailureCause where
  | spoiled
  | mediaOut
  | jam
  | skew
  | feedFault (code : Nat)
  | rollEnd
  | link (o : LinkOutcome)
  | timeout (op : FeedOp)
  deriving DecidableEq, Repr

/-- The outcomes with which a sheet leaves the queue, in the order of R124. -/
inductive SheetOutcome where
  | printed
  | defective
  | cancelled
  | spoiled
  | mediaOut
  | jammed
  deriving DecidableEq, Repr

inductive FeedState where
  | idle
  | loading
  | positioned
  | advancing
  | drying
  | cutting
  | clearing
  | halted
  deriving DecidableEq, Repr

inductive AdvancePurpose where
  | margin
  | swath
  | tail
  | clear
  deriving DecidableEq, Repr

inductive Origin where
  | check
  | command
  deriving DecidableEq, Repr

inductive Coverage where
  | substituted
  | uncovered
  deriving DecidableEq, Repr

inductive StepKind where
  | park
  | wipe
  | prime
  | check
  | cap
  | uncap
  | wait
  | carriageReturn
  deriving DecidableEq, Repr

inductive Location where
  | printSide
  | station
  | capped
  | stranded
  deriving DecidableEq, Repr

inductive CycleKind where
  | program (p : Fin 8)
  | wake
  deriving DecidableEq, Repr

/-- The step outcomes of R96. -/
inductive StepOutcome where
  | done
  | fault (code : Nat)
  | link (o : LinkOutcome)
  | timeout
  | inkShort
  | checkOverrun
  | abandoned
  deriving DecidableEq, Repr

/-- The recovery outcome of R107; `none` where no recovery ran. -/
inductive Recovery where
  | none
  | returned
  | stranded
  deriving DecidableEq, Repr

inductive NozzleReason where
  | added
  | origin
  | removed
  | pendingDropped
  | listOverflow
  | badEntry
  | mergeRefused
  deriving DecidableEq, Repr

/-- The fields of a NOZZLE record (R90, 12.5); a field its reason does not give is `none`. -/
structure NozzleRecord where
  reason : NozzleReason
  channel : Nat
  nozzle : Option Nat
  origin : Option Origin
  coverage : Option Coverage
  partnerCoverage : Option Coverage
  entries : Nat
  mask : Option Nat
  count : Option Nat
  lowest : Option (Nat × Nat)
  timeAdded : Option Nat
  deriving DecidableEq, Repr

/-! ## Journal records (12.5) -/

inductive JournalRecord where
  | sheetWaitingMedia (sheet : Nat) (preference : RollPreference) (remaining1 remaining2 : Nat)
  | sheetWaitingInk (sheet channel estimate found : Nat)
  | sheetRemoved (sheet : Nat) (outcome : SheetOutcome) (left : SheetState) (done count : Nat)
      (assigned : Option RollNo) (defect cancel : Bool) (cause : Option FailureCause)
  | sheetRollEnd (sheet : Nat) (roll : Option RollNo) (op : FeedOp)
  | sheetHalted (sheet : Nat) (feed : FeedState) (op : FeedOp) (cause : FailureCause) (loadStep done : Nat)
  | sheetClearFailed (sheet code : Nat)
  | swathDone (sheet index : Nat) (delivered : Six Nat) (lost injected faulted late : Nat)
  | swathWithheld (sheet index reads limit : Nat)
  | swathOrder (buffer : Nat) (notNext : Bool) (addr : Nat) (next : Option (Nat × Nat))
  | lateWrite (sheet index buffer addr : Nat)
  | inkLevelStatus (channel : Channel) (old new : LevelStatus) (level : Nat)
  | inkShortfall (channel : Channel) (notTaken : Nat)
  | inkCartridge (channel : Channel) (old new : CartridgeState) (inkType serial remaining : Nat)
  | inkUnposted (channel : Channel) (serial amount : Nat)
  | inkPumpFault (channel : Channel) (code moved : Nat)
  | inkPumpIdle (channel : Channel) (code moved : Nat)
  | inkPumpTimeout (channel : Channel) (requested moved : Nat)
  | inkStopLost (channel : Channel) (moved : Nat)
  | nozzle (r : NozzleRecord)
  | service (kind : CycleKind) (outcome : StepOutcome) (stepReached : Nat) (step : StepKind)
      (recovery : Recovery) (location : Location) (duration : Nat)
  | fieldFault (unit order : Nat) (outcome : LinkOutcome) (channel : Channel) (amount : Option Nat)
  | memoryFault (port : Port) (malformed isWrite : Bool) (tag len addr : Nat)
  | journalOverflow (dropped firstDrop : Nat)
  deriving DecidableEq, Repr

/-! ## Report writer (chapter 12) -/

/-- What an entry of the ordered list will write: a command reply or a journal record with its time (R169). -/
inductive OrderedBody where
  | reply (slot : Fin 16) (bytes : List Byte)
  | journal (record : JournalRecord) (time : Nat)
  deriving DecidableEq, Repr

/-- One entry of the ordered list: its write, its fence (R155), and whether the writer has taken it (R168). -/
structure OrderedEntry where
  body : OrderedBody
  fence : Nat
  taken : Bool
  deriving DecidableEq, Repr

/-- The write in the writer's forward queue (R155, R168). -/
inductive WriterBody where
  | ordered (body : OrderedBody)
  | status (number : Fin 13) (bytes : List Byte)
  deriving DecidableEq, Repr

structure WriterWrite where
  body : WriterBody
  fence : Nat
  deriving DecidableEq, Repr

structure ReportWriter where
  timeBase : Nat
  statusSet : List (Fin 13)
  updateCounts : Vector Nat 13
  ordered : List OrderedEntry
  replyReserved : Bool
  capacity : Nat
  writeIndex : BitVec 32
  readIndex : BitVec 32
  overflow : Bool
  dropped : Nat
  firstDrop : Nat
  deriving DecidableEq, Repr

structure PortSwitch where
  straps : BitVec 3
  swath : Option SwathWindow
  cCredits : Nat
  hCredits : Nat
  cQueue : List Forward
  hQueue : List Forward
  writer : Option WriterWrite
  cInFlight : List InFlight
  hInFlight : List InFlight
  outstanding : List Outstanding
  headRun : Nat
  preference : Preference
  cForwarded : Nat
  nextRead : Nat
  deriving DecidableEq, Repr

/-! ## Command intake (chapter 11) -/

inductive SlotState where
  | idle
  | posted
  | replyPending
  deriving DecidableEq, Repr

inductive PartState where
  | unconfigured
  | running
  deriving DecidableEq, Repr

structure Intake where
  shadows : Vector (Vector Byte 64) 16
  slots : Vector SlotState 16
  nextSlot : Fin 16
  partState : PartState
  deriving DecidableEq, Repr

/-! ## Swath gate (chapters 1 and 2) -/

structure Buffer where
  bound : Bool
  tally : Six Nat
  late : Bool
  deriving DecidableEq, Repr

inductive SwathState where
  | bound
  | armed
  | firing
  deriving DecidableEq, Repr

/-- A swath record (R10). `id` is the model's name for the record (log entry 12): a record bound afresh to the
same buffer is a different record (R32). -/
structure Swath where
  id : Nat
  sheet : Nat
  index : Nat
  buffer : Nat
  columns : Nat
  state : SwathState
  projection : Six Nat
  spitSet : Six (List Nat)
  reservation : Six Nat
  delivered : Six Nat
  lost : Nat
  injected : Nat
  faulted : Nat
  late : Nat
  deriving DecidableEq, Repr

/-- A held read, with the swath record it waits for (R18). -/
structure HeldRead where
  id : Nat
  tag : Fin 32
  addr : Addr
  len : Nat
  swath : Nat
  deriving DecidableEq, Repr

/-- A released-read note: the read, the swath record it was released for, its offset and length (R28). -/
structure ReadNote where
  id : Nat
  swath : Nat
  offset : Nat
  len : Nat
  deriving DecidableEq, Repr

inductive Claim where
  | free
  | swath
  | service
  deriving DecidableEq, Repr

structure Gate where
  buffers : List Buffer
  swaths : List Swath
  spitColumns : Nat
  holdLimit : Nat
  holdQueue : List HeldRead
  holdTimer : Option Nat
  claim : Claim
  notes : List ReadNote
  wakeAskedFor : Option Nat
  nextSwathId : Nat
  deriving DecidableEq, Repr

/-! ## Ink controller (chapters 3 and 4) -/

structure Account where
  inkType : Nat
  dropVolume : Nat
  tankCapacity : Nat
  floor : Nat
  refillMark : Nat
  lowMark : Nat
  level : Nat
  levelState : LevelState
  levelReading : LevelReading
  reserved : Nat
  holder : Holder
  remainder : Nat
  refillState : RefillState
  transferRequested : Nat
  shortfall : Bool
  deriving DecidableEq, Repr

structure Cartridge where
  state : CartridgeState
  serial : Nat
  inkType : Nat
  capacity : Nat
  remaining : Nat
  pollFault : Bool
  deriving DecidableEq, Repr

/-- An owed debit: the serial it is held for and the µL owed (R67). -/
structure Owed where
  serial : Nat
  amount : Nat
  deriving DecidableEq, Repr

structure Refill where
  source : Nat
  pumpDeadline : Option Nat
  moved : Nat
  stopCause : StopCause
  stopDeadline : Option Nat
  pollAt : Option Nat
  deriving DecidableEq, Repr

/-- What the ink controller holds for one channel. -/
structure InkChannel where
  account : Account
  cartridge : Cartridge
  owed : Option Owed
  refill : Refill
  pollTimer : Option Nat
  deriving DecidableEq, Repr

/-! ## Nozzle monitor (chapter 5) -/

/-- The idle limit in ms and the spit count P of a channel (R77). -/
structure SpitSettings where
  idleLimit : Nat
  spitCount : Nat
  deriving DecidableEq, Repr

structure OutEntry where
  channel : Channel
  nozzle : Nat
  origin : Origin
  time : Nat
  coverage : Coverage
  deriving DecidableEq, Repr

structure NozzleChange where
  channel : Channel
  nozzle : Nat
  out : Bool
  deriving DecidableEq, Repr

structure NozzleMonitor where
  idle : Six (Vector Nat 64)
  spit : Six SpitSettings
  keptAside : Six (Option SpitSettings)
  outList : List OutEntry
  held : Bool
  pending : List NozzleChange
  overflow : Bool
  deriving DecidableEq, Repr

/-! ## Service controller (chapter 6) -/

inductive TriggerKind where
  | command
  | sheets
  | printTime
  | nozzle
  | idle
  deriving DecidableEq, Repr

inductive Urgency where
  | midSheet
  | boundary
  deriving DecidableEq, Repr

structure ServiceStep where
  kind : StepKind
  mask : BitVec 8
  parameter : Nat
  deriving DecidableEq, Repr

/-- A loaded program (R94); a record not loaded is `none` in the program table. -/
structure Program where
  trigger : TriggerKind
  parameter : Nat
  urgency : Urgency
  duration : Nat
  steps : List ServiceStep
  deriving DecidableEq, Repr

structure Counters where
  sheets : Nat
  firing : Nat
  additions : Nat
  idleMark : Nat
  idleFired : Bool
  deriving DecidableEq, Repr

inductive RequestCause where
  | trigger
  | command
  deriving DecidableEq, Repr

structure Request where
  program : Fin 8
  cause : RequestCause
  time : Nat
  deriving DecidableEq, Repr

inductive CycleState where
  | none
  | claiming
  | running
  | recovering
  | abandoning
  deriving DecidableEq, Repr

/-- Where the current step stands (R96 to R99): waiting for its reservation, its order not yet taken, in polling
with the time of the next poll, reading a page, or a WAIT until a time. -/
inductive StepPhase where
  | none
  | reserving
  | ordered
  | polling (next : Nat)
  | paging (page : Nat)
  | waiting (finish : Nat)
  deriving DecidableEq, Repr

structure Cycle where
  state : CycleState
  kind : Option CycleKind
  steps : List ServiceStep
  stepReached : Nat
  current : ServiceStep
  mask : BitVec 8
  phase : StepPhase
  stepDeadline : Option Nat
  reservationDeadline : Option Nat
  granted : Bool
  primeRemaining : Six Nat
  report : List (Nat × Nat)
  pages : Nat
  startTime : Nat
  failure : Option StepOutcome
  deriving DecidableEq, Repr

structure LastCycle where
  kind : CycleKind
  outcome : StepOutcome
  stepReached : Nat
  deriving DecidableEq, Repr

structure ServiceController where
  programs : Vector (Option Program) 8
  counters : Vector Counters 8
  firingPeriod : Option Nat
  idleStretch : Option Nat
  requests : List Request
  cycle : Cycle
  wakeAsk : Option Nat
  location : Location
  lastCycle : Option LastCycle
  budget : Nat
  nextStep : Nat
  deriving DecidableEq, Repr

/-! ## Feed controller (chapters 7 and 8) -/

structure Sheet where
  id : Nat
  preference : RollPreference
  mediaType : Nat
  length : Nat
  topMargin : Nat
  swathCount : Nat
  swathAdvance : Nat
  cutMode : CutMode
  dryTime : Nat
  estimate : Option (Six Nat)
  state : SheetState
  waitingCause : Option WaitingCause
  assigned : Option RollNo
  done : Nat
  loadStep : Nat
  defect : Bool
  cancel : Bool
  cause : Option FailureCause
  deriving DecidableEq, Repr

structure Roll where
  enabled : Bool
  mediaType : Nat
  width : Nat
  remaining : Nat
  fed : Nat
  out : Bool
  deriving DecidableEq, Repr

/-- The feed order in progress (R130): its deadline, the fed length reported so far, and the time of the next
STATUS poll once polling has begun. -/
structure FeedOrder where
  op : FeedOp
  serial : Nat
  deadline : Nat
  fed : Nat
  pollAt : Option Nat
  deriving DecidableEq, Repr

structure FeedController where
  sheets : List Sheet
  roll1 : Roll
  roll2 : Roll
  feed : FeedState
  threaded : Threaded
  uncutTail : Bool
  positioned : Option Nat
  purpose : Option AdvancePurpose
  dryTimer : Option Nat
  order : Option FeedOrder
  check : Option Nat
  nextOrder : Nat
  deriving DecidableEq, Repr

/-! ## Field link master (chapter 9) -/

/-- The orders of the service station (R146). -/
inductive StationOrder where
  | park
  | wipe
  | prime (mask : BitVec 8) (ul : Nat)
  | check (mask : BitVec 8)
  | cap
  | uncap
  | carriageReturn
  deriving DecidableEq, Repr

/-- One order of the field link (R146, R147). A DEBIT keeps the serial it was placed for (R68); a service or feed
order keeps the model's number of the step or feed order it belongs to (log entry 12). -/
inductive LinkOrder where
  | readTag (k : Channel)
  | debit (k : Channel) (amount serial : Nat)
  | level (k : Channel)
  | transfer (k : Channel) (ul : Nat)
  | stop (k : Channel)
  | pumpStatus (k : Channel)
  | station (o : StationOrder) (step : Nat)
  | stationStatus (step : Nat)
  | checkPage (page step : Nat)
  | feed (op : FeedOp) (serial : Nat)
  | feedStatus (serial : Nat)
  | feedCheck (serial : Nat)
  deriving DecidableEq, Repr

/-- FREE, CARRYING an entry whose frame began at a time, or (only inside the event that ends a frame, log entry 8)
ENDED: the outcome is being taken and the link is about to become FREE. -/
inductive LinkState where
  | free
  | carrying (o : LinkOrder) (since : Nat)
  | ended
  deriving DecidableEq, Repr

/-- A block's waiting-for-room mark and its declined orders, oldest first (R148). -/
structure Room where
  waiting : Bool
  declined : List LinkOrder
  deriving DecidableEq, Repr

/-- The link master. `frames` is the model's number of the frame on the link, or of the last one (log entry 12). -/
structure LinkMaster where
  queue : List LinkOrder
  link : LinkState
  frames : Nat
  feedRoom : Room
  serviceRoom : Room
  inkRoom : Room
  deriving DecidableEq, Repr

/-- What a bit slot of the field link carries (R141): a bit and who sends it, the acknowledge and who gives it, a mark, or
nothing (a slot clocked to recover the wire, R145). -/
inductive Slot where
  | bit (byUnit one : Bool)
  | acknowledge (byUnit given : Bool)
  | markFalls
  | markRises
  | clocked
  deriving DecidableEq, Repr

/-- What the part does with the two wires: FLCK, which it drives, and whether it pulls FLDA low (R141). -/
structure LineDrive where
  flckHigh : Bool
  pullsFlda : Bool
  deriving DecidableEq, Repr

/-- The marks and bytes of a frame on the two wires (R141 to R145). -/
inductive WireEvent where
  | startMark
  | orderMark
  | sent (b : Byte) (acknowledged : Bool)
  | received (b : Byte) (acknowledged : Bool)
  | recoverySlots (n : Nat)
  | releaseMark
  | releaseByUnit
  deriving DecidableEq, Repr

/-! ## The part -/

/-- What the part drives on its ports and its link (log entry 11). R154 changes no request on its way out, and no rule gives the
form of a request on the M-port or says whether a forwarded one carries its tag: that the two requests here have none is the
model's choice (log entry 54). A response carries the tag of its own request (R152). -/
inductive Emission where
  | memoryWrite (addr : Nat) (bytes : List (Bool × Byte))
  | memoryRead (addr len : Nat)
  | response (port : Port) (tag : Fin 32) (status : ReadStatus) (data : List Byte)
  | frame (events : List WireEvent)
  /-- a frame taken at a time, which RESET cut off at a moment of its own (R151) -/
  | frameCut (o : LinkOrder) (since : Nat)
  deriving DecidableEq, Repr

/-- The tests that the event being taken has called for (log entry 7); none between events. -/
structure Due where
  arming : Bool
  prime : Bool
  admission : Bool
  deriving DecidableEq, Repr

/-- The whole part: its nine blocks, the RESET pin, and the model's own `sent` and `due`. -/
structure Chip where
  inReset : Bool
  psw : PortSwitch
  cmi : Intake
  sgt : Gate
  ink : Six InkChannel
  nmn : NozzleMonitor
  svc : ServiceController
  fdc : FeedController
  flm : LinkMaster
  rpw : ReportWriter
  sent : List Emission
  due : Due
  deriving DecidableEq, Repr

/-- The part and the commands that wait for it, first in, first out. -/
structure State where
  chip : Chip
  pending : List Instr
  deriving DecidableEq, Repr

/-! ## Why a step can stop -/

/-- No step of this block stops with a fault: every event of the spec, failures included, has its effect on the
state. Raised by nobody. -/
inductive Fault where
  deriving DecidableEq, Repr

inductive Refusal where
  /-- A command that has no meaning in the model yet. Raised by nobody: every arm of `exec` has its meaning.
  A refusal is safe: no claim about a next state follows from it. -/
  | notModelled (mnemonic : String)
  deriving DecidableEq, Repr

/-! ## The values after RESET -/

def Account.reset : Account :=
  { inkType := 0, dropVolume := 0, tankCapacity := 0, floor := 0, refillMark := 0, lowMark := 0, level := 0,
    levelState := .unknown, levelReading := .idle, reserved := 0, holder := .none, remainder := 0,
    refillState := .idle, transferRequested := 0, shortfall := false }

def Cartridge.reset : Cartridge :=
  { state := .noCartridge, serial := 0, inkType := 0, capacity := 0, remaining := 0, pollFault := false }

def Refill.reset : Refill :=
  { source := 0, pumpDeadline := none, moved := 0, stopCause := .none, stopDeadline := none, pollAt := none }

def InkChannel.reset : InkChannel :=
  { account := .reset, cartridge := .reset, owed := none, refill := .reset, pollTimer := none }

def Counters.reset (now : Nat) : Counters :=
  { sheets := 0, firing := 0, additions := 0, idleMark := now, idleFired := false }

/-- The RETURN step, which a recovery and a wake sequence run (R107, R108). -/
def ServiceStep.carriageReturn : ServiceStep := { kind := .carriageReturn, mask := 0#8, parameter := 0 }

/-- A cycle in state NONE. -/
def Cycle.idle : Cycle :=
  { state := .none, kind := none, steps := [], stepReached := 0, current := .carriageReturn, mask := 0#8,
    phase := .none, stepDeadline := none, reservationDeadline := none, granted := false,
    primeRemaining := .all 0, report := [], pages := 0, startTime := 0, failure := none }

def Roll.reset : Roll :=
  { enabled := false, mediaType := 0, width := 0, remaining := 0, fed := 0, out := true }

def Room.reset : Room := { waiting := false, declined := [] }

def Due.nothing : Due := { arming := false, prime := false, admission := false }

/-- The part right after RESET release with its straps at the value given (R154, R159, R163 and the reset columns of
R18, R42, R59, R67, R69, R76, R77, R80, R82, R89, R93, R110, R126, R129, R151, R153, R156, R167 to R171). -/
def Chip.reset (straps : BitVec 3) : Chip :=
  { inReset := false
    psw :=
      { straps := straps, swath := none, cCredits := Config.portCredits, hCredits := Config.portCredits,
        cQueue := [], hQueue := [], writer := none, cInFlight := [], hInFlight := [], outstanding := [],
        headRun := 0, preference := .cPort, cForwarded := 0, nextRead := 0 }
    cmi :=
      { shadows := Vector.replicate 16 (Vector.replicate 64 0#8), slots := Vector.replicate 16 .idle,
        nextSlot := 0, partState := .unconfigured }
    sgt :=
      { buffers := [], swaths := [], spitColumns := 0, holdLimit := 0, holdQueue := [], holdTimer := none,
        claim := .free, notes := [], wakeAskedFor := none, nextSwathId := 0 }
    ink := .all .reset
    nmn :=
      { idle := .all (Vector.replicate 64 0), spit := .all ⟨0, 0⟩, keptAside := .all none, outList := [],
        held := false, pending := [], overflow := false }
    svc :=
      { programs := Vector.replicate 8 none, counters := Vector.replicate 8 (.reset 0), firingPeriod := none,
        idleStretch := none, requests := [], cycle := .idle, wakeAsk := none, location := .stranded,
        lastCycle := none, budget := 0, nextStep := 0 }
    fdc :=
      { sheets := [], roll1 := .reset, roll2 := .reset, feed := .idle, threaded := .unknown, uncutTail := true,
        positioned := none, purpose := none, dryTimer := none, order := none, check := none, nextOrder := 0 }
    flm := { queue := [], link := .free, frames := 0, feedRoom := .reset, serviceRoom := .reset, inkRoom := .reset }
    rpw :=
      { timeBase := 0, statusSet := [0, 1, 2, 3, 4, 5, 6, 7, 8, 9, 10, 11, 12],
        updateCounts := Vector.replicate 13 0, ordered := [], replyReserved := false, capacity := 64,
        writeIndex := 0#32, readIndex := 0#32, overflow := false, dropped := 0, firstDrop := 0 }
    sent := []
    due := .nothing }

/-- The machine right after RESET release, with the straps at 0 (log entry 4) and no command waiting. -/
def State.reset : State := { chip := .reset 0#3, pending := [] }

end Sys2Proof.Machine
end

