-- ==== Sys2Proof/Machine/Ops.lean ====
section
/-! DEFINITION. Updates of one block at a time, saturating counts, the journal, and the other operations every block uses. -/

namespace Sys2Proof.Machine

/-- The time base (R167). -/
def Chip.now (x : Chip) : Nat := x.rpw.timeBase

/-! ## One block at a time -/

def Chip.onPsw (x : Chip) (f : PortSwitch → PortSwitch) : Chip := { x with psw := f x.psw }
def Chip.onCmi (x : Chip) (f : Intake → Intake) : Chip := { x with cmi := f x.cmi }
def Chip.onSgt (x : Chip) (f : Gate → Gate) : Chip := { x with sgt := f x.sgt }
def Chip.onNmn (x : Chip) (f : NozzleMonitor → NozzleMonitor) : Chip := { x with nmn := f x.nmn }
def Chip.onSvc (x : Chip) (f : ServiceController → ServiceController) : Chip := { x with svc := f x.svc }
def Chip.onFdc (x : Chip) (f : FeedController → FeedController) : Chip := { x with fdc := f x.fdc }
def Chip.onFlm (x : Chip) (f : LinkMaster → LinkMaster) : Chip := { x with flm := f x.flm }
def Chip.onRpw (x : Chip) (f : ReportWriter → ReportWriter) : Chip := { x with rpw := f x.rpw }
def Chip.onCycle (x : Chip) (f : Cycle → Cycle) : Chip := x.onSvc fun v => { v with cycle := f v.cycle }
def Chip.onInk (x : Chip) (k : Channel) (f : InkChannel → InkChannel) : Chip :=
  { x with ink := x.ink.set k (f (x.ink.get k)) }
def Chip.onAccount (x : Chip) (k : Channel) (f : Account → Account) : Chip :=
  x.onInk k fun i => { i with account := f i.account }
def Chip.onCartridge (x : Chip) (k : Channel) (f : Cartridge → Cartridge) : Chip :=
  x.onInk k fun i => { i with cartridge := f i.cartridge }
def Chip.onRefill (x : Chip) (k : Channel) (f : Refill → Refill) : Chip :=
  x.onInk k fun i => { i with refill := f i.refill }

/-- The account of a channel (R42). -/
def Chip.account (x : Chip) (k : Channel) : Account := (x.ink.get k).account
/-- The cartridge record of a channel (R59). -/
def Chip.cartridge (x : Chip) (k : Channel) : Cartridge := (x.ink.get k).cartridge
/-- The refill fields of a channel (R69). -/
def Chip.refill (x : Chip) (k : Channel) : Refill := (x.ink.get k).refill
/-- The owed-debit record of a channel (R67). -/
def Chip.owed (x : Chip) (k : Channel) : Option Owed := (x.ink.get k).owed

/-- Adds to what the part has driven outward (log entry 11). -/
def Chip.emit (x : Chip) (e : Emission) : Chip := { x with sent := x.sent ++ [e] }

/-! ## Tests an event calls for (log entry 7) -/

/-- The gate is to run its arming test before the event ends (R19). -/
def Chip.callArming (x : Chip) : Chip := { x with due := { x.due with arming := true } }
/-- The feed controller is to run the admission test before the event ends (R113). -/
def Chip.callAdmission (x : Chip) : Chip := { x with due := { x.due with admission := true } }
/-- The notice of R53 that a channel's level or reserved amount changed: to the gate and the service controller. -/
def Chip.noticeInk (x : Chip) : Chip := { x with due := { x.due with arming := true, prime := true } }

/-! ## Counts -/

/-- Sum of an unsigned 32-bit count that saturates (R6, R10). -/
def addCount (a b : Nat) : Nat := min (a + b) Config.countMax

/-- Sum of two six-channel counts, each saturating. -/
def addSix (a b : Six Nat) : Six Nat := .of fun k => addCount (a.get k) (b.get k)

/-- The number of set bits of a byte, its fire marks (R3). -/
def popCount (b : Byte) : Nat :=
  (List.range 8).foldl (fun n i => n + (if b.getLsbD i then 1 else 0)) 0

/-- A division rounded up. -/
def ceilDiv (a b : Nat) : Nat := (a + (b - 1)) / b

/-- The first entry that meets a test, and the list without it. -/
def takeFirst {α : Type} (p : α → Bool) : List α → Option (α × List α)
  | [] => none
  | a :: rest =>
    if p a then some (a, rest)
    else match takeFirst p rest with
      | some (b, rest') => some (b, a :: rest')
      | none => none

/-! ## The journal (R169 to R171) -/

def Forward.isWrite : Forward → Bool
  | .write _ => true
  | .read _ _ _ => false

/-- The fence of a write made now: C-port writes forwarded so far and those accepted and not yet forwarded (R155). -/
def Chip.fence (x : Chip) : Nat := x.psw.cForwarded + (x.psw.cQueue.filter Forward.isWrite).length

def OrderedBody.isJournal : OrderedBody → Bool
  | .journal _ _ => true
  | .reply _ _ => false

/-- Journal records in the ordered list (R170). -/
def ReportWriter.journalsInList (w : ReportWriter) : Nat :=
  (w.ordered.filter fun e => e.body.isJournal).length

/-- The unread span, write index less read index modulo 2^32 (R170). -/
def ReportWriter.unread (w : ReportWriter) : Nat := (w.writeIndex - w.readIndex).toNat

/-- Places of the ordered list taken: its entries, and the place reserved for a reply being made (R161, R169). -/
def ReportWriter.placesTaken (w : ReportWriter) : Nat := w.ordered.length + (if w.replyReserved then 1 else 0)

/-- Whether a journal record can be made: a free place that is not reserved, and room in the journal (R169, R170). -/
def ReportWriter.hasRoom (w : ReportWriter) : Bool :=
  decide (w.placesTaken < Config.orderedPlaces ∧ w.unread + w.journalsInList < w.capacity)

/-- A status record becomes pending, or keeps its place when it already is (R168). -/
def ReportWriter.mark (w : ReportWriter) (n : Fin 13) : ReportWriter :=
  if w.statusSet.contains n then w else { w with statusSet := w.statusSet ++ [n] }

/-- The drop of a record that has no room; the HEADER record becomes pending, whether or not the count still rises
(R171). -/
def ReportWriter.drop (w : ReportWriter) : ReportWriter :=
  { w with overflow := true, dropped := addCount w.dropped 1,
           firstDrop := if w.overflow then w.firstDrop else w.timeBase : ReportWriter }.mark 0

/-- Entry of a journal record in the ordered list, with its fence and the time of its event (R155, R167, R169). -/
def ReportWriter.enter (w : ReportWriter) (r : JournalRecord) (fence : Nat) : ReportWriter :=
  { w with ordered := w.ordered ++ [{ body := .journal r w.timeBase, fence := fence, taken := false }] }

/-- An event asks for a journal record: entered when there is room, else dropped (R169, R171). -/
def Chip.journal (x : Chip) (r : JournalRecord) : Chip :=
  x.onRpw fun w => if w.hasRoom then w.enter r x.fence else w.drop

/-- The JOURNAL OVERFLOW record, made when the flag is set and there is room for it, with the HEADER record's two fields
changed (R168, R171). -/
def Chip.journalOverflow (x : Chip) : Chip :=
  x.onRpw fun w =>
    if w.overflow && w.hasRoom then
      { w.enter (.journalOverflow w.dropped w.firstDrop) x.fence with overflow := false, dropped := 0 : ReportWriter }.mark 0
    else w

/-! ## Pending status records (R168) -/

/-- A status record becomes pending at a change that a rule says is followed by its rewrite (R168, log entry 9). -/
def Chip.markStatus (x : Chip) (n : Fin 13) : Chip := x.onRpw fun w => w.mark n

/-- The status record of a channel, 1 to 6 (12.6). -/
def channelStatus (k : Channel) : Fin 13 := ⟨k.val + 1, by omega⟩

end Sys2Proof.Machine
end

