-- ==== Sys2Proof/Machine/Flags.lean ====
section
/-! DEFINITION. Conditions and figures the part derives from its state: level status, available ink, platen sheet,
next swath, eligibility, ATTN and the windows. -/

namespace Sys2Proof.Machine

/-! ## Channels (R1, R47, R49) -/

/-- A channel is used while its ink type code is not 0 (R1). -/
def Account.used (a : Account) : Bool := a.inkType != 0

def Account.isKnown (a : Account) : Bool := a.levelState == .known

/-- The level status of R47. -/
def Account.levelStatus (a : Account) : LevelStatus :=
  if !a.used then .unused
  else if !a.isKnown then .unknown
  else if a.level ≤ a.floor then .dry
  else if a.level < a.lowMark then .low
  else .ready

/-- The available ink of R49, nL. -/
def Account.available (a : Account) : Nat :=
  if a.used && a.isKnown then a.level - a.floor - a.reserved else 0

/-- The source cartridge of a refill is present (R69). -/
def InkChannel.sourcePresent (i : InkChannel) : Bool :=
  i.cartridge.state != .noCartridge && i.cartridge.serial == i.refill.source

/-! ## Sheets and the platen (R110, R113) -/

/-- The states of a platen sheet (R110). -/
def SheetState.onPlaten : SheetState → Bool
  | .queued => false
  | .waiting => false
  | .loading => true
  | .ready => true
  | .printing => true
  | .drying => true
  | .cutting => true
  | .clearing => true
  | .halted => true

def Chip.platen (x : Chip) : Option Sheet := x.fdc.sheets.find? fun h => h.state.onPlaten
def Chip.sheet (x : Chip) (id : Nat) : Option Sheet := x.fdc.sheets.find? fun h => h.id == id

/-- A sheet's bound list, in index order (R13). -/
def Chip.boundList (x : Chip) (id : Nat) : List Swath := x.sgt.swaths.filter fun r => r.sheet == id

/-- The tail of a sheet, µm (R111, R134). -/
def Sheet.tail (h : Sheet) : Nat := h.length * 1000 - h.topMargin * 1000 - h.swathCount * h.swathAdvance

/-! ## The next swath (R14) -/

def Swath.live (r : Swath) : Bool := r.state != .bound

/-- The swath that is ARMED or FIRING (R19). -/
def Chip.liveSwath (x : Chip) : Option Swath := x.sgt.swaths.find? Swath.live

def Chip.swathById (x : Chip) (id : Nat) : Option Swath := x.sgt.swaths.find? fun r => r.id == id

/-- A platen sheet keeps a next swath in LOADING, READY, PRINTING and HALTED (R14). -/
def Sheet.keepsNext (h : Sheet) : Bool :=
  (h.state == .loading || h.state == .ready || h.state == .printing || h.state == .halted)
    && !h.cancel && decide (h.done < h.swathCount)

/-- The next swath: a sheet and a swath index, or none (R14). -/
def Chip.nextSwath (x : Chip) : Option (Nat × Nat) :=
  match x.liveSwath with
  | some r => some (r.sheet, r.index)
  | none =>
    match x.platen with
    | some h => if h.keepsNext then some (h.id, h.done) else none
    | none =>
      match x.fdc.sheets with
      | h :: _ => some (h.id, 0)
      | [] => none

/-- The next swath record: the record bound to the next swath, if there is one (R14). -/
def Chip.nextRecord (x : Chip) : Option Swath :=
  match x.nextSwath with
  | some (id, index) => x.sgt.swaths.find? fun r => r.sheet == id && r.index == index
  | none => none

/-! ## Eligibility of service requests (R104) -/

/-- The platen sheet is in progress while PRINTING and while a swath is ARMED or FIRING (R104). -/
def Chip.inProgress (x : Chip) : Bool :=
  x.liveSwath.isSome || (match x.platen with
    | some h => h.state == .printing
    | none => false)

def Chip.program (x : Chip) (p : Fin 8) : Option Program := x.svc.programs.get p

/-- Whether an entry of the request list is eligible now (R104). -/
def Chip.eligible (x : Chip) (e : Request) : Bool :=
  if x.inProgress then
    match x.program e.program with
    | some g => g.urgency == .midSheet && decide (g.duration ≤ x.svc.budget)
    | none => false
  else true

def Chip.hasEligible (x : Chip) : Bool := x.svc.requests.any x.eligible

def CycleState.busy : CycleState → Bool
  | .none => false
  | .claiming => false
  | .running => true
  | .recovering => true
  | .abandoning => true

/-- The program of the cycle in progress (R102). -/
def Chip.cycleProgram (x : Chip) : Option (Fin 8) :=
  if x.svc.cycle.state.busy then
    match x.svc.cycle.kind with
    | some (.program p) => some p
    | some .wake => none
    | none => none
  else none

def Chip.listed (x : Chip) (p : Fin 8) : Bool := x.svc.requests.any fun e => e.program == p

/-! ## The link's wires between frames (R141, R151) -/

/-- What the part does with FLCK and FLDA while no frame is on the link, RESET included: FLCK is high and FLDA is not pulled;
within a frame the wires follow its slots (R141, R151). -/
def Chip.lineDrive (x : Chip) : Option LineDrive :=
  match x.flm.link with
  | .free => some { flckHigh := true, pullsFlda := false }
  | .ended => some { flckHigh := true, pullsFlda := false }
  | .carrying _ _ => none

/-- FLDA as the pull-up and the part leave it between frames, while no unit pulls it low (R141). -/
def LineDrive.fldaHigh (d : LineDrive) : Bool := !d.pullsFlda

/-! ## ATTN and the windows (R154, R170) -/

/-- ATTN is high while the write index differs from the read index (R170). -/
def Chip.attn (x : Chip) : Bool := x.rpw.writeIndex != x.rpw.readIndex

/-- The control area base, (CA + 1) × 2 GiB − 64 KiB: the last 64 KiB of the 2 GiB that the straps choose (R154). -/
def PortSwitch.controlBase (p : PortSwitch) : Nat := (p.straps ++ 0x7FFF0000#31).toNat

/-- An address lies in the control area, the 64 KiB from its base on, which is a multiple of 64 KiB (R154). -/
def PortSwitch.inControl (p : PortSwitch) (addr : Nat) : Bool :=
  addr / Config.controlBytes == p.controlBase / Config.controlBytes

/-- The offset of an address of the control area, which begins on a multiple of its 64 KiB (R154). -/
def controlOffset (addr : Nat) : Nat := addr % Config.controlBytes

/-- The bytes of one buffer (R5). -/
def SwathWindow.stride (w : SwathWindow) : Nat := w.capacity * Config.columnBytes

/-- The window an address lies in (R154). -/
def PortSwitch.window (p : PortSwitch) (addr : Nat) : Window :=
  if p.inControl addr then .control
  else match p.swath with
    | some w => if w.base ≤ addr ∧ addr < w.base + w.count * w.stride then .swath else .plain
    | none => .plain

/-- The buffer an address of the swath area falls in, and the offset in it (R5). -/
def PortSwitch.bufferAt (p : PortSwitch) (addr : Nat) : Nat × Nat :=
  match p.swath with
  | some w => ((addr - w.base) / w.stride, (addr - w.base) % w.stride)
  | none => (0, 0)

/-- Configured columns per buffer, 0 while there is no SWATH window. -/
def PortSwitch.capacity (p : PortSwitch) : Nat :=
  match p.swath with
  | some w => w.capacity
  | none => 0

end Sys2Proof.Machine
end

