-- ==== Sys2Proof/Machine/Operands.lean ====
section
/-! DEFINITION. Operand forms: the form of a port request (R152), the head geometry of a byte (R3), the orders of the
field link with their bytes (12.7), and the form of a reply (R144). -/

namespace Sys2Proof.Machine

/-! ## Port requests (R152) -/

/-- A request of this address and length is malformed (R152). -/
def malformed (addr : Addr) (len : Nat) : Bool :=
  addr.toNat % 16 != 0 || len % 16 != 0 || decide (len < 16) || decide (1024 < len)
    || addr.toNat / 1024 != (addr.toNat + len - 1) / 1024

/-! ## Head geometry (R3) -/

/-- The column of a buffer offset. -/
def columnOf (o : Nat) : Nat := o / Config.columnBytes

/-- The channel of a buffer offset. -/
def channelOf (o : Nat) : Channel := ⟨o % Config.columnBytes / Config.sliceBytes, by
  simp only [Config.columnBytes, Config.sliceBytes]; omega⟩

/-- The slice byte of a buffer offset; it carries nozzles 8j to 8j + 7. -/
def sliceByteOf (o : Nat) : Nat := o % Config.sliceBytes

/-- The group of a slice byte, whose eight nozzles all lie in one group of 16 (R2). -/
def groupOf (j : Nat) : Nat := j / 2

/-- The partner of a nozzle (R2). -/
def partner (n : Nat) : Nat := if n % 2 = 0 then n + 1 else n - 1

/-! ## Channel masks -/

/-- The channels of a mask, bit k for channel k (12.4). -/
def inMask (mask : BitVec 8) (k : Channel) : Bool := mask.getLsbD k.val

/-- The mask of the channels that meet a test. -/
def maskOf (p : Channel → Bool) : BitVec 8 :=
  channels.foldl (fun m k => if p k then m ||| (1#8 <<< k.val) else m) 0#8

/-- The lowest channel of a mask, if it has one. -/
def lowestInMask (mask : BitVec 8) : Option Channel := channels.find? (inMask mask)

/-! ## Orders on the field link (R146, R147, 12.7) -/

/-- The block that placed an order. -/
inductive LinkBlock where
  | feed
  | service
  | ink
  deriving DecidableEq, Repr

def LinkOrder.block : LinkOrder → LinkBlock
  | .readTag _ => .ink
  | .debit _ _ _ => .ink
  | .level _ => .ink
  | .transfer _ _ => .ink
  | .stop _ => .ink
  | .pumpStatus _ => .ink
  | .station _ _ => .service
  | .stationStatus _ => .service
  | .checkPage _ _ => .service
  | .feed _ _ => .feed
  | .feedStatus _ => .feed
  | .feedCheck _ => .feed

def LinkOrder.isReadTag : LinkOrder → Bool
  | .readTag _ => true
  | _ => false

/-- The class of an order (R147). -/
def LinkOrder.class (o : LinkOrder) : Nat :=
  match o.block with
  | .feed => 1
  | .service => 2
  | .ink => if o.isReadTag then 4 else 3

/-- The address of a cartridge tag, the pump unit, the service station and the feed unit (R146). -/
def tagAddress (k : Channel) : Nat := 0x10 + k.val
def pumpAddress : Nat := 0x20
def stationAddress : Nat := 0x24
def feedAddress : Nat := 0x28

/-- The select byte of an order (R146). -/
def LinkOrder.unit : LinkOrder → Nat
  | .readTag k => tagAddress k
  | .debit k _ _ => tagAddress k
  | .level _ => pumpAddress
  | .transfer _ _ => pumpAddress
  | .stop _ => pumpAddress
  | .pumpStatus _ => pumpAddress
  | .station _ _ => stationAddress
  | .stationStatus _ => stationAddress
  | .checkPage _ _ => stationAddress
  | .feed _ _ => feedAddress
  | .feedStatus _ => feedAddress
  | .feedCheck _ => feedAddress

def StationOrder.code : StationOrder → Nat
  | .park => 0x21
  | .wipe => 0x22
  | .prime _ _ => 0x23
  | .check _ => 0x24
  | .cap => 0x25
  | .uncap => 0x26
  | .carriageReturn => 0x27

def FeedOp.code : FeedOp → Nat
  | .selectRoll _ => 0x31
  | .rewind => 0x32
  | .thread => 0x33
  | .align => 0x34
  | .advance _ => 0x35
  | .cut => 0x36

/-- The order byte (12.7). -/
def LinkOrder.code : LinkOrder → Nat
  | .readTag _ => 0x01
  | .debit _ _ _ => 0x02
  | .level _ => 0x11
  | .transfer _ _ => 0x12
  | .stop _ => 0x13
  | .pumpStatus _ => 0x14
  | .station o _ => o.code
  | .stationStatus _ => 0x28
  | .checkPage _ _ => 0x29
  | .feed op _ => op.code
  | .feedStatus _ => 0x37
  | .feedCheck _ => 0x37

/-- Bytes of a number on the field link, most significant first; a number too large saturates (R172). -/
def linkBytes (width v : Nat) : List Byte :=
  let n := min v (256 ^ width - 1)
  (List.range width).map fun i => BitVec.ofNat 8 (n / 256 ^ (width - 1 - i))

/-- The number that bytes of the field link give, most significant first (R172). -/
def linkValue (bs : List Byte) : Nat := bs.foldl (fun n b => n * 256 + b.toNat) 0

def RollNo.number : RollNo → Nat
  | .one => 1
  | .two => 2

/-- The write data of an order (12.7). -/
def LinkOrder.writeData : LinkOrder → List Byte
  | .readTag _ => []
  | .debit _ amount _ => linkBytes 4 amount
  | .level k => linkBytes 1 k.val
  | .transfer k ul => linkBytes 1 k.val ++ linkBytes 4 ul
  | .stop k => linkBytes 1 k.val
  | .pumpStatus k => linkBytes 1 k.val
  | .station o _ =>
    match o with
    | .prime mask ul => [mask] ++ linkBytes 2 ul
    | .check mask => [mask]
    | .park => []
    | .wipe => []
    | .cap => []
    | .uncap => []
    | .carriageReturn => []
  | .stationStatus _ => []
  | .checkPage page _ => linkBytes 1 page
  | .feed op _ =>
    match op with
    | .selectRoll r => linkBytes 1 r.number
    | .advance um => linkBytes 4 um
    | .rewind => []
    | .thread => []
    | .align => []
    | .cut => []
  | .feedStatus _ => []
  | .feedCheck _ => []

/-! ## Replies (R144, 12.7) -/

inductive PumpState where
  | idle
  | running
  | done
  | fault
  deriving DecidableEq, Repr

inductive UnitState where
  | busy
  | done
  | fault
  deriving DecidableEq, Repr

/-- The content of a reply of the right form, as values (R146). -/
inductive Reply where
  | none
  | tag (inkType serial capacity remaining : Nat)
  | remaining (ul : Nat)
  | sensed (ul : Nat)
  | pump (state : PumpState) (code moved : Nat)
  | station (state : UnitState) (code : Nat)
  | page (more : Bool) (entries : List (Nat × Nat))
  | feed (state : UnitState) (code fed : Nat)
  deriving DecidableEq, Repr

/-- The outcome of a frame with the content handed back (R145). -/
inductive FrameOutcome where
  | done (r : Reply)
  | absent
  | refused
  | busyTimeout
  | checkError
  deriving DecidableEq, Repr

def FrameOutcome.kind : FrameOutcome → LinkOutcome
  | .done _ => .done
  | .absent => .absent
  | .refused => .refused
  | .busyTimeout => .busyTimeout
  | .checkError => .checkError

/-- Whether an order has a reply (12.7). -/
def LinkOrder.hasReply : LinkOrder → Bool
  | .readTag _ => true
  | .debit _ _ _ => true
  | .level _ => true
  | .transfer _ _ => false
  | .stop _ => false
  | .pumpStatus _ => true
  | .station _ _ => false
  | .stationStatus _ => true
  | .checkPage _ _ => true
  | .feed _ _ => false
  | .feedStatus _ => true
  | .feedCheck _ => true

/-- Whether a length byte lies within what R146 gives for the order (12.7). -/
def LinkOrder.lengthOk (o : LinkOrder) (n : Nat) : Bool :=
  match o with
  | .readTag _ => n == 13
  | .debit _ _ _ => n == 4
  | .level _ => n == 4
  | .pumpStatus _ => n == 6
  | .stationStatus _ => n == 2
  | .checkPage _ _ => decide (2 ≤ n ∧ n ≤ 26 ∧ (n - 2) % 3 = 0)
  | .feedStatus _ => n == 6
  | .feedCheck _ => n == 6
  | .transfer _ _ => false
  | .stop _ => false
  | .station _ _ => false
  | .feed _ _ => false

/-- Byte `i` of what the unit drives; a slot no unit drives reads high (R141, log entry 15). -/
def replyByte (bs : List Byte) (i : Nat) : Byte := bs.getD i 0xFF#8

/-- So many bytes of a reply from byte `i` on. -/
def replySlice (bs : List Byte) (i n : Nat) : List Byte := (List.range n).map fun j => replyByte bs (i + j)

/-- The check sum of all reply bytes, check byte included, is 255 modulo 256 (R144). -/
def checkSumOk (bs : List Byte) (len : Nat) : Bool :=
  ((replySlice bs 0 (len + 2)).foldl (fun n b => n + b.toNat) 0) % 256 == 255

def PumpState.ofCode : Nat → Option PumpState
  | 0 => some .idle
  | 1 => some .running
  | 2 => some .done
  | 3 => some .fault
  | _ => none

def UnitState.ofCode : Nat → Option UnitState
  | 0 => some .busy
  | 1 => some .done
  | 2 => some .fault
  | _ => none

/-- Entry `i` of a CHECK PAGE reply: a channel and a nozzle (12.7). -/
def pageEntry (bs : List Byte) (i : Nat) : Nat × Nat :=
  ((replyByte bs (3 + 3 * i)).toNat, linkValue (replySlice bs (4 + 3 * i) 2))

/-- The values of a reply whose length byte and check byte hold, or none where a coded field has an undefined value
(R144, 12.7). Byte 0 is the length byte. -/
def LinkOrder.replyContent (o : LinkOrder) (bs : List Byte) : Option Reply :=
  let num := fun i n => linkValue (replySlice bs i n)
  match o with
  | .readTag _ => some (.tag (num 1 1) (num 2 4) (num 6 4) (num 10 4))
  | .debit _ _ _ => some (.remaining (num 1 4))
  | .level _ => some (.sensed (num 1 4))
  | .pumpStatus _ => (PumpState.ofCode (num 1 1)).map fun st => .pump st (num 2 1) (num 3 4)
  | .stationStatus _ => (UnitState.ofCode (num 1 1)).map fun st => .station st (num 2 1)
  | .checkPage _ _ =>
    let n := (num 0 1 - 2) / 3
    if num 1 1 ≤ 1 ∧ num 2 1 = n then some (.page (num 1 1 == 1) ((List.range n).map (pageEntry bs))) else none
  | .feedStatus _ => (UnitState.ofCode (num 1 1)).map fun st => .feed st (num 2 1) (num 3 4)
  | .feedCheck _ => (UnitState.ofCode (num 1 1)).map fun st => .feed st (num 2 1) (num 3 4)
  | .transfer _ _ => none
  | .stop _ => none
  | .station _ _ => none
  | .feed _ _ => none

/-- The outcome of a reply: DONE with its content, or CHECK ERROR where its form fails (R144). -/
def LinkOrder.readReply (o : LinkOrder) (bs : List Byte) : FrameOutcome :=
  if !o.hasReply then .done .none
  else
    let len := (replyByte bs 0).toNat
    if o.lengthOk len && checkSumOk bs len then
      match o.replyContent bs with
      | some r => .done r
      | none => .checkError
    else .checkError

/-- The outcome of an exchange (R142, R144, R145). A missing acknowledge past the last write data byte cannot be. -/
def LinkOrder.outcome (o : LinkOrder) : Exchange → FrameOutcome
  | .selectNak => .absent
  | .orderNak => .refused
  | .dataNak n => if n < o.writeData.length then .refused else o.readReply []
  | .answered reply => o.readReply reply

/-! ## The frame on the wires (R141 to R145) -/

/-- The bits of a byte in the order of its eight slots, most significant first (R141). -/
def byteBits (b : Byte) : List Bool :=
  [b.getLsbD 7, b.getLsbD 6, b.getLsbD 5, b.getLsbD 4, b.getLsbD 3, b.getLsbD 2, b.getLsbD 1, b.getLsbD 0]

/-- A byte and its acknowledge slot, which the receiver gives (R141). -/
def byteSlots (byUnit : Bool) (b : Byte) (acknowledged : Bool) : List Slot :=
  (byteBits b).map (Slot.bit byUnit) ++ [.acknowledge (!byUnit) acknowledged]

/-- The bit slots of a mark or byte (R141, R145). -/
def WireEvent.slots : WireEvent → List Slot
  | .startMark => [.markFalls]
  | .orderMark => [.markFalls]
  | .sent b acknowledged => byteSlots false b acknowledged
  | .received b acknowledged => byteSlots true b acknowledged
  | .recoverySlots n => List.replicate n .clocked
  | .releaseMark => [.markRises]
  | .releaseByUnit => [.markRises]

/-- The level of FLDA while FLCK is high in a slot, where the rules give one; at a mark it is the level after the change
(R141). -/
def Slot.flda : Slot → Option Bool
  | .bit _ one => some one
  | .acknowledge _ given => some (!given)
  | .markFalls => some false
  | .markRises => some true
  | .clocked => none

/-- The bit slots of a frame (R141). -/
def frameSlots (events : List WireEvent) : List Slot := events.flatMap WireEvent.slots

/-- The release mark, with the further slots the part clocks while a unit keeps FLDA low, at most nine (R145). The model's
choice (log entry 48): the first try at the mark is no slot of its own, and the further slot that finds FLDA high is the slot of
the mark; so a unit that keeps FLDA low through `n` further slots, fewer than nine, gives `n` clocked slots and the mark. A unit
that keeps it low through all nine makes the mark itself, when it lets FLDA go (R145). -/
def releaseEvents (lowSlots : Nat) : List WireEvent :=
  if lowSlots = 0 then [.releaseMark]
  else if lowSlots < 9 then [.recoverySlots lowSlots, .releaseMark]
  else [.recoverySlots 9, .releaseByUnit]

/-- The bytes of a reply as the part clocks them in: only the length byte, not acknowledged, where it is at fault,
else all of them, each acknowledged (R144). -/
def LinkOrder.replyEvents (o : LinkOrder) (bs : List Byte) : List WireEvent :=
  if !o.hasReply then []
  else
    let len := (replyByte bs 0).toNat
    if o.lengthOk len then (replySlice bs 0 (len + 2)).map fun b => .received b true
    else [.received (replyByte bs 0) false]

/-- The start mark, the select byte, the order mark and the order byte, both acknowledged (R142). -/
def LinkOrder.opening (o : LinkOrder) : List WireEvent :=
  [.startMark, .sent (BitVec.ofNat 8 o.unit) true, .orderMark, .sent (BitVec.ofNat 8 o.code) true]

/-- The write data bytes, the first `n` acknowledged; the next, if there is one, is not, and no more are sent (R144). -/
def LinkOrder.dataEvents (o : LinkOrder) (n : Nat) : List WireEvent :=
  (o.writeData.take n).map (fun b => .sent b true) ++ ((o.writeData.drop n).take 1).map (fun b => .sent b false)

/-- The marks and bytes of a frame that passed the line check (R142 to R145). -/
def LinkOrder.wire (o : LinkOrder) (f : FrameEnd) : List WireEvent :=
  (match f.exchange with
    | .selectNak => [.startMark, .sent (BitVec.ofNat 8 o.unit) false]
    | .orderNak =>
      [.startMark, .sent (BitVec.ofNat 8 o.unit) true, .orderMark, .sent (BitVec.ofNat 8 o.code) false]
    | .dataNak n =>
      o.opening ++ o.dataEvents n ++ (if n < o.writeData.length then [] else o.replyEvents [])
    | .answered reply => o.opening ++ o.dataEvents o.writeData.length ++ o.replyEvents reply)
  ++ releaseEvents f.lowSlots

end Sys2Proof.Machine
end

