-- ==== Sys2Proof/Machine/Formats.lean ====
section
/-! DEFINITION. The byte layouts of chapter 12: coding of values (R172), journal records (12.5), status records (12.6), replies. -/

namespace Sys2Proof.Machine

/-! ## Coding of values (R172) -/

/-- Bytes of a number in memory, least significant first; a number too large saturates (R172). -/
def leBytes (width v : Nat) : List Byte :=
  let n := min v (256 ^ width - 1)
  (List.range width).map fun i => BitVec.ofNat 8 (n / 256 ^ i)

/-- A one-byte field. -/
def byte1 (v : Nat) : List Byte := leBytes 1 v

def flagCode (b : Bool) : Nat := if b then 1 else 0

/-- Absent or none in a one-byte and in a two-byte field (R172). -/
def noneByte : Nat := 0xFF
def noneWord : Nat := 0xFFFF

/-- A field that may be absent. -/
def optCode (absent : Nat) : Option Nat → Nat
  | some v => v
  | none => absent

/-- A field list filled with zero bytes to its full size (R172: bytes that a layout does not name are 0). -/
def padTo (n : Nat) (bs : List Byte) : List Byte := bs ++ zeros (n - bs.length)

def LevelState.code : LevelState → Nat
  | .known => 0
  | .unknown => 1

def LevelReading.code : LevelReading → Nat
  | .idle => 0
  | .pending => 1

def Holder.code : Holder → Nat
  | .none => 0
  | .swath => 1
  | .prime => 2

def RefillState.code : RefillState → Nat
  | .idle => 0
  | .queued => 1
  | .pumping => 2
  | .stopping => 3
  | .debiting => 4

def LevelStatus.code : LevelStatus → Nat
  | .unused => 0
  | .unknown => 1
  | .dry => 2
  | .low => 3
  | .ready => 4

def CartridgeState.code : CartridgeState → Nat
  | .noCartridge => 0
  | .reading => 1
  | .active => 2
  | .wrongInk => 3
  | .spent => 4

def StopCause.code : StopCause → Nat
  | .none => 0
  | .removed => 1
  | .timeout => 2

def LinkOutcome.code : LinkOutcome → Nat
  | .done => 0
  | .absent => 1
  | .refused => 2
  | .busyTimeout => 3
  | .checkError => 4

def Threaded.code : Threaded → Nat
  | .none => 0
  | .roll r => r.number
  | .unknown => 3

def RollPreference.code : RollPreference → Nat
  | .roll1 => 0
  | .roll2 => 1
  | .either => 2

def SheetState.code : SheetState → Nat
  | .queued => 0
  | .waiting => 1
  | .loading => 2
  | .ready => 3
  | .printing => 4
  | .drying => 5
  | .cutting => 6
  | .clearing => 7
  | .halted => 8

/-- The waiting cause in its place of R110's list "absent, MEDIA or INK" (log entry 17). -/
def WaitingCause.code : WaitingCause → Nat
  | .media => 1
  | .ink => 2

/-- A failure cause (R172): 1 SPOILED, 2 MEDIA OUT, 3 to 8 the halt causes in the order of R138. -/
def FailureCause.code : FailureCause → Nat
  | .spoiled => 1
  | .mediaOut => 2
  | .jam => 3
  | .skew => 4
  | .feedFault _ => 5
  | .rollEnd => 6
  | .link _ => 7
  | .timeout _ => 8

/-- The code that goes with a halt cause: the fault code, the link outcome or the order (R138); none for the others. -/
def FailureCause.haltCode : FailureCause → Nat
  | .feedFault code => code
  | .link o => o.code
  | .timeout op => op.code
  | .spoiled => noneByte
  | .mediaOut => noneByte
  | .jam => noneByte
  | .skew => noneByte
  | .rollEnd => noneByte

def causeCode : Option FailureCause → Nat
  | some c => c.code
  | none => 0

def SheetOutcome.code : SheetOutcome → Nat
  | .printed => 0
  | .defective => 1
  | .cancelled => 2
  | .spoiled => 3
  | .mediaOut => 4
  | .jammed => 5

def FeedState.code : FeedState → Nat
  | .idle => 0
  | .loading => 1
  | .positioned => 2
  | .advancing => 3
  | .drying => 4
  | .cutting => 5
  | .clearing => 6
  | .halted => 7

def Origin.code : Origin → Nat
  | .check => 0
  | .command => 1

def Coverage.code : Coverage → Nat
  | .substituted => 0
  | .uncovered => 1

def StepKind.code : StepKind → Nat
  | .park => 0
  | .wipe => 1
  | .prime => 2
  | .check => 3
  | .cap => 4
  | .uncap => 5
  | .wait => 6
  | .carriageReturn => 7

def Location.code : Location → Nat
  | .printSide => 0
  | .station => 1
  | .capped => 2
  | .stranded => 3

def CycleKind.code : CycleKind → Nat
  | .program _ => 0
  | .wake => 1

/-- The program of a cycle kind; WAKE has none. -/
def CycleKind.programCode : CycleKind → Nat
  | .program p => p.val
  | .wake => noneByte

def CycleState.code : CycleState → Nat
  | .none => 0
  | .claiming => 1
  | .running => 2
  | .recovering => 3
  | .abandoning => 4

/-- The outcome codes of a SERVICE record (12.5). -/
def StepOutcome.code : StepOutcome → Nat
  | .done => 0
  | .fault _ => 1
  | .link _ => 2
  | .timeout => 3
  | .inkShort => 4
  | .checkOverrun => 5
  | .abandoned => 6

/-- The fault code or link outcome of a step outcome (12.5). -/
def StepOutcome.detail : StepOutcome → Nat
  | .fault code => code
  | .link o => o.code
  | .done => noneByte
  | .timeout => noneByte
  | .inkShort => noneByte
  | .checkOverrun => noneByte
  | .abandoned => noneByte

def Recovery.code : Recovery → Nat
  | .none => 0
  | .returned => 1
  | .stranded => 2

def NozzleReason.code : NozzleReason → Nat
  | .added => 1
  | .origin => 2
  | .removed => 3
  | .pendingDropped => 4
  | .listOverflow => 5
  | .badEntry => 6
  | .mergeRefused => 7

def PartState.code : PartState → Nat
  | .unconfigured => 0
  | .running => 1

def Port.code : Port → Nat
  | .cPort => 0
  | .hPort => 1

/-! ## Journal records (12.5) -/

/-- Kind, reason, subject and fields of a journal record (12.5). -/
structure JournalLayout where
  kind : Nat
  reason : Nat
  subject : Nat
  fields : List Byte
  deriving DecidableEq, Repr

def NozzleRecord.fields (r : NozzleRecord) : List Byte :=
  leBytes 2 (optCode noneWord r.nozzle)
    ++ byte1 (optCode noneByte (r.origin.map Origin.code))
    ++ byte1 (optCode noneByte (r.coverage.map Coverage.code))
    ++ byte1 (optCode noneByte (r.partnerCoverage.map Coverage.code))
    ++ byte1 r.entries ++ byte1 (optCode noneByte r.mask) ++ leBytes 2 (optCode noneWord r.count)
    ++ byte1 (optCode noneByte (r.lowest.map Prod.fst)) ++ leBytes 2 (optCode noneWord (r.lowest.map Prod.snd))
    ++ leBytes 8 (optCode (Config.unstatedTime r.reason.code) r.timeAdded)

/-- The layout of a journal record (12.5). The kinds SWATH WITHHELD, LATE WRITE and JOURNAL OVERFLOW, for which 12.5 gives no
reason, have 0 in the reason byte (the model's choice, log entry 46). -/
def JournalRecord.layout : JournalRecord → JournalLayout
  | .sheetWaitingMedia sheet preference remaining1 remaining2 =>
    ⟨1, 1, sheet, byte1 WaitingCause.media.code ++ byte1 preference.code ++ leBytes 4 remaining1 ++ leBytes 4 remaining2⟩
  | .sheetWaitingInk sheet channel estimate found =>
    ⟨1, 1, sheet, byte1 WaitingCause.ink.code ++ byte1 channel ++ leBytes 4 estimate ++ leBytes 4 found⟩
  | .sheetRemoved sheet outcome left done count assigned defect cancel cause =>
    ⟨1, 2, sheet, byte1 outcome.code ++ byte1 left.code ++ leBytes 2 done ++ leBytes 2 count
      ++ byte1 (optCode noneByte (assigned.map RollNo.number)) ++ byte1 (flagCode defect)
      ++ byte1 (flagCode cancel) ++ byte1 (causeCode cause)⟩
  | .sheetRollEnd sheet roll op =>
    ⟨1, 3, sheet, byte1 (optCode noneByte (roll.map RollNo.number)) ++ byte1 op.code⟩
  | .sheetHalted sheet feed op cause loadStep done =>
    ⟨1, 4, sheet, byte1 feed.code ++ byte1 op.code ++ byte1 cause.code ++ byte1 cause.haltCode ++ byte1 loadStep
      ++ leBytes 2 done⟩
  | .sheetClearFailed sheet code => ⟨1, 5, sheet, byte1 code⟩
  | .swathDone sheet index delivered lost injected faulted late =>
    ⟨2, min faulted 255, sheet, leBytes 2 index ++ (delivered.toList.flatMap fun n => leBytes 2 (ceilDiv n 1024))
      ++ leBytes 2 lost ++ leBytes 2 injected ++ leBytes 2 late⟩
  | .swathWithheld sheet index reads limit => ⟨3, 0, sheet, leBytes 2 index ++ byte1 reads ++ leBytes 2 limit⟩
  | .swathOrder buffer notNext addr next =>
    ⟨4, if notNext then 2 else 1, buffer, leBytes 8 addr ++ leBytes 2 (optCode noneWord (next.map Prod.fst))
      ++ leBytes 2 (optCode noneWord (next.map Prod.snd))⟩
  | .lateWrite sheet index buffer addr => ⟨5, 0, sheet, leBytes 2 index ++ byte1 buffer ++ leBytes 8 addr⟩
  | .inkLevelStatus k old new level => ⟨6, 1, k.val, byte1 old.code ++ byte1 new.code ++ leBytes 4 level⟩
  | .inkShortfall k notTaken => ⟨6, 2, k.val, leBytes 4 notTaken⟩
  | .inkCartridge k old new inkType serial remaining =>
    ⟨6, 4, k.val, byte1 old.code ++ byte1 new.code ++ byte1 inkType ++ leBytes 4 serial ++ leBytes 4 remaining⟩
  | .inkUnposted k serial amount => ⟨6, 5, k.val, leBytes 4 serial ++ leBytes 4 amount⟩
  | .inkPumpFault k code moved => ⟨6, 6, k.val, byte1 code ++ leBytes 4 moved⟩
  | .inkPumpIdle k code moved => ⟨6, 7, k.val, byte1 code ++ leBytes 4 moved⟩
  | .inkPumpTimeout k requested moved => ⟨6, 8, k.val, leBytes 4 requested ++ leBytes 4 moved⟩
  | .inkStopLost k moved => ⟨6, 9, k.val, leBytes 4 moved⟩
  | .nozzle r => ⟨7, r.reason.code, r.channel, r.fields⟩
  | .service kind outcome stepReached step recovery location duration =>
    ⟨8, outcome.code, kind.programCode, byte1 stepReached ++ byte1 step.code ++ byte1 outcome.detail
      ++ byte1 recovery.code ++ byte1 location.code ++ leBytes 4 duration⟩
  | .fieldFault unit order outcome k amount =>
    ⟨9, outcome.code, unit, byte1 order ++ byte1 k.val ++ leBytes 4 (optCode (Config.unstatedAmount order) amount)⟩
  | .memoryFault port malformed isWrite tag len addr =>
    ⟨10, if malformed then 2 else 1, port.code, byte1 (flagCode isWrite) ++ byte1 tag ++ leBytes 2 len
      ++ leBytes 8 addr⟩
  | .journalOverflow dropped firstDrop => ⟨11, 0, 0, leBytes 4 dropped ++ leBytes 8 firstDrop⟩

/-- The 32 bytes of a journal record with its time (12.5). -/
def JournalRecord.bytes (r : JournalRecord) (time : Nat) : List Byte :=
  let l := r.layout
  byte1 l.kind ++ byte1 l.reason ++ leBytes 2 l.subject ++ leBytes 8 time ++ padTo 20 l.fields

/-! ## Status records (12.6) -/

def headerFields (x : Chip) : List Byte :=
  byte1 x.cmi.partState.code ++ byte1 (flagCode x.rpw.overflow) ++ leBytes 2 x.rpw.capacity
    ++ leBytes 4 x.rpw.writeIndex.toNat ++ leBytes 4 x.rpw.readIndex.toNat ++ leBytes 4 x.rpw.dropped

def channelFields (x : Chip) (k : Channel) : List Byte :=
  let a := x.account k
  let c := x.cartridge k
  let f := x.refill k
  let spit := x.nmn.spit.get k
  byte1 a.inkType ++ byte1 a.levelState.code ++ byte1 a.levelStatus.code ++ byte1 a.holder.code
    ++ byte1 a.refillState.code ++ byte1 (flagCode a.shortfall) ++ byte1 a.dropVolume ++ byte1 spit.spitCount
    ++ leBytes 2 spit.idleLimit ++ byte1 a.levelReading.code ++ zeros 1
    ++ leBytes 4 a.level ++ leBytes 4 a.reserved ++ leBytes 4 a.available ++ leBytes 4 a.tankCapacity
    ++ leBytes 4 a.floor ++ leBytes 4 a.refillMark ++ leBytes 4 a.lowMark ++ leBytes 4 a.transferRequested
    ++ byte1 c.state.code ++ byte1 c.inkType ++ byte1 (flagCode c.pollFault) ++ byte1 f.stopCause.code
    ++ leBytes 4 c.serial ++ leBytes 4 c.capacity ++ leBytes 4 c.remaining
    ++ leBytes 4 (optCode 0 ((x.owed k).map Owed.serial)) ++ leBytes 4 (optCode 0 ((x.owed k).map Owed.amount))
    ++ leBytes 4 f.source ++ leBytes 4 f.moved ++ leBytes 8 (optCode 0 f.pumpDeadline)
    ++ leBytes 8 (optCode 0 f.stopDeadline) ++ leBytes 2 a.remainder

def FeedController.rollOf (d : FeedController) : RollNo → Roll
  | .one => d.roll1
  | .two => d.roll2

def rollFields (x : Chip) (n : RollNo) : List Byte :=
  let r := x.fdc.rollOf n
  byte1 (flagCode r.enabled) ++ byte1 r.mediaType ++ byte1 (flagCode r.out)
    ++ byte1 (flagCode (x.fdc.threaded == .roll n)) ++ leBytes 2 r.width ++ leBytes 2 r.fed ++ leBytes 4 r.remaining

/-- One of the eight queue entries of the SHEETS record; a place that holds no sheet is coded absent. -/
def sheetEntry : Option Sheet → List Byte
  | some h =>
    leBytes 2 h.id ++ byte1 h.state.code ++ byte1 (optCode noneByte (h.waitingCause.map WaitingCause.code))
  | none => leBytes 2 noneWord ++ byte1 noneByte ++ byte1 noneByte

/-- The platen sheet's fields of the SHEETS record, coded absent where there is no platen sheet. -/
def platenFields (x : Chip) : List Byte :=
  match x.platen with
  | some h =>
    leBytes 2 h.done ++ leBytes 2 h.swathCount ++ byte1 h.loadStep
      ++ byte1 (optCode noneByte (h.assigned.map RollNo.number)) ++ byte1 (flagCode h.defect)
      ++ byte1 (flagCode h.cancel) ++ byte1 (causeCode h.cause)
      ++ byte1 (optCode noneByte (h.cause.map FailureCause.haltCode)) ++ byte1 (x.boundList h.id).length
  | none =>
    leBytes 2 noneWord ++ leBytes 2 noneWord ++ byte1 noneByte ++ byte1 noneByte ++ byte1 noneByte
      ++ byte1 noneByte ++ byte1 (causeCode none) ++ byte1 noneByte ++ byte1 noneByte

def sheetsFields (x : Chip) : List Byte :=
  byte1 x.fdc.sheets.length ++ byte1 x.fdc.feed.code ++ byte1 x.fdc.threaded.code
    ++ byte1 (flagCode x.fdc.uncutTail) ++ leBytes 2 (optCode noneWord x.fdc.positioned)
    ++ byte1 (flagCode x.fdc.dryTimer.isSome) ++ zeros 1 ++ leBytes 8 (optCode 0 x.fdc.dryTimer)
    ++ ((List.range 8).flatMap fun i => sheetEntry x.fdc.sheets[i]?) ++ platenFields x

/-- One buffer's byte of the GATE record (12.6); 0xFF for a buffer that is not configured. -/
def bufferByte (x : Chip) (b : Nat) : Nat :=
  match x.sgt.buffers[b]? with
  | none => noneByte
  | some e =>
    let state := match x.sgt.swaths.find? fun r => r.buffer == b with
      | none => 0
      | some r => match r.state with
        | .bound => 1
        | .armed => 2
        | .firing => 3
    state + (if e.late then 0x80 else 0)

def gateFields (x : Chip) : List Byte :=
  byte1 x.sgt.buffers.length ++ zeros 1 ++ leBytes 2 (optCode noneWord (x.nextSwath.map Prod.fst))
    ++ leBytes 2 (optCode noneWord (x.nextSwath.map Prod.snd)) ++ byte1 (flagCode x.sgt.holdTimer.isSome)
    ++ byte1 x.sgt.holdQueue.length ++ leBytes 8 (optCode 0 x.sgt.holdTimer)
    ++ ((List.range 8).flatMap fun b => byte1 (bufferByte x b))

/-- One of the eight list entries of the SERVICE record; a place that holds no entry is coded absent. -/
def requestEntry (x : Chip) : Option Request → List Byte
  | some e =>
    byte1 e.program.val
      ++ byte1 (flagCode (x.eligible e) + (match e.cause with
        | .command => 2
        | .trigger => 0))
  | none => byte1 noneByte ++ byte1 noneByte

/-- The kind of the step a cycle has reached, absent where it has reached none. -/
def Cycle.reachedKind (c : Cycle) : Option StepKind :=
  if c.stepReached = 0 then none else (c.steps[c.stepReached - 1]?).map ServiceStep.kind

def serviceFields (x : Chip) : List Byte :=
  let c := x.svc.cycle
  byte1 c.state.code ++ byte1 (optCode noneByte (c.kind.map CycleKind.code))
    ++ byte1 (optCode noneByte (c.kind.map CycleKind.programCode)) ++ byte1 c.stepReached
    ++ byte1 (optCode noneByte (c.reachedKind.map StepKind.code)) ++ byte1 x.svc.location.code
    ++ byte1 (flagCode x.svc.wakeAsk.isSome) ++ byte1 x.svc.requests.length
    ++ ((List.range 8).flatMap fun i => requestEntry x x.svc.requests[i]?)
    ++ byte1 (optCode noneByte (x.svc.lastCycle.map fun l => l.kind.code))
    ++ byte1 (optCode noneByte (x.svc.lastCycle.map fun l => l.kind.programCode))
    ++ byte1 (optCode noneByte (x.svc.lastCycle.map fun l => l.outcome.code))
    ++ byte1 (optCode noneByte (x.svc.lastCycle.map LastCycle.stepReached))

def nozzlesFields (x : Chip) : List Byte :=
  leBytes 2 x.nmn.outList.length ++ byte1 (flagCode x.nmn.overflow) ++ byte1 x.nmn.pending.length
    ++ byte1 (flagCode x.nmn.held)

/-- The fields of a status record, from its byte 16 on (12.6). -/
def statusFields (x : Chip) (n : Fin 13) : List Byte :=
  match n.val with
  | 0 => headerFields x
  | 1 => channelFields x 0
  | 2 => channelFields x 1
  | 3 => channelFields x 2
  | 4 => channelFields x 3
  | 5 => channelFields x 4
  | 6 => channelFields x 5
  | 7 => rollFields x .one
  | 8 => rollFields x .two
  | 9 => sheetsFields x
  | 10 => gateFields x
  | 11 => serviceFields x
  | _ => nozzlesFields x

/-- The 128 bytes of a status record with its update count and the time base (12.6, R167, R168). -/
def statusBytes (x : Chip) (n : Fin 13) (count : Nat) : List Byte :=
  padTo 4 (byte1 n.val) ++ leBytes 4 count ++ leBytes 8 x.now ++ padTo 112 (statusFields x n)

/-! ## Command replies (R162) -/

inductive ReplyStatus where
  | done
  | refusedState
  | refusedArg
  | refusedFull
  | unknownKind
  deriving DecidableEq, Repr

def ReplyStatus.code : ReplyStatus → Nat
  | .done => 1
  | .refusedState => 2
  | .refusedArg => 3
  | .refusedFull => 4
  | .unknownKind => 5

/-- The answer to a command: status, detail byte and value (R162, R172). -/
structure Answer where
  status : ReplyStatus
  detail : Nat
  value : Nat
  deriving DecidableEq, Repr

/-- The sixteen bytes of a reply write: slot bytes 48 to 55 of the shadow, the answer, a zero go word (R162). -/
def replyBytes (shadow : List Byte) (a : Answer) : List Byte :=
  (List.range 8).map (fun i => byteAt shadow (48 + i)) ++ byte1 a.status.code ++ byte1 a.detail ++ leBytes 2 a.value
    ++ zeros 4

end Sys2Proof.Machine
end

