-- ==== Sys2Proof/Machine/Arguments.lean ====
section
/-! DEFINITION. The arguments of the ring's commands: coded fields, ranges, and what an accepted command stores (chapter 12.4 and
the checking tables of R44, R95, R111, R127, R164). -/

namespace Sys2Proof.Machine

def Answer.done (detail value : Nat) : Answer := { status := .done, detail := detail, value := value }
def Answer.state (detail : Nat) : Answer := { status := .refusedState, detail := detail, value := 0 }
def Answer.arg (detail value : Nat) : Answer := { status := .refusedArg, detail := detail, value := value }
def Answer.full (detail : Nat) : Answer := { status := .refusedFull, detail := detail, value := 0 }
def Answer.unknown : Answer := { status := .unknownKind, detail := 0, value := 0 }
def Answer.unconfigured : Answer := .state 0xFF

/-- The answer of the first row of a checking table whose condition holds (R172). -/
def firstRow : List (Bool × Answer) → Option Answer
  | [] => none
  | (holds, a) :: rest => if holds then some a else firstRow rest

/-- A value lies outside a range. -/
def outside (lo hi v : Nat) : Bool := decide (v < lo) || decide (hi < v)

def RollNo.ofNumber : Nat → Option RollNo
  | 1 => some .one
  | 2 => some .two
  | _ => none

def RollPreference.ofCode : Nat → Option RollPreference
  | 0 => some .roll1
  | 1 => some .roll2
  | 2 => some .either
  | _ => none

def CutMode.ofCode : Nat → Option CutMode
  | 0 => some .cut
  | 1 => some .keepOn
  | _ => none

def TriggerKind.ofCode : Nat → Option TriggerKind
  | 0 => some .command
  | 1 => some .sheets
  | 2 => some .printTime
  | 3 => some .nozzle
  | 4 => some .idle
  | _ => none

/-- The range of a trigger's parameter (R94). -/
def TriggerKind.parameterOk (t : TriggerKind) (p : Nat) : Bool :=
  match t with
  | .command => p == 0
  | .sheets => !outside 1 255 p
  | .printTime => !outside 1 1440 p
  | .nozzle => !outside 1 96 p
  | .idle => !outside 10 3600 p

def Urgency.ofCode : Nat → Option Urgency
  | 0 => some .midSheet
  | 1 => some .boundary
  | _ => none

def StepKind.ofCode : Nat → Option StepKind
  | 0 => some .park
  | 1 => some .wipe
  | 2 => some .prime
  | 3 => some .check
  | 4 => some .cap
  | 5 => some .uncap
  | 6 => some .wait
  | 7 => some .carriageReturn
  | _ => none

/-- A mask names no channel of 0 to 5. -/
def emptyMask (m : BitVec 8) : Bool := m &&& 0x3F#8 == 0#8

end Sys2Proof.Machine

namespace Sys2Proof

open Machine

/-- The enabled bytes of a write with their offsets from its address (R152). -/
def WriteRequest.enabled (w : WriteRequest) : List (Nat × Byte) :=
  (w.bytes.zipIdx.filter fun e => e.1.1).map fun e => (e.2, e.1.2)

/-- The bytes of the swath area a CONFIGURE asks for (R5). -/
def ConfigureArgs.areaBytes (a : ConfigureArgs) : Nat :=
  a.bufferCount.toNat * (a.capacity.toNat * Config.columnBytes)

/-- The ink type is 1 to 15, so the other arguments are used (R44). -/
def SetChannelArgs.uses (a : SetChannelArgs) : Bool := a.inkType != 0#8

def SetChannelArgs.marksOrdered (a : SetChannelArgs) : Bool :=
  decide (a.floor.toNat < a.lowMark.toNat) && decide (a.lowMark.toNat ≤ a.refillMark.toNat)
    && decide (a.refillMark.toNat < a.tankCapacity.toNat)

def SetChannelArgs.nozzlesOk (a : SetChannelArgs) : Bool :=
  (a.idleLimit == 0#16 || !outside 100 60000 a.idleLimit.toNat) && decide (a.spitCount.toNat ≤ 32)

/-- The checks of R44 past the channel number, in its order. -/
def SetChannelArgs.checks (a : SetChannelArgs) (acc : Account) : List (Bool × Answer) :=
  [(acc.holder != .none, .state 2),
   (acc.refillState != .idle, .state 3),
   (decide (15 < a.inkType.toNat), .arg 4 0),
   (a.uses && outside 2 16 a.dropVolume.toNat, .arg 5 0),
   (a.uses && outside 1000 100000 a.tankCapacity.toNat, .arg 6 0),
   (a.uses && !a.marksOrdered, .arg 7 0),
   (a.uses && !a.nozzlesOk, .arg 8 0)]

/-- The account after an accepted SET CHANNEL (R45). -/
def SetChannelArgs.store (a : SetChannelArgs) (acc : Account) : Account :=
  let nl := fun v : BitVec 32 => if a.uses then v.toNat * 1000 else 0
  { acc with inkType := a.inkType.toNat, dropVolume := if a.uses then a.dropVolume.toNat else 0,
             tankCapacity := nl a.tankCapacity, floor := nl a.floor, refillMark := nl a.refillMark,
             lowMark := nl a.lowMark, level := 0, levelState := .unknown, shortfall := false }

def SetChannelArgs.spit (a : SetChannelArgs) : SpitSettings :=
  if a.uses then { idleLimit := a.idleLimit.toNat, spitCount := a.spitCount.toNat } else { idleLimit := 0, spitCount := 0 }

def SetRollArgs.outOfRange (a : SetRollArgs) : Bool :=
  decide (1 < a.enabled.toNat) || decide (15 < a.mediaType.toNat) || outside 210 914 a.width.toNat
    || decide (200000 < a.remaining.toNat)

/-- The roll an accepted SET ROLL stores (R127). -/
def SetRollArgs.stored (a : SetRollArgs) : Roll :=
  { enabled := a.enabled == 1#8, mediaType := a.mediaType.toNat, width := a.width.toNat,
    remaining := a.remaining.toNat, fed := 0, out := a.remaining == 0#32 }

/-- An estimate is present and the channel's value is above 1,000,000 µL (R110). -/
def QueueSheetArgs.badEstimate (a : QueueSheetArgs) (k : Channel) : Bool :=
  a.estimateMarker == 1#8 && decide (1000000 < (a.estimates.get k).toNat)

/-- Each field of QUEUE SHEET that may be at fault, with its slot byte, in slot order (R110, R111, 12.4). -/
def QueueSheetArgs.fieldFaults (a : QueueSheetArgs) : List (Bool × Nat) :=
  [((RollPreference.ofCode a.rollPreference.toNat).isNone, 10),
   (decide (15 < a.mediaType.toNat), 11),
   (outside 210 30000 a.length.toNat, 12),
   (decide (500 < a.topMargin.toNat), 14),
   (outside 1 4096 a.swathCount.toNat, 16),
   ((CutMode.ofCode a.cutMode.toNat).isNone, 18),
   (decide (1 < a.estimateMarker.toNat), 19),
   (outside 500 60000 a.swathAdvance.toNat, 20),
   (decide (600 < a.dryTime.toNat), 24),
   (a.badEstimate 0, 28), (a.badEstimate 1, 32), (a.badEstimate 2, 36),
   (a.badEstimate 3, 40), (a.badEstimate 4, 44), (a.badEstimate 5, 48)]

/-- The slot byte of the first field at fault (R111). -/
def QueueSheetArgs.firstFault (a : QueueSheetArgs) : Option Nat :=
  (a.fieldFaults.find? fun f => f.1).map Prod.snd

/-- The printed band and the margin pass the sheet's end (R111, condition 4). -/
def QueueSheetArgs.tooLong (a : QueueSheetArgs) : Bool :=
  decide (a.length.toNat * 1000 < a.topMargin.toNat * 1000 + a.swathCount.toNat * a.swathAdvance.toNat)

/-- The record of an accepted QUEUE SHEET (R112). -/
def QueueSheetArgs.sheet (a : QueueSheetArgs) : Sheet :=
  { id := a.id.toNat, preference := (RollPreference.ofCode a.rollPreference.toNat).getD .either,
    mediaType := a.mediaType.toNat, length := a.length.toNat, topMargin := a.topMargin.toNat,
    swathCount := a.swathCount.toNat, swathAdvance := a.swathAdvance.toNat,
    cutMode := (CutMode.ofCode a.cutMode.toNat).getD .cut, dryTime := a.dryTime.toNat,
    estimate := if a.estimateMarker == 1#8 then some (.of fun k => (a.estimates.get k).toNat) else none,
    state := .queued, waitingCause := none, assigned := none, done := 0, loadStep := 0, defect := false,
    cancel := false, cause := none }

/-- The swath record a binding makes (R10). -/
def SwathReadyArgs.record (a : SwathReadyArgs) (id : Nat) (tally : Six Nat) : Swath :=
  { id := id, sheet := a.sheet.toNat, index := a.index.toNat, buffer := a.buffer.toNat, columns := a.columns.toNat,
    state := .bound, projection := tally, spitSet := .all [], reservation := .all 0, delivered := .all 0, lost := 0,
    injected := 0, faulted := 0, late := 0 }

def LoadProgramArgs.triggerBad (a : LoadProgramArgs) : Bool :=
  match TriggerKind.ofCode a.triggerKind.toNat with
  | some t => !t.parameterOk a.triggerParameter.toNat
  | none => true

def LoadProgramArgs.durationBad (a : LoadProgramArgs) : Bool :=
  (Urgency.ofCode a.urgency.toNat).isNone || outside 1 600000 a.duration.toNat

/-- The steps that the step count takes in (R94). -/
def LoadProgramArgs.given (a : LoadProgramArgs) : List StepArgs := a.steps.take a.stepCount.toNat

def StepArgs.kindBad (s : StepArgs) : Bool := (StepKind.ofCode s.kind.toNat).isNone

/-- Condition 7 of R95 for one step. -/
def StepArgs.argumentBad (s : StepArgs) : Bool :=
  match StepKind.ofCode s.kind.toNat with
  | some .prime => emptyMask s.mask || outside 1 5000 s.parameter.toNat
  | some .check => emptyMask s.mask
  | some .wait => outside 1 60000 s.parameter.toNat
  | _ => false

def StepArgs.step (s : StepArgs) : ServiceStep :=
  { kind := (StepKind.ofCode s.kind.toNat).getD .carriageReturn, mask := s.mask, parameter := s.parameter.toNat }

/-- The record an accepted LOAD PROGRAM stores; none for a step count of 0 (R95). -/
def LoadProgramArgs.record (a : LoadProgramArgs) : Option Program :=
  if a.stepCount = 0#8 then none
  else some
    { trigger := (TriggerKind.ofCode a.triggerKind.toNat).getD .command, parameter := a.triggerParameter.toNat,
      urgency := (Urgency.ofCode a.urgency.toNat).getD .boundary, duration := a.duration.toNat,
      steps := a.given.map StepArgs.step }

end Sys2Proof
end

