-- ==== Sys2Proof/Machine/Report.lean ====
section
/-! DEFINITION. The report writer's own part: which status records become pending, and the filling of its forward queue (R168). -/

namespace Sys2Proof.Machine

/-- The status records in record-number order. -/
def statusNumbers : List (Fin 13) := [0, 1, 2, 3, 4, 5, 6, 7, 8, 9, 10, 11, 12]

/-- One status record becomes pending where its fields differ from those it showed in `old` (R168): the change that an
operation has just made is taken before the operation goes on. -/
def Chip.showChange (x old : Chip) (n : Fin 13) : Chip :=
  x.onRpw fun w => if statusFields old n == statusFields x n then w else w.mark n

/-- Every status record whose fields differ between the state before a stage of an event and the state after it becomes
pending (R168), in record-number order after those that the stage has marked (log entry 9). -/
def Chip.refreshStatus (x old : Chip) : Chip :=
  x.onRpw fun w => statusNumbers.foldl (fun v n => if statusFields old n == statusFields x n then v else v.mark n) w

/-- The oldest entry of the ordered list not yet taken, and the list with that entry marked taken (R168). -/
def takeEntry : List OrderedEntry → Option (OrderedEntry × List OrderedEntry)
  | [] => none
  | e :: rest =>
    if e.taken then
      match takeEntry rest with
      | some (f, rest') => some (f, e :: rest')
      | none => none
    else some (e, { e with taken := true } :: rest)

/-- The oldest pending status record is taken: its update count rises by 1, and its content, time base and fence are
fixed (R168). -/
def Chip.takeStatus (x : Chip) : Chip :=
  match x.rpw.statusSet with
  | [] => x
  | n :: rest =>
    let count := x.rpw.updateCounts.get n + 1
    let write : WriterWrite := { body := .status n (statusBytes x n count), fence := x.fence }
    (x.onRpw fun w => { w with statusSet := rest, updateCounts := w.updateCounts.set n count }).onPsw
      fun p => { p with writer := some write }

/-- The writer's forward queue holds one write; when it is empty it is filled from the ordered list, else from the
status set (R168). -/
def Chip.fillWriter (x : Chip) : Chip :=
  match x.psw.writer with
  | some _ => x
  | none =>
    match takeEntry x.rpw.ordered with
    | some (e, ordered) =>
      (x.onRpw fun w => { w with ordered := ordered }).onPsw
        fun p => { p with writer := some { body := .ordered e.body, fence := e.fence } }
    | none => x.takeStatus

end Sys2Proof.Machine
end

