-- ==== Sys2Proof/Machine/Link.lean ====
section
/-! DEFINITION. The field link master: offers, classes, places, and the beginning and end of a frame (R142, R147, R148). -/

namespace Sys2Proof.Machine

/-- The lowest class present in the order queue (R147). -/
def lowestClass (q : List LinkOrder) : Nat := q.foldl (fun n o => min n o.class) 4

/-- The entry the link master takes, of the lowest class and within it the oldest, and the rest of the queue (R147). -/
def pickOrder (q : List LinkOrder) : Option (LinkOrder × List LinkOrder) :=
  takeFirst (fun o => o.class == lowestClass q) q

/-- The oldest declined order of a marked block, with the mark cleared when none is left (R148). -/
def Room.offerOldest (r : Room) : Option (LinkOrder × Room) :=
  if r.waiting then
    match r.declined with
    | o :: rest => some (o, { waiting := !rest.isEmpty, declined := rest })
    | [] => none
  else none

/-- A place freed in a full queue is granted to the marked block of the lowest class that has a declined order left;
a marked block that has none gives the place back (R148). A declined DEBIT is offered as it was declined (the model's choice, log
entry 51). -/
def LinkMaster.grantPlace (m : LinkMaster) : LinkMaster :=
  match m.feedRoom.offerOldest with
  | some (o, r) => { m with queue := m.queue ++ [o], feedRoom := r }
  | none =>
    match m.serviceRoom.offerOldest with
    | some (o, r) => { m with queue := m.queue ++ [o], feedRoom := .reset, serviceRoom := r }
    | none =>
      match m.inkRoom.offerOldest with
      | some (o, r) => { m with queue := m.queue ++ [o], feedRoom := .reset, serviceRoom := .reset, inkRoom := r }
      | none => { m with feedRoom := .reset, serviceRoom := .reset, inkRoom := .reset }

/-- With the link FREE and the queue not empty, the link master takes an entry and its frame begins (R147). -/
def LinkMaster.begin (m : LinkMaster) (now : Nat) : LinkMaster :=
  match m.link with
  | .free =>
    match pickOrder m.queue with
    | some (o, rest) =>
      let taken := { m with queue := rest, link := .carrying o now, frames := m.frames + 1 }
      if m.queue.length = Config.linkPlaces then taken.grantPlace else taken
    | none => m
  | .carrying _ _ => m
  | .ended => m

def Room.decline (r : Room) (o : LinkOrder) : Room := { waiting := true, declined := r.declined ++ [o] }

/-- A declined order stays with its block, which is marked waiting for room (R148). -/
def LinkMaster.decline (m : LinkMaster) (o : LinkOrder) : LinkMaster :=
  match o.block with
  | .feed => { m with feedRoom := m.feedRoom.decline o }
  | .service => { m with serviceRoom := m.serviceRoom.decline o }
  | .ink => { m with inkRoom := m.inkRoom.decline o }

/-- The offer of an order: a READ TAG is passed over where one for the tag is queued or the queue is full, any other
order is declined where the queue is full, and otherwise it joins the queue, to be taken at once when the link is
FREE (R147, R148). -/
def LinkMaster.offer (m : LinkMaster) (o : LinkOrder) (now : Nat) : LinkMaster :=
  if o.isReadTag && (m.queue.contains o || decide (Config.linkPlaces ≤ m.queue.length)) then m
  else if Config.linkPlaces ≤ m.queue.length then m.decline o
  else { m with queue := m.queue ++ [o] }.begin now

/-- A block places an order with the link master (R148). -/
def Chip.offer (x : Chip) (o : LinkOrder) : Chip := x.onFlm fun m => m.offer o x.now

def LinkMaster.onLink (m : LinkMaster) (p : LinkOrder → Bool) : Bool :=
  match m.link with
  | .carrying o _ => p o
  | .free => false
  | .ended => false

/-- Whether an order that meets a test is declined and waiting, in the queue, or on the link (R148, R149). -/
def LinkMaster.underWay (m : LinkMaster) (p : LinkOrder → Bool) : Bool :=
  m.onLink p || m.queue.any p || m.feedRoom.declined.any p || m.serviceRoom.declined.any p
    || m.inkRoom.declined.any p

def isDebitOf (k : Channel) : LinkOrder → Bool
  | .debit j _ _ => j == k
  | _ => false

def isPumpStatusOf (k : Channel) : LinkOrder → Bool
  | .pumpStatus j => j == k
  | _ => false

def isStationStatus : LinkOrder → Bool
  | .stationStatus _ => true
  | _ => false

def isFeedStatus : LinkOrder → Bool
  | .feedStatus _ => true
  | .feedCheck _ => true
  | _ => false

/-- The declined orders of a block that meet a test are discarded: their operation has ended (R148). -/
def Room.discard (r : Room) (p : LinkOrder → Bool) : Room :=
  { r with declined := r.declined.filter fun o => !p o }

/-- A waiting ink controller is granted the places that a RESTART freed (R150). -/
def LinkMaster.grantFreed : Nat → LinkMaster → LinkMaster
  | 0, m => m
  | n + 1, m => if m.queue.length < Config.linkPlaces then (m.grantPlace).grantFreed n else m

/-- RESTART at the link master: the entries and declined orders of the feed controller and the service controller are
gone; those of the ink controller stay; the frame on the link is not touched (R150). -/
def LinkMaster.restart (m : LinkMaster) : LinkMaster :=
  { m with queue := m.queue.filter (fun o : LinkOrder => o.block == LinkBlock.ink), feedRoom := .reset, serviceRoom := .reset }.grantFreed
    Config.linkPlaces

end Sys2Proof.Machine
end

