-- ==== Sys2Proof/Machine/Ink.lean ====
section
/-! DEFINITION. The ink controller: reservations, consumption, releases, refills, cartridges and owed debits (chapters 3 and 4). -/

namespace Sys2Proof.Machine

/-! ## The holders' books (R51) -/

/-- The swath that is ARMED or FIRING, changed; nothing where there is none. -/
def Chip.onLiveSwath (x : Chip) (f : Swath → Swath) : Chip :=
  x.onSgt fun g => { g with swaths := g.swaths.map fun r => if r.live then f r else r }

/-- A holder's remaining reservation in a channel, as the holder keeps it (R51). -/
def Chip.remainingOf (x : Chip) (h : Holder) (k : Channel) : Nat :=
  match h with
  | .none => 0
  | .swath => match x.liveSwath with
    | some r => r.reservation.get k
    | none => 0
  | .prime => x.svc.cycle.primeRemaining.get k

/-- A holder's remaining reservation in a channel set to an amount. -/
def Chip.setRemaining (x : Chip) (h : Holder) (k : Channel) (amount : Nat) : Chip :=
  match h with
  | .none => x
  | .swath => x.onLiveSwath fun r => { r with reservation := r.reservation.set k amount }
  | .prime => x.onCycle fun c => { c with primeRemaining := c.primeRemaining.set k amount }

/-! ## Level status (R47) -/

def LevelStatus.reported : LevelStatus → Bool
  | .unused => false
  | .unknown => false
  | .dry => true
  | .low => true
  | .ready => true

/-- An INK record LEVEL STATUS where the status has changed between DRY, LOW and READY (R47). -/
def Chip.journalLevelStatus (x : Chip) (k : Channel) (old : LevelStatus) : Chip :=
  let new := (x.account k).levelStatus
  if old.reported && new.reported && old != new then x.journal (.inkLevelStatus k old new (x.account k).level) else x

/-! ## Refill start (R57) -/

/-- The transfer volume in µL (R57). -/
def InkChannel.transferVolume (i : InkChannel) : Nat :=
  min ((i.account.tankCapacity - i.account.level) / 1000) i.cartridge.remaining

/-- The conditions of R57; after a refused reservation the refill mark is not asked for (R52). -/
def InkChannel.mayRefill (i : InkChannel) (ignoreMark : Bool) : Bool :=
  i.account.used && i.account.isKnown && (ignoreMark || decide (i.account.level < i.account.refillMark))
    && i.account.refillState == .idle && i.cartridge.state == .active
    && decide (Config.leastTransfer ≤ i.transferVolume)

/-- The refill start test; a refill that starts is QUEUED, its TRANSFER is placed, and the CHANNEL record is rewritten
(R57, R52, R69). -/
def Chip.startRefill (x : Chip) (k : Channel) (ignoreMark : Bool) : Chip :=
  let i := x.ink.get k
  if i.mayRefill ignoreMark then
    (((x.onAccount k fun a => { a with refillState := .queued, transferRequested := i.transferVolume }).onRefill k
      fun _ => { Refill.reset with source := i.cartridge.serial }).offer (.transfer k i.transferVolume)).markStatus
        (channelStatus k)
  else x

/-! ## Reservations (R50 to R52) -/

/-- Why a channel with a nonzero amount fails a request: short of ink, or another condition (R50). -/
def Account.short (a : Account) (amount : Nat) : Bool :=
  a.used && a.isKnown && a.holder == .none && decide (a.available < amount)

/-- Whether a named channel meets the conditions of R50; an amount of 0 is not checked. -/
def Account.grants (a : Account) (amount : Nat) : Bool :=
  amount == 0 || (a.used && a.isKnown && a.holder == .none && decide (amount ≤ a.available))

/-- The grant of R50: every named channel with a nonzero amount meets the conditions. -/
def Chip.canReserve (x : Chip) (amounts : Six Nat) : Bool :=
  channels.all fun k => (x.account k).grants (amounts.get k)

/-- A granted request in each named channel with a nonzero amount, with the rewrite of its CHANNEL record, and the notices of
R53 (R51). -/
def Chip.reserve (x : Chip) (h : Holder) (amounts : Six Nat) : Chip :=
  (channels.foldl
    (fun y k =>
      if amounts.get k = 0 then y
      else (y.onAccount k fun a => { a with reserved := a.reserved + amounts.get k, holder := h }).markStatus
        (channelStatus k))
    x).noticeInk

/-- A refused request starts a refill on each channel it finds short (R52), in ascending channel number (the model's
choice, log entry 36). -/
def Chip.refuseReservation (x : Chip) (amounts : Six Nat) : Chip :=
  channels.foldl
    (fun y k => if (x.account k).short (amounts.get k) then y.startRefill k true else y) x

/-! ## Consumption (R54, R55) -/

inductive InkSource where
  | swath
  | prime
  | check
  deriving DecidableEq, Repr

/-- The source matches the channel's holder (R55). -/
def InkSource.isHolder : InkSource → Holder → Bool
  | .swath, h => h == .swath
  | .prime, h => h == .prime
  | .check, _ => false

/-- The level falls by `n` nL where it is KNOWN; where `n` is above it, it becomes 0 and the shortfall flag is set
(R55, step 1). -/
def Account.takeInk (a : Account) (n : Nat) : Account :=
  if a.isKnown then { a with level := a.level - n, shortfall := a.shortfall || decide (a.level < n) } else a

/-- The amount consumed applied to the account, with its records (R55); each change makes the CHANNEL record pending before
the record that follows it is asked for (R168). -/
def Chip.applyConsumed (x : Chip) (k : Channel) (n : Nat) (source : InkSource) : Chip :=
  let a := x.account k
  let x := (x.onAccount k fun a => a.takeInk n).showChange x (channelStatus k)
  let x := if a.isKnown && decide (a.level < n) && !a.shortfall then x.journal (.inkShortfall k (n - a.level)) else x
  let x :=
    if source.isHolder a.holder then
      let d := min n (x.remainingOf a.holder k)
      ((x.setRemaining a.holder k (x.remainingOf a.holder k - d)).onAccount k fun b =>
        { b with reserved := b.reserved - d }).showChange x (channelStatus k)
    else x
  let x := x.journalLevelStatus k a.levelStatus
  if decide ((x.account k).level < (x.account k).refillMark) then x.startRefill k false else x

/-- A consumption of so many pL reaches a channel: whole nanolitres are moved out of the remainder and applied; an
unused channel is left alone; a consumption that moves no whole nanolitre sends no notice (R54, R55, R53). -/
def Chip.consume (x : Chip) (k : Channel) (pl : Nat) (source : InkSource) : Chip :=
  let a := x.account k
  if a.used then
    let n := (a.remainder + pl) / 1000
    let x := (x.onAccount k fun b => { b with remainder := (a.remainder + pl) % 1000 }).showChange x (channelStatus k)
    let x := x.applyConsumed k n source
    if n = 0 then x else x.noticeInk
  else x

/-! ## Release (R56) -/

/-- A release in one channel: the reserved amount falls by the holder's remaining reservation, and the holder becomes
NONE, which the CHANNEL record shows; a channel with another holder is left alone (R56, R42). -/
def Chip.releaseChannel (x : Chip) (h : Holder) (k : Channel) : Chip :=
  if (x.account k).holder == h then
    let remaining := x.remainingOf h k
    (((x.onAccount k fun a => { a with reserved := a.reserved - remaining, holder := .none }).markStatus
      (channelStatus k)).setRemaining h k 0).noticeInk.callAdmission
  else x

/-- A holder's work ends and it returns what it still holds (R56, R53). -/
def Chip.release (x : Chip) (h : Holder) : Chip := channels.foldl (fun y k => y.releaseChannel h k) x

/-! ## Owed debits (R67, R68) -/

/-- A debt is discarded with an INK record UNPOSTED DEBIT (R68). -/
def Chip.discardDebt (x : Chip) (k : Channel) : Chip :=
  match x.owed k with
  | some d =>
    ((x.onInk k fun i => { i with owed := none }).showChange x (channelStatus k)).journal (.inkUnposted k d.serial d.amount)
  | none => x

/-- A credited volume is added to the owed-debit record for its serial; a debt of another serial is discarded first
(R67). The amount has no upper bound (the model's choice, log entry 40). -/
def Chip.owe (x : Chip) (k : Channel) (serial amount : Nat) : Chip :=
  if amount = 0 then x
  else
    match x.owed k with
    | some d =>
      if d.serial = serial then x.onInk k fun i => { i with owed := some { d with amount := d.amount + amount } }
      else (x.discardDebt k).onInk k fun i => { i with owed := some { serial := serial, amount := amount } }
    | none => x.onInk k fun i => { i with owed := some { serial := serial, amount := amount } }

/-- The socket holds the cartridge a debt is owed to (R67). -/
def InkChannel.holdsDebtor (i : InkChannel) : Bool :=
  match i.owed with
  | some d => i.cartridge.state != .noCartridge && i.cartridge.serial == d.serial
  | none => false

/-- A DEBIT of the whole debt is placed, while the debtor is in the socket and no DEBIT for the channel is under way
(R67); the amount it carries is the whole debt whatever its size (log entry 40). One that is declined for want of room keeps the
serial and the amount of this offer, and is offered with them when a place is granted, whatever has become of its debtor and its
debt by then (the model's choice, log entry 51). -/
def Chip.placeDebit (x : Chip) (k : Channel) : Chip :=
  match x.owed k with
  | some d =>
    if (x.ink.get k).holdsDebtor && !x.flm.underWay (isDebitOf k) then x.offer (.debit k d.amount d.serial) else x
  | none => x

/-! ## The refill (R69 to R75) -/

/-- The credit of a moved volume to the level and to the owed debit of the source serial (R48, R67, R71). -/
def Chip.creditMoved (x : Chip) (k : Channel) : Chip :=
  let a := x.account k
  let f := x.refill k
  let x :=
    if a.used && a.isKnown then
      (x.onAccount k fun b => { b with level := min (b.level + f.moved * 1000) b.tankCapacity }).showChange x
        (channelStatus k)
    else x
  (((x.journalLevelStatus k a.levelStatus).owe k f.source f.moved).noticeInk).callAdmission

def isRefillOrderOf (k : Channel) : LinkOrder → Bool
  | .transfer j _ => j == k
  | .stop j => j == k
  | .pumpStatus j => j == k
  | _ => false

/-- The refill returns to IDLE, its declined orders are discarded, and the refill start test follows (R69, R75,
R148). -/
def Chip.refillIdle (x : Chip) (k : Channel) : Chip :=
  let x := (x.onAccount k fun a => { a with refillState := .idle, transferRequested := 0 }).markStatus (channelStatus k)
  let x := x.onRefill k fun f => { f with pumpDeadline := none, stopDeadline := none, pollAt := none }
  let x := x.onFlm fun m => { m with inkRoom := m.inkRoom.discard (isRefillOrderOf k) }
  x.startRefill k false

/-- The refill enters DEBITING (R75); its deadlines are cleared: the pump deadline as the pumping ends (R72), the stop deadline
as the stop ends (the model's choice, log entry 38). -/
def Chip.enterDebiting (x : Chip) (k : Channel) : Chip :=
  let x := x.onAccount k fun a => { a with refillState := .debiting }
  let x := x.onRefill k fun f => { f with pumpDeadline := none, stopDeadline := none, pollAt := none }
  if (x.owed k).isNone then x.refillIdle k else x.placeDebit k

/-- The refill enters PUMPING: the pump deadline is set and polling begins (R70, R71). -/
def Chip.enterPumping (x : Chip) (k : Channel) : Chip :=
  (x.onAccount k fun a => { a with refillState := .pumping }).onRefill k fun f =>
    { f with pumpDeadline := some (x.now + Config.pumpDeadline), pollAt := some (x.now + Config.pollStatusTime) }

/-- A STOP order is placed and the refill enters STOPPING (R70, R72 to R74); the pump deadline is cleared at a removal (R73),
and also where it has run out (the model's choice, log entry 38). -/
def Chip.enterStopping (x : Chip) (k : Channel) (cause : StopCause) : Chip :=
  ((x.onAccount k fun a => { a with refillState := .stopping }).onRefill k fun f =>
    { f with pumpDeadline := none, stopCause := cause, stopDeadline := some (x.now + Config.stopDeadline),
             pollAt := some (x.now + Config.pollStatusTime) }).offer (.stop k)

/-- The end of a stop: credit, then DEBITING where the source cartridge is present, else IDLE (R74). -/
def Chip.endStop (x : Chip) (k : Channel) : Chip :=
  let x := x.creditMoved k
  if (x.ink.get k).sourcePresent then x.enterDebiting k else x.refillIdle k

/-! ## Cartridges (R61 to R66) -/

/-- A change of cartridge state: the CHANNEL record, the INK record CARTRIDGE, the refill start for ACTIVE, the notice to the feed
controller; a state already held changes nothing (R63, R66). -/
def Chip.setCartridge (x : Chip) (k : Channel) (state : CartridgeState) : Chip :=
  let old := (x.cartridge k).state
  if old == state then x
  else
    let x := (x.onCartridge k fun c => { c with state := state }).markStatus (channelStatus k)
    let c := x.cartridge k
    let x := x.journal (.inkCartridge k old state c.inkType c.serial c.remaining)
    (if state == .active then x.startRefill k false else x).callAdmission

/-- The state a judgement gives (R63). -/
def InkChannel.judgement (i : InkChannel) : CartridgeState :=
  if i.cartridge.inkType = 0 ∨ 15 < i.cartridge.inkType ∨ i.cartridge.inkType ≠ i.account.inkType then .wrongInk
  else if Config.leastTransfer ≤ i.cartridge.remaining then .active
  else .spent

/-- A cartridge is judged (R63). -/
def Chip.judge (x : Chip) (k : Channel) : Chip := x.setCartridge k (x.ink.get k).judgement

/-- A cartridge that has been judged before is judged again (R63). -/
def Chip.judgeAgain (x : Chip) (k : Channel) : Chip :=
  match (x.cartridge k).state with
  | .noCartridge => x
  | .reading => x
  | .active => x.judge k
  | .wrongInk => x.judge k
  | .spent => x.judge k

/-- The feed controller is told where the remaining of a cartridge that stays ACTIVE has changed (R66). -/
def Chip.noticeRemaining (x : Chip) (k : Channel) (old : Cartridge) : Chip :=
  let c := x.cartridge k
  if old.state == .active && c.state == .active && old.remaining != c.remaining then x.callAdmission else x

/-- A removal: NO CARTRIDGE with its fields 0 and the poll fault clear; a refill PUMPING from it is stopped; the owed
debit is kept (R64, R73). -/
def Chip.removeCartridge (x : Chip) (k : Channel) : Chip :=
  let wasSource := (x.ink.get k).sourcePresent
  let x := x.onCartridge k fun c =>
    { c with serial := 0, inkType := 0, capacity := 0, remaining := 0, pollFault := false }
  let x := x.setCartridge k .noCartridge
  if wasSource && (x.account k).refillState == .pumping then x.enterStopping k .removed else x

/-- An insertion: READING with the reply's fields, then settled or judged by the owed-debit record (R62). -/
def Chip.insertCartridge (x : Chip) (k : Channel) (inkType serial capacity remaining : Nat) : Chip :=
  let x := x.onCartridge k fun c =>
    { c with serial := serial, inkType := inkType, capacity := capacity, remaining := remaining }
  let x := x.setCartridge k .reading
  match x.owed k with
  | some d => if d.serial = serial then x.placeDebit k else (x.discardDebt k).judge k
  | none => x.judge k

/-- A READ TAG reply with the record's serial: its fields are stored; a cartridge past READING is judged again; then a
settling DEBIT may be placed, where the judgement has left the refill IDLE (R61, R63, R67 case 3; the order is that of the
worked sequence 4.7, log entry 37). -/
def Chip.rereadCartridge (x : Chip) (k : Channel) (inkType capacity remaining : Nat) : Chip :=
  let old := x.cartridge k
  let x := x.onCartridge k fun c => { c with inkType := inkType, capacity := capacity, remaining := remaining }
  let x := (x.judgeAgain k).noticeRemaining k old
  if old.state == .reading || (x.account k).refillState == .idle then x.placeDebit k else x

/-- A FIELD FAULT record for an order of the ink controller, with the amount where its rule names one (12.5, R46, R65, R68,
R70, R74; log entry 18). -/
def Chip.fieldFault (x : Chip) (o : LinkOrder) (k : Channel) (outcome : FrameOutcome) (amount : Option Nat) : Chip :=
  x.journal (.fieldFault o.unit o.code outcome.kind k amount)

/-- A READ TAG outcome (R61, R64, R65). -/
def Chip.takeReadTag (x : Chip) (k : Channel) (outcome : FrameOutcome) : Chip :=
  match outcome with
  | .done (.tag inkType serial capacity remaining) =>
    let x := x.onCartridge k fun c => { c with pollFault := false }
    if (x.cartridge k).state == .noCartridge then x.insertCartridge k inkType serial capacity remaining
    else if (x.cartridge k).serial = serial then x.rereadCartridge k inkType capacity remaining
    else (x.removeCartridge k).insertCartridge k inkType serial capacity remaining
  | .absent =>
    let x := x.onCartridge k fun c => { c with pollFault := false }
    if (x.cartridge k).state == .noCartridge then x else x.removeCartridge k
  | outcome =>
    if (x.cartridge k).pollFault then x
    else
      ((x.onCartridge k fun c => { c with pollFault := true }).markStatus (channelStatus k)).fieldFault (.readTag k) k outcome
        none

/-- The amount a DEBIT carried is subtracted from the debt it was placed for; a debt that reaches 0 is empty (R67; log
entry 40). -/
def Owed.acknowledge (d : Owed) (amount : Nat) : Option Owed :=
  if d.amount ≤ amount then none else some { d with amount := d.amount - amount }

/-- No debt is held for the cartridge in the socket (R68, log entry 22). -/
def InkChannel.debtSettled (i : InkChannel) : Bool := !i.holdsDebtor

/-- A DEBIT that ended DONE with the tag's remaining (R68). -/
def Chip.debitDone (x : Chip) (k : Channel) (amount serial remaining : Nat) : Chip :=
  let old := x.cartridge k
  let x :=
    match x.owed k with
    | some d =>
      if d.serial = serial then x.onInk k fun i => { i with owed := d.acknowledge amount }
      else x.fieldFault (.debit k amount serial) k (.done .none) (some amount)
    | none => x.fieldFault (.debit k amount serial) k (.done .none) (some amount)
  if old.state != .noCartridge && old.serial == serial then
    let x := x.onCartridge k fun c => { c with remaining := remaining }
    let x := if old.state == .reading && (x.ink.get k).debtSettled then x.judge k else x.judgeAgain k
    x.noticeRemaining k old
  else x

/-- A refill in DEBITING after a DEBIT outcome for its channel (R75). -/
def Chip.debitingNext (x : Chip) (k : Channel) (done : Bool) : Chip :=
  if (x.account k).refillState == .debiting then
    if (x.owed k).isNone then x.refillIdle k
    else if done && (x.ink.get k).sourcePresent then x.placeDebit k
    else x.refillIdle k
  else x

/-- A DEBIT outcome (R68, R75). -/
def Chip.takeDebit (x : Chip) (k : Channel) (amount serial : Nat) (outcome : FrameOutcome) : Chip :=
  match outcome with
  | .done (.remaining ul) => (x.debitDone k amount serial ul).debitingNext k true
  | outcome => (x.fieldFault (.debit k amount serial) k outcome (some amount)).debitingNext k false

/-- A LEVEL outcome (R46). -/
def Chip.takeLevel (x : Chip) (k : Channel) (outcome : FrameOutcome) : Chip :=
  let x := (x.onAccount k fun a => { a with levelReading := .idle }).showChange x (channelStatus k)
  match outcome with
  | .done (.sensed ul) =>
    let a := x.account k
    if a.used then
      let x := (x.onAccount k fun b =>
        { b with level := min (ul * 1000) b.tankCapacity, levelState := .known }).showChange x (channelStatus k)
      ((x.journalLevelStatus k a.levelStatus).noticeInk.callAdmission).startRefill k false
    else x
  | outcome => x.fieldFault (.level k) k outcome none

/-- A TRANSFER outcome, taken in QUEUED (R70). On ABSENT or REFUSED the FIELD FAULT record is asked for before the refill state is
IDLE, so a drop of it makes HEADER pending before CHANNEL (the model's choice, log entry 52). -/
def Chip.takeTransfer (x : Chip) (k : Channel) (volume : Nat) (outcome : FrameOutcome) : Chip :=
  if (x.account k).refillState == .queued then
    match outcome with
    | .done _ => if (x.ink.get k).sourcePresent then x.enterPumping k else x.enterStopping k .removed
    | .busyTimeout => if (x.ink.get k).sourcePresent then x.enterPumping k else x.enterStopping k .removed
    | outcome => (x.fieldFault (.transfer k volume) k outcome none).refillIdle k
  else x

/-- A STOP outcome: a failure makes its record, and polling goes on either way (R74). -/
def Chip.takeStop (x : Chip) (k : Channel) (outcome : FrameOutcome) : Chip :=
  match outcome with
  | .done _ => x
  | outcome => x.fieldFault (.stop k) k outcome none

/-- A pump STATUS reply while PUMPING (R71). -/
def Chip.pumpingReply (x : Chip) (k : Channel) (state : PumpState) (code moved : Nat) : Chip :=
  match state with
  | .running => x
  | .done => (x.creditMoved k).enterDebiting k
  | .fault => ((x.journal (.inkPumpFault k code moved)).creditMoved k).enterDebiting k
  | .idle => ((x.journal (.inkPumpIdle k code moved)).creditMoved k).enterDebiting k

/-- A pump STATUS outcome; one other than DONE changes no field (R71, R74). A reply that arrives while the refill is neither
PUMPING nor STOPPING changes nothing (the model's choice, log entry 39). -/
def Chip.takePumpStatus (x : Chip) (k : Channel) (outcome : FrameOutcome) : Chip :=
  match outcome with
  | .done (.pump state code moved) =>
    match (x.account k).refillState with
    | .pumping =>
      ((x.onRefill k fun f => { f with moved := moved }).showChange x (channelStatus k)).pumpingReply k state code moved
    | .stopping =>
      let x := x.onRefill k fun f => { f with moved := moved }
      if state == .running then x else x.endStop k
    | .idle => x
    | .queued => x
    | .debiting => x
  | _ => x

end Sys2Proof.Machine
end

