-- ==== Sys2Proof/Machine/Triggers.lean ====
section
/-! DEFINITION. The service controller's triggers: counters, the firing of a program, the request list (R101 to R103). -/

namespace Sys2Proof.Machine

/-- The programs in ascending number. -/
def programNumbers : List (Fin 8) := [0, 1, 2, 3, 4, 5, 6, 7]

/-- A program joins the request list, at most once; the change of the list is followed by a rewrite of the SERVICE record
and by the gate's arming test (R103, R19). -/
def Chip.listProgram (x : Chip) (p : Fin 8) (cause : RequestCause) : Chip :=
  if x.listed p then x
  else
    ((x.onSvc fun v =>
      { v with requests := v.requests ++ [{ program := p, cause := cause, time := x.now }] }).markStatus 11).callArming

/-- A trigger can fire for a loaded program that is neither listed nor the program of the cycle in progress (R102). -/
def Chip.mayFire (x : Chip) (p : Fin 8) : Bool :=
  (x.program p).isSome && !x.listed p && x.cycleProgram != some p

/-- The triggers whose condition a notice finds met fire, in ascending program number (R102); where one event brings several
notices, they fire notice by notice (the model's choice, log entry 42). -/
def Chip.fireTriggers (x : Chip) (met : Program → Counters → Bool) : Chip :=
  programNumbers.foldl
    (fun y p =>
      match y.program p with
      | some g => if met g (y.svc.counters.get p) && y.mayFire p then y.listProgram p .trigger else y
      | none => y)
    x

/-- Every program's counters changed by one function. -/
def Chip.onCounters (x : Chip) (f : Counters → Counters) : Chip :=
  x.onSvc fun v => { v with counters := mapTable f v.counters }

/-- A program's counters are reset (R101). -/
def Chip.resetCounters (x : Chip) (p : Fin 8) : Chip :=
  x.onSvc fun v => { v with counters := v.counters.set p (Counters.reset x.now) }

/-- A counter of sheets or additions, which saturates (R101). -/
def countOne (n : Nat) : Nat := min (n + 1) Config.triggerCountMax

/-- The feed controller tells of a sheet removed from the queue (R101, R102). -/
def Chip.sheetRemoved (x : Chip) : Chip :=
  (x.onCounters fun c => { c with sheets := countOne c.sheets }).fireTriggers fun g c =>
    g.trigger == .sheets && decide (g.parameter ≤ c.sheets)

/-- An addition notice from the nozzle monitor (R91, R101, R102). -/
def Chip.additionNotice (x : Chip) : Chip :=
  (x.onCounters fun c => { c with additions := countOne c.additions }).fireTriggers fun g c =>
    g.trigger == .nozzle && decide (g.parameter ≤ c.additions)

/-- An uncovered notice from the nozzle monitor fires every NOZZLE program (R91, R102). -/
def Chip.uncoveredNotice (x : Chip) : Chip := x.fireTriggers fun g _ => g.trigger == .nozzle

/-- The threshold of a PRINT TIME program in µs (R102). -/
def Program.printTime (g : Program) : Nat := g.parameter * 60000000

/-- The gate's notice that firing has begun opens the firing period; each opening tests the PRINT TIME programs
(R101, R102). -/
def Chip.firingBegun (x : Chip) : Chip :=
  (x.onSvc fun v => { v with firingPeriod := some x.now }).fireTriggers fun g c =>
    g.trigger == .printTime && decide (g.printTime ≤ c.firing)

/-- The firing period closes, and its length is added to the firing time of every loaded program (R101). -/
def Chip.firingEnded (x : Chip) : Chip :=
  match x.svc.firingPeriod with
  | some start =>
    programNumbers.foldl
      (fun y p =>
        if (y.program p).isSome then
          y.onSvc fun v =>
            let c := v.counters.get p
            { v with counters := v.counters.set p ({ c with firing := c.firing + (x.now - start) }) }
        else y)
      (x.onSvc fun v => { v with firingPeriod := none })
  | none => x

/-- The idle stretch exists while the sheet queue is empty and the carriage is at PRINT SIDE (R101). -/
def Chip.idleHolds (x : Chip) : Bool := x.fdc.sheets.isEmpty && x.svc.location == .printSide

/-- The idle stretch begins at the event that makes both conditions hold, with every idle mark set to now and idle
fired cleared, and ends at the event that makes either fail (R101). -/
def Chip.updateIdle (x : Chip) : Chip :=
  if x.idleHolds then
    match x.svc.idleStretch with
    | some _ => x
    | none =>
      (x.onSvc fun v => { v with idleStretch := some x.now }).onCounters fun c =>
        { c with idleMark := x.now, idleFired := false }
  else x.onSvc fun v => { v with idleStretch := none }

/-- IDLE s of a program is due: the stretch exists, idle fired is clear, and now − idle mark has reached s (R102). -/
def Chip.idleDue (x : Chip) (p : Fin 8) : Bool :=
  match x.program p with
  | some g =>
    let c := x.svc.counters.get p
    g.trigger == .idle && x.svc.idleStretch.isSome && !c.idleFired
      && decide (c.idleMark + g.parameter * 1000000 ≤ x.now)
  | none => false

/-- The IDLE trigger of a program fires and sets idle fired (R102). One whose time was reached while its program was listed or in
its cycle stays due in the stretch, and can fire once that cycle has failed (the model's choice, log entry 47). -/
def Chip.fireIdle (x : Chip) (p : Fin 8) : Chip :=
  if x.idleDue p && x.mayFire p then
    (x.listProgram p .trigger).onSvc fun v =>
      let c := v.counters.get p
      { v with counters := v.counters.set p ({ c with idleFired := true }) }
  else x

/-- PRINT TIME m of a program is due within the open firing period (R102). -/
def Chip.printTimeDue (x : Chip) (p : Fin 8) : Bool :=
  match x.program p, x.svc.firingPeriod with
  | some g, some start =>
    g.trigger == .printTime && decide (g.printTime ≤ (x.svc.counters.get p).firing + (x.now - start))
  | some _, none => false
  | none, _ => false

/-- The PRINT TIME trigger of a program fires (R102); it stays due in the open firing period as an IDLE trigger does in its
stretch (log entry 47). -/
def Chip.firePrintTime (x : Chip) (p : Fin 8) : Chip :=
  if x.printTimeDue p && x.mayFire p then x.listProgram p .trigger else x

end Sys2Proof.Machine
end

