-- ==== Sys2Proof/Machine/Nozzle.lean ====
section
/-! DEFINITION. The nozzle monitor: idle table, nozzle-out list, pending changes, check reports (chapter 5). -/

namespace Sys2Proof.Machine

/-! ## The idle table (R76 to R79) -/

/-- One group of a channel takes the time now as its last fire time (R78). -/
def Chip.fireGroup (x : Chip) (k : Channel) (g : Nat) : Chip :=
  x.onNmn fun n => { n with idle := n.idle.set k ((n.idle.get k).setIfInBounds g x.now) }

/-- All 64 groups of a channel take the time now (R78). -/
def Chip.fireChannel (x : Chip) (k : Channel) : Chip :=
  x.onNmn fun n => { n with idle := n.idle.set k (Vector.replicate 64 x.now) }

/-- All groups of the channels of a mask take the time now (R78). -/
def Chip.fireMask (x : Chip) (mask : BitVec 8) : Chip :=
  channels.foldl (fun y k => if inMask mask k then y.fireChannel k else y) x

/-- All 384 groups take the time now (R78). -/
def Chip.fireAll (x : Chip) : Chip := x.onNmn fun n => { n with idle := .all (Vector.replicate 64 x.now) }

/-- The spit set of one channel: the groups idle for at least the idle limit, in ascending number (R79). -/
def Chip.spitSetOf (x : Chip) (k : Channel) : List Nat :=
  let limit := (x.nmn.spit.get k).idleLimit
  if (x.account k).used && limit != 0 then
    (List.range 64).filter fun g => decide ((x.nmn.idle.get k).getD g 0 + limit * 1000 ≤ x.now)
  else []

/-- The spit set of an arming test (R20, R79). -/
def Chip.spitSet (x : Chip) : Six (List Nat) := .of x.spitSetOf

/-! ## The nozzle-out list (R80, R81) -/

def outEntry (l : List OutEntry) (k : Channel) (n : Nat) : Option OutEntry :=
  l.find? fun e => e.channel == k && e.nozzle == n

/-- Whether a nozzle is on the nozzle-out list. -/
def isOut (l : List OutEntry) (k : Channel) (n : Nat) : Bool := (outEntry l k n).isSome

/-- Order of the list: channel, then nozzle (R80). -/
def OutEntry.before (a b : OutEntry) : Bool :=
  decide (a.channel.val < b.channel.val) || (a.channel == b.channel && decide (a.nozzle < b.nozzle))

/-- An entry put in its place in the ordered list (R80). -/
def insertOut (e : OutEntry) : List OutEntry → List OutEntry
  | [] => [e]
  | a :: rest => if e.before a then e :: a :: rest else a :: insertOut e rest

/-- The coverage of one nozzle's entry, where it has one, set to a value (R81). -/
def setCoverage (l : List OutEntry) (k : Channel) (n : Nat) (c : Coverage) : List OutEntry :=
  l.map fun e => if e.channel == k && e.nozzle == n then { e with coverage := c } else e

/-- A NOZZLE record of a change to one nozzle, with the partner's coverage after the change (R90). -/
def Chip.nozzleRecord (x : Chip) (reason : NozzleReason) (e : OutEntry) (coverage : Option Coverage) : JournalRecord :=
  .nozzle
    { reason := reason, channel := e.channel.val, nozzle := some e.nozzle, origin := some e.origin,
      coverage := coverage, partnerCoverage := (outEntry x.nmn.outList e.channel (partner e.nozzle)).map OutEntry.coverage,
      entries := x.nmn.outList.length, mask := none, count := none, lowest := none, timeAdded := some e.time }

/-- An entry is added: coverage of the pair, NOZZLES record, ADDED record, addition notice, and the uncovered notice where the pair
becomes uncovered (R80, R81, R84, R90, R91). -/
def Chip.addOut (x : Chip) (k : Channel) (n : Nat) (origin : Origin) : Chip :=
  let paired := isOut x.nmn.outList k (partner n)
  let e : OutEntry :=
    { channel := k, nozzle := n, origin := origin, time := x.now,
      coverage := if paired then .uncovered else .substituted }
  let x := x.onNmn fun m =>
    { m with outList := insertOut e (setCoverage m.outList k (partner n) .uncovered) }
  let x := ((x.markStatus 12).journal (x.nozzleRecord .added e (some e.coverage))).additionNotice
  if paired then x.uncoveredNotice else x

/-- An entry is removed: its partner's entry becomes SUBSTITUTED; NOZZLES record, REMOVED record (R80, R81, R84, R90). Where the
removal changes the partner's coverage the record has both, the removed entry's being UNCOVERED, since its partner stays on the
list (R81); without a partner on the list it has none, as no entry stands after the change (log entry 18). -/
def Chip.removeOut (x : Chip) (e : OutEntry) : Chip :=
  let coverage := if isOut x.nmn.outList e.channel (partner e.nozzle) then some Coverage.uncovered else none
  let x := x.onNmn fun m =>
    let others := m.outList.filter fun a => !(a.channel == e.channel && a.nozzle == e.nozzle)
    { m with outList := setCoverage others e.channel (partner e.nozzle) .substituted }
  (x.markStatus 12).journal (x.nozzleRecord .removed e coverage)

/-- An entry's origin becomes COMMAND; ORIGIN record (R84, R90). -/
def Chip.commandOut (x : Chip) (e : OutEntry) : Chip :=
  let x := x.onNmn fun m =>
    let mark := fun a : OutEntry =>
      if a.channel == e.channel && a.nozzle == e.nozzle then { a with origin := .command } else a
    { m with outList := m.outList.map mark }
  x.journal (x.nozzleRecord .origin { e with origin := .command } (some e.coverage))

/-- The cases of R84, in the order of its table. -/
inductive NozzleEffect where
  | added
  | origin
  | alreadyOut
  | removed
  | notListed
  deriving DecidableEq, Repr

/-- The case a change meets on the list as it stands (R84). -/
def Chip.nozzleEffect (x : Chip) (c : NozzleChange) : NozzleEffect :=
  match outEntry x.nmn.outList c.channel c.nozzle with
  | none => if c.out then .added else .notListed
  | some e => if c.out then (if e.origin == .check then .origin else .alreadyOut) else .removed

/-- A change takes effect on the list (R84). -/
def Chip.applyNozzle (x : Chip) (c : NozzleChange) : Chip :=
  match outEntry x.nmn.outList c.channel c.nozzle with
  | none => if c.out then x.addOut c.channel c.nozzle .command else x
  | some e => if c.out then (if e.origin == .check then x.commandOut e else x) else x.removeOut e

/-! ## The list hold and the pending list (R77, R82, R86) -/

/-- A pending change is applied; an OUT that finds the nozzle absent and the list full is dropped with its record
(R86). -/
def Chip.applyPending (x : Chip) (c : NozzleChange) : Chip :=
  if c.out && !isOut x.nmn.outList c.channel c.nozzle && decide (Config.outPlaces ≤ x.nmn.outList.length) then
    x.journal (.nozzle
      { reason := .pendingDropped, channel := c.channel.val, nozzle := some c.nozzle, origin := none,
        coverage := none, partnerCoverage := (outEntry x.nmn.outList c.channel (partner c.nozzle)).map OutEntry.coverage,
        entries := x.nmn.outList.length, mask := none, count := none, lowest := none, timeAdded := none })
  else x.applyNozzle c

/-- Spit settings kept aside take effect (R77). -/
def NozzleMonitor.takeKeptAside (n : NozzleMonitor) : NozzleMonitor :=
  { n with spit := .of fun k => (n.keptAside.get k).getD (n.spit.get k), keptAside := .all none }

/-- The swath is gone: the hold becomes FREE, with the rewrite of the NOZZLES record, settings kept aside take effect, and the
pending changes are applied, oldest first (R82, R86). -/
def Chip.swathGone (x : Chip) : Chip :=
  let pending := x.nmn.pending
  let x := (x.onNmn fun n => { n with held := false, pending := [] }).markStatus 12
  pending.foldl Chip.applyPending ((x.onNmn NozzleMonitor.takeKeptAside).refreshStatus x)

/-- Spit settings handed over by an accepted SET CHANNEL: in effect at once while the hold is FREE, kept aside while it
is HELD (R77). -/
def Chip.handSpit (x : Chip) (k : Channel) (s : SpitSettings) : Chip :=
  x.onNmn fun n =>
    if n.held then { n with keptAside := n.keptAside.set k (some s) } else { n with spit := n.spit.set k s }

/-! ## Check reports (R87 to R89) -/

/-- A returned entry that names a nozzle of a masked channel (R87). -/
def reportedNozzle (mask : BitVec 8) (e : Nat × Nat) : Option (Channel × Nat) :=
  if h : e.1 < 6 then
    if e.2 ≤ 1023 ∧ inMask mask ⟨e.1, h⟩ then some (⟨e.1, h⟩, e.2) else none
  else none

/-- The entries a station returned, each once (R87). -/
def distinctEntries (entries : List (Nat × Nat)) : List (Nat × Nat) :=
  entries.foldl (fun l e => if l.contains e then l else l ++ [e]) []

/-- A number put in its place in an ascending list that holds each number once. -/
def insertAscending (n : Nat) : List Nat → List Nat
  | [] => [n]
  | a :: rest => if n < a then n :: a :: rest else if n = a then a :: rest else a :: insertAscending n rest

/-- The reported nozzles of one channel in ascending order, each once (R87, R88). -/
def reportedOf (entries : List (Channel × Nat)) (k : Channel) : List Nat :=
  ((entries.filter fun e => e.1 == k).map Prod.snd).foldr insertAscending []

/-- A NOZZLE record of a whole report (R90). -/
def Chip.reportRecord (x : Chip) (reason : NozzleReason) (mask : BitVec 8) (count : Option Nat)
    (lowest : Option (Nat × Nat)) : JournalRecord :=
  .nozzle
    { reason := reason, channel := optCode noneWord ((lowestInMask mask).map Fin.val), nozzle := none, origin := none,
      coverage := none, partnerCoverage := none, entries := x.nmn.outList.length, mask := some mask.toNat, count := count,
      lowest := lowest, timeAdded := none }

/-- The first pass of a merge: entries of origin CHECK in masked channels that are not reported are removed (R88). -/
def Chip.mergeRemovals (x : Chip) (mask : BitVec 8) (entries : List (Channel × Nat)) : Chip :=
  (x.nmn.outList.filter fun e =>
    inMask mask e.channel && e.origin == .check && !entries.contains (e.channel, e.nozzle)).foldl Chip.removeOut x

/-- The second pass of a merge: reported nozzles not on the list are added while the list has room; the others are
returned, in order (R88). -/
def Chip.mergeAdditions (x : Chip) (wanted : List (Channel × Nat)) : Chip × List (Channel × Nat) :=
  wanted.foldl
    (fun (y, left) (k, n) =>
      if isOut y.nmn.outList k n then (y, left)
      else if y.nmn.outList.length < Config.outPlaces then (y.addOut k n .check, left)
      else (y, left ++ [(k, n)]))
    (x, [])

/-- The list overflow flag and record after a merge (R89). -/
def Chip.mergeOverflow (x : Chip) (mask : BitVec 8) (left : List (Channel × Nat)) : Chip :=
  match left with
  | [] => x.onNmn fun n => { n with overflow := false }
  | (k, n) :: _ =>
    let x := (x.onNmn fun m => { m with overflow := true }).markStatus 12
    x.journal (x.reportRecord .listOverflow mask (some left.length) (some (k.val, n)))

/-- A merge of the reported nozzles into the list (R88, R89). -/
def Chip.merge (x : Chip) (mask : BitVec 8) (entries : List (Channel × Nat)) : Chip :=
  let wanted := channels.flatMap fun k => (reportedOf entries k).map fun n => (k, n)
  let (x, left) := (x.mergeRemovals mask entries).mergeAdditions wanted
  (x.mergeOverflow mask left).markStatus 12

/-- A check report: refused while the list is held, else merged, with one BAD ENTRY record where entries were set aside; an
entry returned twice counts once (R87). -/
def Chip.takeReport (x : Chip) (mask : BitVec 8) (entries : List (Nat × Nat)) : Chip :=
  if x.nmn.held then x.journal (x.reportRecord .mergeRefused mask none none)
  else
    let returned := distinctEntries entries
    let good := returned.filterMap (reportedNozzle mask)
    let bad := returned.length - good.length
    let x := if bad = 0 then x else x.journal (x.reportRecord .badEntry mask (some bad) none)
    x.merge mask good

end Sys2Proof.Machine
end

