-- ==== Sys2Proof/Machine/Gate.lean ====
section
/-! DEFINITION. The swath gate: unbinding, held reads, the arming test, classification and rewriting of head reads (chapters 1 and 2). -/

namespace Sys2Proof.Machine

/-! ## Answers to accepted reads (R155) -/

def setPhase (l : List InFlight) (id : Nat) (p : ReadPhase) : List InFlight :=
  l.map fun e => if e.id == id then { e with phase := p } else e

/-- The entry of a read in its port's in-flight list changes phase (R155). -/
def Chip.setReadPhase (x : Chip) (port : Port) (id : Nat) (p : ReadPhase) : Chip :=
  x.onPsw fun w =>
    match port with
    | .cPort => { w with cInFlight := setPhase w.cInFlight id p }
    | .hPort => { w with hInFlight := setPhase w.hInFlight id p }

/-- A head read is answered WITHHELD, with no data (R26). -/
def Chip.withhold (x : Chip) (id : Nat) : Chip := x.setReadPhase .hPort id (.answered .withheld [])

/-! ## Held reads (R27 to R29) -/

/-- The held reads that meet a test are answered WITHHELD, oldest first; where the queue is then empty the hold timer
is STOPPED (R29, R30, R40). -/
def Chip.dropHeld (x : Chip) (p : HeldRead → Bool) : Chip :=
  let x := (x.sgt.holdQueue.filter p).foldl (fun y r => y.withhold r.id) x
  x.onSgt fun g =>
    let left := g.holdQueue.filter fun r => !p r
    { g with holdQueue := left, holdTimer := if left.isEmpty then none else g.holdTimer }

/-- Reads held for a record that is not, or no longer, the next swath record are answered WITHHELD (R29). -/
def Chip.dropStaleHolds (x : Chip) : Chip :=
  if x.sgt.holdQueue.isEmpty then x
  else (x.dropHeld fun r => (x.nextRecord.map Swath.id) != some r.swath).refreshStatus x

/-- A read is released to the port switch with its released-read note (R28). -/
def Chip.releaseRead (x : Chip) (id swath : Nat) (addr : Addr) (len : Nat) : Chip :=
  let note : ReadNote := { id := id, swath := swath, offset := (x.psw.bufferAt addr.toNat).2, len := len }
  (x.onSgt fun g => { g with notes := g.notes ++ [note] }).onPsw fun w =>
    { w with hQueue := w.hQueue ++ [.read id addr len] }

/-- Every held read is released, oldest first, and the hold timer is STOPPED (R28). -/
def Chip.releaseHeld (x : Chip) : Chip :=
  (x.sgt.holdQueue.foldl (fun y r => y.releaseRead r.id r.swath r.addr r.len) x).onSgt fun g =>
    { g with holdQueue := [], holdTimer := none }

/-! ## Unbinding (R15, R16) -/

def Buffer.cleared : Buffer := { bound := false, tally := .all 0, late := false }

/-- The record leaves the swath table and its buffer becomes FREE with a cleared tally and flag, with the rewrite of the GATE
record; the SHEETS record follows, which shows the bound list of the platen sheet (R15, R168). -/
def Chip.removeSwath (x : Chip) (r : Swath) : Chip :=
  ((x.onSgt fun g =>
    { g with swaths := g.swaths.filter (fun a => a.id != r.id),
             buffers := g.buffers.set r.buffer Buffer.cleared }).markStatus 10).showChange x 9

/-- A swath is unbound for a cause other than completion: an ARMED or FIRING one first returns its reservation, its leaving is
judged for the eligibility of the service entries, then its claim is released, which runs the arming test, and the nozzle
monitor is told (R15, R16, R19, R104). -/
def Chip.unbind (x : Chip) (r : Swath) : Chip :=
  if r.live then
    ((((x.release .swath).removeSwath r).showChange x 11).onSgt fun g => { g with claim := .free }).swathGone.callArming
  else x.removeSwath r

/-- Every swath of a sheet still bound is unbound (R15), in the order of its bound list, so by index, an ARMED or FIRING one
first: the model's choice where one event unbinds several (log entry 50). -/
def Chip.unbindSheet (x : Chip) (id : Nat) : Chip := (x.boundList id).foldl Chip.unbind x

/-! ## Arming (R19 to R22) -/

/-- A change of the next swath runs the arming test (R14, R19); an event that leaves it as it was in `old` does not. -/
def Chip.noticeNext (x old : Chip) : Chip := if x.nextSwath == old.nextSwath then x else x.callArming

/-- Condition 1 of R19: the record's sheet is the platen sheet, READY or PRINTING, not marked, and the platen is
POSITIONED for the record's index. -/
def Chip.platenReady (x : Chip) (r : Swath) : Bool :=
  match x.platen with
  | some h =>
    h.id == r.sheet && (h.state == .ready || h.state == .printing) && !h.cancel
      && x.fdc.positioned == some r.index
  | none => false

/-- Working nozzles in a set of groups of a channel (R20). -/
def workingNozzles (l : List OutEntry) (k : Channel) (groups : List Nat) : Nat :=
  groups.foldl (fun n g => n + (16 - (l.filter fun e => e.channel == k && e.nozzle / 16 == g).length)) 0

/-- min(P, S) of a channel (R4, R20, R34). -/
def Chip.spitDepth (x : Chip) (k : Channel) : Nat := min (x.nmn.spit.get k).spitCount x.sgt.spitColumns

/-- The planned spit marks of a channel (R20). -/
def Chip.plannedMarks (x : Chip) (spit : Six (List Nat)) (k : Channel) : Nat :=
  workingNozzles x.nmn.outList k (spit.get k) * x.spitDepth k

/-- The amount asked in one channel, nL rounded up; unused channels ask nothing (R20). -/
def Chip.askAmount (x : Chip) (r : Swath) (spit : Six (List Nat)) (k : Channel) : Nat :=
  if (x.account k).used then
    ceilDiv ((r.projection.get k + x.plannedMarks spit k) * (x.account k).dropVolume) 1000
  else 0

/-- A record with this id, changed. -/
def Chip.onSwath (x : Chip) (id : Nat) (f : Swath → Swath) : Chip :=
  x.onSgt fun g => { g with swaths := g.swaths.map fun r => if r.id == id then f r else r }

/-- The arming effects (R20): reservation, claim, spit set and amounts in the record, ARMED, held reads released, the
nozzle-out list held (R80, R82). -/
def Chip.arm (x : Chip) (r : Swath) (spit : Six (List Nat)) (amounts : Six Nat) : Chip :=
  let y := (x.reserve .swath amounts).onSgt fun g => { g with claim := .swath }
  let y := y.onSwath r.id fun a => { a with spitSet := spit, reservation := amounts, state := .armed }
  (((y.releaseHeld.markStatus 10).refreshStatus x).onNmn fun n => { n with held := true }).markStatus 12

/-- The gate asks for the wake sequence, once for each next swath record (R22). -/
def Chip.askWake (x : Chip) (r : Swath) : Chip :=
  if (x.svc.location == .station || x.svc.location == .capped) && x.sgt.wakeAskedFor != some r.id then
    (x.onSgt fun g => { g with wakeAskedFor := some r.id }).onSvc fun v => { v with wakeAsk := some r.id }
  else x

/-- The record the arming test applies to: the next swath record, BOUND, with no swath ARMED or FIRING, while RUNNING
(R19). -/
def Chip.armingCandidate (x : Chip) : Option Swath :=
  if x.cmi.partState == .running && x.liveSwath.isNone then x.nextRecord else none

/-- The arming test (R19 to R22). -/
def Chip.armingTest (x : Chip) : Chip :=
  match x.armingCandidate with
  | none => x
  | some r =>
    if x.platenReady r && x.sgt.claim == .free && !x.hasEligible then
      if x.svc.location == .printSide then
        let spit := x.spitSet
        let amounts : Six Nat := .of (x.askAmount r spit)
        if x.canReserve amounts then x.arm r spit amounts else x.refuseReservation amounts
      else x.askWake r
    else x

/-! ## Gating of a head read (R25 to R28) -/

/-- A read answered WITHHELD at once, with its SWATH ORDER record (R26). -/
def Chip.refuseRead (x : Chip) (id buffer : Nat) (addr : Addr) (notNext : Bool) : Chip :=
  (x.withhold id).journal (.swathOrder buffer notNext addr.toNat x.nextSwath)

/-- A held read joins the hold queue; the first starts the hold timer (R27). -/
def Chip.holdRead (x : Chip) (r : HeldRead) : Chip :=
  let x := x.onSgt fun g =>
    { g with holdQueue := g.holdQueue ++ [r],
             holdTimer := if g.holdQueue.isEmpty then some (x.now + g.holdLimit * 1000) else g.holdTimer }
  if x.sgt.holdQueue.length = 1 then x.markStatus 10 else x

/-- The gate classifies a presented read by its buffer and the state of that buffer's swath (R25). -/
def Chip.presentRead (x : Chip) (id : Nat) (q : ReadRequest) : Chip :=
  let b := (x.psw.bufferAt q.addr.toNat).1
  match x.sgt.swaths.find? fun r => r.buffer == b with
  | none => x.refuseRead id b q.addr false
  | some r =>
    if (x.nextRecord.map Swath.id) == some r.id then
      if r.live then x.releaseRead id r.id q.addr q.len
      else x.holdRead { id := id, tag := q.tag, addr := q.addr, len := q.len, swath := r.id }
    else x.refuseRead id b q.addr true

/-! ## Rewriting (R33, R34) -/

/-- One bit of a byte. -/
def bitAt (i : Nat) (v : Bool) : Byte := if v then 1#8 <<< i else 0#8

/-- The out nozzles of slice byte `j` of a channel, as the bits of the byte (R3, R33). -/
def outMask (l : List OutEntry) (k : Channel) (j : Nat) : Byte :=
  l.foldl (fun m e => if e.channel == k && e.nozzle / 8 == j then m ||| (1#8 <<< (e.nozzle % 8)) else m) 0#8

/-- Substitution of one pair of partners: which of the two are out, their marks as read; the marks delivered and the
lost dots (R33). -/
def substitutePair (out0 out1 m0 m1 : Bool) : Bool × Bool × Nat :=
  match out0, out1 with
  | false, false => (m0, m1, 0)
  | true, false => (false, m0 || m1, if m0 && m1 then 1 else 0)
  | false, true => (m0 || m1, false, if m0 && m1 then 1 else 0)
  | true, true => (false, false, (if m0 then 1 else 0) + (if m1 then 1 else 0))

/-- Substitution of a byte, pair by pair (R33). -/
def substitute (out b : Byte) : Byte × Nat :=
  [0, 2, 4, 6].foldl
    (fun (d, lost) i =>
      let (d0, d1, l) := substitutePair (out.getLsbD i) (out.getLsbD (i + 1)) (b.getLsbD i) (b.getLsbD (i + 1))
      (d ||| bitAt i d0 ||| bitAt (i + 1) d1, lost + l))
    (0#8, 0)

/-- Spit injection into a byte: every nozzle not out is set; the marks set where there was none (R34). -/
def inject (spit : Bool) (out b : Byte) : Byte × Nat :=
  if spit then (b ||| ~~~out, popCount (~~~out &&& ~~~b)) else (b, 0)

/-- What the rewriting of a read has counted so far (R33 to R35). -/
structure Rewrite where
  delivered : Six Nat
  lost : Nat
  injected : Nat
  fired : List (Channel × Nat)
  data : List Byte
  deriving DecidableEq, Repr

def Rewrite.empty : Rewrite := { delivered := .all 0, lost := 0, injected := 0, fired := [], data := [] }

/-- One byte of a released read, at a buffer offset, rewritten and counted (R33 to R35). -/
def Chip.rewriteByte (x : Chip) (r : Swath) (w : Rewrite) (o : Nat) (b : Byte) : Rewrite :=
  let k := channelOf o
  let j := sliceByteOf o
  let out := outMask x.nmn.outList k j
  let s := substitute out b
  let spit := decide (columnOf o < x.spitDepth k) && (r.spitSet.get k).contains (groupOf j)
  let i := inject spit out s.1
  { delivered := w.delivered.set k (w.delivered.get k + popCount i.1)
    lost := w.lost + s.2
    injected := w.injected + i.2
    fired := if i.1 == 0#8 || w.fired.contains (k, groupOf j) then w.fired else w.fired ++ [(k, groupOf j)]
    data := w.data ++ [i.1] }

/-- The data of a released read, rewritten byte by byte from its offset on (R33 to R35). -/
def Chip.rewrite (x : Chip) (r : Swath) (offset : Nat) (data : List Byte) : Rewrite :=
  data.zipIdx.foldl (fun w e => x.rewriteByte r w (offset + e.2) e.1) Rewrite.empty

/-- Counts of a delivered read in the swath record; an ARMED record becomes FIRING (R35). -/
def Swath.count (r : Swath) (w : Rewrite) : Swath :=
  { r with delivered := addSix r.delivered w.delivered, lost := addCount r.lost w.lost,
           injected := addCount r.injected w.injected, state := .firing }

/-- Consumption of the delivered marks of one channel (R35). -/
def Chip.consumeDelivered (x : Chip) (w : Rewrite) (k : Channel) : Chip :=
  let marks := w.delivered.get k
  if marks = 0 then x else x.consume k (marks * (x.account k).dropVolume) .swath

/-- A group of a used channel in which a mark was delivered takes its last fire time (R35, R78). -/
def Chip.fireDelivered (x : Chip) (e : Channel × Nat) : Chip :=
  if (x.account e.1).used then x.fireGroup e.1 e.2 else x

/-- Counting and hand-offs of a delivered read (R35): the GATE record, which shows the buffer FIRING, becomes pending at the
fourth step, behind the CHANNEL records of the second; the channels' consumptions are taken in ascending channel number (the
model's choice, log entry 36). -/
def Chip.countDelivered (x : Chip) (r : Swath) (w : Rewrite) : Chip :=
  let x := channels.foldl (fun y k => y.consumeDelivered w k) (x.onSwath r.id fun a => a.count w)
  let x := w.fired.foldl Chip.fireDelivered x
  if r.state == .armed then (x.markStatus 10).firingBegun else x

/-- Whether a range of the buffer covers the last byte of the swath extent (R10, R37). -/
def Swath.lastCovered (r : Swath) (offset len : Nat) : Bool :=
  let last := r.columns * Config.columnBytes - 1
  decide (offset ≤ last ∧ last < offset + len)

end Sys2Proof.Machine
end

