-- ==== Sys2Proof/Machine/Feed.lean ====
section
/-! DEFINITION. The feed controller: feed orders, loading, advances, drying, cutting, clearing, halts, the removal and the
admission of sheets (chapters 7 and 8). -/

namespace Sys2Proof.Machine

/-! ## Sheets and rolls -/

/-- A change of the feed controller's state, with the status records that show it: its own and the gate's next swath and the
eligible entries of the service controller that follow from it (R168). -/
def Chip.feedStage (x : Chip) (f : FeedController → FeedController) : Chip := (x.onFdc f).refreshStatus x

/-- The platen sheet, changed; nothing where there is none. -/
def Chip.onPlaten (x : Chip) (f : Sheet → Sheet) : Chip :=
  x.feedStage fun d => { d with sheets := d.sheets.map fun h => if h.state.onPlaten then f h else h }

/-- The sheet with this id, changed. -/
def Chip.onSheet (x : Chip) (id : Nat) (f : Sheet → Sheet) : Chip :=
  x.feedStage fun d => { d with sheets := d.sheets.map fun h => if h.id == id then f h else h }

def FeedController.onRoll (d : FeedController) (n : RollNo) (f : Roll → Roll) : FeedController :=
  match n with
  | .one => { d with roll1 := f d.roll1 }
  | .two => { d with roll2 := f d.roll2 }

/-- Media fed from a roll: whole millimetres leave the remaining, the rest stays in the accumulator (R128). -/
def Roll.feed (r : Roll) (um : Nat) : Roll :=
  { r with remaining := r.remaining - (r.fed + um) / 1000, fed := (r.fed + um) % 1000 }

/-- A roll at its end (R128). -/
def Roll.ended (r : Roll) : Roll := { r with out := true, remaining := 0, fed := 0 }

/-- A fed length is taken from the threaded roll, when that is roll 1 or 2 (R128). -/
def Chip.fedOnto (x : Chip) (um : Nat) : Chip :=
  match x.fdc.threaded with
  | .roll n => x.feedStage fun d => d.onRoll n fun r => r.feed um
  | .none => x
  | .unknown => x

/-- The roll that a roll end makes OUT, if any (R128). -/
def Chip.rollAtEnd (x : Chip) : Option RollNo :=
  match x.fdc.threaded, x.platen with
  | .roll n, _ => some n
  | .none, some h => if x.fdc.feed == .loading && (h.loadStep == 2 || h.loadStep == 3) then h.assigned else none
  | .none, none => none
  | .unknown, _ => none

/-- A roll end met by an order: the roll is OUT, the threaded roll NONE, and the SHEET record ROLL END is made (R128). -/
def Chip.rollEnd (x : Chip) (op : FeedOp) : Chip :=
  let roll := x.rollAtEnd
  let x := x.feedStage fun d =>
    match roll with
    | some n => { d.onRoll n Roll.ended with threaded := .none }
    | none => { d with threaded := .none }
  match x.platen with
  | some h => x.journal (.sheetRollEnd h.id roll op)
  | none => x

/-! ## Feed orders (R130) -/

def LinkOrder.isFeedOrder (serial : Nat) : LinkOrder → Bool
  | .feed _ n => n == serial
  | .feedStatus n => n == serial
  | .feedCheck n => n == serial
  | _ => false

/-- A feed order is placed with its deadline (R130); its fed length is 0 until a STATUS reply gives one (the model's choice,
log entry 44). -/
def Chip.placeFeed (x : Chip) (op : FeedOp) (limit : Nat) : Chip :=
  let serial := x.fdc.nextOrder
  (x.onFdc fun d =>
    { d with order := some { op := op, serial := serial, deadline := x.now + limit, fed := 0, pollAt := none },
             nextOrder := serial + 1 }).offer (.feed op serial)

/-- How a feed order ends (R130). -/
inductive FeedResult where
  | done
  | rollEnd
  | fault (code : Nat)
  | link (o : LinkOutcome)
  | timeout
  deriving DecidableEq, Repr

def feedFaultJam : Nat := 1
def feedFaultRollEnd : Nat := 2
def feedFaultSkew : Nat := 3

/-- The halt cause a result gives (R138). -/
def FeedResult.haltCause (op : FeedOp) : FeedResult → Option FailureCause
  | .done => none
  | .rollEnd => some .rollEnd
  | .fault code =>
    if code = feedFaultJam then some .jam else if code = feedFaultSkew then some .skew else some (.feedFault code)
  | .link o => some (.link o)
  | .timeout => some (.timeout op)

/-! ## Removal of a sheet (R124) -/

def Sheet.removedRecord (h : Sheet) (outcome : SheetOutcome) : JournalRecord :=
  .sheetRemoved h.id outcome h.state h.done h.swathCount h.assigned h.defect h.cancel h.cause

/-- The feed controller at rest, the rolls and the uncut-tail flag kept (R124, R129). -/
def FeedController.rest (d : FeedController) : FeedController :=
  { d with feed := .idle, positioned := none, purpose := none, dryTimer := none, order := none, check := none }

/-- The third step of a removal: the record leaves the queue, which the SHEETS record shows (R124). -/
def Chip.leaveQueue (x : Chip) (id : Nat) : Chip :=
  (x.onFdc fun d => { d with sheets := d.sheets.filter fun a => a.id != id }).showChange x 9

/-- The fifth step of a removal that began to change the queue at `old`: the gate finds the next swath again, which the GATE
record shows, and the SHEETS record is rewritten (R124, R14). -/
def Chip.tellGate (x old : Chip) : Chip := (x.showChange old 10).markStatus 9

/-- A sheet is removed with its outcome, in the order of R124, each status record pending at the step that changes it; the
arming test follows where the platen sheet or the next swath has changed (R124, R19). -/
def Chip.removeSheet (x : Chip) (h : Sheet) (outcome : SheetOutcome) : Chip :=
  let recorded := (x.unbindSheet h.id).journal (h.removedRecord outcome)
  let y := ((recorded.leaveQueue h.id).sheetRemoved).tellGate recorded
  let y := if h.state.onPlaten then (y.onFdc FeedController.rest).callArming else y
  (y.noticeNext x).callAdmission

/-- The platen sheet as it stands is removed; nothing where there is none. -/
def Chip.removePlaten (x : Chip) (outcome : Sheet → SheetOutcome) : Chip :=
  match x.platen with
  | some h => x.removeSheet h (outcome h)
  | none => x

/-- PRINTED or DEFECTIVE by the defect mark (R117). -/
def Sheet.printedOutcome (h : Sheet) : SheetOutcome := if h.defect then .defective else .printed

/-- The outcome of a clearing by the failure cause (R118). -/
def Sheet.clearedOutcome (h : Sheet) : SheetOutcome :=
  match h.cause with
  | some .mediaOut => .mediaOut
  | some .spoiled => .spoiled
  | _ => .cancelled

/-! ## Halts (R138) -/

/-- A halt of the feed and the platen sheet, with its SHEET record (R138). The GATE and SERVICE records become pending with the
sheet's state, before the SHEET record is asked for, so before HEADER where it is dropped: the model's choice, since R138 tells
the record before what the gate and the service controller make of it, without an order (log entry 56). -/
def Chip.halt (x : Chip) (op : FeedOp) (cause : FailureCause) : Chip :=
  let feed := x.fdc.feed
  let x := x.onPlaten fun h => { h with state := .halted, cause := some cause }
  let x := x.feedStage fun d => { d with feed := .halted, positioned := none, purpose := none }
  let x := match x.platen with
    | some h => x.journal (.sheetHalted h.id feed op cause h.loadStep h.done)
    | none => x
  x.callArming

/-- A result other than DONE halts with its cause (R138). -/
def Chip.haltBy (x : Chip) (op : FeedOp) (r : FeedResult) : Chip :=
  match r.haltCause op with
  | some cause => x.halt op cause
  | none => x

/-! ## Clearing (R136, R137) -/

def Chip.clearUncut (x : Chip) : Chip := x.feedStage fun d => { d with uncutTail := false }

/-- The clearing sequence begins: the cut only, an advance and a cut, or nothing to clear (R136). -/
def Chip.startClearing (x : Chip) (cutOnly : Bool) : Chip :=
  let x := x.feedStage fun d => { d with feed := .clearing, positioned := none, purpose := none }
  match x.platen with
  | none => x
  | some h =>
    if cutOnly || h.cause == some .mediaOut then x.placeFeed .cut Config.feedDeadline
    else match x.fdc.threaded with
      | .roll _ =>
        (x.onFdc fun d => { d with purpose := some .clear }).placeFeed (.advance Config.clearingAdvance)
          Config.feedDeadline
      | .none => x.removePlaten Sheet.clearedOutcome
      | .unknown => x.removePlaten Sheet.clearedOutcome

/-- The platen sheet becomes CLEARING: its swaths are unbound, and the clearing begins unless a feed order is in progress
(R15, R121, R136). -/
def Chip.enterClearing (x : Chip) : Chip :=
  match x.platen with
  | none => x
  | some h =>
    let x := ((x.onPlaten fun h => { h with state := .clearing }).unbindSheet h.id).callArming
    if x.fdc.order.isNone then x.startClearing false else x

/-- MEDIA OUT, unless the sheet is SPOILED (R118, R137). -/
def Sheet.withMediaOut (h : Sheet) : Sheet :=
  if h.cause == some .spoiled then h else { h with cause := some .mediaOut }

/-- MEDIA OUT, where the sheet had no failure cause (R136). -/
def Sheet.withMediaOutIfNone (h : Sheet) : Sheet :=
  match h.cause with
  | none => { h with cause := some .mediaOut }
  | some _ => h

/-- A roll end in a platen advance: MEDIA OUT, CLEARING, the cut only (R137). -/
def Chip.platenRollEnd (x : Chip) : Chip :=
  match x.platen with
  | none => x
  | some h =>
    (((x.onPlaten fun h => { h.withMediaOut with state := .clearing }).unbindSheet h.id).callArming).startClearing true

/-- The end of an order of the clearing sequence (R136). -/
def Chip.clearingResult (x : Chip) (op : FeedOp) (r : FeedResult) : Chip :=
  match op, r with
  | .advance _, .done => (x.onFdc fun d => { d with purpose := none }).placeFeed .cut Config.feedDeadline
  | .advance _, .rollEnd =>
    ((x.onPlaten Sheet.withMediaOutIfNone).onFdc fun d => { d with purpose := none }).placeFeed .cut Config.feedDeadline
  | .cut, .done => x.clearUncut.removePlaten Sheet.clearedOutcome
  | .cut, .rollEnd => (x.clearUncut.onPlaten Sheet.withMediaOutIfNone).removePlaten Sheet.clearedOutcome
  | op, r => x.haltBy op r

/-! ## Loading (R131, R132) -/

/-- The platen is POSITIONED for a swath, and the gate is told (R116, R132, R133). -/
def Chip.positionFor (x : Chip) (index : Nat) : Chip :=
  (x.onFdc fun d => { d with feed := .positioned, positioned := some index, purpose := none }).callArming

/-- The last load step has ended DONE (R116, R132). -/
def Chip.loadComplete (x : Chip) : Chip := (x.onPlaten fun h => { h with state := .ready }).positionFor 0

/-- The first order of a load step, where it has one (R131). -/
def Chip.loadOrder (x : Chip) (h : Sheet) (step : Nat) : Option FeedOp :=
  match step with
  | 1 =>
    if x.fdc.uncutTail then some .cut else if x.fdc.threaded == .none then none else some .rewind
  | 2 => h.assigned.map FeedOp.selectRoll
  | 3 => some .thread
  | 4 => some .align
  | 5 => if h.topMargin = 0 then none else some (.advance (h.topMargin * 1000))
  | _ => none

/-- The load step begins: the step reached takes its number, and its order, if it has one, is placed (R131). -/
def Chip.beginLoadStep (x : Chip) (step : Nat) (op : Option FeedOp) : Chip :=
  let x := x.onPlaten fun h => { h with loadStep := step }
  match op with
  | some o =>
    (x.onFdc fun d => { d with purpose := if step = 5 then some .margin else none }).placeFeed o Config.loadDeadline
  | none => x

/-- The last `n` of the five load steps, each empty one ending DONE as it begins (R131). -/
def Chip.runLoad : Nat → Chip → Chip
  | 0, x => x.loadComplete
  | n + 1, x =>
    match x.platen with
    | none => x
    | some h =>
      let op := x.loadOrder h (5 - n)
      let x := x.beginLoadStep (5 - n) op
      if op.isSome then x else x.runLoad n

/-- A load step has ended DONE: the clearing for a marked or spoiled sheet, else the next step (R120, R123, R132). -/
def Chip.loadStepDone (x : Chip) : Chip :=
  match x.platen with
  | none => x
  | some h => if h.cancel || h.cause == some .spoiled then x.enterClearing else x.runLoad (5 - h.loadStep)

/-- The end of an order of the load sequence (R131, R132). -/
def Chip.loadResult (x : Chip) (op : FeedOp) (r : FeedResult) : Chip :=
  match op, r with
  | .cut, .done =>
    let x := x.clearUncut
    if x.fdc.threaded == .none then x.loadStepDone else x.placeFeed .rewind Config.loadDeadline
  | .cut, .rollEnd => x.clearUncut.loadStepDone
  | .rewind, .done => (x.feedStage fun d => { d with threaded := .none }).loadStepDone
  | .rewind, .rollEnd => x.loadStepDone
  | .selectRoll _, .done => x.loadStepDone
  | .thread, .done =>
    (x.feedStage fun d =>
      { d with threaded := match x.platen.bind Sheet.assigned with
                 | some n => .roll n
                 | none => d.threaded }).loadStepDone
  | .align, .done => x.loadStepDone
  | .advance _, .done => x.loadStepDone
  | .advance _, .rollEnd => x.platenRollEnd
  | op, r => x.haltBy op r

/-! ## Printing, drying and cutting (R133 to R135) -/

/-- The dry timer runs out: the cut, or the removal of a CONTINUE sheet (R134). -/
def Chip.dryExpired (x : Chip) : Chip :=
  let x := x.feedStage fun d => { d with dryTimer := none }
  match x.platen with
  | none => x
  | some h =>
    match h.cutMode with
    | .cut =>
      ((x.onPlaten fun h => { h with state := .cutting }).onFdc fun d => { d with feed := .cutting }).placeFeed .cut
        Config.feedDeadline
    | .keepOn => (x.feedStage fun d => { d with uncutTail := true }).removePlaten Sheet.printedOutcome

/-- Drying begins; a dry time of 0 runs out in the same event (R134). -/
def Chip.beginDrying (x : Chip) : Chip :=
  match x.platen with
  | none => x
  | some h =>
    let x := x.onFdc fun d =>
      { d with feed := .drying, positioned := none, purpose := none, dryTimer := some (x.now + h.dryTime * 1000000) }
    if h.dryTime = 0 then x.dryExpired else x

/-- A platen advance begins (R133, R134). -/
def Chip.beginAdvance (x : Chip) (um : Nat) (purpose : AdvancePurpose) : Chip :=
  (x.onFdc fun d => { d with feed := .advancing, positioned := none, purpose := some purpose }).placeFeed (.advance um)
    Config.feedDeadline

/-- The platen sheet, changed, as `onPlaten` does it, with the SHEETS record alone compared. -/
def Chip.onPlatenShown (x : Chip) (f : Sheet → Sheet) : Chip :=
  (x.onFdc fun d => { d with sheets := d.sheets.map fun h => if h.state.onPlaten then f h else h }).showChange x 9

/-- The feed controller is told that swath `k` of the platen sheet is complete (R116, R117, R121, R133, R134). The eligibility of
the service entries is judged against what the completion leaves of the part before it, `before`: a READY sheet whose first
swath completes was in progress, and is PRINTING then; it is in progress no longer where it is DRYING or CLEARING (R104). -/
def Chip.swathComplete (x before : Chip) (k : Nat) : Chip :=
  match x.platen with
  | none => x
  | some h =>
    if h.cancel then (x.showChange before 11).enterClearing
    else if k + 1 < h.swathCount then
      (x.onPlatenShown fun h => { h with state := .printing }).beginAdvance h.swathAdvance .swath
    else
      let x := ((x.onPlaten fun h => { h with state := .drying }).showChange before 11).callArming
      if h.tail = 0 then x.beginDrying else x.beginAdvance h.tail .tail

/-- The end of a SWATH or TAIL advance (R133, R134, R137). -/
def Chip.advanceResult (x : Chip) (op : FeedOp) (r : FeedResult) : Chip :=
  match r, x.platen with
  | .done, some h =>
    if h.state == .clearing then x.startClearing false
    else if x.fdc.purpose == some .tail then x.beginDrying
    else x.positionFor h.done
  | .done, none => x
  | .rollEnd, _ => x.platenRollEnd
  | r, _ => x.haltBy op r

/-- The end of the CUT of a CUTTING sheet (R135). -/
def Chip.cuttingResult (x : Chip) (op : FeedOp) (r : FeedResult) : Chip :=
  match r with
  | .done => x.clearUncut.removePlaten Sheet.printedOutcome
  | .rollEnd => x.clearUncut.removePlaten Sheet.printedOutcome
  | r => x.haltBy op r

/-! ## The end of a feed order (R130) -/

/-- The rule of the feed state that placed an order decides what its result does (R130). -/
def Chip.feedResult (x : Chip) (op : FeedOp) (r : FeedResult) : Chip :=
  match x.fdc.feed with
  | .loading => x.loadResult op r
  | .advancing => x.advanceResult op r
  | .cutting => x.cuttingResult op r
  | .clearing => x.clearingResult op r
  | .idle => x
  | .positioned => x
  | .drying => x
  | .halted => x

def FeedOp.isAdvance : FeedOp → Bool
  | .advance _ => true
  | .selectRoll _ => false
  | .rewind => false
  | .thread => false
  | .align => false
  | .cut => false

/-- A feed order ends with a result and a fed length: the fed length of an ADVANCE, the roll end, then the rule of the
feed state (R128, R130). Its declined orders are discarded (R148). -/
def Chip.endFeedOrder (x : Chip) (o : FeedOrder) (r : FeedResult) (fed : Nat) : Chip :=
  let x := x.onFdc fun d => { d with order := none }
  let x := x.onFlm fun m => { m with feedRoom := m.feedRoom.discard (LinkOrder.isFeedOrder o.serial) }
  let x := if o.op.isAdvance then x.fedOnto fed else x
  let x := if r == .rollEnd then x.rollEnd o.op else x
  x.feedResult o.op r

/-- The feed order in progress, where it is the one with this number. -/
def Chip.feedOrder (x : Chip) (serial : Nat) : Option FeedOrder :=
  match x.fdc.order with
  | some o => if o.serial = serial then some o else none
  | none => none

/-- The outcome of the frame of a feed order; discarded where the order has ended (R130, R140). -/
def Chip.takeFeedFrame (x : Chip) (serial : Nat) (outcome : FrameOutcome) : Chip :=
  match x.feedOrder serial with
  | none => x
  | some o =>
    let polling := fun y : Chip => y.onFdc fun d =>
      { d with order := some { o with pollAt := some (y.now + Config.pollStatusTime) } }
    match outcome with
    | .done _ => polling x
    | .busyTimeout => polling x
    | .absent => x.endFeedOrder o (.link .absent) o.fed
    | .refused => x.endFeedOrder o (.link .refused) o.fed
    | .checkError => x.endFeedOrder o (.link .checkError) o.fed

/-- The outcome of a feed STATUS; one other than DONE changes nothing (R130). -/
def Chip.takeFeedStatus (x : Chip) (serial : Nat) (outcome : FrameOutcome) : Chip :=
  match x.feedOrder serial, outcome with
  | some o, .done (.feed state code fed) =>
    match state with
    | .busy => x.onFdc fun d => { d with order := some { o with fed := fed } }
    | .done => x.endFeedOrder o .done fed
    | .fault =>
      if code = feedFaultRollEnd then x.endFeedOrder o .rollEnd fed else x.endFeedOrder o (.fault code) fed
  | _, _ => x

/-- The path is clear: the HALTED sheet is removed JAMMED (R139). The threaded roll and the uncut-tail flag change before the
removal, so the ROLL and SHEETS records become pending before the GATE, HEADER and SERVICE records of the removal: the model's
choice, since R139 tells the removal first, without an order (log entry 55). -/
def Chip.jamCleared (x : Chip) : Chip :=
  (x.feedStage fun d => { d with threaded := .unknown, uncutTail := false }).removePlaten fun _ => .jammed

/-- The check has found a fault, or its STATUS failed (R139). -/
def Chip.clearFailed (x : Chip) (code : Nat) : Chip :=
  match x.platen with
  | some h => x.journal (.sheetClearFailed h.id code)
  | none => x

/-- The outcome of the STATUS of a CLEAR JAM check; discarded where the check is gone (R139, R140). -/
def Chip.takeFeedCheck (x : Chip) (serial : Nat) (outcome : FrameOutcome) : Chip :=
  if x.fdc.check = some serial then
    let x := x.onFdc fun d => { d with check := none }
    match outcome with
    | .done (.feed .fault code _) => x.clearFailed code
    | .done _ => x.jamCleared
    | outcome => x.clearFailed outcome.kind.code
  else x

/-! ## Spoiling (R123) -/

/-- A spoil report for a sheet (R123). -/
def Chip.spoil (x : Chip) (id : Nat) : Chip :=
  match x.sheet id with
  | none => x
  | some h =>
    let spoiled := fun a : Sheet => { a with cause := some .spoiled }
    match h.state with
    | .queued => x.removeSheet h .spoiled
    | .waiting => x.removeSheet h .spoiled
    | .loading => x.onSheet id spoiled
    | .ready => (x.onSheet id spoiled).enterClearing
    | .printing => (x.onSheet id spoiled).enterClearing
    | .drying => x
    | .cutting => x
    | .clearing => x
    | .halted => x

/-! ## Admission (R113 to R115, R58) -/

/-- A roll qualifies for a sheet (R114). -/
def Roll.qualifies (r : Roll) (h : Sheet) : Bool :=
  r.enabled && !r.out && r.mediaType == h.mediaType && decide (h.length ≤ r.remaining)

def RollNo.other : RollNo → RollNo
  | .one => .two
  | .two => .one

/-- Which roll is tried first under EITHER (R114). -/
def Threaded.firstRoll : Threaded → RollNo
  | .roll n => n
  | .none => .one
  | .unknown => .one

/-- Roll choice (R114). -/
def FeedController.chooseRoll (d : FeedController) (h : Sheet) : Option RollNo :=
  let ok := fun n => (d.rollOf n).qualifies h
  match h.preference with
  | .roll1 => if ok .one then some .one else none
  | .roll2 => if ok .two then some .two else none
  | .either =>
    let first := d.threaded.firstRoll
    if ok first then some first else if ok first.other then some first.other else none

/-- The nanolitres a channel could find (R58). -/
def InkChannel.findable (i : InkChannel) : Nat :=
  i.account.available + (if i.cartridge.state == .active then i.cartridge.remaining * 1000 else 0)

/-- The lowest-numbered channel that is short of a sheet's estimate (R58). -/
def Chip.shortChannel (x : Chip) (estimate : Six Nat) : Option Channel :=
  channels.find? fun k => decide ((x.ink.get k).findable < estimate.get k * 1000)

/-- How many load steps the load plan runs, the last ones of five (R131). -/
def FeedController.loadPlan (d : FeedController) (n : RollNo) : Nat :=
  if d.threaded == .roll n then (if d.uncutTail then 1 else 2) else 5

/-- Admission passes: the sheet is LOADING on its roll (R115, R131). -/
def Chip.admitTo (x : Chip) (h : Sheet) (n : RollNo) : Chip :=
  let plan := x.fdc.loadPlan n
  let x := x.onSheet h.id fun a =>
    { a with state := .loading, waitingCause := none, assigned := some n, loadStep := 5 - plan }
  ((x.onFdc fun d => { d with feed := .loading }).callArming).runLoad plan

/-- Admission fails: the sheet is WAITING, with a SHEET record where it was not waiting for the same cause (R115). -/
def Chip.keepWaiting (x : Chip) (h : Sheet) (cause : WaitingCause) (record : JournalRecord) : Chip :=
  let x := x.onSheet h.id fun a => { a with state := .waiting, waitingCause := some cause }
  if h.state == .queued || h.waitingCause != some cause then x.journal record else x

/-- The sheet the admission test applies to (R113). -/
def Chip.admissionCandidate (x : Chip) : Option Sheet :=
  if x.cmi.partState == .running && x.platen.isNone && x.fdc.feed == .idle then x.fdc.sheets.head? else none

/-- The admission test (R113 to R115). -/
def Chip.admissionTest (x : Chip) : Chip :=
  match x.admissionCandidate with
  | none => x
  | some h =>
    match x.fdc.chooseRoll h with
    | none =>
      x.keepWaiting h .media
        (.sheetWaitingMedia h.id h.preference x.fdc.roll1.remaining x.fdc.roll2.remaining)
    | some n =>
      match h.estimate with
      | none => x.admitTo h n
      | some e =>
        match x.shortChannel e with
        | none => x.admitTo h n
        | some k => x.keepWaiting h .ink (.sheetWaitingInk h.id k.val (e.get k) (x.ink.get k).findable)

/-! ## RESTART (R125, R140) -/

/-- A sheet is removed by RESTART: its record, the sheet leaves the queue, and the gate finds the next swath again (R124,
R125). -/
def Chip.restartRemoval (x : Chip) (h : Sheet) : Chip :=
  let recorded := x.journal (h.removedRecord .cancelled)
  (recorded.leaveQueue h.id).tellGate recorded

/-- Every sheet is removed with the outcome CANCELLED, oldest first; these removals are not counted (R125). -/
def Chip.restartSheets (x : Chip) : Chip := x.fdc.sheets.foldl Chip.restartRemoval x

/-- The feed controller's own part of RESTART, with the sheets (R125, R140). -/
def Chip.restartFeed (x : Chip) : Chip :=
  let onPlaten := x.platen.isSome
  x.restartSheets.onFdc fun d =>
    { d.rest with threaded := .unknown, uncutTail := d.uncutTail || onPlaten }

end Sys2Proof.Machine
end

