-- ==== Sys2Proof/Machine/Service.lean ====
section
/-! DEFINITION. The service controller's cycles: the claim, steps and their orders, success, failure, the wake sequence and
the abandonment by RESTART (R96 to R100, R105 to R109). -/

namespace Sys2Proof.Machine

/-! ## Where the carriage is (R100) -/

/-- The location after a step that ends DONE (R100). -/
def StepKind.locationAfter (kind : StepKind) (l : Location) : Location :=
  match kind with
  | .park => if l == .stranded then .stranded else .station
  | .uncap => if l == .stranded then .stranded else .station
  | .cap => if l == .stranded then .stranded else .capped
  | .carriageReturn => .printSide
  | .wipe => l
  | .prime => l
  | .check => l
  | .wait => l

/-- A change of location, which the SERVICE record shows, is reported to the gate, which runs its arming test again (R100, R168,
R19). -/
def Chip.setLocation (x : Chip) (l : Location) : Chip :=
  if x.svc.location == l then x else ((x.onSvc fun v => { v with location := l }).markStatus 11).callArming

/-! ## Beginning a step (R96 to R98) -/

/-- The channels of a mask that are used at this moment (R96). -/
def Chip.usedMask (x : Chip) (mask : BitVec 8) : BitVec 8 := maskOf fun k => inMask mask k && (x.account k).used

/-- The amounts a PRIME step reserves: parameter × 1,000 nL in each masked channel (R98). -/
def primeAmounts (mask : BitVec 8) (ul : Nat) : Six Nat := .of fun k => if inMask mask k then ul * 1000 else 0

/-- A station order of the current step is placed (R97). -/
def Chip.offerStation (x : Chip) (o : StationOrder) : Chip := x.offer (.station o x.svc.nextStep)

/-- The current step's order is placed, to be polled when it is taken (R97). -/
def Chip.orderStep (x : Chip) (o : StationOrder) : Chip :=
  (x.onCycle fun c => { c with phase := .ordered }).offerStation o

/-- A PRIME step asks for its ink: on a grant its order is placed, on a refusal it waits (R98). -/
def Chip.askPrime (x : Chip) : Chip :=
  let c := x.svc.cycle
  let amounts := primeAmounts c.mask c.current.parameter
  if x.canReserve amounts then
    ((x.reserve .prime amounts).onCycle fun c =>
      { c with granted := true, primeRemaining := amounts, reservationDeadline := none }).orderStep
      (.prime c.mask c.current.parameter)
  else (x.onCycle fun c => { c with phase := .reserving }).refuseReservation amounts

/-- A PRIME step waiting for its grant asks again on a notice of the ink controller (R98, R53). -/
def Chip.retryPrime (x : Chip) : Chip := if x.svc.cycle.phase == .reserving then x.askPrime else x

/-- A step becomes the current one, with its deadline (R96). -/
def Chip.openStep (x : Chip) (st : ServiceStep) (mask : BitVec 8) : Chip :=
  x.onSvc fun v =>
    { v with nextStep := v.nextStep + 1,
             cycle := { v.cycle with
               current := st, mask := mask, phase := .none, stepDeadline := some (x.now + Config.stepDeadline),
               reservationDeadline := none, granted := false, primeRemaining := .all 0, report := [], pages := 0 } }

/-- A PRIME or CHECK step with no used channel in its mask ends DONE at once (R96). -/
def ServiceStep.nothingToDo (st : ServiceStep) (mask : BitVec 8) : Bool :=
  (st.kind == .prime || st.kind == .check) && mask == 0#8

/-- The mask a step acts on: PRIME and CHECK drop the unused channels (R96). -/
def Chip.stepMask (x : Chip) (st : ServiceStep) : BitVec 8 :=
  if st.kind == .prime || st.kind == .check then x.usedMask st.mask else st.mask

/-- The first act of a step that does not end at once (R96 to R99). -/
def Chip.actStep (x : Chip) (st : ServiceStep) : Chip :=
  match st.kind with
  | .park => x.orderStep .park
  | .wipe => x.orderStep .wipe
  | .prime =>
    (x.onCycle fun c => { c with reservationDeadline := some (x.now + Config.reservationDeadline) }).askPrime
  | .check => x.orderStep (.check x.svc.cycle.mask)
  | .cap => x.orderStep .cap
  | .uncap => x.orderStep .uncap
  | .wait => x.onCycle fun c => { c with phase := .waiting (x.now + st.parameter * 1000) }
  | .carriageReturn => x.orderStep .carriageReturn

/-! ## The end of a step and of a cycle (R106 to R109) -/

/-- The current step holds nothing any more: its reservation is released (R98) and its declined orders are discarded
(R148). -/
def Chip.closeStep (x : Chip) : Chip :=
  let x := if x.svc.cycle.granted then x.release .prime else x
  let x := x.onFlm fun m => { m with serviceRoom := m.serviceRoom.discard fun _ => true }
  x.onCycle fun c =>
    { c with phase := .none, stepDeadline := none, reservationDeadline := none, granted := false,
             primeRemaining := .all 0, report := [], pages := 0 }

/-- The SERVICE record of the cycle in progress (R106 to R109); for an abandoned cycle and a wake it fills the fields their
rules do not name as R106 fills them (the model's choice, log entry 43). -/
def Chip.serviceRecord (x : Chip) (kind : CycleKind) (outcome : StepOutcome) (recovery : Recovery) : JournalRecord :=
  let c := x.svc.cycle
  .service kind outcome c.stepReached (c.reachedKind.getD .carriageReturn) recovery x.svc.location
    (Config.durationMs (x.now - c.startTime))

/-- The end of a cycle: its journal record, the last cycle, and the cycle NONE, which the status record SERVICE shows (R93,
R106 to R109). -/
def Chip.endCycle (x : Chip) (outcome : StepOutcome) (recovery : Recovery) : Chip :=
  match x.svc.cycle.kind with
  | none => x.onCycle fun _ => .idle
  | some kind =>
    let x := x.journal (x.serviceRecord kind outcome recovery)
    (x.onSvc fun v =>
      { v with lastCycle := some { kind := kind, outcome := outcome, stepReached := v.cycle.stepReached },
               cycle := .idle }).markStatus 11

/-- The carriage claim is released to the gate (R23, R106). -/
def Chip.freeClaim (x : Chip) : Chip := (x.onSgt fun g => { g with claim := .free }).callArming

/-- The gate is told that a wake has ended, so it may ask again (R22, R108). -/
def Chip.wakeEnded (x : Chip) : Chip := (x.onSgt fun g => { g with wakeAskedFor := none }).callArming

/-- The last step has ended DONE: a program's cycle succeeds (R106), or the wake ends (R108). -/
def Chip.cycleSucceeds (x : Chip) : Chip :=
  match x.svc.cycle.kind with
  | some (.program p) => ((x.resetCounters p).endCycle .done .none).freeClaim
  | some .wake => ((x.endCycle .done .none).freeClaim).wakeEnded
  | none => x

/-- The steps still to run, each beginning in the event that ends the one before it; a step with nothing to do ends DONE
at once (R96, R106). -/
def Chip.runSteps : List ServiceStep → Chip → Chip
  | [], x => x.cycleSucceeds
  | st :: rest, x =>
    let mask := x.stepMask st
    let x := ((x.onCycle fun c => { c with stepReached := c.stepReached + 1 }).openStep st mask).showChange x 11
    if st.nothingToDo mask then (x.closeStep).runSteps rest else x.actStep st

/-- A step of a program has failed: the recovery RETURN begins (R107). -/
def Chip.recover (x : Chip) (outcome : StepOutcome) : Chip :=
  ((x.onCycle fun c => { c with state := .recovering, failure := some outcome }).openStep .carriageReturn 0#8).actStep
    .carriageReturn

/-- The recovery RETURN has ended (R107). -/
def Chip.recovered (x : Chip) (outcome : StepOutcome) : Chip :=
  let returned := outcome == .done
  let failure := x.svc.cycle.failure.getD .done
  ((x.setLocation (if returned then .printSide else .stranded)).endCycle failure
    (if returned then .returned else .stranded)).freeClaim

/-- A step of a running cycle has failed: recovery for a program (R107), STRANDED for the wake (R108). -/
def Chip.runningFailed (x : Chip) (outcome : StepOutcome) : Chip :=
  match x.svc.cycle.kind with
  | some .wake => (((x.setLocation .stranded).endCycle outcome .none).freeClaim).wakeEnded
  | some (.program _) => x.recover outcome
  | none => x

/-- The current step ends in an outcome (R96, R106 to R109). -/
def Chip.endStep (x : Chip) (outcome : StepOutcome) : Chip :=
  let c := x.svc.cycle
  let x := x.closeStep
  match c.state with
  | .running =>
    if outcome == .done then
      (x.setLocation (c.current.kind.locationAfter x.svc.location)).runSteps (c.steps.drop c.stepReached)
    else x.runningFailed outcome
  | .recovering => x.recovered outcome
  | .abandoning => x.endCycle .abandoned .none
  | .none => x
  | .claiming => x

/-! ## Outcomes of a step's orders (R97 to R99) -/

/-- The current step takes an outcome of an order placed for it; the outcome of an order of a step that is gone is
discarded (R96). -/
def Chip.isCurrentStep (x : Chip) (step : Nat) : Bool := x.svc.cycle.state.busy && x.svc.nextStep == step

/-- Polling begins, except in an abandoning cycle, whose step ends (R97, R109). -/
def Chip.beginPolling (x : Chip) : Chip :=
  if x.svc.cycle.state == .abandoning then x.endStep .abandoned
  else x.onCycle fun c => { c with phase := .polling (x.now + Config.pollStatusTime) }

/-- The outcome of a step's order (R97). -/
def Chip.takeStation (x : Chip) (step : Nat) (outcome : FrameOutcome) : Chip :=
  if x.isCurrentStep step && x.svc.cycle.phase == .ordered then
    match outcome with
    | .done _ => x.beginPolling
    | .busyTimeout => x.beginPolling
    | .absent => x.endStep (.link .absent)
    | .refused => x.endStep (.link .refused)
    | .checkError => x.endStep (.link .checkError)
  else x

/-- The consumption of a completed PRIME step in each channel of its mask (R98, R54), in ascending channel number (log entry
36). -/
def Chip.consumePrime (x : Chip) (mask : BitVec 8) (ul : Nat) : Chip :=
  channels.foldl (fun y k => if inMask mask k then y.consume k (ul * 1000 * 1000) .prime else y) x

/-- The consumption of a CHECK step in each channel of its mask (R99), in ascending channel number (log entry 36). -/
def Chip.consumeCheck (x : Chip) (mask : BitVec 8) : Chip :=
  channels.foldl
    (fun y k => if inMask mask k then y.consume k (Config.checkDrops * (y.account k).dropVolume) .check else y) x

/-- The station has reported the current step's order DONE (R97 to R99, R78). -/
def Chip.stationDone (x : Chip) : Chip :=
  let c := x.svc.cycle
  match c.current.kind with
  | .prime =>
    let x := (x.consumePrime c.mask c.current.parameter).release .prime
    ((x.onCycle fun c => { c with granted := false, primeRemaining := .all 0 }).fireMask c.mask).endStep .done
  | .check =>
    let x := (x.consumeCheck c.mask).fireMask c.mask
    if c.state == .abandoning then x.endStep .done
    else (x.onCycle fun c => { c with phase := .paging 0 }).offer (.checkPage 0 x.svc.nextStep)
  | .uncap => x.fireAll.endStep .done
  | .park => x.endStep .done
  | .wipe => x.endStep .done
  | .cap => x.endStep .done
  | .wait => x.endStep .done
  | .carriageReturn => x.endStep .done

def StepPhase.isPolling : StepPhase → Bool
  | .polling _ => true
  | .none => false
  | .reserving => false
  | .ordered => false
  | .paging _ => false
  | .waiting _ => false

/-- In an abandoning cycle the step ends at this outcome, whatever it was (R109). -/
def Chip.endIfAbandoning (x : Chip) : Chip :=
  if x.svc.cycle.state == .abandoning then x.endStep .abandoned else x

/-- The outcome of a station STATUS (R97). -/
def Chip.takeStationStatus (x : Chip) (step : Nat) (outcome : FrameOutcome) : Chip :=
  if x.isCurrentStep step && x.svc.cycle.phase.isPolling then
    match outcome with
    | .done (.station .done _) => x.stationDone
    | .done (.station .fault code) => x.endStep (.fault code)
    | _ => x.endIfAbandoning
  else x

/-- A CHECK PAGE reply: its entries join the report, then the next page, the overrun, or the hand-over (R99). -/
def Chip.takePage (x : Chip) (page : Nat) (more : Bool) (entries : List (Nat × Nat)) : Chip :=
  let x := x.onCycle fun c => { c with report := c.report ++ entries, pages := c.pages + 1 }
  let c := x.svc.cycle
  if more then
    if page + 1 < Config.checkPages then
      if c.state == .abandoning then x.endStep .abandoned
      else (x.onCycle fun c => { c with phase := .paging (page + 1) }).offer (.checkPage (page + 1) x.svc.nextStep)
    else x.endStep .checkOverrun
  else (x.takeReport c.mask c.report).endStep .done

/-- The outcome of a CHECK PAGE (R99). -/
def Chip.takeCheckPage (x : Chip) (page step : Nat) (outcome : FrameOutcome) : Chip :=
  if x.isCurrentStep step && x.svc.cycle.phase == .paging page then
    match outcome with
    | .done (.page more entries) => x.takePage page more entries
    | outcome => x.endStep (.link outcome.kind)
  else x

/-! ## The claim (R105, R108) -/

/-- The oldest eligible entry is granted the claim and leaves the list, which rewrites the SERVICE record and runs the arming
test; its cycle runs from its first step (R105, R103, R19). -/
def Chip.grantCycle (x : Chip) : Chip :=
  match takeFirst x.eligible x.svc.requests with
  | none => x
  | some (e, rest) =>
    let steps := match x.program e.program with
      | some g => g.steps
      | none => []
    let x := x.onSgt fun g => { g with claim := .service }
    (((x.onSvc fun v =>
      { v with requests := rest,
               cycle := { Cycle.idle with
                 state := .running, kind := some (.program e.program), steps := steps
                 startTime := x.now } }).markStatus 11).callArming).runSteps steps

/-- The steps of the wake sequence (R108). -/
def wakeSteps (l : Location) : List ServiceStep :=
  if l == .capped then [{ kind := .uncap, mask := 0#8, parameter := 0 }, .carriageReturn] else [.carriageReturn]

/-- The wake sequence takes the claim and runs (R108). -/
def Chip.startWake (x : Chip) : Chip :=
  let steps := wakeSteps x.svc.location
  let x := x.onSgt fun g => { g with claim := .service }
  (x.onSvc fun v =>
    { v with wakeAsk := none,
             cycle := { Cycle.idle with
               state := .running, kind := some .wake, steps := steps, startTime := x.now } }).runSteps steps

def Chip.clearWakeAsk (x : Chip) : Chip := x.onSvc fun v => { v with wakeAsk := none }

/-- A PENDING wake ask is taken: cleared for a record that is no longer the next, or where no wake is needed or possible,
else the wake runs (R108). -/
def Chip.takeWakeAsk (x : Chip) (id : Nat) : Chip :=
  if (x.nextRecord.map Swath.id) != some id then x.clearWakeAsk
  else if x.svc.location == .station || x.svc.location == .capped then x.startWake
  else x.clearWakeAsk.wakeEnded

/-- The next act of the service controller on its list and its wake ask, if there is one: a claim asked, granted or
withdrawn, or a wake ask taken (R105, R108). -/
def Chip.serviceNext (x : Chip) : Option Chip :=
  let free := x.sgt.claim == .free
  match x.svc.cycle.state with
  | .none =>
    if x.hasEligible then
      if free then some x.grantCycle
      else some (x.onCycle fun c => { c with state := .claiming })
    else if free then x.svc.wakeAsk.map x.takeWakeAsk
    else none
  | .claiming =>
    if !x.hasEligible then some (x.onCycle fun _ => .idle)
    else if free then some x.grantCycle
    else none
  | .running => none
  | .recovering => none
  | .abandoning => none

/-- The service controller acts until nothing is left to do: at most one act for each of the eight entries of its list,
and one for the wake ask; the status records that an act has changed become pending (R105, R108, R168). -/
def Chip.serviceLoop : Nat → Chip → Chip
  | 0, x => x
  | n + 1, x =>
    match x.serviceNext with
    | some y => (y.refreshStatus x).serviceLoop n
    | none => x

/-! ## RESTART (R109) -/

def LinkOrder.isOfStep (step : Nat) : LinkOrder → Bool
  | .station _ n => n == step
  | .stationStatus n => n == step
  | .checkPage _ n => n == step
  | _ => false

/-- The cycle in progress is abandoned; its step ends at the outcome of its order on the link, or at once (R109). -/
def Chip.abandonCycle (x : Chip) : Chip :=
  match x.svc.cycle.state with
  | .none => x
  | .claiming => x.onCycle fun _ => .idle
  | _ =>
    let x := ((x.setLocation .stranded).onCycle fun c => { c with state := .abandoning }).showChange x 11
    if x.flm.onLink (LinkOrder.isOfStep x.svc.nextStep) then x else x.endStep .abandoned

/-- The service controller's part of RESTART (R109); an idle stretch begins afresh at it (R101, log entry 31). -/
def Chip.restartService (x : Chip) : Chip :=
  (((x.onSvc fun v => { v with requests := [], wakeAsk := none, idleStretch := none }).showChange x 11).firingEnded).abandonCycle

end Sys2Proof.Machine
end

