-- ==== Sys2Proof/Machine/Cascade.lean ====
section
/-! DEFINITION. What follows within one event: the tests it has called for, the claim, the idle stretch, the link, the responses,
the pending status records and the writer's forward queue (log entries 7 to 9). -/

namespace Sys2Proof.Machine

/-- The service controller's acts in one event are at most one for each list entry, a claim asked, and one wake. -/
def serviceActs : Nat := 10

/-- The tests an event has called for, in one order (log entry 7): held reads for a record that is no longer the next,
the service controller's claim, a waiting PRIME step, the admission test, the arming test, which meets no read held for
another record (R29), and a wake that the arming test asked for. The status records that a test has changed become pending
with it (R168, log entry 9). -/
def Chip.settle (x : Chip) : Chip :=
  let x := x.dropStaleHolds.serviceLoop serviceActs
  let x := if x.due.prime then x.retryPrime.refreshStatus x else x
  let x := if x.due.admission then x.admissionTest.refreshStatus x else x
  let x := if x.due.arming then x.dropStaleHolds.armingTest.refreshStatus x else x
  { (x.serviceLoop serviceActs).updateIdle with due := .nothing }

/-- A frame that has ended leaves the link FREE, and the next one begins (R145, R147, log entry 8). -/
def Chip.releaseLink (x : Chip) : Chip :=
  match x.flm.link with
  | .ended => x.onFlm fun m => { m with link := .free }.begin x.now
  | .free => x
  | .carrying _ _ => x

/-- The in-flight entries that can be answered now, the oldest ones that are ANSWERED, and the rest (R155). -/
def answeredFront : List InFlight → List (InFlight × ReadStatus × List Byte) × List InFlight
  | [] => ([], [])
  | e :: rest =>
    match e.phase with
    | .answered status data =>
      let r := answeredFront rest
      ((e, status, data) :: r.1, r.2)
    | .waiting => ([], e :: rest)
    | .issued => ([], e :: rest)

def respond (port : Port) (x : Chip) (r : InFlight × ReadStatus × List Byte) : Chip :=
  x.emit (.response port r.1.tag r.2.1 r.2.2)

/-- While the oldest entry of a port is ANSWERED, its response is sent and its credit freed (R153, R155). -/
def Chip.sendResponses (x : Chip) : Chip :=
  let c := answeredFront x.psw.cInFlight
  let h := answeredFront x.psw.hInFlight
  let x := h.1.foldl (respond .hPort) (c.1.foldl (respond .cPort) x)
  x.onPsw fun p =>
    { p with cInFlight := c.2, cCredits := p.cCredits + c.1.length,
             hInFlight := h.2, hCredits := p.hCredits + h.1.length }

/-- The end of an event whose own effect has made `x` of `old`: the status records that the effect has changed become pending;
then what it calls for, the link, the responses, and the filling of the writer's forward queue, where it is empty. It is filled
once, at the end: a record of the ordered list that the event has made late is taken before a status record that became pending
early in it (the model's choice, log entry 53). -/
def conclude (old x : Chip) : Chip := ((x.refreshStatus old).settle.releaseLink.sendResponses).fillWriter

/-- An event of the part: nothing happens while RESET is asserted (log entry 1). -/
def Chip.event (x : Chip) (f : Chip → Chip) : Chip := if x.inReset then x else conclude x (f x)

end Sys2Proof.Machine
end

