-- ==== Sys2Proof/Machine/Commands.lean ====
section
/-! DEFINITION. The commands of the ring, carried out by their owners with the answer of each (R11, R44, R83 to R85, R95, R103, R111,
R112, R119 to R121, R127, R139, R163 to R165, and the detail codes of R172). -/

namespace Sys2Proof.Machine

/-! ## CONFIGURE (R164) -/

def journalCapacities : List Nat := [64, 128, 256, 512, 1024]

/-- Whether the swath area of a CONFIGURE overlaps the control area (R164). -/
def PortSwitch.overlaps (p : PortSwitch) (a : ConfigureArgs) : Bool :=
  decide (a.base.toNat < p.controlBase + Config.controlBytes) && decide (p.controlBase < a.base.toNat + a.areaBytes)

def Chip.isRunning (x : Chip) : Bool := x.cmi.partState == .running

/-- The checks of R164, in its order. -/
def Chip.configureChecks (x : Chip) (a : ConfigureArgs) : List (Bool × Answer) :=
  [(x.isRunning && !x.fdc.sheets.isEmpty, .state 1),
   (x.isRunning && !x.sgt.swaths.isEmpty, .state 2),
   (x.isRunning && x.svc.cycle.state != .none, .state 3),
   (outside 2 8 a.bufferCount.toNat || outside 1024 24576 a.capacity.toNat || a.capacity.toNat % 1024 != 0, .arg 4 0),
   (a.base.toNat % 1024 != 0 || decide (Config.addressSpace < a.base.toNat + a.areaBytes) || x.psw.overlaps a, .arg 5 0),
   (decide (32 < a.spitColumns.toNat), .arg 6 0),
   (outside 10 5000 a.holdLimit.toNat, .arg 7 0),
   (!journalCapacities.contains a.journalCapacity.toNat, .arg 8 0),
   (decide (10000 < a.budget.toNat), .arg 9 0)]

/-- A journal capacity other than the one in force sets both indices to 0 (R164, R170). -/
def ReportWriter.withCapacity (w : ReportWriter) (c : Nat) : ReportWriter :=
  if w.capacity = c then w else { w with capacity := c, writeIndex := 0#32, readIndex := 0#32 }

/-- The presence poll timers start (R60). -/
def Chip.startPolls (x : Chip) : Chip :=
  { x with ink := .of fun k => { x.ink.get k with pollTimer := some (x.now + Config.pollTagTime) } }

/-- An accepted CONFIGURE (R164, R6). -/
def Chip.applyConfigure (x : Chip) (a : ConfigureArgs) : Chip :=
  let changes := x.rpw.capacity != a.journalCapacity.toNat
  let wasRunning := x.isRunning
  let x := x.onPsw fun p =>
    { p with swath := some { base := a.base.toNat, count := a.bufferCount.toNat, capacity := a.capacity.toNat } }
  let x := x.onSgt fun g =>
    { g with buffers := List.replicate a.bufferCount.toNat Buffer.cleared, spitColumns := a.spitColumns.toNat,
             holdLimit := a.holdLimit.toNat }
  let x := x.onSvc fun v => { v with budget := a.budget.toNat }
  let x := x.onRpw fun w => w.withCapacity a.journalCapacity.toNat
  let x := if changes then x.journalOverflow else x
  let x := if wasRunning then x else (x.onCmi fun c => { c with partState := .running }).startPolls
  (x.markStatus 0).markStatus 10

def Chip.doConfigure (x : Chip) (a : ConfigureArgs) : Chip × Answer :=
  match firstRow (x.configureChecks a) with
  | some r => (x, r)
  | none => (x.applyConfigure a, .done 0 0)

/-! ## RESTART (R165) -/

/-- The gate's part of RESTART (R17, R40); where it unbinds a swath the GATE record is rewritten (R15). -/
def Chip.restartGate (x : Chip) : Chip :=
  let live := x.liveSwath.isSome
  let bound := !x.sgt.swaths.isEmpty
  let x := (x.dropHeld fun _ => true).showChange x 10
  let x := if live then x.release .swath else x
  let y := x.onSgt fun g =>
    { g with swaths := [], buffers := g.buffers.map fun _ => Buffer.cleared, claim := .free, wakeAskedFor := none }
  let x := (if bound then y.markStatus 10 else y).refreshStatus x
  if live then x.swathGone else x

/-- RESTART: each block takes its part (R165, and the order of R40, R109, R125, R140, R150). -/
def Chip.restart (x : Chip) : Chip :=
  ((x.restartGate.restartService).restartFeed).onFlm LinkMaster.restart

/-! ## SET CHANNEL (R44, R45) -/

/-- A LEVEL order is placed, unless one is already on its way (R45). -/
def Chip.readLevel (x : Chip) (k : Channel) : Chip :=
  if (x.account k).levelReading == .idle then
    (x.onAccount k fun acc => { acc with levelReading := .pending }).offer (.level k)
  else x

/-- An accepted SET CHANNEL (R45). -/
def Chip.applySetChannel (x : Chip) (k : Channel) (a : SetChannelArgs) : Chip :=
  let x := x.onAccount k a.store
  let x := if a.uses then x.readLevel k else x
  (((x.handSpit k a.spit).judgeAgain k).callAdmission).noticeInk

def Chip.doSetChannel (x : Chip) (a : SetChannelArgs) : Chip × Answer :=
  if h : a.channel.toNat < 6 then
    let k : Channel := ⟨a.channel.toNat, h⟩
    match firstRow (a.checks (x.account k)) with
    | some r => (x, r)
    | none => (x.applySetChannel k a, .done 0 0)
  else (x, .arg 1 0)

/-! ## SET ROLL (R127) -/

/-- A roll is in use: a sheet in LOADING to CLEARING, and the roll threaded or assigned to it (R127). -/
def Chip.rollInUse (x : Chip) (n : RollNo) : Bool :=
  match x.platen with
  | some h => h.state != .halted && (x.fdc.threaded == .roll n || h.assigned == some n)
  | none => false

/-- The status record of a roll, 7 or 8 (12.6). -/
def RollNo.status : RollNo → Fin 13
  | .one => 7
  | .two => 8

def Chip.doSetRoll (x : Chip) (a : SetRollArgs) : Chip × Answer :=
  match RollNo.ofNumber a.roll.toNat with
  | none => (x, .arg 1 0)
  | some n =>
    match firstRow [(a.outOfRange, Answer.arg 2 0), (x.rollInUse n, Answer.state 3)] with
    | some r => (x, r)
    | none => (((x.onFdc fun d => d.onRoll n fun _ => a.stored).markStatus n.status).callAdmission, .done 0 n.number)

/-! ## QUEUE SHEET (R111, R112) -/

/-- The checks of R111, in its order. -/
def Chip.queueChecks (x : Chip) (a : QueueSheetArgs) : List (Bool × Answer) :=
  [(decide (Config.sheetPlaces ≤ x.fdc.sheets.length), .full 1),
   ((x.sheet a.id.toNat).isSome, .arg 2 0),
   (a.firstFault.isSome, .arg 3 (a.firstFault.getD 0)),
   (a.tooLong, .arg 4 0)]

def Chip.doQueueSheet (x : Chip) (a : QueueSheetArgs) : Chip × Answer :=
  match firstRow (x.queueChecks a) with
  | some r => (x, r)
  | none =>
    let y := x.onFdc fun d => { d with sheets := d.sheets ++ [a.sheet] }
    (((y.noticeNext x).markStatus 9).callAdmission, .done 0 y.fdc.sheets.length)

/-! ## SWATH READY (R11, R12) -/

def Sheet.refusesSwaths (h : Sheet) : Bool :=
  h.state == .drying || h.state == .cutting || h.state == .clearing || h.state == .halted || h.cancel

/-- The checks of R11 that concern the sheet and the columns, in its order. -/
def Chip.swathChecks (x : Chip) (a : SwathReadyArgs) (h : Sheet) : List (Bool × Answer) :=
  [(h.refusesSwaths, .state 4),
   (a.index.toNat != h.done + (x.boundList h.id).length, .arg 5 0),
   (decide (x.psw.capacity < a.columns.toNat) || decide (a.columns.toNat < x.sgt.spitColumns + 1), .arg 6 0),
   (decide (h.swathCount ≤ a.index.toNat), .arg 7 0)]

/-- A binding: the GATE and SHEETS records are rewritten, and the arming test runs where the new swath is the next swath
(R12). -/
def Chip.bind (x : Chip) (a : SwathReadyArgs) (b : Buffer) : Chip :=
  let y := ((x.onSgt fun g =>
    { g with buffers := g.buffers.set a.buffer.toNat { b with bound := true },
             swaths := g.swaths ++ [a.record g.nextSwathId b.tally],
             nextSwathId := g.nextSwathId + 1 }).markStatus 10).markStatus 9
  if y.nextRecord.map Swath.id == some x.sgt.nextSwathId then y.callArming else y

def Chip.doSwathReady (x : Chip) (a : SwathReadyArgs) : Chip × Answer :=
  match x.sgt.buffers[a.buffer.toNat]? with
  | none => (x, .arg 1 0)
  | some b =>
    if b.bound then (x, .state 2)
    else
      match x.sheet a.sheet.toNat with
      | none => (x, .state 3)
      | some h =>
        match firstRow (x.swathChecks a h) with
        | some r => (x, r)
        | none => (x.bind a b, .done 0 a.index.toNat)

/-! ## CANCEL SHEET (R119 to R121) -/

/-- A sheet on the platen and printing, or ready to, is cancelled by the state of its swath (R121). -/
def Chip.cancelPrinting (x : Chip) (h : Sheet) : Chip × Answer :=
  match x.sgt.swaths.find? fun r => r.sheet == h.id && r.state == .firing with
  | some f =>
    let x := x.onSheet h.id fun a => { a with cancel := true }
    ((((x.boundList h.id).filter fun r => r.id != f.id).foldl Chip.unbind x).callArming, .done 5 h.done)
  | none => (x.enterClearing, .done 6 h.done)

def Chip.doCancelSheet (x : Chip) (id : Nat) : Chip × Answer :=
  match x.sheet id with
  | none => (x, .state 1)
  | some h =>
    match h.state with
    | .drying => (x, .state 2)
    | .cutting => (x, .state 2)
    | .clearing => (x, .state 2)
    | .halted => (x, .state 2)
    | .queued => (x.removeSheet h .cancelled, .done 4 h.done)
    | .waiting => (x.removeSheet h .cancelled, .done 4 h.done)
    | .loading =>
      if h.cancel then (x, .done 3 0)
      else (((x.onSheet id fun a => { a with cancel := true }).unbindSheet id).callArming, .done 5 h.done)
    | .ready => if h.cancel then (x, .done 3 0) else x.cancelPrinting h
    | .printing => if h.cancel then (x, .done 3 0) else x.cancelPrinting h

/-! ## CLEAR JAM (R139) -/

def Chip.doClearJam (x : Chip) : Chip × Answer :=
  if x.fdc.feed != .halted then (x, .state 1)
  else if x.fdc.check.isSome then (x, .state 2)
  else
    let serial := x.fdc.nextOrder
    ((x.onFdc fun d => { d with check := some serial, nextOrder := serial + 1 }).offer (.feedCheck serial), .done 3 0)

/-! ## SET NOZZLE (R83 to R85) -/

def nozzleActionOut : BitVec 8 := 1#8
def nozzleActionIn : BitVec 8 := 2#8

/-- The row of R84 a change meets, which is its detail (R172). -/
def NozzleEffect.detail : NozzleEffect → Nat
  | .added => 1
  | .origin => 2
  | .alreadyOut => 3
  | .removed => 4
  | .notListed => 5

/-- The checks of R83 past the channel number, in its order. -/
def Chip.nozzleChecks (x : Chip) (a : SetNozzleArgs) (k : Channel) : List (Bool × Answer) :=
  [(decide (1023 < a.nozzle.toNat), .arg 2 0),
   (a.action != nozzleActionOut && a.action != nozzleActionIn, .arg 3 0),
   (x.nmn.held && decide (Config.pendingPlaces ≤ x.nmn.pending.length), .full 4),
   (!x.nmn.held && a.action == nozzleActionOut && !isOut x.nmn.outList k a.nozzle.toNat
      && decide (Config.outPlaces ≤ x.nmn.outList.length), .full 5)]

def Chip.doSetNozzle (x : Chip) (a : SetNozzleArgs) : Chip × Answer :=
  if h : a.channel.toNat < 6 then
    let k : Channel := ⟨a.channel.toNat, h⟩
    match firstRow (x.nozzleChecks a k) with
    | some r => (x, r)
    | none =>
      let c : NozzleChange := { channel := k, nozzle := a.nozzle.toNat, out := a.action == nozzleActionOut }
      if x.nmn.held then
        let x := (x.onNmn fun n => { n with pending := n.pending ++ [c] }).markStatus 12
        (x, .done 6 x.nmn.pending.length)
      else
        let y := x.applyNozzle c
        (y, .done (x.nozzleEffect c).detail y.nmn.outList.length)
  else (x, .arg 1 0)

/-! ## LOAD PROGRAM and RUN PROGRAM (R95, R103) -/

/-- The number, from 1, of the first step that meets a test (R95). -/
def stepAtFault (p : StepArgs → Bool) (steps : List StepArgs) : Option Nat := (steps.findIdx? p).map (· + 1)

/-- The checks of R95 past the program number, in its order. -/
def Chip.loadChecks (x : Chip) (a : LoadProgramArgs) (p : Fin 8) : List (Bool × Answer) :=
  let runs := a.stepCount != 0#8
  let badKind := stepAtFault StepArgs.kindBad a.given
  let badArgument := stepAtFault StepArgs.argumentBad a.given
  [(x.listed p || x.cycleProgram == some p, .state 2),
   (decide (10 < a.stepCount.toNat), .arg 3 0),
   (runs && a.triggerBad, .arg 4 0),
   (runs && a.durationBad, .arg 5 0),
   (badKind.isSome, .arg 6 (badKind.getD 0)),
   (badArgument.isSome, .arg 7 (badArgument.getD 0))]

def Chip.doLoadProgram (x : Chip) (a : LoadProgramArgs) : Chip × Answer :=
  if h : a.program.toNat < 8 then
    let p : Fin 8 := ⟨a.program.toNat, h⟩
    match firstRow (x.loadChecks a p) with
    | some r => (x, r)
    | none => ((x.onSvc fun v => { v with programs := v.programs.set p a.record }).resetCounters p, .done 0 p.val)
  else (x, .arg 1 0)

/-- RUN PROGRAM by the table of R103; the reply value counts the entry it lists, also where the entry is granted the claim in
the same event (the model's choice, log entry 41). -/
def Chip.doRunProgram (x : Chip) (program : Nat) : Chip × Answer :=
  if h : program < 8 then
    let p : Fin 8 := ⟨program, h⟩
    if (x.program p).isNone then (x, .state 2)
    else if x.listed p then (x, .done 3 x.svc.requests.length)
    else
      let x := x.listProgram p .command
      (x, .done 4 x.svc.requests.length)
  else (x, .arg 1 0)

/-! ## The decision by kind and part state (R163) -/

/-- A command that needs the part RUNNING is refused in UNCONFIGURED without reaching its owner (R163). -/
def Chip.whenRunning (x : Chip) (f : Chip → Chip × Answer) : Chip × Answer :=
  if x.isRunning then f x else (x, .unconfigured)

/-- A taken command is carried out or refused, with its answer (R163). -/
def Chip.carryOut (x : Chip) : RingCommand → Chip × Answer
  | .nop => (x, .done 0 0)
  | .configure a => x.doConfigure a
  | .restart => (x.restart, .done 0 0)
  | .setChannel a => x.whenRunning fun y => y.doSetChannel a
  | .setRoll a => x.whenRunning fun y => y.doSetRoll a
  | .queueSheet a => x.whenRunning fun y => y.doQueueSheet a
  | .swathReady a => x.whenRunning fun y => y.doSwathReady a
  | .cancelSheet id => x.whenRunning fun y => y.doCancelSheet id.toNat
  | .clearJam => x.whenRunning Chip.doClearJam
  | .setNozzle a => x.whenRunning fun y => y.doSetNozzle a
  | .loadProgram a => x.whenRunning fun y => y.doLoadProgram a
  | .runProgram p => x.whenRunning fun y => y.doRunProgram p.toNat
  | .unknown _ => (x, .unknown)

end Sys2Proof.Machine
end

