-- ==== Sys2Proof/Machine/Intake.lean ====
section
/-! DEFINITION. C-port writes: acceptance, the slot shadows and posting, the take of a slot, the read index, the fill tally and late
marks (R7, R8, R152 to R154, R160 to R162, R170). -/

namespace Sys2Proof.Machine

/-! ## The slot shadows (R159, R160) -/

def Intake.shadow (c : Intake) (slot : Fin 16) : List Byte := (c.shadows.get slot).toList

/-- The go word of a shadow is nonzero (R160, 12.4). -/
def goSet (shadow : List Byte) : Bool := word32At shadow 60 != 0#32

/-- Enabled bytes at ring offsets copied into the shadows (R160). -/
def copyBytes (shadows : Vector (Vector Byte 64) 16) (bytes : List (Nat × Byte)) : Vector (Vector Byte 64) 16 :=
  bytes.foldl
    (fun v e => v.setIfInBounds (e.1 / 64) ((v.getD (e.1 / 64) (Vector.replicate 64 0#8)).setIfInBounds (e.1 % 64) e.2))
    shadows

/-- The slot state after the copy (R160). -/
def SlotState.afterCopy (st : SlotState) (go : Bool) : SlotState :=
  match st with
  | .idle => if go then .posted else .idle
  | .posted => if go then .posted else .idle
  | .replyPending => .replyPending

/-- A slot is treated by its own state after the bytes are copied (R160). -/
def Intake.postSlot (c : Intake) (slot : Fin 16) : Intake :=
  { c with slots := c.slots.set slot ((c.slots.get slot).afterCopy (goSet (c.shadow slot))) }

def slotNumbers : List (Fin 16) := [0, 1, 2, 3, 4, 5, 6, 7, 8, 9, 10, 11, 12, 13, 14, 15]

/-- The slots that a write of so many bytes at a ring offset spans. -/
def slotsSpanned (offset len : Nat) : List (Fin 16) :=
  slotNumbers.filter fun i => decide (offset / 64 ≤ i.val) && decide (i.val ≤ (offset + len - 1) / 64)

/-- The port switch hands over the enabled bytes of a write into the ring (R160). -/
def Intake.handOver (c : Intake) (offset len : Nat) (bytes : List (Nat × Byte)) : Intake :=
  (slotsSpanned offset len).foldl Intake.postSlot
    { c with shadows := copyBytes c.shadows (bytes.map fun e => (offset + e.1, e.2)) }

/-! ## The take (R161, R162) -/

/-- The next slot can be taken: it is POSTED and the ordered list has a free place (R161). -/
def Chip.canTake (x : Chip) : Bool :=
  x.cmi.slots.get x.cmi.nextSlot == .posted && decide (x.rpw.placesTaken < Config.orderedPlaces)

def nextOf (slot : Fin 16) : Fin 16 := slot + 1

/-- The reply of a command joins the ordered list in its reserved place (R161, R162). -/
def Chip.reply (x : Chip) (slot : Fin 16) (shadow : List Byte) (a : Answer) : Chip :=
  let fence := x.fence
  x.onRpw fun w =>
    { w with replyReserved := false,
             ordered := w.ordered ++ [{ body := .reply slot (replyBytes shadow a), fence := fence, taken := false }] }

/-- The take of the next slot, as one event: the place reserved, the slot REPLY PENDING, the index advanced, the command
carried out, the status records it has changed pending, what it calls for, and the reply made (R161, R168). -/
def Chip.takeSlot (x : Chip) : Chip :=
  let slot := x.cmi.nextSlot
  let shadow := x.cmi.shadow slot
  let y := (x.onRpw fun w => { w with replyReserved := true }).onCmi fun c =>
    { c with slots := c.slots.set slot .replyPending, nextSlot := nextOf slot }
  let r := y.carryOut (decodeSlot shadow)
  (r.1.refreshStatus x).settle.reply slot shadow r.2

/-- Slots are taken while the next one is POSTED and a place is free; each of the sixteen at most once, since a slot taken
stays REPLY PENDING (R161). -/
def Chip.takeLoop : Nat → Chip → Chip
  | 0, x => x
  | n + 1, x => if x.canTake then x.takeSlot.takeLoop n else x

def Chip.takeSlots (x : Chip) : Chip := x.takeLoop 16

/-! ## The read index (R170) -/

/-- All four bytes of the word at the start of a write are enabled. -/
def firstWordEnabled (w : WriteRequest) : Bool := (w.bytes.take 4).all Prod.fst

/-- The four bytes at the start of a write as a number. -/
def firstWordValue (w : WriteRequest) : BitVec 32 := word32At (w.bytes.map Prod.snd) 0

/-- A read index handed over is taken where it lies within the unread span (R170). -/
def ReportWriter.takeReadIndex (w : ReportWriter) (v : BitVec 32) : ReportWriter :=
  if (v - w.readIndex).toNat ≤ w.unread then { w with readIndex := v } else w

def Chip.readIndexWritten (x : Chip) (v : BitVec 32) : Chip :=
  (x.onRpw fun w => w.takeReadIndex v).journalOverflow

/-! ## Swath data (R7, R8) -/

/-- The marks of enabled bytes added to a tally, each byte to its own channel (R7). -/
def addMarks (tally : Six Nat) (bytes : List (Nat × Byte)) : Six Nat :=
  bytes.foldl (fun t e => t.set (channelOf e.1) (addCount (t.get (channelOf e.1)) (popCount e.2))) tally

/-- The marks of enabled bytes in all. -/
def marksOf (bytes : List (Nat × Byte)) : Nat := bytes.foldl (fun n e => n + popCount e.2) 0

/-- A write into a BOUND buffer: late marks, and while the flag was clear the flag set, with the rewrite of the GATE record, and
then one LATE WRITE record (R6, R8). -/
def Chip.lateWrite (x : Chip) (n : Nat) (b : Buffer) (addr : Addr) (bytes : List (Nat × Byte)) : Chip :=
  match x.sgt.swaths.find? fun r => r.buffer == n with
  | none => x
  | some r =>
    let x := x.onSwath r.id fun a => { a with late := addCount a.late (marksOf bytes) }
    if b.late then x
    else
      ((x.onSgt fun g => { g with buffers := g.buffers.set n { b with late := true } }).markStatus 10).journal
        (.lateWrite r.sheet r.index n addr.toNat)

/-- A write into the swath area is counted by the state of its buffer (R7 to R9). -/
def Chip.swathWritten (x : Chip) (w : WriteRequest) : Chip :=
  let place := x.psw.bufferAt w.addr.toNat
  let bytes := w.enabled.map fun e => (place.2 + e.1, e.2)
  match x.sgt.buffers[place.1]? with
  | none => x
  | some b =>
    if b.bound then x.lateWrite place.1 b w.addr bytes
    else x.onSgt fun g => { g with buffers := g.buffers.set place.1 { b with tally := addMarks b.tally bytes } }

/-! ## Acceptance (R152 to R154) -/

/-- A MEMORY FAULT record for a malformed request (R152, R157). -/
def Chip.malformedRecord (x : Chip) (port : Port) (isWrite : Bool) (tag : Fin 32) (len : Nat) (addr : Addr) : Chip :=
  x.journal (.memoryFault port true isWrite tag.val len addr.toNat)

/-- Offsets in the control area (R154, chapter 12). -/
def ringBytes : Nat := 0x400
def readIndexOffset : Nat := 0x400

/-- What the blocks see of a well-formed C-port write at its acceptance (R154). -/
def Chip.seen (x : Chip) (w : WriteRequest) : Chip :=
  match x.psw.window w.addr.toNat with
  | .control =>
    let offset := controlOffset w.addr.toNat
    if offset < ringBytes then (x.onCmi fun c => c.handOver offset w.bytes.length w.enabled).takeSlots
    else if offset = readIndexOffset && firstWordEnabled w then x.readIndexWritten (firstWordValue w)
    else x
  | .swath => x.swathWritten w
  | .plain => x

/-- A C-port write is offered: it is accepted where a credit is free; a malformed one is dropped with its record, a
well-formed one joins the forward queue and is seen by the blocks (R152 to R155). -/
def Chip.cPortWrite (x : Chip) (w : WriteRequest) : Chip :=
  if x.psw.cCredits = 0 then x
  else if malformed w.addr w.bytes.length then x.malformedRecord .cPort true w.tag w.bytes.length w.addr
  else
    (x.onPsw fun p => { p with cCredits := p.cCredits - 1, cQueue := p.cQueue ++ [.write w] }).seen w

/-! ## A command of the ring (log entry 2) -/

/-- The write by which the print controller gives a command: the 64 bytes of the next slot, all enabled. -/
def Chip.slotWriteOf (x : Chip) (c : RingCommand) : WriteRequest :=
  { tag := 0, addr := BitVec.ofNat 34 (x.psw.controlBase + 64 * x.cmi.nextSlot.val),
    bytes := (encodeSlot c).map fun b => (true, b) }

/-- The print controller writes a command into the next slot (R160, R161). -/
def Chip.command (x : Chip) (c : RingCommand) : Chip := x.cPortWrite (x.slotWriteOf c)

end Sys2Proof.Machine
end

