-- ==== Sys2Proof/Machine/Ports.lean ====
section
/-! DEFINITION. Reads and head writes at acceptance, the arbiter of the memory port, memory's answers, and the completion of a
swath (R32, R36 to R38, R152 to R157, R162, R168, R170). -/

namespace Sys2Proof.Machine

/-! ## Reads and head writes (R152 to R155) -/

/-- A read takes its place in its port's in-flight list, with a credit (R153, R155). -/
def PortSwitch.enterRead (p : PortSwitch) (port : Port) (r : ReadRequest) (phase : ReadPhase) : PortSwitch :=
  let e : InFlight := { id := p.nextRead, tag := r.tag, addr := r.addr, len := r.len, phase := phase }
  match port with
  | .cPort => { p with cInFlight := p.cInFlight ++ [e], cCredits := p.cCredits - 1, nextRead := p.nextRead + 1 }
  | .hPort => { p with hInFlight := p.hInFlight ++ [e], hCredits := p.hCredits - 1, nextRead := p.nextRead + 1 }

/-- A malformed read is entered already answered FAULT, with its record (R152). -/
def Chip.malformedRead (x : Chip) (port : Port) (r : ReadRequest) : Chip :=
  (x.onPsw fun p => p.enterRead port r (.answered .fault [])).malformedRecord port false r.tag r.len r.addr

/-- A C-port read is offered (R152 to R155). -/
def Chip.cPortRead (x : Chip) (r : ReadRequest) : Chip :=
  if x.psw.cCredits = 0 then x
  else if malformed r.addr r.len then x.malformedRead .cPort r
  else
    x.onPsw fun p =>
      { p.enterRead .cPort r .waiting with cQueue := p.cQueue ++ [.read p.nextRead r.addr r.len] }

/-- An H-port read is offered; one in the SWATH window is presented to the gate (R25, R154, R155). -/
def Chip.hPortRead (x : Chip) (r : ReadRequest) : Chip :=
  if x.psw.hCredits = 0 then x
  else if malformed r.addr r.len then x.malformedRead .hPort r
  else
    let id := x.psw.nextRead
    let window := x.psw.window r.addr.toNat
    let x := x.onPsw fun p => p.enterRead .hPort r .waiting
    if window == .swath then x.presentRead id r
    else x.onPsw fun p => { p with hQueue := p.hQueue ++ [.read id r.addr r.len] }

/-- An H-port write is offered; it is forwarded as a plain write, counted by nobody (R7, R152 to R155). -/
def Chip.hPortWrite (x : Chip) (w : WriteRequest) : Chip :=
  if x.psw.hCredits = 0 then x
  else if malformed w.addr w.bytes.length then x.malformedRecord .hPort true w.tag w.bytes.length w.addr
  else x.onPsw fun p => { p with hCredits := p.hCredits - 1, hQueue := p.hQueue ++ [.write w] }

/-! ## The arbiter (R155, R156) -/

/-- A READ cannot be issued while 32 reads are outstanding (R156). -/
def Forward.issuable (f : Forward) (outstanding : Nat) : Bool :=
  match f with
  | .write _ => true
  | .read _ _ _ => decide (outstanding < Config.outstandingReads)

/-- The request at the head of a forward queue can be issued now (R156). -/
def queueReady (q : List Forward) (outstanding : Nat) : Bool :=
  match q with
  | [] => false
  | f :: _ => f.issuable outstanding

def PortSwitch.hReady (p : PortSwitch) : Bool := queueReady p.hQueue p.outstanding.length
def PortSwitch.cReady (p : PortSwitch) : Bool := queueReady p.cQueue p.outstanding.length

/-- The writer's write is ready once the C-port writes of its fence have been forwarded (R155). -/
def PortSwitch.writerReady (p : PortSwitch) : Bool :=
  match p.writer with
  | some w => decide (w.fence ≤ p.cForwarded)
  | none => false

inductive Source where
  | head
  | controller
  | writer
  deriving DecidableEq, Repr

def Preference.source : Preference → Source
  | .cPort => .controller
  | .writer => .writer

def Preference.other : Preference → Preference
  | .cPort => .writer
  | .writer => .cPort

/-- The source the arbiter grants, by the rules of R156 in their order. -/
def PortSwitch.choose (p : PortSwitch) : Option Source :=
  if p.hReady && (decide (p.headRun < Config.headRunLimit) || (!p.cReady && !p.writerReady)) then some .head
  else if p.cReady && p.writerReady then some p.preference.source
  else if p.cReady then some .controller
  else if p.writerReady then some .writer
  else none

/-- The arbiter's state after a grant (R156). -/
def PortSwitch.noteGrant (p : PortSwitch) (s : Source) : PortSwitch :=
  match s with
  | .head => { p with headRun := if p.cReady || p.writerReady then p.headRun + 1 else 0 }
  | .controller | .writer =>
    { p with headRun := 0, preference := if p.cReady && p.writerReady then p.preference.other else p.preference }

/-- A read is issued: it joins the outstanding list and its entry is ISSUED (R155, R156). Its tag stays in the in-flight entry
(the model's choice, log entry 54). -/
def Chip.issueRead (x : Chip) (port : Port) (id : Nat) (addr : Addr) (len : Nat) : Chip :=
  ((x.onPsw fun p => { p with outstanding := p.outstanding ++ [{ port := port, id := id }] }).setReadPhase port id
    .issued).emit (.memoryRead addr.toNat len)

/-- A grant to the C-port: its head request is forwarded or issued; a write frees its credit and counts toward the
fences (R153, R155, R156). -/
def Chip.grantController (x : Chip) : Chip :=
  match x.psw.cQueue with
  | [] => x
  | .write w :: rest =>
    (x.onPsw fun p =>
      { p with cQueue := rest, cCredits := p.cCredits + 1, cForwarded := p.cForwarded + 1 }).emit
      (.memoryWrite w.addr.toNat w.bytes)
  | .read id addr len :: rest => (x.onPsw fun p => { p with cQueue := rest }).issueRead .cPort id addr len

/-- A grant to the H-port (R153, R156). -/
def Chip.grantHead (x : Chip) : Chip :=
  match x.psw.hQueue with
  | [] => x
  | .write w :: rest =>
    (x.onPsw fun p => { p with hQueue := rest, hCredits := p.hCredits + 1 }).emit (.memoryWrite w.addr.toNat w.bytes)
  | .read id addr len :: rest => (x.onPsw fun p => { p with hQueue := rest }).issueRead .hPort id addr len

/-! ## The writer's writes (R162, R168 to R170, chapter 12) -/

/-- Offsets of the status block and the journal in the control area (R168, R170). -/
def statusOffset : Nat := 0x0800
def journalOffset : Nat := 0x1000

def allEnabled (bs : List Byte) : List (Bool × Byte) := bs.map fun b => (true, b)

/-- Bytes 48 to 63 of a shadow take the bytes a reply wrote (R162). -/
def writeReply (shadow : Vector Byte 64) (bytes : List Byte) : Vector Byte 64 :=
  bytes.zipIdx.foldl (fun v e => v.setIfInBounds (48 + e.2) e.1) shadow

/-- The reply write is forwarded: the slot is IDLE and its shadow agrees with memory (R162). -/
def Chip.forwardReply (x : Chip) (slot : Fin 16) (bytes : List Byte) : Chip :=
  (x.emit (.memoryWrite (x.psw.controlBase + 64 * slot.val + 48) (allEnabled bytes))).onCmi fun c =>
    { c with slots := c.slots.set slot .idle, shadows := c.shadows.set slot (writeReply (c.shadows.get slot) bytes) }

/-- A journal record's write is forwarded: it goes to position (write index mod C), and the index rises by 1, which makes the
HEADER record pending before any take that follows in the event marks a record of its own (R161, R168, R170). -/
def Chip.forwardJournal (x : Chip) (r : JournalRecord) (time : Nat) : Chip :=
  let position := x.rpw.writeIndex.toNat % x.rpw.capacity
  ((x.emit (.memoryWrite (x.psw.controlBase + journalOffset + 32 * position) (allEnabled (r.bytes time)))).onRpw fun w =>
    { w with writeIndex := w.writeIndex + 1#32 }).markStatus 0

/-- The oldest entry of the ordered list is forwarded and its place freed; an overflow record claims a freed place before a
waiting take (R169, R171). -/
def Chip.placeFreed (x : Chip) : Chip :=
  ((x.onRpw fun w => { w with ordered := w.ordered.drop 1 }).journalOverflow).takeSlots

/-- A grant to the writer (R156, R162, R168, R170). -/
def Chip.grantWriter (x : Chip) : Chip :=
  match x.psw.writer with
  | none => x
  | some w =>
    let x := x.onPsw fun p => { p with writer := none }
    match w.body with
    | .ordered (.reply slot bytes) => (x.forwardReply slot bytes).placeFreed
    | .ordered (.journal r time) => (x.forwardJournal r time).placeFreed
    | .status n bytes =>
      x.emit (.memoryWrite (x.psw.controlBase + statusOffset + 128 * n.val) (allEnabled bytes))

/-- One grant of the arbiter, where a source is ready (R156). -/
def Chip.grant (x : Chip) : Chip :=
  match x.psw.choose with
  | none => x
  | some s =>
    let x := x.onPsw fun p => p.noteGrant s
    match s with
    | .head => x.grantHead
    | .controller => x.grantController
    | .writer => x.grantWriter

/-! ## Completion (R37, R38) -/

/-- The feed controller is told to set the sheet's defect mark (R38, step 3). -/
def Chip.markDefect (x : Chip) (r : Swath) : Chip :=
  if 0 < r.lost ∨ 0 < r.faulted then x.onSheet r.sheet fun h => { h with defect := true } else x

def Swath.doneRecord (r : Swath) : JournalRecord :=
  .swathDone r.sheet r.index r.delivered r.lost r.injected r.faulted r.late

/-- The swath with this id completes, in the order of R38; the status records that it changes become pending in that order. -/
def Chip.complete (x : Chip) (id : Nat) : Chip :=
  match x.swathById id with
  | none => x
  | some r =>
    let before := x
    let x := (x.release .swath).journal r.doneRecord
    let x := (x.markDefect r).removeSwath r
    let x := x.onSheet r.sheet fun h => { h with done := h.done + 1 }
    let x := (x.onSgt fun g => { g with claim := .free }).swathGone
    let x := if r.state == .firing then x.firingEnded else x
    (x.swathComplete before r.index).callArming

/-- Completion where a response covers the last byte of the swath extent (R37). -/
def Chip.completeIfCovered (x : Chip) (r : Swath) (n : ReadNote) : Chip :=
  if r.lastCovered n.offset n.len then x.complete r.id else x

/-! ## Memory's answers (R32 to R36, R155, R157) -/

/-- The MEMORY FAULT record of a FAULT answer (R157). -/
def Chip.uncorrectable (x : Chip) (port : Port) (e : InFlight) : Chip :=
  x.journal (.memoryFault port false false e.tag.val e.len e.addr.toNat)

/-- A response of a released read reaches the gate with its note (R32 to R37). -/
def Chip.gateAnswer (x : Chip) (n : ReadNote) (a : MemoryAnswer) : Chip :=
  let x := x.onSgt fun g => { g with notes := g.notes.filter fun m => m.id != n.id }
  match x.swathById n.swath, a with
  | some r, .good data =>
    let w := x.rewrite r n.offset data
    ((x.setReadPhase .hPort n.id (.answered .good w.data)).countDelivered r w).completeIfCovered r n
  | some r, .fault =>
    ((x.setReadPhase .hPort n.id (.answered .fault [])).onSwath r.id fun s =>
      { s with faulted := addCount s.faulted 1 }).completeIfCovered r n
  | none, .good _ => x.withhold n.id
  | none, .fault => x.setReadPhase .hPort n.id (.answered .fault [])

/-- An answer to a read that the gate has no note of goes back unmodified (R155, R157). -/
def Chip.plainAnswer (x : Chip) (port : Port) (id : Nat) (a : MemoryAnswer) : Chip :=
  match a with
  | .good data => x.setReadPhase port id (.answered .good data)
  | .fault => x.setReadPhase port id (.answered .fault [])

def PortSwitch.inFlight (p : PortSwitch) : Port → List InFlight
  | .cPort => p.cInFlight
  | .hPort => p.hInFlight

def answerFits (a : MemoryAnswer) (len : Nat) : Bool :=
  match a with
  | .good data => data.length == len
  | .fault => true

/-- Memory answers the oldest outstanding read (R155); an answer of another length than the read's does not occur (log
entry 29). The MEMORY FAULT record of a FAULT answer (R157) is made before the gate does its part, so before the SWATH DONE
record where the answer completes its swath (R36, R37): the model's choice (log entry 49). -/
def Chip.memoryAnswer (x : Chip) (a : MemoryAnswer) : Chip :=
  match x.psw.outstanding with
  | [] => x
  | o :: rest =>
    match (x.psw.inFlight o.port).find? fun e => e.id == o.id with
    | none => x
    | some e =>
      if answerFits a e.len then
        let x := x.onPsw fun p => { p with outstanding := rest }
        let x := if a == .fault then x.uncorrectable o.port e else x
        match x.sgt.notes.find? fun n => n.id == o.id with
        | some n => if o.port == .hPort then x.gateAnswer n a else x.plainAnswer o.port o.id a
        | none => x.plainAnswer o.port o.id a
      else x

end Sys2Proof.Machine
end

