-- ==== Sys2Proof/Machine/Timers.lean ====
section
/-! DEFINITION. The timers of the part: holds, polls, deadlines and the ends of waits, each taken when it is due (R30, R60, R71, R72,
R74, R96 to R98, R102, R130, R134; log entry 6). -/

namespace Sys2Proof.Machine

/-- A timer set to a time has run out: the time base has reached it (Conventions, Time). -/
def Chip.ranOut (x : Chip) (timer : Option Nat) : Bool :=
  match timer with
  | some t => decide (t ≤ x.now)
  | none => false

/-! ## The hold timer (R30) -/

/-- The hold timer runs out: the reads are answered, the sheet's swaths unbound, the record made, the spoil reported
(R30). -/
def Chip.holdExpired (x : Chip) : Chip :=
  if x.ranOut x.sgt.holdTimer then
    let reads := x.sgt.holdQueue.length
    let waited := x.sgt.holdQueue.head?.bind fun r => x.swathById r.swath
    let x := (x.dropHeld fun _ => true).showChange x 10
    match waited with
    | none => x
    | some r =>
      ((x.unbindSheet r.sheet).journal (.swathWithheld r.sheet r.index reads x.sgt.holdLimit)).spoil r.sheet
  else x

/-! ## The ink controller's timers (R60, R71, R72, R74) -/

def isReadTagOf (k : Channel) : LinkOrder → Bool
  | .readTag j => j == k
  | _ => false

/-- A presence poll timer runs out: a READ TAG is offered unless one for the tag is on the link, and the timer is set 500 ms
after the expiry (R60, R148). -/
def Chip.pollTag (x : Chip) (k : Channel) : Chip :=
  match (x.ink.get k).pollTimer with
  | none => x
  | some t =>
    if t ≤ x.now then
      let x := x.onInk k fun i => { i with pollTimer := some (t + Config.pollTagTime) }
      if x.flm.onLink (isReadTagOf k) then x else x.offer (.readTag k)
    else x

/-- The 50 ms poll of the pump while a refill is PUMPING or STOPPING, unless a STATUS is under way (R71, R74, R149). -/
def Chip.pollPump (x : Chip) (k : Channel) : Chip :=
  match (x.refill k).pollAt with
  | none => x
  | some t =>
    if t ≤ x.now then
      let x := x.onRefill k fun f => { f with pollAt := some (t + Config.pollStatusTime) }
      if x.flm.underWay (isPumpStatusOf k) then x else x.offer (.pumpStatus k)
    else x

/-- The pump deadline runs out while PUMPING (R72). -/
def Chip.pumpTimeout (x : Chip) (k : Channel) : Chip :=
  if (x.account k).refillState == .pumping && x.ranOut (x.refill k).pumpDeadline then
    (x.journal (.inkPumpTimeout k (x.account k).transferRequested (x.refill k).moved)).enterStopping k .timeout
  else x

/-- The stop deadline runs out while STOPPING (R74). -/
def Chip.stopTimeout (x : Chip) (k : Channel) : Chip :=
  if (x.account k).refillState == .stopping && x.ranOut (x.refill k).stopDeadline then
    (x.journal (.inkStopLost k (x.refill k).moved)).endStop k
  else x

/-! ## The service controller's timers (R96 to R98) -/

/-- The 50 ms poll of the station while a step is in polling; none follows in an abandoning cycle (R97, R109, R149). -/
def Chip.pollStation (x : Chip) : Chip :=
  match x.svc.cycle.phase with
  | .polling t =>
    if t ≤ x.now && x.svc.cycle.state != .abandoning then
      let x := x.onCycle fun c => { c with phase := .polling (t + Config.pollStatusTime) }
      if x.flm.underWay isStationStatus then x else x.offer (.stationStatus x.svc.nextStep)
    else x
  | .none => x
  | .reserving => x
  | .ordered => x
  | .paging _ => x
  | .waiting _ => x

/-- The step deadline runs out: the step ends TIMEOUT (R96). -/
def Chip.stepTimeout (x : Chip) : Chip :=
  if x.svc.cycle.state.busy && x.ranOut x.svc.cycle.stepDeadline then x.endStep .timeout else x

/-- A WAIT step's time has elapsed: it ends DONE (R96). -/
def Chip.waitElapsed (x : Chip) : Chip :=
  match x.svc.cycle.phase with
  | .waiting t => if t ≤ x.now then x.endStep .done else x
  | .none => x
  | .reserving => x
  | .ordered => x
  | .paging _ => x
  | .polling _ => x

/-- The reservation deadline of a PRIME step runs out: it ends INK SHORT (R98). -/
def Chip.reservationTimeout (x : Chip) : Chip :=
  if x.svc.cycle.phase == .reserving && x.ranOut x.svc.cycle.reservationDeadline then x.endStep .inkShort else x

/-! ## The feed controller's timers (R130, R134) -/

/-- The 50 ms poll of the feed unit while a feed order is in polling (R130, R149). -/
def Chip.pollFeed (x : Chip) : Chip :=
  match x.fdc.order with
  | none => x
  | some o =>
    match o.pollAt with
    | none => x
    | some t =>
      if t ≤ x.now then
        let x := x.onFdc fun d => { d with order := some { o with pollAt := some (t + Config.pollStatusTime) } }
        if x.flm.underWay isFeedStatus then x else x.offer (.feedStatus o.serial)
      else x

/-- The deadline of the feed order in progress runs out: it ends TIMEOUT with the fed length last stored (R130). -/
def Chip.orderTimeout (x : Chip) : Chip :=
  match x.fdc.order with
  | none => x
  | some o => if o.deadline ≤ x.now then x.endFeedOrder o .timeout o.fed else x

/-- The dry timer runs out (R134). -/
def Chip.dryTimeout (x : Chip) : Chip :=
  if x.fdc.feed == .drying && x.ranOut x.fdc.dryTimer then x.dryExpired else x

end Sys2Proof.Machine
end

