-- ==== Sys2Proof/Machine/Frames.lean ====
section
/-! DEFINITION. The ends of frames on the field link, each delivered to the block that placed the order (R142, R143, R145). -/

namespace Sys2Proof.Machine

/-- The outcome of an order is sent to the block that placed it (R145). -/
def Chip.deliver (x : Chip) (o : LinkOrder) (outcome : FrameOutcome) : Chip :=
  match o with
  | .readTag k => x.takeReadTag k outcome
  | .debit k amount serial => x.takeDebit k amount serial outcome
  | .level k => x.takeLevel k outcome
  | .transfer k ul => x.takeTransfer k ul outcome
  | .stop k => x.takeStop k outcome
  | .pumpStatus k => x.takePumpStatus k outcome
  | .station _ step => x.takeStation step outcome
  | .stationStatus step => x.takeStationStatus step outcome
  | .checkPage page step => x.takeCheckPage page step outcome
  | .feed _ serial => x.takeFeedFrame serial outcome
  | .feedStatus serial => x.takeFeedStatus serial outcome
  | .feedCheck serial => x.takeFeedCheck serial outcome

/-- The frame of an order ends with an outcome, after the marks and bytes given (R145, log entry 8). -/
def Chip.endFrame (x : Chip) (o : LinkOrder) (outcome : FrameOutcome) (events : List WireEvent) : Chip :=
  ((x.onFlm fun m => { m with link := .ended }).emit (.frame events)).deliver o outcome

/-- A frame of an order of one kind ends; nothing where the link carries no such order (log entry 1). -/
def Chip.frameEnd (x : Chip) (kind : LinkOrder → Bool) (f : FrameEnd) : Chip :=
  match x.flm.link with
  | .carrying o _ => if kind o then x.endFrame o (o.outcome f.exchange) (o.wire f) else x
  | .free => x
  | .ended => x

def LinkOrder.isDebit : LinkOrder → Bool
  | .debit _ _ _ => true
  | _ => false

def LinkOrder.isLevel : LinkOrder → Bool
  | .level _ => true
  | _ => false

def LinkOrder.isTransfer : LinkOrder → Bool
  | .transfer _ _ => true
  | _ => false

def LinkOrder.isStop : LinkOrder → Bool
  | .stop _ => true
  | _ => false

def LinkOrder.isPumpStatus : LinkOrder → Bool
  | .pumpStatus _ => true
  | _ => false

def LinkOrder.isStation : LinkOrder → Bool
  | .station _ _ => true
  | _ => false

def LinkOrder.isCheckPage : LinkOrder → Bool
  | .checkPage _ _ => true
  | _ => false

def LinkOrder.isFeed : LinkOrder → Bool
  | .feed _ _ => true
  | _ => false

def LinkOrder.isFeedPoll : LinkOrder → Bool
  | .feedStatus _ => true
  | _ => false

def LinkOrder.isFeedCheck : LinkOrder → Bool
  | .feedCheck _ => true
  | _ => false

/-- FLDA has stayed low for the 20 ms of the line check: the order ends ABSENT without a start mark (R142). -/
def Chip.lineCheckFailed (x : Chip) : Chip :=
  match x.flm.link with
  | .carrying o since => if since + Config.linkWait ≤ x.now then x.endFrame o .absent [] else x
  | .free => x
  | .ended => x

/-- When the acknowledge slot of the order byte ends, in the frame with this number taken at a time: the wait of the line
check and the bit slots of the opening after it (R141 to R143; the wait is a free value, log entry 16). -/
def orderAcknowledged (frame since : Nat) : Nat := since + Config.lineCheckWait frame + Config.openingTime

/-- FLDA has stayed low for 20 ms after the acknowledge slot of the order byte: the frame ends BUSY TIMEOUT, no further slot of
it is clocked, and the unit's release of FLDA is its release mark (R143). -/
def Chip.busyHoldFailed (x : Chip) : Chip :=
  match x.flm.link with
  | .carrying o since =>
    if orderAcknowledged x.flm.frames since + Config.linkWait ≤ x.now then
      x.endFrame o .busyTimeout (o.opening ++ [.releaseByUnit])
    else x
  | .free => x
  | .ended => x

end Sys2Proof.Machine
end

