-- ==== Sys2Proof/Machine/LinkEvents.lean ====
section
/-! DEFINITION. The meanings of the field-link events: a frame ends, by its exchange or by a timeout (R142 to R146). -/

namespace Sys2Proof.Machine

/-- FLDA stays low through the line check (R142). -/
def execLineCheckTimeout (s : State) : Host.Outcome State Fault Refusal :=
  .next { s with chip := s.chip.event fun x => x.lineCheckFailed }

/-- A busy hold passes 20 ms (R143). -/
def execBusyTimeout (s : State) : Host.Outcome State Fault Refusal :=
  .next { s with chip := s.chip.event fun x => x.busyHoldFailed }

/-- A READ TAG frame ends (R61 to R65). -/
def execReadTagOutcome (f : FrameEnd) (s : State) : Host.Outcome State Fault Refusal :=
  .next { s with chip := s.chip.event fun x => x.frameEnd LinkOrder.isReadTag f }

/-- A DEBIT frame ends (R68, R75). -/
def execDebitOutcome (f : FrameEnd) (s : State) : Host.Outcome State Fault Refusal :=
  .next { s with chip := s.chip.event fun x => x.frameEnd LinkOrder.isDebit f }

/-- A LEVEL frame ends (R46). -/
def execLevelOutcome (f : FrameEnd) (s : State) : Host.Outcome State Fault Refusal :=
  .next { s with chip := s.chip.event fun x => x.frameEnd LinkOrder.isLevel f }

/-- A TRANSFER frame ends (R70). -/
def execTransferOutcome (f : FrameEnd) (s : State) : Host.Outcome State Fault Refusal :=
  .next { s with chip := s.chip.event fun x => x.frameEnd LinkOrder.isTransfer f }

/-- A STOP frame ends (R74). -/
def execStopOutcome (f : FrameEnd) (s : State) : Host.Outcome State Fault Refusal :=
  .next { s with chip := s.chip.event fun x => x.frameEnd LinkOrder.isStop f }

/-- A pump STATUS frame ends (R71, R74). -/
def execPumpStatusOutcome (f : FrameEnd) (s : State) : Host.Outcome State Fault Refusal :=
  .next { s with chip := s.chip.event fun x => x.frameEnd LinkOrder.isPumpStatus f }

/-- The frame of a step's order ends (R97, R109). -/
def execStationOrderOutcome (f : FrameEnd) (s : State) : Host.Outcome State Fault Refusal :=
  .next { s with chip := s.chip.event fun x => x.frameEnd LinkOrder.isStation f }

/-- A station STATUS frame ends (R97 to R99, R109). -/
def execStationStatusOutcome (f : FrameEnd) (s : State) : Host.Outcome State Fault Refusal :=
  .next { s with chip := s.chip.event fun x => x.frameEnd isStationStatus f }

/-- A CHECK PAGE frame ends (R99, R109). -/
def execCheckPageOutcome (f : FrameEnd) (s : State) : Host.Outcome State Fault Refusal :=
  .next { s with chip := s.chip.event fun x => x.frameEnd LinkOrder.isCheckPage f }

/-- The frame of a feed order ends (R130). -/
def execFeedOrderOutcome (f : FrameEnd) (s : State) : Host.Outcome State Fault Refusal :=
  .next { s with chip := s.chip.event fun x => x.frameEnd LinkOrder.isFeed f }

/-- A feed STATUS frame ends (R130). -/
def execFeedStatusOutcome (f : FrameEnd) (s : State) : Host.Outcome State Fault Refusal :=
  .next { s with chip := s.chip.event fun x => x.frameEnd LinkOrder.isFeedPoll f }

/-- The STATUS frame of a CLEAR JAM check ends (R139). -/
def execClearJamCheckOutcome (f : FrameEnd) (s : State) : Host.Outcome State Fault Refusal :=
  .next { s with chip := s.chip.event fun x => x.frameEnd LinkOrder.isFeedCheck f }

end Sys2Proof.Machine
end

