-- ==== Sys2Proof/Machine/PinEvents.lean ====
section
/-! DEFINITION. The meanings of the pin events: RESET, its release, and a period of the time base (R154, R158, R166, R167). -/

namespace Sys2Proof.Machine

/-- The frame that RESET cuts off, where one is on the link (R151). -/
def LinkState.cut : LinkState → List Emission
  | .carrying o since => [.frameCut o since]
  | .free => []
  | .ended => []

/-- The part while RESET is asserted: its values after RESET, no frame, no request, no response (R41, R151, R158). The
straps are sampled at the release. What has been driven outward stays driven, with the trace of a frame cut off (log entries
11 and 45). -/
def Chip.assertReset (x : Chip) : Chip :=
  { Chip.reset 0#3 with inReset := true, sent := x.sent ++ x.flm.link.cut }

/-- RESET is released with the straps at a value; without RESET asserted there is no release (log entry 1). -/
def Chip.releaseReset (x : Chip) (straps : BitVec 3) : Chip :=
  if x.inReset then { Chip.reset straps with sent := x.sent : Chip }.fillWriter else x

/-- The time base after one period, a 64-bit count (R167). -/
def nextTime (t : Nat) : Nat := (t + 1) % 2 ^ 64

/-- One period of the time base (R167). The writer's forward queue does not stand empty across it while anything waits for it
(R168): from the state after reset its first write is taken before the time base has risen (log entry 10). -/
def Chip.tick (x : Chip) : Chip :=
  if x.inReset then x else x.fillWriter.onRpw fun w => { w with timeBase := nextTime w.timeBase }

/-- RESET is asserted: every block takes its values after RESET, and nothing happens until the release (R41, R151, R158, R166). -/
def execReset (s : State) : Host.Outcome State Fault Refusal :=
  .next { s with chip := s.chip.assertReset }

/-- RESET is released: the straps are sampled and the status records begin to be written (R154, R166, R168). -/
def execResetRelease (straps : BitVec 3) (s : State) : Host.Outcome State Fault Refusal :=
  .next { s with chip := s.chip.releaseReset straps }

/-- One period of TBCLK: the time base rises by 1 (R167); a part held in RESET does not count. -/
def execTimeBaseTick (s : State) : Host.Outcome State Fault Refusal :=
  .next { s with chip := s.chip.tick }

end Sys2Proof.Machine
end

