-- ==== Sys2Proof/Machine/PortEvents.lean ====
section
/-! DEFINITION. The meanings of the memory-port events: requests offered upstream, a grant of the arbiter, an answer of memory (chapter 10). -/

namespace Sys2Proof.Machine

/-- A C-port write into the command ring (R152 to R155, R160, R161). Where a C-port write lands is decided by its address (log entry 3). -/
def execSlotWrite (w : WriteRequest) (s : State) : Host.Outcome State Fault Refusal :=
  .next { s with chip := s.chip.event fun x => x.cPortWrite w }

/-- A C-port write of the journal read index word (R152 to R155, R170; log entry 3). -/
def execReadIndexWrite (w : WriteRequest) (s : State) : Host.Outcome State Fault Refusal :=
  .next { s with chip := s.chip.event fun x => x.cPortWrite w }

/-- Any other C-port write (R7, R8, R152 to R155; log entry 3). -/
def execControllerWrite (w : WriteRequest) (s : State) : Host.Outcome State Fault Refusal :=
  .next { s with chip := s.chip.event fun x => x.cPortWrite w }

/-- A C-port read (R152 to R155). -/
def execControllerRead (r : ReadRequest) (s : State) : Host.Outcome State Fault Refusal :=
  .next { s with chip := s.chip.event fun x => x.cPortRead r }

/-- An H-port read (R25 to R28, R152 to R155). -/
def execHeadRead (r : ReadRequest) (s : State) : Host.Outcome State Fault Refusal :=
  .next { s with chip := s.chip.event fun x => x.hPortRead r }

/-- An H-port write (R152 to R155). -/
def execHeadWrite (w : WriteRequest) (s : State) : Host.Outcome State Fault Refusal :=
  .next { s with chip := s.chip.event fun x => x.hPortWrite w }

/-- The memory port can take a request: one grant of the arbiter (R155, R156, R162, R168 to R171). -/
def execArbiterGrant (s : State) : Host.Outcome State Fault Refusal :=
  .next { s with chip := s.chip.event fun x => x.fillWriter.grant }

/-- Memory answers the oldest outstanding read (R32 to R38, R155, R157). -/
def execMemoryAnswer (a : MemoryAnswer) (s : State) : Host.Outcome State Fault Refusal :=
  .next { s with chip := s.chip.event fun x => x.memoryAnswer a }

end Sys2Proof.Machine
end

