-- ==== Sys2Proof/Machine/RingCommands.lean ====
section
/-! DEFINITION. The meanings of the ring's commands: the print controller writes the command into the next slot, and the part takes it (R160, R161; log entry 2). -/

namespace Sys2Proof.Machine

/-- NOP (R165), written into the next slot of the ring and taken when its turn comes. -/
def execNop (s : State) : Host.Outcome State Fault Refusal :=
  .next { s with chip := s.chip.event fun x => x.command .nop }

/-- CONFIGURE (R164), written into the next slot of the ring and taken when its turn comes. -/
def execConfigure (a : ConfigureArgs) (s : State) : Host.Outcome State Fault Refusal :=
  .next { s with chip := s.chip.event fun x => x.command (.configure a) }

/-- RESTART (R165), written into the next slot of the ring and taken when its turn comes. -/
def execRestart (s : State) : Host.Outcome State Fault Refusal :=
  .next { s with chip := s.chip.event fun x => x.command .restart }

/-- SET CHANNEL (R44, R45), written into the next slot of the ring and taken when its turn comes. -/
def execSetChannel (a : SetChannelArgs) (s : State) : Host.Outcome State Fault Refusal :=
  .next { s with chip := s.chip.event fun x => x.command (.setChannel a) }

/-- SET ROLL (R127), written into the next slot of the ring and taken when its turn comes. -/
def execSetRoll (a : SetRollArgs) (s : State) : Host.Outcome State Fault Refusal :=
  .next { s with chip := s.chip.event fun x => x.command (.setRoll a) }

/-- QUEUE SHEET (R111, R112), written into the next slot of the ring and taken when its turn comes. -/
def execQueueSheet (a : QueueSheetArgs) (s : State) : Host.Outcome State Fault Refusal :=
  .next { s with chip := s.chip.event fun x => x.command (.queueSheet a) }

/-- SWATH READY (R11, R12), written into the next slot of the ring and taken when its turn comes. -/
def execSwathReady (a : SwathReadyArgs) (s : State) : Host.Outcome State Fault Refusal :=
  .next { s with chip := s.chip.event fun x => x.command (.swathReady a) }

/-- CANCEL SHEET (R119 to R121), written into the next slot of the ring and taken when its turn comes. -/
def execCancelSheet (sheet : BitVec 16) (s : State) : Host.Outcome State Fault Refusal :=
  .next { s with chip := s.chip.event fun x => x.command (.cancelSheet sheet) }

/-- CLEAR JAM (R139), written into the next slot of the ring and taken when its turn comes. -/
def execClearJam (s : State) : Host.Outcome State Fault Refusal :=
  .next { s with chip := s.chip.event fun x => x.command .clearJam }

/-- SET NOZZLE (R83 to R85), written into the next slot of the ring and taken when its turn comes. -/
def execSetNozzle (a : SetNozzleArgs) (s : State) : Host.Outcome State Fault Refusal :=
  .next { s with chip := s.chip.event fun x => x.command (.setNozzle a) }

/-- LOAD PROGRAM (R95), written into the next slot of the ring and taken when its turn comes. -/
def execLoadProgram (a : LoadProgramArgs) (s : State) : Host.Outcome State Fault Refusal :=
  .next { s with chip := s.chip.event fun x => x.command (.loadProgram a) }

/-- RUN PROGRAM (R103), written into the next slot of the ring and taken when its turn comes. -/
def execRunProgram (program : BitVec 8) (s : State) : Host.Outcome State Fault Refusal :=
  .next { s with chip := s.chip.event fun x => x.command (.runProgram program) }

/-- A kind that is not defined (R163), written into the next slot of the ring and taken when its turn comes. -/
def execUnknownKind (kind : BitVec 8) (s : State) : Host.Outcome State Fault Refusal :=
  .next { s with chip := s.chip.event fun x => x.command (.unknown kind) }

end Sys2Proof.Machine
end

