-- ==== Sys2Proof/Machine/TimerEvents.lean ====
section
/-! DEFINITION. The meanings of the timer events: each takes effect where its timer is due (log entry 6). -/

namespace Sys2Proof.Machine

/-- The hold timer runs out (R30). -/
def execHoldTimerExpiry (s : State) : Host.Outcome State Fault Refusal :=
  .next { s with chip := s.chip.event fun x => x.holdExpired }

/-- A presence poll timer runs out (R60). -/
def execPollTimerExpiry (k : Channel) (s : State) : Host.Outcome State Fault Refusal :=
  .next { s with chip := s.chip.event fun x => x.pollTag k }

/-- The 50 ms pump poll (R71, R74). -/
def execPumpStatusPoll (k : Channel) (s : State) : Host.Outcome State Fault Refusal :=
  .next { s with chip := s.chip.event fun x => x.pollPump k }

/-- The pump deadline runs out (R72). -/
def execPumpDeadlineExpiry (k : Channel) (s : State) : Host.Outcome State Fault Refusal :=
  .next { s with chip := s.chip.event fun x => x.pumpTimeout k }

/-- The stop deadline runs out (R74). -/
def execStopDeadlineExpiry (k : Channel) (s : State) : Host.Outcome State Fault Refusal :=
  .next { s with chip := s.chip.event fun x => x.stopTimeout k }

/-- The 50 ms station poll (R97). -/
def execStationStatusPoll (s : State) : Host.Outcome State Fault Refusal :=
  .next { s with chip := s.chip.event fun x => x.pollStation }

/-- The step deadline runs out (R96). -/
def execStepDeadlineExpiry (s : State) : Host.Outcome State Fault Refusal :=
  .next { s with chip := s.chip.event fun x => x.stepTimeout }

/-- A WAIT step has lasted its time (R96). -/
def execWaitStepEnd (s : State) : Host.Outcome State Fault Refusal :=
  .next { s with chip := s.chip.event fun x => x.waitElapsed }

/-- The reservation deadline of a PRIME step runs out (R98). -/
def execReservationDeadlineExpiry (s : State) : Host.Outcome State Fault Refusal :=
  .next { s with chip := s.chip.event fun x => x.reservationTimeout }

/-- The IDLE trigger of a program is due (R102). -/
def execIdleTrigger (p : Fin 8) (s : State) : Host.Outcome State Fault Refusal :=
  .next { s with chip := s.chip.event fun x => x.fireIdle p }

/-- The PRINT TIME trigger of a program is due within the open firing period (R102). -/
def execPrintTimeTrigger (p : Fin 8) (s : State) : Host.Outcome State Fault Refusal :=
  .next { s with chip := s.chip.event fun x => x.firePrintTime p }

/-- The 50 ms feed poll (R130). -/
def execFeedStatusPoll (s : State) : Host.Outcome State Fault Refusal :=
  .next { s with chip := s.chip.event fun x => x.pollFeed }

/-- The deadline of the feed order in progress runs out (R130). -/
def execOrderDeadlineExpiry (s : State) : Host.Outcome State Fault Refusal :=
  .next { s with chip := s.chip.event fun x => x.orderTimeout }

/-- The dry timer runs out (R134). -/
def execDryTimerExpiry (s : State) : Host.Outcome State Fault Refusal :=
  .next { s with chip := s.chip.event fun x => x.dryTimeout }

end Sys2Proof.Machine
end

