-- ==== Sys2Proof/Machine/Dispatch.lean ====
section
/-! DEFINITION. The effect of each command on everything but the queue, one arm per command. -/

namespace Sys2Proof.Machine

/-- What a command does to the part. -/
def exec (i : Instr) (s : State) : Host.Outcome State Fault Refusal :=
  match i with
  | .reset => Sys2Proof.Machine.execReset s
  | .resetRelease straps => Sys2Proof.Machine.execResetRelease straps s
  | .timeBaseTick => Sys2Proof.Machine.execTimeBaseTick s
  | .slotWrite w => Sys2Proof.Machine.execSlotWrite w s
  | .readIndexWrite w => Sys2Proof.Machine.execReadIndexWrite w s
  | .controllerWrite w => Sys2Proof.Machine.execControllerWrite w s
  | .controllerRead r => Sys2Proof.Machine.execControllerRead r s
  | .headRead r => Sys2Proof.Machine.execHeadRead r s
  | .headWrite w => Sys2Proof.Machine.execHeadWrite w s
  | .arbiterGrant => Sys2Proof.Machine.execArbiterGrant s
  | .memoryAnswer a => Sys2Proof.Machine.execMemoryAnswer a s
  | .nop => Sys2Proof.Machine.execNop s
  | .configure a => Sys2Proof.Machine.execConfigure a s
  | .restart => Sys2Proof.Machine.execRestart s
  | .setChannel a => Sys2Proof.Machine.execSetChannel a s
  | .setRoll a => Sys2Proof.Machine.execSetRoll a s
  | .queueSheet a => Sys2Proof.Machine.execQueueSheet a s
  | .swathReady a => Sys2Proof.Machine.execSwathReady a s
  | .cancelSheet sheet => Sys2Proof.Machine.execCancelSheet sheet s
  | .clearJam => Sys2Proof.Machine.execClearJam s
  | .setNozzle a => Sys2Proof.Machine.execSetNozzle a s
  | .loadProgram a => Sys2Proof.Machine.execLoadProgram a s
  | .runProgram program => Sys2Proof.Machine.execRunProgram program s
  | .unknownKind kind => Sys2Proof.Machine.execUnknownKind kind s
  | .holdTimerExpiry => Sys2Proof.Machine.execHoldTimerExpiry s
  | .pollTimerExpiry k => Sys2Proof.Machine.execPollTimerExpiry k s
  | .pumpStatusPoll k => Sys2Proof.Machine.execPumpStatusPoll k s
  | .pumpDeadlineExpiry k => Sys2Proof.Machine.execPumpDeadlineExpiry k s
  | .stopDeadlineExpiry k => Sys2Proof.Machine.execStopDeadlineExpiry k s
  | .stationStatusPoll => Sys2Proof.Machine.execStationStatusPoll s
  | .stepDeadlineExpiry => Sys2Proof.Machine.execStepDeadlineExpiry s
  | .waitStepEnd => Sys2Proof.Machine.execWaitStepEnd s
  | .reservationDeadlineExpiry => Sys2Proof.Machine.execReservationDeadlineExpiry s
  | .idleTrigger p => Sys2Proof.Machine.execIdleTrigger p s
  | .printTimeTrigger p => Sys2Proof.Machine.execPrintTimeTrigger p s
  | .feedStatusPoll => Sys2Proof.Machine.execFeedStatusPoll s
  | .orderDeadlineExpiry => Sys2Proof.Machine.execOrderDeadlineExpiry s
  | .dryTimerExpiry => Sys2Proof.Machine.execDryTimerExpiry s
  | .lineCheckTimeout => Sys2Proof.Machine.execLineCheckTimeout s
  | .busyTimeout => Sys2Proof.Machine.execBusyTimeout s
  | .readTagOutcome f => Sys2Proof.Machine.execReadTagOutcome f s
  | .debitOutcome f => Sys2Proof.Machine.execDebitOutcome f s
  | .levelOutcome f => Sys2Proof.Machine.execLevelOutcome f s
  | .transferOutcome f => Sys2Proof.Machine.execTransferOutcome f s
  | .stopOutcome f => Sys2Proof.Machine.execStopOutcome f s
  | .pumpStatusOutcome f => Sys2Proof.Machine.execPumpStatusOutcome f s
  | .stationOrderOutcome f => Sys2Proof.Machine.execStationOrderOutcome f s
  | .stationStatusOutcome f => Sys2Proof.Machine.execStationStatusOutcome f s
  | .checkPageOutcome f => Sys2Proof.Machine.execCheckPageOutcome f s
  | .feedOrderOutcome f => Sys2Proof.Machine.execFeedOrderOutcome f s
  | .feedStatusOutcome f => Sys2Proof.Machine.execFeedStatusOutcome f s
  | .clearJamCheckOutcome f => Sys2Proof.Machine.execClearJamCheckOutcome f s

end Sys2Proof.Machine
end

