-- ==== Sys2Proof/Safety.lean ====
section
/-! DEFINITION. The predicates and views that statements about the part are made with: what the end of an event leaves as it was,
a part with nothing left to do, a ring command about to be carried out, and the invariants of the part. -/

namespace Sys2Proof.Machine

/-! ## What the end of an event leaves as it was

`kept` is the part with everything blanked that `conclude` may change: held reads, responses and their credits, the reservation
books, refills that start, the claim and the cycle, the sheet being admitted, the link, and what the report writer has pending. -/

def PortSwitch.kept (p : PortSwitch) : PortSwitch :=
  { p with cCredits := 0, hCredits := 0, hQueue := [], writer := none, cInFlight := [], hInFlight := [] }

def Swath.kept (r : Swath) : Swath := { r with state := .bound, spitSet := .all [], reservation := .all 0 }

def Gate.kept (g : Gate) : Gate :=
  { g with swaths := g.swaths.map Swath.kept, holdQueue := [], holdTimer := none, claim := .free, notes := [],
           wakeAskedFor := none }

def Account.kept (a : Account) : Account :=
  { a with reserved := 0, holder := .none, refillState := .idle, transferRequested := 0 }

def InkChannel.kept (i : InkChannel) : InkChannel := { i with account := i.account.kept, refill := .reset }

def NozzleMonitor.kept (n : NozzleMonitor) : NozzleMonitor := { n with held := false }

def ServiceController.kept (v : ServiceController) : ServiceController :=
  { v with counters := Vector.replicate 8 (.reset 0), idleStretch := none, requests := [], cycle := .idle,
           wakeAsk := none, lastCycle := none, nextStep := 0 }

def Sheet.kept (h : Sheet) : Sheet :=
  { h with state := .queued, waitingCause := none, assigned := none, loadStep := 0 }

def FeedController.kept (d : FeedController) : FeedController :=
  { d with sheets := d.sheets.map Sheet.kept, feed := .idle, positioned := none, purpose := none, order := none,
           nextOrder := 0 }

def ReportWriter.kept (w : ReportWriter) : ReportWriter :=
  { w with statusSet := [], updateCounts := Vector.replicate 13 0, ordered := [], overflow := false, dropped := 0,
           firstDrop := 0 }

/-- The six channels with every one changed by one function. -/
def keptInk (v : Six InkChannel) : Six InkChannel :=
  ⟨v.c0.kept, v.c1.kept, v.c2.kept, v.c3.kept, v.c4.kept, v.c5.kept⟩

def Chip.kept (x : Chip) : Chip :=
  { inReset := x.inReset, psw := x.psw.kept, cmi := x.cmi, sgt := x.sgt.kept, ink := keptInk x.ink, nmn := x.nmn.kept,
    svc := x.svc.kept, fdc := x.fdc.kept,
    flm := { queue := [], link := .free, frames := 0, feedRoom := .reset, serviceRoom := .reset, inkRoom := .reset },
    rpw := x.rpw.kept, sent := [], due := .nothing }

/-! ## A part with nothing left to do -/

def InFlight.isAnswered (e : InFlight) : Bool :=
  match e.phase with
  | .answered _ _ => true
  | .waiting => false
  | .issued => false

/-- The oldest in-flight read of a port has no answer yet (R155). -/
def nothingAnswered (l : List InFlight) : Bool :=
  match l with
  | [] => true
  | e :: _ => !e.isAnswered

/-- No test is called for, no read is held, the service controller has no act to make, the idle stretch stands as its
conditions say, no frame has just ended, and no response can be sent. -/
def Chip.quiet (x : Chip) : Prop :=
  x.due = .nothing ∧ x.sgt.holdQueue = [] ∧ x.serviceNext.isNone = true ∧ x.svc.idleStretch.isSome = x.idleHolds ∧
    x.flm.link ≠ .ended ∧ nothingAnswered x.psw.cInFlight = true ∧ nothingAnswered x.psw.hInFlight = true

/-! ## A command of the ring about to be carried out (R152 to R155, R160, R161) -/

/-- The next slot of the ring can be written and taken in one event: a credit is free, the slot is IDLE, the slot behind it
is not POSTED, and the ordered list has a free place. -/
def Chip.readyForCommand (x : Chip) : Prop :=
  x.inReset = false ∧ 0 < x.psw.cCredits ∧ x.cmi.slots.get x.cmi.nextSlot = .idle ∧
    x.cmi.slots.get (nextOf x.cmi.nextSlot) ≠ .posted ∧ x.rpw.placesTaken < Config.orderedPlaces

/-- The 64 bytes of a slot as a shadow. -/
def shadowOf (bs : List Byte) : Vector Byte 64 :=
  bs.zipIdx.foldl (fun v e => v.setIfInBounds e.2 e.1) (Vector.replicate 64 0#8)

/-- The part as the command's owner finds it: the write accepted with its credit, the shadow written, the slot REPLY PENDING,
the next-slot index advanced, and the reply's place reserved (R155, R160, R161 steps 1 and 2). -/
def Chip.taking (x : Chip) (c : RingCommand) : Chip :=
  { x with
    psw := { x.psw with cCredits := x.psw.cCredits - 1, cQueue := x.psw.cQueue ++ [.write (x.slotWriteOf c)] }
    cmi :=
      { x.cmi with
        shadows := x.cmi.shadows.set x.cmi.nextSlot (shadowOf (encodeSlot c))
        slots := x.cmi.slots.set x.cmi.nextSlot .replyPending
        nextSlot := nextOf x.cmi.nextSlot }
    rpw := { x.rpw with replyReserved := true } }

/-- The end of a take from the state the owner left: the status records that the command has changed, the tests called for, the
reply in its reserved place, and the end of the event (R161, R162, R168). -/
def Chip.finish (x : Chip) (c : RingCommand) (y : Chip) (a : Answer) : Chip :=
  conclude x ((y.refreshStatus x).settle.reply x.cmi.nextSlot (encodeSlot c) a)

/-! ## The end of an event -/

/-- The state after an event whose own effect on the part is `y`: the event comes to its end, and the queue is as it was. -/
def State.after (s : State) (y : Chip) : State := { s with chip := conclude s.chip y }

/-! ## Requests at acceptance (R152, R153, R155) -/

/-- A write accepted on the C-port: its credit taken, its place in the forward queue. -/
def Chip.acceptWrite (x : Chip) (w : WriteRequest) : Chip :=
  { x with psw := { x.psw with cCredits := x.psw.cCredits - 1, cQueue := x.psw.cQueue ++ [.write w] } }

/-- A read accepted on the C-port: its credit taken, its entry at the end of the in-flight list. -/
def Chip.enterCRead (x : Chip) (r : ReadRequest) (phase : ReadPhase) : Chip :=
  { x with psw := { x.psw with
    cInFlight := x.psw.cInFlight ++ [{ id := x.psw.nextRead, tag := r.tag, addr := r.addr, len := r.len, phase := phase }]
    cCredits := x.psw.cCredits - 1, nextRead := x.psw.nextRead + 1 } }

/-- A read accepted on the H-port. -/
def Chip.enterHRead (x : Chip) (r : ReadRequest) (phase : ReadPhase) : Chip :=
  { x with psw := { x.psw with
    hInFlight := x.psw.hInFlight ++ [{ id := x.psw.nextRead, tag := r.tag, addr := r.addr, len := r.len, phase := phase }]
    hCredits := x.psw.hCredits - 1, nextRead := x.psw.nextRead + 1 } }

/-- The state after a command of the ring has been taken, its owner having left the part as `y` and given its answer. -/
def State.replied (s : State) (c : RingCommand) (y : Chip) (a : Answer) : State := { s with chip := s.chip.finish c y a }

/-! ## A frame that has ended (R145) -/

/-- The frame on the link is over, with the marks and bytes that were on the wires. -/
def Chip.frameOver (x : Chip) (events : List WireEvent) : Chip :=
  { x with flm := { x.flm with link := .ended }, sent := x.sent ++ [.frame events] }

/-- Every order the link master knows of: on the link, in the queue, or declined and waiting (R147 to R149). -/
def LinkMaster.orders (m : LinkMaster) : List LinkOrder :=
  (match m.link with
    | .carrying o _ => [o]
    | .free => []
    | .ended => []) ++ m.queue ++ m.feedRoom.declined ++ m.serviceRoom.declined ++ m.inkRoom.declined

/-- The held reads answered WITHHELD, oldest first, and the hold timer STOPPED (R29, R30). -/
def Chip.holdsAnswered (x : Chip) : Chip :=
  { x with
    psw := { x.psw with
      hInFlight := x.psw.hInFlight.map fun e =>
        if x.sgt.holdQueue.any fun h => h.id == e.id then { e with phase := .answered .withheld [] } else e }
    sgt := { x.sgt with holdQueue := [], holdTimer := none } }

/-! ## Invariants -/

/-- The memory port: at most 32 reads outstanding and a head run of at most 8 (R155, R156). -/
def Chip.portsWithinLimits (x : Chip) : Prop :=
  x.psw.outstanding.length ≤ Config.outstandingReads ∧ x.psw.headRun ≤ Config.headRunLimit

/-- Between events no test is called for, no reply's place is reserved, and no frame stands ended. -/
def Chip.betweenEvents (x : Chip) : Prop :=
  x.due = .nothing ∧ x.rpw.replyReserved = false ∧ x.flm.link ≠ .ended

/-- The ordered list holds at most 32 entries (R169). -/
def Chip.orderedWithinLimit (x : Chip) : Prop := x.rpw.placesTaken ≤ Config.orderedPlaces

/-- The order queue holds at most 16 entries (R147). -/
def Chip.linkWithinLimit (x : Chip) : Prop := x.flm.queue.length ≤ Config.linkPlaces

/-- The sheet queue holds at most 8 records (R110). -/
def Chip.sheetsWithinLimit (x : Chip) : Prop := x.fdc.sheets.length ≤ Config.sheetPlaces

/-- The remainder of every channel is 0 to 999 pL (R54). -/
def Chip.remaindersWithinLimit (x : Chip) : Prop := ∀ k, (x.account k).remainder ≤ 999

/-- The 16 credits of each port are free, or held by a write that waits in its forward queue or by a read in flight (R153). -/
def Chip.creditsAgree (x : Chip) : Prop :=
  x.psw.cCredits + x.psw.cInFlight.length + (x.psw.cQueue.filter Forward.isWrite).length = Config.portCredits ∧
    x.psw.hCredits + x.psw.hInFlight.length + (x.psw.hQueue.filter Forward.isWrite).length = Config.portCredits

/-- A held read waits in flight for its answer, is neither in the forward queue nor issued, and is held once (R27, R28, R155);
a number is given to one read (log entry 12). -/
def Chip.holdsAgree (x : Chip) : Prop :=
  (x.sgt.holdQueue.map HeldRead.id).Nodup ∧
    (∀ h ∈ x.sgt.holdQueue, h.id < x.psw.nextRead ∧ (∃ e ∈ x.psw.hInFlight, e.id = h.id ∧ e.phase = .waiting) ∧
      (∀ addr len, .read h.id addr len ∉ x.psw.hQueue) ∧ { port := .hPort, id := h.id : Outstanding } ∉ x.psw.outstanding) ∧
    (∀ id addr len, .read id addr len ∈ x.psw.hQueue → id < x.psw.nextRead) ∧
    ∀ o ∈ x.psw.outstanding, o.port = .hPort → o.id < x.psw.nextRead

/-- The hold queue holds at most 16 reads (R18, R27). -/
def Chip.holdsWithinLimit (x : Chip) : Prop := x.sgt.holdQueue.length ≤ 16

/-- The nozzle-out list holds at most 96 entries, in ascending order of channel and nozzle and no two for one nozzle (R80), and
the pending list at most 16 (R85). -/
def Chip.nozzlesWithinLimits (x : Chip) : Prop :=
  x.nmn.outList.length ≤ Config.outPlaces ∧ (x.nmn.outList.Pairwise fun a b => a.before b = true) ∧
    (x.nmn.outList.map fun e => (e.channel, e.nozzle)).Nodup ∧ x.nmn.pending.length ≤ Config.pendingPlaces

/-- The request list holds at most 8 entries, a program at most once (R103). -/
def Chip.requestsWithinLimits (x : Chip) : Prop :=
  x.svc.requests.length ≤ 8 ∧ (x.svc.requests.map Request.program).Nodup

/-- Each BOUND buffer has one swath record, and each swath record a BOUND buffer (R10, R13); a number is given to one record
(log entry 12), and no record exists while the part is UNCONFIGURED (R163). -/
def Chip.buffersAgree (x : Chip) : Prop :=
  (x.sgt.swaths.map Swath.buffer).Nodup ∧
    (∀ b, b ∈ x.sgt.swaths.map Swath.buffer ↔ ∃ e, x.sgt.buffers[b]? = some e ∧ e.bound = true) ∧
    (x.sgt.swaths.map Swath.id).Nodup ∧ (∀ r ∈ x.sgt.swaths, r.id < x.sgt.nextSwathId) ∧
    (x.cmi.partState = .unconfigured → x.sgt.swaths = [])

/-- A cycle that has the carriage claim: one RUNNING or RECOVERING (R23, R105, R107). -/
def CycleState.hasClaim : CycleState → Bool
  | .none => false
  | .claiming => false
  | .running => true
  | .recovering => true
  | .abandoning => false

/-- At most one swath is ARMED or FIRING; it has the claim, and the nozzle-out list is held, exactly while there is one; a
service cycle has the claim exactly while it is RUNNING or RECOVERING (R19, R23, R82, R105). -/
def Chip.claimAgrees (x : Chip) : Prop :=
  (x.sgt.swaths.filter Swath.live).length = (if x.sgt.claim = .swath then 1 else 0) ∧
    (x.nmn.held = true ↔ x.sgt.claim = .swath) ∧
    (x.svc.cycle.state.hasClaim = true ↔ x.sgt.claim = .service)

/-- A released read's swath, while its record is in the table, is ARMED or FIRING (R28). -/
def Chip.notesAgree (x : Chip) : Prop :=
  ∀ n ∈ x.sgt.notes, n.swath < x.sgt.nextSwathId ∧ ∀ r ∈ x.sgt.swaths, r.id = n.swath → r.live = true

/-- The lists of the part agree with each other and stay within their limits. -/
def Chip.listsAgree (x : Chip) : Prop :=
  x.creditsAgree ∧ x.holdsAgree ∧ x.holdsWithinLimit ∧ x.nozzlesWithinLimits ∧ x.requestsWithinLimits ∧ x.buffersAgree ∧
    x.claimAgrees ∧ x.notesAgree

/-- The limits of the part that hold between any two events. -/
def Chip.invariant (x : Chip) : Prop :=
  x.portsWithinLimits ∧ x.betweenEvents ∧ x.orderedWithinLimit ∧ x.linkWithinLimit ∧ x.sheetsWithinLimit ∧
    x.remaindersWithinLimit ∧ x.listsAgree

end Sys2Proof.Machine
end

