-- ==== Sys2Proof/Certificates/Slice0/Obligations.lean ====
section
/-! DEFINITION. The statements for the provers. Each is one `Prop`; the rules of spec/ it rests on are in its docstring and in
OBLIGATIONS.json. Where a statement gives the part at the end of an event it writes `conclude s.chip E`: `E` is the effect the
rules give the command, and `conclude` the end of the event, of which `EndOfAnEvent` says what it leaves alone. -/

open Sys2Proof Sys2Proof.Machine

/-! ## The machine as a whole -/

/-- A step takes the command at the front of the queue and carries it out with the queue's rest; with no command waiting the
block idles (the idling is the model's choice, log entry 5). -/
def Obligations.StepTakesTheFrontCommand : Prop :=
  (∀ (c : Instr) (chip : Chip) (rest : List Instr),
     step { chip := chip, pending := c :: rest } = exec c { chip := chip, pending := rest }) ∧
  (∀ chip : Chip, step { chip := chip, pending := [] } = .next { chip := chip, pending := [] })

/-- Every command answers a next state, leaves the queue alone, and acts on the part whatever waits behind it. An event that
comes without its occasion (a timer that is not due, the end of a frame the link does not carry, an answer to no read) leaves
the part to the end of an event alone (the model's choice, log entry 1). A line check has its
occasion to fail 20 ms after the frame began, a busy hold 20 ms after the acknowledge slot of the order byte, which follows the
wait of the line check, a free value, and 20 bit slots (log entry 16). -/
def Obligations.EveryCommandCompletes : Prop :=
  (∀ c : Instr, ∃ f : Chip → Chip, ∀ s : State, exec c s = .next { chip := f s.chip, pending := s.pending }) ∧
  (∀ s : State, s.chip.inReset = false →
    let x := s.chip
    let now := x.rpw.timeBase
    let nothing := fun c : Instr => exec c s = .next (s.after x)
    ((¬ ∃ t, x.sgt.holdTimer = some t ∧ t ≤ now) → nothing .holdTimerExpiry) ∧
    (∀ k, (¬ ∃ t, (x.ink.get k).pollTimer = some t ∧ t ≤ now) → nothing (.pollTimerExpiry k)) ∧
    (∀ k, (¬ ∃ t, (x.refill k).pollAt = some t ∧ t ≤ now) → nothing (.pumpStatusPoll k)) ∧
    (∀ k, (¬ ∃ t, (x.account k).refillState = .pumping ∧ (x.refill k).pumpDeadline = some t ∧ t ≤ now) →
      nothing (.pumpDeadlineExpiry k)) ∧
    (∀ k, (¬ ∃ t, (x.account k).refillState = .stopping ∧ (x.refill k).stopDeadline = some t ∧ t ≤ now) →
      nothing (.stopDeadlineExpiry k)) ∧
    ((¬ ∃ t, x.svc.cycle.phase = .polling t ∧ t ≤ now ∧ x.svc.cycle.state ≠ .abandoning) →
      nothing .stationStatusPoll) ∧
    ((¬ ∃ t, x.svc.cycle.state.busy = true ∧ x.svc.cycle.stepDeadline = some t ∧ t ≤ now) →
      nothing .stepDeadlineExpiry) ∧
    ((¬ ∃ t, x.svc.cycle.phase = .waiting t ∧ t ≤ now) → nothing .waitStepEnd) ∧
    ((¬ ∃ t, x.svc.cycle.phase = .reserving ∧ x.svc.cycle.reservationDeadline = some t ∧ t ≤ now) →
      nothing .reservationDeadlineExpiry) ∧
    ((¬ ∃ o t, x.fdc.order = some o ∧ o.pollAt = some t ∧ t ≤ now) → nothing .feedStatusPoll) ∧
    ((¬ ∃ o, x.fdc.order = some o ∧ o.deadline ≤ now) → nothing .orderDeadlineExpiry) ∧
    ((¬ ∃ t, x.fdc.feed = .drying ∧ x.fdc.dryTimer = some t ∧ t ≤ now) → nothing .dryTimerExpiry) ∧
    ((¬ ∃ o since, x.flm.link = .carrying o since ∧ since + 20000 ≤ now) → nothing .lineCheckTimeout) ∧
    ((¬ ∃ o since, x.flm.link = .carrying o since ∧
        since + min (Config.heldAtLineCheck x.flm.frames) 20000 + 50 + 20000 ≤ now) → nothing .busyTimeout) ∧
    (x.psw.outstanding = [] → ∀ a, nothing (.memoryAnswer a)) ∧
    ∀ f : FrameEnd,
      let carries := fun kind : LinkOrder → Bool => ∃ o since, x.flm.link = .carrying o since ∧ kind o = true
      (¬ carries LinkOrder.isReadTag → nothing (.readTagOutcome f)) ∧
      (¬ carries LinkOrder.isDebit → nothing (.debitOutcome f)) ∧
      (¬ carries LinkOrder.isLevel → nothing (.levelOutcome f)) ∧
      (¬ carries LinkOrder.isTransfer → nothing (.transferOutcome f)) ∧
      (¬ carries LinkOrder.isStop → nothing (.stopOutcome f)) ∧
      (¬ carries LinkOrder.isPumpStatus → nothing (.pumpStatusOutcome f)) ∧
      (¬ carries LinkOrder.isStation → nothing (.stationOrderOutcome f)) ∧
      (¬ carries isStationStatus → nothing (.stationStatusOutcome f)) ∧
      (¬ carries LinkOrder.isCheckPage → nothing (.checkPageOutcome f)) ∧
      (¬ carries LinkOrder.isFeed → nothing (.feedOrderOutcome f)) ∧
      (¬ carries LinkOrder.isFeedPoll → nothing (.feedStatusOutcome f)) ∧
      (¬ carries LinkOrder.isFeedCheck → nothing (.clearJamCheckOutcome f)))

/-- While RESET is asserted no command but RESET and its release changes anything (log entry 1); RESET takes the part to its
values after RESET and holds it there; the release samples the straps, and the writer takes the first of the thirteen pending
status records; FLCK is driven high and FLDA is not pulled in RESET and after its release (R41, R141, R151, R154, R158, R166,
R168). That the first status write is taken in the event of the release is the model's reading (log entry 10); the trace that a
frame cut off by RESET leaves in what has been driven outward is its choice (log entry 45). -/
def Obligations.ResetHoldsThePart : Prop :=
  (∀ (c : Instr) (s : State), s.chip.inReset = true → c ≠ .reset → (∀ straps, c ≠ .resetRelease straps) →
     exec c s = .next s) ∧
  (∀ s : State, exec .reset s =
    .next { s with
      chip := { Chip.reset 0#3 with
        inReset := true
        sent := s.chip.sent ++ (match s.chip.flm.link with
          | .carrying o since => [.frameCut o since]
          | .free => []
          | .ended => []) } }) ∧
  (∀ (c : Instr) (s t : State), (c = .reset ∨ s.chip.inReset = true ∧ ∃ straps, c = .resetRelease straps) →
    exec c s = .next t → t.chip.lineDrive = some { flckHigh := true, pullsFlda := false }) ∧
  (∀ (s : State) (straps : BitVec 3), s.chip.inReset = false → exec (.resetRelease straps) s = .next s) ∧
  (∀ (s : State) (straps : BitVec 3), s.chip.inReset = true →
    let y : Chip := { Chip.reset straps with sent := s.chip.sent }
    exec (.resetRelease straps) s =
      .next { s with
        chip := { y with
          psw := { y.psw with writer := some { body := .status 0 (statusBytes y 0 1), fence := 0 } }
          rpw := { y.rpw with
            statusSet := [1, 2, 3, 4, 5, 6, 7, 8, 9, 10, 11, 12]
            updateCounts := y.rpw.updateCounts.set 0 1 } } })

/-- The values the spec gives for RESET, block by block: the port switch with its forward queues, in-flight reads and credits;
the ring; the gate; the accounts, cartridges, owed debits and refill fields; the idle table, the spit settings and the
nozzle-out list; the programs, counters and cycle; the sheet queue, the rolls and the feed; the link and its wires; the report
writer with its update counts (R4, R6, R18, R42, R59, R60, R67, R69, R76, R77, R80, R82, R85, R89, R93, R110, R126, R129, R151,
R153 to R156, R158, R159, R163, R167 to R171). The hold limit, the mid-sheet budget and the time of the first drop, which the
spec does not give, are left out (log entry 14). -/
def Obligations.ResetValues : Prop :=
  ∀ straps : BitVec 3,
    let x := Chip.reset straps
    (x.psw.straps = straps ∧ x.psw.controlBase = (straps.toNat + 1) * 2147483648 - 65536 ∧ x.psw.swath = none ∧
      x.psw.cCredits = 16 ∧ x.psw.hCredits = 16 ∧ x.psw.cQueue = [] ∧ x.psw.hQueue = [] ∧ x.psw.writer = none ∧
      x.psw.cInFlight = [] ∧ x.psw.hInFlight = [] ∧ x.psw.outstanding = [] ∧ x.psw.headRun = 0 ∧
      x.psw.preference = .cPort) ∧
    (x.cmi.partState = .unconfigured ∧ x.cmi.nextSlot = 0 ∧ (∀ n, x.cmi.slots.get n = .idle) ∧
      ∀ n, x.cmi.shadow n = List.replicate 64 0#8) ∧
    (x.sgt.buffers = [] ∧ x.sgt.swaths = [] ∧ x.sgt.holdQueue = [] ∧ x.sgt.holdTimer = none ∧ x.sgt.claim = .free ∧
      x.sgt.notes = [] ∧ x.sgt.spitColumns = 0) ∧
    (∀ k,
      x.account k =
        { inkType := 0, dropVolume := 0, tankCapacity := 0, floor := 0, refillMark := 0, lowMark := 0, level := 0
          levelState := .unknown, levelReading := .idle, reserved := 0, holder := .none, remainder := 0
          refillState := .idle, transferRequested := 0, shortfall := false } ∧
      x.cartridge k =
        { state := .noCartridge, serial := 0, inkType := 0, capacity := 0, remaining := 0, pollFault := false } ∧
      x.owed k = none ∧
      x.refill k =
        { source := 0, pumpDeadline := none, moved := 0, stopCause := .none, stopDeadline := none, pollAt := none } ∧
      (x.ink.get k).pollTimer = none) ∧
    (∀ k, x.nmn.idle.get k = Vector.replicate 64 0 ∧ x.nmn.spit.get k = { idleLimit := 0, spitCount := 0 } ∧
      x.nmn.keptAside.get k = none) ∧
    (x.nmn.outList = [] ∧ x.nmn.held = false ∧ x.nmn.pending = [] ∧ x.nmn.overflow = false) ∧
    (∀ p, x.program p = none ∧
      x.svc.counters.get p = { sheets := 0, firing := 0, additions := 0, idleMark := 0, idleFired := false }) ∧
    (x.svc.firingPeriod = none ∧ x.svc.idleStretch = none ∧ x.svc.requests = [] ∧ x.svc.cycle.state = .none ∧
      x.svc.wakeAsk = none ∧ x.svc.location = .stranded ∧ x.svc.lastCycle = none) ∧
    (∀ n, x.fdc.rollOf n =
      { enabled := false, mediaType := 0, width := 0, remaining := 0, fed := 0, out := true }) ∧
    (x.fdc.sheets = [] ∧ x.fdc.feed = .idle ∧ x.fdc.threaded = .unknown ∧ x.fdc.uncutTail = true ∧
      x.fdc.positioned = none ∧ x.fdc.purpose = none ∧ x.fdc.dryTimer = none ∧ x.fdc.order = none ∧
      x.fdc.check = none) ∧
    (x.flm.queue = [] ∧ x.flm.link = .free ∧ x.lineDrive = some { flckHigh := true, pullsFlda := false } ∧
      ∀ r ∈ [x.flm.feedRoom, x.flm.serviceRoom, x.flm.inkRoom], r.waiting = false ∧ r.declined = []) ∧
    (x.rpw.timeBase = 0 ∧ x.rpw.statusSet = statusNumbers ∧ (∀ n, x.rpw.updateCounts.get n = 0) ∧ x.rpw.ordered = [] ∧
      x.rpw.replyReserved = false ∧ x.rpw.capacity = 64 ∧ x.rpw.writeIndex = 0#32 ∧ x.rpw.readIndex = 0#32 ∧
      x.rpw.overflow = false ∧ x.rpw.dropped = 0 ∧ x.attn = false)

/-- The time base rises by 1 at each period of TBCLK, and nothing else changes, but for the writer's forward queue where it is
empty while something waits for it (the state after reset, log entry 10); no command but RESET and its release changes the time
base otherwise; a journal record carries its value at the event that made the record, and a status record its value when its
write was taken (R167, R168). -/
def Obligations.TimeBaseCountsPeriods : Prop :=
  (∀ s : State, s.chip.inReset = false → s.chip.rpw.timeBase + 1 < 2 ^ 64 →
    let filled := s.chip.fillWriter
    exec .timeBaseTick s =
      .next { s with chip := { filled with rpw := { filled.rpw with timeBase := s.chip.rpw.timeBase + 1 } } } ∧
    (s.chip.psw.writer ≠ none ∨ s.chip.rpw.statusSet = [] ∧ (∀ e ∈ s.chip.rpw.ordered, e.taken = true) →
      filled = s.chip)) ∧
  (∀ (c : Instr) (s t : State), c ≠ .reset → (∀ straps, c ≠ .resetRelease straps) → c ≠ .timeBaseTick →
    exec c s = .next t → t.chip.rpw.timeBase = s.chip.rpw.timeBase) ∧
  (∀ (x : Chip) (r : JournalRecord), x.rpw.hasRoom = true →
    (x.journal r).rpw.ordered =
      x.rpw.ordered ++ [{ body := .journal r x.rpw.timeBase, fence := x.fence, taken := false }]) ∧
  (∀ (x : Chip) (n : Fin 13) (count : Nat),
    statusBytes x n count =
      padTo 4 (byte1 n.val) ++ leBytes 4 count ++ leBytes 8 x.rpw.timeBase ++ padTo 112 (statusFields x n))

/-! ## The memory ports -/

/-- A write into the command ring hands its enabled bytes to the command intake, which sets exactly those bytes in the shadows;
each slot it spans is posted, withdrawn or left by its own state and the go word of its shadow after the copy (R152 to R155,
R160). The next slot is taken while it is POSTED and the ordered list has a free place: its place is reserved, it becomes REPLY
PENDING, the index advances, the command is carried out, and its reply of 16 bytes joins the ordered list; with the list full,
or the next slot not POSTED, it waits (R161, R162, R168, R169). A command of the ring stands for the C-port write of its 64
bytes into the next slot, whatever the state of that slot and of the ports (the model's choice, log entry 2). -/
def Obligations.SlotWritesPostSlots : Prop :=
  (∀ (w : WriteRequest) (s : State), s.chip.inReset = false → 0 < s.chip.psw.cCredits →
     malformed w.addr w.bytes.length = false → s.chip.psw.inControl w.addr.toNat = true →
     controlOffset w.addr.toNat < 0x400 →
     exec (.slotWrite w) s =
       .next (s.after
         ((s.chip.acceptWrite w).onCmi fun i =>
           i.handOver (controlOffset w.addr.toNat) w.bytes.length w.enabled).takeSlots)) ∧
  (∀ (i : Intake) (w : WriteRequest) (offset : Nat) (n : Fin 16), offset + w.bytes.length ≤ 0x400 →
     0 < w.bytes.length →
     let j := i.handOver offset w.bytes.length w.enabled
     let touched := offset / 64 ≤ n.val ∧ n.val ≤ (offset + w.bytes.length - 1) / 64
     (∀ b, b < 64 →
       byteAt (j.shadow n) b =
         if offset ≤ 64 * n.val + b ∧ 64 * n.val + b < offset + w.bytes.length ∧
             (w.bytes.getD (64 * n.val + b - offset) (false, 0#8)).1 = true
         then (w.bytes.getD (64 * n.val + b - offset) (false, 0#8)).2 else byteAt (i.shadow n) b) ∧
     (¬ touched → j.slots.get n = i.slots.get n) ∧
     (touched → i.slots.get n = .replyPending → j.slots.get n = .replyPending) ∧
     (touched → i.slots.get n ≠ .replyPending →
       j.slots.get n = if goSet (j.shadow n) then .posted else .idle) ∧
     j.nextSlot = i.nextSlot ∧ j.partState = i.partState) ∧
  (∀ x : Chip,
     let slot := x.cmi.nextSlot
     let shadow := x.cmi.shadow slot
     let posted := x.cmi.slots.get slot = .posted
     let full := 32 ≤ x.rpw.ordered.length + (if x.rpw.replyReserved = true then 1 else 0)
     let taken := { x with
       rpw := { x.rpw with replyReserved := true }
       cmi := { x.cmi with slots := x.cmi.slots.set slot .replyPending, nextSlot := slot + 1 } }
     let owner := taken.carryOut (decodeSlot shadow)
     let y := (owner.1.refreshStatus x).settle
     let bytes := (List.range 8).map (fun i => byteAt shadow (48 + i)) ++
       [BitVec.ofNat 8 owner.2.status.code, BitVec.ofNat 8 owner.2.detail] ++ leBytes 2 owner.2.value ++
       List.replicate 4 0#8
     (¬ posted ∨ full → x.takeSlots = x) ∧
     (posted → ¬ full →
       x.takeSlots =
         Chip.takeSlots { y with rpw := { y.rpw with
           replyReserved := false
           ordered := y.rpw.ordered ++
             [{ body := .reply slot (replyBytes shadow owner.2), fence := y.fence, taken := false }] } }) ∧
     (replyBytes shadow owner.2).length = 16 ∧
     (owner.2.detail < 256 → replyBytes shadow owner.2 = bytes)) ∧
  (∀ s : State,
     let slot := fun c : RingCommand => exec (.slotWrite (s.chip.slotWriteOf c)) s
     exec .nop s = slot .nop ∧ (∀ a, exec (.configure a) s = slot (.configure a)) ∧ exec .restart s = slot .restart ∧
     (∀ a, exec (.setChannel a) s = slot (.setChannel a)) ∧ (∀ a, exec (.setRoll a) s = slot (.setRoll a)) ∧
     (∀ a, exec (.queueSheet a) s = slot (.queueSheet a)) ∧ (∀ a, exec (.swathReady a) s = slot (.swathReady a)) ∧
     (∀ a, exec (.cancelSheet a) s = slot (.cancelSheet a)) ∧ exec .clearJam s = slot .clearJam ∧
     (∀ a, exec (.setNozzle a) s = slot (.setNozzle a)) ∧ (∀ a, exec (.loadProgram a) s = slot (.loadProgram a)) ∧
     (∀ a, exec (.runProgram a) s = slot (.runProgram a)) ∧ ∀ a, exec (.unknownKind a) s = slot (.unknown a))

/-- A write of the read index word takes the index where it lies within the unread span and ignores it otherwise; a write that
leaves a byte of the word disabled hands nothing over (R154, R170, R171). -/
def Obligations.ReadIndexWriteMovesTheReadIndex : Prop :=
  ∀ (w : WriteRequest) (s : State), s.chip.inReset = false → 0 < s.chip.psw.cCredits →
    malformed w.addr w.bytes.length = false → s.chip.psw.inControl w.addr.toNat = true →
    controlOffset w.addr.toNat = 0x400 →
    exec (.readIndexWrite w) s =
      .next (s.after
        (if firstWordEnabled w = true then
          ((s.chip.acceptWrite w).onRpw fun r =>
            if (firstWordValue w - r.readIndex).toNat ≤ (r.writeIndex - r.readIndex).toNat then
              { r with readIndex := firstWordValue w } else r).journalOverflow
        else s.chip.acceptWrite w))

/-- A controller write outside the ring and the read index word: into a FREE buffer its marks join the fill tally, into a
BOUND buffer they are late marks, and while the flag was clear the flag is set, the GATE record becomes pending, and one LATE
WRITE record is asked for after it; anywhere else nobody sees it (R6 to R8, R154). -/
def Obligations.ControllerWriteIsCounted : Prop :=
  (∀ (w : WriteRequest) (s : State), s.chip.inReset = false → 0 < s.chip.psw.cCredits →
    malformed w.addr w.bytes.length = false →
    (s.chip.psw.window w.addr.toNat = .plain ∨
      s.chip.psw.inControl w.addr.toNat = true ∧ 0x400 < controlOffset w.addr.toNat) →
    exec (.controllerWrite w) s = .next (s.after (s.chip.acceptWrite w))) ∧
  (∀ (w : WriteRequest) (s : State) (b : Buffer), s.chip.inReset = false → 0 < s.chip.psw.cCredits →
    malformed w.addr w.bytes.length = false → s.chip.psw.window w.addr.toNat = .swath →
    s.chip.sgt.buffers[(s.chip.psw.bufferAt w.addr.toNat).1]? = some b →
    let place := s.chip.psw.bufferAt w.addr.toNat
    let bytes := w.enabled.map fun e => (place.2 + e.1, e.2)
    let x := s.chip.acceptWrite w
    (b.bound = false →
      exec (.controllerWrite w) s =
        .next (s.after (x.onSgt fun g =>
          { g with buffers := g.buffers.set place.1 { b with tally := addMarks b.tally bytes } }))) ∧
    (∀ r : Swath, b.bound = true → (s.chip.sgt.swaths.find? fun a => a.buffer == place.1) = some r →
      let counted := x.onSwath r.id fun a => { a with late := addCount a.late (marksOf bytes) }
      exec (.controllerWrite w) s =
        .next (s.after
          (if b.late then counted
          else ((counted.onSgt fun g =>
            { g with buffers := g.buffers.set place.1 { b with late := true } }).markStatus 10).journal
            (.lateWrite r.sheet r.index place.1 w.addr.toNat)))))

/-- A malformed request of any kind is not forwarded and makes a MEMORY FAULT record with the cause MALFORMED: a write is
dropped, a read is entered answered FAULT with no data (R152, R153, R157). -/
def Obligations.MalformedRequestsAreStopped : Prop :=
  (∀ (w : WriteRequest) (s : State), s.chip.inReset = false → 0 < s.chip.psw.cCredits →
    malformed w.addr w.bytes.length = true →
    let t := s.after (s.chip.journal (.memoryFault .cPort true true w.tag.val w.bytes.length w.addr.toNat))
    exec (.slotWrite w) s = .next t ∧ exec (.readIndexWrite w) s = .next t ∧ exec (.controllerWrite w) s = .next t) ∧
  (∀ (w : WriteRequest) (s : State), s.chip.inReset = false → 0 < s.chip.psw.hCredits →
    malformed w.addr w.bytes.length = true →
    exec (.headWrite w) s = .next (s.after
      (s.chip.journal (.memoryFault .hPort true true w.tag.val w.bytes.length w.addr.toNat)))) ∧
  (∀ (r : ReadRequest) (s : State), s.chip.inReset = false → 0 < s.chip.psw.cCredits →
    malformed r.addr r.len = true →
    exec (.controllerRead r) s = .next (s.after
      ((s.chip.enterCRead r (.answered .fault [])).journal
        (.memoryFault .cPort true false r.tag.val r.len r.addr.toNat)))) ∧
  (∀ (r : ReadRequest) (s : State), s.chip.inReset = false → 0 < s.chip.psw.hCredits →
    malformed r.addr r.len = true →
    exec (.headRead r) s = .next (s.after
      ((s.chip.enterHRead r (.answered .fault [])).journal
        (.memoryFault .hPort true false r.tag.val r.len r.addr.toNat))))

/-- While a port has no free credit it accepts nothing; with one, a well-formed C-port read, and a well-formed H-port write,
wait in their port's forward queue, seen by nobody (R152 to R155). -/
def Obligations.RequestsNeedACredit : Prop :=
  (∀ (w : WriteRequest) (r : ReadRequest) (s : State), s.chip.inReset = false → s.chip.psw.cCredits = 0 →
    let t := s.after s.chip
    exec (.slotWrite w) s = .next t ∧ exec (.readIndexWrite w) s = .next t ∧
      exec (.controllerWrite w) s = .next t ∧ exec (.controllerRead r) s = .next t) ∧
  (∀ (w : WriteRequest) (r : ReadRequest) (s : State), s.chip.inReset = false → s.chip.psw.hCredits = 0 →
    let t := s.after s.chip
    exec (.headWrite w) s = .next t ∧ exec (.headRead r) s = .next t) ∧
  (∀ (r : ReadRequest) (s : State), s.chip.inReset = false → 0 < s.chip.psw.cCredits →
    malformed r.addr r.len = false →
    exec (.controllerRead r) s = .next (s.after
      ((s.chip.enterCRead r .waiting).onPsw fun p =>
        { p with cQueue := p.cQueue ++ [.read s.chip.psw.nextRead r.addr r.len] }))) ∧
  (∀ (w : WriteRequest) (s : State), s.chip.inReset = false → 0 < s.chip.psw.hCredits →
    malformed w.addr w.bytes.length = false →
    exec (.headWrite w) s = .next (s.after
      (s.chip.onPsw fun p => { p with hCredits := p.hCredits - 1, hQueue := p.hQueue ++ [.write w] })))

/-- A head read outside the SWATH window waits for the memory port; one inside is answered WITHHELD with a SWATH ORDER record,
held, or released, by the swath record of its buffer (R25 to R28, R154, R155). -/
def Obligations.HeadReadIsClassified : Prop :=
  ∀ (q : ReadRequest) (s : State), s.chip.inReset = false → 0 < s.chip.psw.hCredits →
    malformed q.addr q.len = false →
    let x := s.chip.enterHRead q .waiting
    let id := s.chip.psw.nextRead
    let place := s.chip.psw.bufferAt q.addr.toNat
    exec (.headRead q) s = .next (s.after
      (if s.chip.psw.window q.addr.toNat ≠ .swath then
        x.onPsw fun p => { p with hQueue := p.hQueue ++ [.read id q.addr q.len] }
      else match s.chip.sgt.swaths.find? fun r => r.buffer == place.1 with
        | none =>
          (x.setReadPhase .hPort id (.answered .withheld [])).journal
            (.swathOrder place.1 false q.addr.toNat s.chip.nextSwath)
        | some r =>
          if s.chip.nextRecord.map Swath.id ≠ some r.id then
            (x.setReadPhase .hPort id (.answered .withheld [])).journal
              (.swathOrder place.1 true q.addr.toNat s.chip.nextSwath)
          else if r.state = .bound then
            let h : HeldRead := { id := id, tag := q.tag, addr := q.addr, len := q.len, swath := r.id }
            if s.chip.sgt.holdQueue = [] then
              (x.onSgt fun g => { g with holdQueue := [h], holdTimer := some (x.rpw.timeBase + g.holdLimit * 1000) })
                |>.markStatus 10
            else x.onSgt fun g => { g with holdQueue := g.holdQueue ++ [h] }
          else
            (x.onSgt fun g =>
              { g with notes := g.notes ++ [{ id := id, swath := r.id, offset := place.2, len := q.len }] }).onPsw
              fun p => { p with hQueue := p.hQueue ++ [.read id q.addr q.len] }))

/-- When a source is ready (a write at the head of its queue always, a read while fewer than 32 reads are outstanding, the
writer's write once the C-port writes of its fence have been forwarded), and the arbiter's choice and the state it keeps, by
the three points of R156 (R155, R156). The fence is kept as a total of C-port writes (log entry 13). -/
def Obligations.ArbiterChoosesByItsRules : Prop :=
  (∀ p : PortSwitch,
    let ready := fun q : List Forward => ∃ f rest, q = f :: rest ∧
      (match f with
        | .write _ => True
        | .read _ _ _ => p.outstanding.length < 32)
    (p.hReady = true ↔ ready p.hQueue) ∧ (p.cReady = true ↔ ready p.cQueue) ∧
    (p.writerReady = true ↔ ∃ w, p.writer = some w ∧ w.fence ≤ p.cForwarded)) ∧
  (∀ x : Chip, x.fence = x.psw.cForwarded + (x.psw.cQueue.filter fun f => match f with
    | .write _ => true
    | .read _ _ _ => false).length) ∧
  ∀ p : PortSwitch,
    let h := p.hReady
    let c := p.cReady
    let w := p.writerReady
    p.choose =
      (if h = true ∧ (p.headRun < 8 ∨ c = false ∧ w = false) then some .head
      else if c = true ∧ w = true then some (if p.preference = .cPort then .controller else .writer)
      else if c = true then some .controller
      else if w = true then some .writer
      else none) ∧
    p.noteGrant .head = { p with headRun := if c = true ∨ w = true then p.headRun + 1 else 0 } ∧
    ∀ s, s ≠ .head →
      p.noteGrant s = { p with
        headRun := 0
        preference :=
          if c = true ∧ w = true then (if p.preference = .cPort then .writer else .cPort) else p.preference }

/-- A grant, the writer's forward queue being filled, forwards the write or issues the read at the head of the chosen source's
forward queue; that a grant with no source ready does nothing is the model's choice (log entry 1). A reply's forwarding frees
its slot and place, a journal record's moves the write index and makes the HEADER record pending before the takes that its
freed place allows (R153, R155, R156, R161, R162, R168 to R171). That the requests on the M-port carry no tag is the model's
choice (log entry 54). -/
def Obligations.ArbiterGrantForwardsOneRequest : Prop :=
  ∀ s : State, s.chip.inReset = false →
    let x := s.chip.fillWriter
    let p := x.psw
    let answer : Chip → Host.Outcome State Fault Refusal := fun y => .next (s.after y)
    (p.choose = none → exec .arbiterGrant s = answer x) ∧
    (∀ w rest, p.choose = some .head → p.hQueue = .write w :: rest →
      exec .arbiterGrant s = answer ((x.onPsw fun p =>
        { p.noteGrant .head with hQueue := rest, hCredits := p.hCredits + 1 }).emit
          (.memoryWrite w.addr.toNat w.bytes))) ∧
    (∀ id addr len rest, p.choose = some .head → p.hQueue = .read id addr len :: rest →
      exec .arbiterGrant s = answer ((x.onPsw fun p =>
        { p.noteGrant .head with
          hQueue := rest
          outstanding := p.outstanding ++ [{ port := .hPort, id := id }]
          hInFlight := setPhase p.hInFlight id .issued }).emit (.memoryRead addr.toNat len))) ∧
    (∀ w rest, p.choose = some .controller → p.cQueue = .write w :: rest →
      exec .arbiterGrant s = answer ((x.onPsw fun p =>
        { p.noteGrant .controller with
          cQueue := rest, cCredits := p.cCredits + 1, cForwarded := p.cForwarded + 1 }).emit
          (.memoryWrite w.addr.toNat w.bytes))) ∧
    (∀ id addr len rest, p.choose = some .controller → p.cQueue = .read id addr len :: rest →
      exec .arbiterGrant s = answer ((x.onPsw fun p =>
        { p.noteGrant .controller with
          cQueue := rest
          outstanding := p.outstanding ++ [{ port := .cPort, id := id }]
          cInFlight := setPhase p.cInFlight id .issued }).emit (.memoryRead addr.toNat len))) ∧
    (∀ number bytes fence, p.choose = some .writer → p.writer = some { body := .status number bytes, fence := fence } →
      exec .arbiterGrant s = answer ((x.onPsw fun p => { p.noteGrant .writer with writer := none }).emit
        (.memoryWrite (p.controlBase + 0x0800 + 128 * number.val) (allEnabled bytes)))) ∧
    (∀ slot bytes fence, p.choose = some .writer →
      p.writer = some { body := .ordered (.reply slot bytes), fence := fence } →
      exec .arbiterGrant s = answer
        (((((x.onPsw fun p => { p.noteGrant .writer with writer := none }).emit
          (.memoryWrite (p.controlBase + 64 * slot.val + 48) (allEnabled bytes))).onCmi fun i =>
            { i with
              slots := i.slots.set slot .idle
              shadows := i.shadows.set slot (writeReply (i.shadows.get slot) bytes) }).onRpw fun w =>
                { w with ordered := w.ordered.drop 1 }).journalOverflow.takeSlots)) ∧
    (∀ record time fence, p.choose = some .writer →
      p.writer = some { body := .ordered (.journal record time), fence := fence } →
      exec .arbiterGrant s = answer
        ((((x.onPsw fun p => { p.noteGrant .writer with writer := none }).emit
          (.memoryWrite (p.controlBase + 0x1000 + 32 * (x.rpw.writeIndex.toNat % x.rpw.capacity))
            (allEnabled (record.bytes time)))).onRpw fun w =>
              { w with
                writeIndex := w.writeIndex + 1#32, ordered := w.ordered.drop 1
                statusSet := if 0 ∈ w.statusSet then w.statusSet else w.statusSet ++ [0] }).journalOverflow.takeSlots))

/-- Memory's answer to the oldest outstanding read, where the gate has no note of it: the entry is ANSWERED with the status
and data unmodified; a FAULT makes a MEMORY FAULT record with the cause UNCORRECTABLE (R155, R157). -/
def Obligations.MemoryAnswersAPlainRead : Prop :=
  ∀ (a : MemoryAnswer) (s : State) (o : Outstanding) (rest : List Outstanding) (e : InFlight),
    s.chip.inReset = false → s.chip.psw.outstanding = o :: rest →
    ((s.chip.psw.inFlight o.port).find? fun e => e.id == o.id) = some e → answerFits a e.len = true →
    (s.chip.sgt.notes.find? fun n => n.id == o.id) = none →
    let x := s.chip.onPsw fun p => { p with outstanding := rest }
    exec (.memoryAnswer a) s = .next (s.after
      (match a with
      | .good data => x.setReadPhase o.port o.id (.answered .good data)
      | .fault =>
        (x.journal (.memoryFault o.port false false e.tag.val e.len e.addr.toNat)).setReadPhase o.port o.id
          (.answered .fault [])))

/-- Memory's answer to a released swath read passes the gate with its note: rewritten and counted while its swath record is
live, WITHHELD when the record is gone; a FAULT is counted as a faulted read of a live record; a range that covers the last
byte of the swath extent completes the swath (R32 to R37, R157). Counting adds the marks delivered, lost and injected to the
record, which becomes FIRING; each channel with delivered marks consumes their ink; each group of a used channel that received
a mark takes its last fire time; and the first delivered read of an ARMED record makes the GATE record pending and opens the
firing period (R6, R35, R78, R101). That the channels' consumptions go in ascending channel number is the model's choice (log
entry 36), and so is that the MEMORY FAULT record of a FAULT answer comes before what the gate does with it (log entry 49). -/
def Obligations.MemoryAnswersASwathRead : Prop :=
  (∀ (a : MemoryAnswer) (s : State) (id : Nat) (rest : List Outstanding) (e : InFlight) (n : ReadNote),
    s.chip.inReset = false → s.chip.psw.outstanding = { port := .hPort, id := id } :: rest →
    (s.chip.psw.hInFlight.find? fun e => e.id == id) = some e → answerFits a e.len = true →
    (s.chip.sgt.notes.find? fun m => m.id == id) = some n →
    let x := s.chip.onPsw fun p => { p with outstanding := rest }
    let noted := fun y : Chip => y.onSgt fun g => { g with notes := g.notes.filter fun m => m.id != id }
    let fault := noted (x.journal (.memoryFault .hPort false false e.tag.val e.len e.addr.toNat))
    let covers := fun r : Swath =>
      n.offset ≤ r.columns * 768 - 1 ∧ r.columns * 768 - 1 < n.offset + n.len
    exec (.memoryAnswer a) s = .next (s.after
      (match a, s.chip.sgt.swaths.find? fun r => r.id == n.swath with
      | .good data, some r =>
        let w := (noted x).rewrite r n.offset data
        let y := ((noted x).setReadPhase .hPort id (.answered .good w.data)).countDelivered r w
        if covers r then y.complete r.id else y
      | .good _, none => (noted x).setReadPhase .hPort id (.answered .withheld [])
      | .fault, some r =>
        let y := (fault.setReadPhase .hPort id (.answered .fault [])).onSwath r.id fun a =>
          { a with faulted := addCount a.faulted 1 }
        if covers r then y.complete r.id else y
      | .fault, none => fault.setReadPhase .hPort id (.answered .fault [])))) ∧
  (∀ (x : Chip) (r : Swath) (w : Rewrite),
    let sum := fun a b : Nat => min (a + b) 4294967295
    let counted := x.onSgt fun g => { g with swaths := g.swaths.map fun a =>
      if a.id = r.id then { a with
        delivered := .of fun k => sum (a.delivered.get k) (w.delivered.get k)
        lost := sum a.lost w.lost, injected := sum a.injected w.injected, state := .firing } else a }
    let consumed := ([0, 1, 2, 3, 4, 5] : List Channel).foldl (fun y k =>
      if w.delivered.get k = 0 then y
      else y.consume k (w.delivered.get k * (y.account k).dropVolume) .swath) counted
    let fired := w.fired.foldl (fun (y : Chip) (e : Channel × Nat) =>
      if (y.account e.1).inkType = 0 then y
      else y.onNmn fun n => { n with
        idle := n.idle.set e.1 ((n.idle.get e.1).setIfInBounds e.2 y.rpw.timeBase) }) consumed
    x.countDelivered r w = if r.state = .armed then (fired.markStatus 10).firingBegun else fired) ∧
  (∀ (x : Chip) (r : Swath) (offset : Nat) (data : List Byte) (k : Channel),
    let w := x.rewrite r offset data
    let inChannel := fun i : Nat => (offset + i) % 768 / 128 = k.val
    (w.delivered.get k =
      ((List.range data.length).map fun i => if inChannel i then popCount (w.data.getD i 0#8) else 0).sum) ∧
    ∀ g, (k, g) ∈ w.fired ↔
      ∃ i, i < data.length ∧ inChannel i ∧ (offset + i) % 128 / 2 = g ∧ w.data.getD i 0#8 ≠ 0#8)

/-! ## The gate's rewriting and its tests -/

/-- In one byte, `out` holding the bit of each nozzle that is on the nozzle-out list: a mark of an out nozzle moves to its
working partner, marks that cannot are lost, and nothing else changes; spit injection then sets the mark of every nozzle that
is not out and counts those it sets. Each byte of a read of a live swath is delivered so, by the nozzle-out list of its channel
and with spit injection in the first min(P, S) columns where its group is in the record's spit set, and the lost dots and
injected marks of the read are the sums over its bytes (R33, R34). -/
def Obligations.BytesAreSubstitutedAndInjected : Prop :=
  (∀ (out b : Byte),
     let d := (substitute out b).1
     (∀ i, i < 8 → d.getLsbD i =
       (!out.getLsbD i && (b.getLsbD i || (out.getLsbD (partner i) && b.getLsbD (partner i))))) ∧
     (substitute out b).2 + popCount d = popCount b ∧
     d &&& out = 0#8) ∧
  (∀ (out b : Byte),
     inject false out b = (b, 0) ∧
     (inject true out b).1 = b ||| ~~~out ∧
     popCount (inject true out b).1 = popCount b + (inject true out b).2) ∧
  (∀ (l : List OutEntry) (k : Channel) (j bit : Nat), bit < 8 →
     ((outMask l k j).getLsbD bit = true ↔ ∃ e ∈ l, e.channel = k ∧ e.nozzle = 8 * j + bit)) ∧
  (∀ (x : Chip) (r : Swath) (offset : Nat) (data : List Byte),
     let w := x.rewrite r offset data
     let channel := fun i : Nat => channelOf (offset + i)
     let sliceByte := fun i : Nat => (offset + i) % 128
     let out := fun i : Nat => outMask x.nmn.outList (channel i) (sliceByte i)
     let spit := fun i : Nat =>
       decide ((offset + i) / 768 < min (x.nmn.spit.get (channel i)).spitCount x.sgt.spitColumns) &&
         (r.spitSet.get (channel i)).contains (sliceByte i / 2)
     let substituted := fun i : Nat => substitute (out i) (data.getD i 0#8)
     let injected := fun i : Nat => inject (spit i) (out i) (substituted i).1
     (∀ i, i < data.length → w.data.getD i 0#8 = (injected i).1) ∧
     w.lost = ((List.range data.length).map fun i => (substituted i).2).sum ∧
     w.injected = ((List.range data.length).map fun i => (injected i).2).sum)

/-- No byte that the gate delivers for a live swath carries a fire mark for a nozzle on the nozzle-out list; as many bytes are
delivered as were read, and the marks delivered are the marks read, less the lost dots, plus the injected marks (R33 to R35).
-/
def Obligations.NoDeliveredMarkOnAnOutNozzle : Prop :=
  ∀ (x : Chip) (r : Swath) (offset : Nat) (data : List Byte),
    let w := x.rewrite r offset data
    w.data.length = data.length ∧
    (∀ i bit (e : OutEntry), i < data.length → bit < 8 → e ∈ x.nmn.outList →
      e.channel = channelOf (offset + i) → e.nozzle = 8 * ((offset + i) % 128) + bit →
      (w.data.getD i 0#8).getLsbD bit = false) ∧
    w.delivered.toList.sum + w.lost = (data.map popCount).sum + w.injected

/-- The spit set of a used channel whose idle limit is above 0 holds the groups whose last fire time is at least the limit
before now, in ascending number; it is empty for every other channel (R79). -/
def Obligations.SpitSetHoldsTheIdleGroups : Prop :=
  ∀ (x : Chip) (k : Channel),
    let limit := (x.nmn.spit.get k).idleLimit
    (∀ g : Fin 64, g.val ∈ x.spitSetOf k ↔
      (x.account k).inkType ≠ 0 ∧ 0 < limit ∧ limit * 1000 ≤ x.rpw.timeBase - ((x.nmn.idle.get k).get g)) ∧
    (x.spitSetOf k).Pairwise (· < ·) ∧ ∀ g ∈ x.spitSetOf k, g < 64

/-- The next swath, line by line of the table of R14. -/
def Obligations.NextSwathByTheTable : Prop :=
  ∀ x : Chip,
    (∀ r, x.liveSwath = some r → x.nextSwath = some (r.sheet, r.index)) ∧
    (∀ h, x.liveSwath = none → x.platen = some h →
      x.nextSwath =
        if (h.state = .loading ∨ h.state = .ready ∨ h.state = .printing ∨ h.state = .halted) ∧ h.cancel = false ∧
            h.done < h.swathCount
        then some (h.id, h.done) else none) ∧
    (x.liveSwath = none → x.platen = none → x.nextSwath = x.fdc.sheets.head?.map fun h => (h.id, 0))

/-- The arming test: nothing where a condition of R19 fails; with conditions 1 and 3, a FREE claim and the carriage at PRINT
SIDE the reservation of R20 is asked for, and on a grant the swath is armed, on a refusal the ink controller may start
refills; with the carriage at STATION or CAPPED the wake is asked for once for the record (R19 to R22, R82). An arming releases
every held read, oldest first, to the H-port's forward queue with its released-read note, and stops the hold timer (R28). -/
def Obligations.ArmingTestByItsConditions : Prop :=
  (∀ x : Chip, x.releaseHeld = { x with
    sgt := { x.sgt with
      holdQueue := [], holdTimer := none
      notes := x.sgt.notes ++ x.sgt.holdQueue.map fun h =>
        { id := h.id, swath := h.swath, offset := (x.psw.bufferAt h.addr.toNat).2, len := h.len } }
    psw := { x.psw with hQueue := x.psw.hQueue ++ x.sgt.holdQueue.map fun h => .read h.id h.addr h.len } }) ∧
  ∀ (x : Chip) (r : Swath), x.cmi.partState = .running → x.liveSwath = none → x.nextRecord = some r →
    let ready := (∃ h, x.platen = some h ∧ h.id = r.sheet ∧ (h.state = .ready ∨ h.state = .printing) ∧
        h.cancel = false ∧ x.fdc.positioned = some r.index) ∧
      x.sgt.claim = .free ∧ x.hasEligible = false
    let spit : Six (List Nat) := .of x.spitSetOf
    let amounts : Six Nat := .of fun k =>
      if (x.account k).inkType = 0 then 0
      else ((r.projection.get k +
        workingNozzles x.nmn.outList k (spit.get k) * min (x.nmn.spit.get k).spitCount x.sgt.spitColumns) *
          (x.account k).dropVolume + 999) / 1000
    (¬ ready → x.armingTest = x) ∧
    (ready → x.svc.location = .printSide → x.canReserve amounts = true →
      x.armingTest =
        (((((((x.reserve .swath amounts).onSgt fun g =>
          { g with
            claim := .swath
            swaths := g.swaths.map fun a =>
              if a.id = r.id then { a with spitSet := spit, reservation := amounts, state := .armed } else
                a }).releaseHeld).markStatus 10).refreshStatus x).onNmn fun n => { n with held := true }).markStatus 12)) ∧
    (ready → x.svc.location = .printSide → x.canReserve amounts = false →
      x.armingTest = x.refuseReservation amounts) ∧
    (ready → (x.svc.location = .station ∨ x.svc.location = .capped) → x.sgt.wakeAskedFor ≠ some r.id →
      x.armingTest =
        { x with sgt := { x.sgt with wakeAskedFor := some r.id }, svc := { x.svc with wakeAsk := some r.id } }) ∧
    (ready → (x.svc.location = .station ∨ x.svc.location = .capped) → x.sgt.wakeAskedFor = some r.id →
      x.armingTest = x) ∧
    (ready → x.svc.location = .stranded → x.armingTest = x)

/-! ## The ink accounts -/

/-- The level status of a channel, line by line of the table of R47; a change makes an INK record LEVEL STATUS naming both
ends, unless it is to or from UNUSED or UNKNOWN. -/
def Obligations.LevelStatusByTheTable : Prop :=
  (∀ a : Account,
    (a.inkType = 0 → a.levelStatus = .unused) ∧
    (a.inkType ≠ 0 → a.levelState = .unknown → a.levelStatus = .unknown) ∧
    (a.inkType ≠ 0 → a.levelState = .known → a.level ≤ a.floor → a.levelStatus = .dry) ∧
    (a.inkType ≠ 0 → a.levelState = .known → a.floor < a.level → a.level < a.lowMark → a.levelStatus = .low) ∧
    (a.inkType ≠ 0 → a.levelState = .known → a.floor < a.level → a.lowMark ≤ a.level → a.levelStatus = .ready)) ∧
  (∀ (x : Chip) (k : Channel) (old : LevelStatus),
    let new := (x.account k).levelStatus
    x.journalLevelStatus k old =
      if old = new ∨ old = .unused ∨ old = .unknown ∨ new = .unused ∨ new = .unknown then x
      else x.journal (.inkLevelStatus k old new (x.account k).level))

/-- The available ink of R49: max(0, level − floor − reserved) for a used channel whose level state is KNOWN, 0 for every
other; it is shown in the channel's CHANNEL record, bounds what a reservation may take, and is what the admission check
counts. -/
def Obligations.AvailableInkOfAChannel : Prop :=
  (∀ a : Account,
    (a.inkType ≠ 0 → a.levelState = .known →
      (a.available : Int) = max 0 ((a.level : Int) - (a.floor : Int) - (a.reserved : Int))) ∧
    (a.inkType = 0 ∨ a.levelState = .unknown → a.available = 0)) ∧
  (∀ (x : Chip) (k : Channel),
    ((channelFields x k).drop 20).take 4 = leBytes 4 (x.account k).available) ∧
  (∀ (a : Account) (amount : Nat), amount ≠ 0 → a.available < amount → a.grants amount = false) ∧
  (∀ i : InkChannel,
    i.findable = i.account.available + if i.cartridge.state = .active then i.cartridge.remaining * 1000 else 0)

/-- A reservation is granted exactly when every channel with a nonzero amount is used, KNOWN, without a holder, and has the ink
available; a grant adds each amount to its channel's reserved amount and names the holder, and the channel's CHANNEL record is
pending; a refusal changes no reserved amount and no holder, and tests the refill start, without the refill mark, on exactly
the used, KNOWN channels without a holder whose available ink is below their amount; a release frees each channel whose holder
it names, its reserved amount falling by what the holder still held, which becomes 0, with the notices of R53 where it has
freed one (R50 to R53, R56, R168). That the refills of a refusal start in ascending channel number is the model's choice (log
entry 36). -/
def Obligations.ReservationsAreGrantedAndReturned : Prop :=
  (∀ (x : Chip) (amounts : Six Nat),
     (x.canReserve amounts = true ↔ ∀ k, amounts.get k ≠ 0 →
       (x.account k).inkType ≠ 0 ∧ (x.account k).levelState = .known ∧ (x.account k).holder = .none ∧
         amounts.get k ≤ (x.account k).available) ∧
     (∀ h k, (x.reserve h amounts).account k =
       if amounts.get k = 0 then x.account k
       else { x.account k with reserved := (x.account k).reserved + amounts.get k, holder := h }) ∧
     (∀ h, (x.reserve h amounts).due = { x.due with arming := true, prime := true }) ∧
     (∀ h k, amounts.get k ≠ 0 → channelStatus k ∈ (x.reserve h amounts).rpw.statusSet) ∧
     (x.refuseReservation amounts = ([0, 1, 2, 3, 4, 5] : List Channel).foldl (fun y k =>
       if (x.account k).inkType ≠ 0 ∧ (x.account k).levelState = .known ∧ (x.account k).holder = .none ∧
           (x.account k).available < amounts.get k
       then y.startRefill k true else y) x) ∧
     (∀ k, ((x.refuseReservation amounts).account k).reserved = (x.account k).reserved ∧
       ((x.refuseReservation amounts).account k).holder = (x.account k).holder)) ∧
  (∀ (x : Chip) (h : Holder) (k : Channel),
     (x.release h).account k =
       (if (x.account k).holder = h then
         { x.account k with reserved := (x.account k).reserved - x.remainingOf h k, holder := .none }
       else x.account k) ∧
     (x.release h).remainingOf h k = (if (x.account k).holder = h then 0 else x.remainingOf h k) ∧
     ((x.account k).holder = h → channelStatus k ∈ (x.release h).rpw.statusSet)) ∧
  (∀ (x : Chip) (h : Holder),
     ((∃ k, (x.account k).holder = h) → (x.release h).due = { arming := true, prime := true, admission := true }) ∧
     ((∀ k, (x.account k).holder ≠ h) → x.release h = x))

/-- A consumption in a used channel moves whole nanolitres out of the pL remainder; a KNOWN level falls by them, to 0 with the
shortfall flag where they exceed it, an INK record SHORTFALL being made where the flag was clear; the reserved amount and the
holder's remaining reservation fall together by what the holder still held, where the source is the holder; a change of level
status makes its record, the refill start test is made where the level is below the refill mark, and the notices of R53 are
sent where a whole nanolitre was moved; an unused channel, and every other channel, keeps its account (R47, R53 to R55, R57).
That the refill start test is made also where no whole nanolitre was moved is the model's reading (log entry 30). -/
def Obligations.ConsumptionLowersTheLevel : Prop :=
  ∀ (x : Chip) (k : Channel) (pl : Nat) (source : InkSource),
    let a := x.account k
    let n := (a.remainder + pl) / 1000
    let y := x.consume k pl source
    (a.inkType = 0 → y = x) ∧
    (a.inkType ≠ 0 →
      (y.account k).remainder = (a.remainder + pl) % 1000 ∧
      (y.account k).levelState = a.levelState ∧
      (y.account k).level = (if a.levelState = .known then a.level - n else a.level) ∧
      (y.account k).shortfall = (a.shortfall || (a.levelState == .known && decide (a.level < n))) ∧
      (y.account k).holder = a.holder ∧
      (y.account k).reserved =
        (if source.isHolder a.holder then a.reserved - min n (x.remainingOf a.holder k) else a.reserved) ∧
      y.remainingOf a.holder k =
        (if source.isHolder a.holder then x.remainingOf a.holder k - n else x.remainingOf a.holder k)) ∧
    (source.isHolder a.holder = true ↔
      source = .swath ∧ a.holder = .swath ∨ source = .prime ∧ a.holder = .prime) ∧
    (a.inkType ≠ 0 →
      let shown := fun (new old : Chip) => new.showChange old (channelStatus k)
      let kept := shown (x.onAccount k fun b => { b with remainder := (a.remainder + pl) % 1000 }) x
      let lowered := shown (kept.onAccount k fun b => { b with
        level := if a.levelState = .known then a.level - n else a.level
        shortfall := a.shortfall || (a.levelState == .known && decide (a.level < n)) }) kept
      let noted :=
        if a.levelState = .known ∧ a.level < n ∧ a.shortfall = false then lowered.journal (.inkShortfall k (n - a.level))
        else lowered
      let held := min n (x.remainingOf a.holder k)
      let drawn :=
        if source.isHolder a.holder then
          shown ((noted.setRemaining a.holder k (x.remainingOf a.holder k - held)).onAccount k fun b =>
            { b with reserved := b.reserved - held }) noted
        else noted
      let told := drawn.journalLevelStatus k a.levelStatus
      let tested := if (told.account k).level < a.refillMark then told.startRefill k false else told
      y = if n = 0 then tested else { tested with due := { tested.due with arming := true, prime := true } }) ∧
    ∀ j, j ≠ k → y.account j = x.account j

/-- A refill starts exactly when the channel is used and KNOWN, its level is below the refill mark (not asked for after a
refused reservation), its refill state is IDLE, its cartridge is ACTIVE, and the transfer volume is at least 500 µL; it is
then QUEUED with that volume, its source is the cartridge's serial, its TRANSFER is placed, and the CHANNEL record of the
channel is pending (R52, R57, R69, R168). -/
def Obligations.RefillStartsByItsConditions : Prop :=
  ∀ (x : Chip) (k : Channel) (ignoreMark : Bool),
    let a := x.account k
    let c := x.cartridge k
    let volume := min ((a.tankCapacity - a.level) / 1000) c.remaining
    x.startRefill k ignoreMark =
      if a.inkType ≠ 0 ∧ a.levelState = .known ∧ (ignoreMark = true ∨ a.level < a.refillMark) ∧ a.refillState = .idle ∧
          c.state = .active ∧ 500 ≤ volume
      then (((x.onAccount k fun b => { b with refillState := .queued, transferRequested := volume }).onRefill k fun _ =>
        { source := c.serial, pumpDeadline := none, moved := 0, stopCause := .none, stopDeadline := none,
          pollAt := none }).offer (.transfer k volume)).markStatus (channelStatus k)
      else x

/-! ## Sheets, the carriage claim and the order queue -/

/-- Roll choice, line by line of the table of R114: a roll qualifies when it is enabled, READY, of the sheet's media type and
long enough; when none is chosen the admission test fails with the cause MEDIA, and the ink check is not made. -/
def Obligations.RollChoiceByTheTable : Prop :=
  (∀ (d : FeedController) (h : Sheet),
    let fits := fun n => (d.rollOf n).enabled = true ∧ (d.rollOf n).out = false ∧
      (d.rollOf n).mediaType = h.mediaType ∧ h.length ≤ (d.rollOf n).remaining
    let inTurn := fun first second : RollNo =>
      (fits first → d.chooseRoll h = some first) ∧
      (¬ fits first → fits second → d.chooseRoll h = some second) ∧
      (¬ fits first → ¬ fits second → d.chooseRoll h = none)
    (h.preference = .roll1 → (fits .one → d.chooseRoll h = some .one) ∧ (¬ fits .one → d.chooseRoll h = none)) ∧
    (h.preference = .roll2 → (fits .two → d.chooseRoll h = some .two) ∧ (¬ fits .two → d.chooseRoll h = none)) ∧
    (h.preference = .either → d.threaded = .roll .one → inTurn .one .two) ∧
    (h.preference = .either → d.threaded = .roll .two → inTurn .two .one) ∧
    (h.preference = .either → d.threaded = .none ∨ d.threaded = .unknown → inTurn .one .two)) ∧
  (∀ (x : Chip) (h : Sheet), x.admissionCandidate = some h → x.fdc.chooseRoll h = none →
    x.admissionTest = x.keepWaiting h .media
      (.sheetWaitingMedia h.id h.preference x.fdc.roll1.remaining x.fdc.roll2.remaining))

/-- The admission test: only for the oldest sheet, with the part RUNNING, no platen sheet and the feed idle; a sheet with a
roll and without a channel short of its estimate is LOADING on that roll and its load plan runs; otherwise it is WAITING with
the failing cause, with a SHEET record where it was not waiting for the same cause (R113 to R115, R58, R131). -/
def Obligations.AdmissionTestOfTheOldestSheet : Prop :=
  ∀ x : Chip,
    (x.cmi.partState ≠ .running ∨ x.platen ≠ none ∨ x.fdc.feed ≠ .idle ∨ x.fdc.sheets = [] →
      x.admissionTest = x) ∧
    ∀ (h : Sheet) (rest : List Sheet), x.cmi.partState = .running → x.platen = none → x.fdc.feed = .idle →
      x.fdc.sheets = h :: rest →
      let waits := fun (cause : WaitingCause) (record : JournalRecord) =>
        let y := x.onSheet h.id fun a => { a with state := .waiting, waitingCause := some cause }
        if h.state = .queued ∨ h.waitingCause ≠ some cause then y.journal record else y
      let loads := fun n : RollNo =>
        let plan := if x.fdc.threaded = .roll n then (if x.fdc.uncutTail = true then 1 else 2) else 5
        let y := x.onSheet h.id fun a =>
          { a with state := .loading, waitingCause := none, assigned := some n, loadStep := 5 - plan }
        ((y.onFdc fun d => { d with feed := .loading }).callArming).runLoad plan
      (x.fdc.chooseRoll h = none → x.admissionTest =
        waits .media (.sheetWaitingMedia h.id h.preference x.fdc.roll1.remaining x.fdc.roll2.remaining)) ∧
      (∀ n, x.fdc.chooseRoll h = some n → h.estimate = none → x.admissionTest = loads n) ∧
      (∀ n e, x.fdc.chooseRoll h = some n → h.estimate = some e →
        (∀ k, e.get k * 1000 ≤ (x.ink.get k).findable) → x.admissionTest = loads n) ∧
      (∀ n e k, x.fdc.chooseRoll h = some n → h.estimate = some e → (x.ink.get k).findable < e.get k * 1000 →
        (∀ j : Channel, j.val < k.val → e.get j * 1000 ≤ (x.ink.get j).findable) →
        x.admissionTest = waits .ink (.sheetWaitingInk h.id k.val (e.get k) (x.ink.get k).findable))

/-- The service controller's claim: with an eligible entry and the claim FREE the oldest eligible entry leaves the list, which
rewrites the SERVICE record and runs the arming test, and its cycle runs from its first step; while the claim is held the ask
waits; an ask whose entries have lost their eligibility is withdrawn; a running cycle starts no other (R19, R103 to R105). An
entry is eligible exactly while no sheet is in progress, which the platen sheet is while it is PRINTING and while a swath is
ARMED or FIRING, or where its program is MID-SHEET with a declared duration not above the budget; the list holds an eligible
entry exactly where one of its entries is (R104). -/
def Obligations.OldestEligibleEntryTakesTheClaim : Prop :=
  ∀ x : Chip,
    (∀ e : Request, x.eligible e = true ↔
      ¬ ((∃ h, x.platen = some h ∧ h.state = .printing) ∨
          ∃ r ∈ x.sgt.swaths, r.state = .armed ∨ r.state = .firing) ∨
        ∃ g, x.program e.program = some g ∧ g.urgency = .midSheet ∧ g.duration ≤ x.svc.budget) ∧
    (x.hasEligible = true ↔ ∃ e ∈ x.svc.requests, x.eligible e = true) ∧
    (∀ e before rest, (x.svc.cycle.state = .none ∨ x.svc.cycle.state = .claiming) → x.sgt.claim = .free →
      x.svc.requests = before ++ e :: rest → x.eligible e = true → (∀ a ∈ before, x.eligible a = false) →
      let steps := match x.program e.program with
        | some g => g.steps
        | none => []
      x.serviceNext = some (((((x.onSgt fun g => { g with claim := .service }).onSvc fun v =>
        { v with
          requests := before ++ rest
          cycle := { Cycle.idle with
            state := .running, kind := some (.program e.program), steps := steps
            startTime := x.rpw.timeBase } }).markStatus 11).callArming).runSteps steps)) ∧
    (x.svc.cycle.state = .none → x.hasEligible = true → x.sgt.claim ≠ .free →
      x.serviceNext = some (x.onCycle fun c => { c with state := .claiming })) ∧
    (x.svc.cycle.state = .claiming → x.hasEligible = true → x.sgt.claim ≠ .free → x.serviceNext.isNone = true) ∧
    (x.svc.cycle.state = .claiming → x.hasEligible = false → x.serviceNext = some (x.onCycle fun _ => .idle)) ∧
    (x.svc.cycle.state.busy = true → x.serviceNext.isNone = true)

/-- An order offered to the link master: a READ TAG is passed over where one for its tag is queued or the queue is full; any
other order is declined where the queue is full; otherwise it joins the queue, and with the link FREE the oldest entry of the
lowest class is taken and its frame begins. A declined order stays with its block, which is marked waiting for room; a place
freed in a full queue goes to the oldest declined order of the marked block that comes first, feed controller, service
controller, ink controller, whose mark stays while it has another; a mark with no order left is cleared on the way (R147,
R148). The number of the frame is the model's own (log entry 12); that a declined DEBIT is offered as it was declined is its
choice (log entry 51). -/
def Obligations.OfferedOrdersJoinTheQueue : Prop :=
  ∀ (m : LinkMaster) (o : LinkOrder) (now : Nat), m.queue.length ≤ 16 →
    (o.isReadTag = true → o ∈ m.queue ∨ m.queue.length = 16 → m.offer o now = m) ∧
    (o.isReadTag = false → m.queue.length = 16 → m.offer o now = m.decline o) ∧
    (¬ (o.isReadTag = true ∧ o ∈ m.queue) → m.queue.length < 16 →
      m.offer o now = { m with queue := m.queue ++ [o] }.begin now) ∧
    (m.link ≠ .free → m.begin now = m) ∧
    (m.queue = [] → m.begin now = m) ∧
    (∀ a before rest, m.link = .free → m.queue = before ++ a :: rest →
      (∀ b ∈ before, a.class < b.class) → (∀ b ∈ rest, a.class ≤ b.class) →
      let taken := { m with queue := before ++ rest, link := .carrying a now, frames := m.frames + 1 }
      m.begin now = if m.queue.length = 16 then taken.grantPlace else taken) ∧
    (let declined := fun room : Room => { room with waiting := true, declined := room.declined ++ [o] }
     m.decline o = match o.block with
      | .feed => { m with feedRoom := declined m.feedRoom }
      | .service => { m with serviceRoom := declined m.serviceRoom }
      | .ink => { m with inkRoom := declined m.inkRoom }) ∧
    (let none := fun room : Room => room.waiting = false ∨ room.declined = []
     let left := fun rest : List LinkOrder => ({ waiting := !rest.isEmpty, declined := rest } : Room)
     let clear : Room := { waiting := false, declined := [] }
     (∀ a rest, m.feedRoom.waiting = true → m.feedRoom.declined = a :: rest →
       m.grantPlace = { m with queue := m.queue ++ [a], feedRoom := left rest }) ∧
     (∀ a rest, none m.feedRoom → m.serviceRoom.waiting = true → m.serviceRoom.declined = a :: rest →
       m.grantPlace = { m with queue := m.queue ++ [a], feedRoom := clear, serviceRoom := left rest }) ∧
     (∀ a rest, none m.feedRoom → none m.serviceRoom → m.inkRoom.waiting = true → m.inkRoom.declined = a :: rest →
       m.grantPlace = { m with queue := m.queue ++ [a], feedRoom := clear, serviceRoom := clear, inkRoom := left rest }) ∧
     (none m.feedRoom → none m.serviceRoom → none m.inkRoom →
       m.grantPlace = { m with feedRoom := clear, serviceRoom := clear, inkRoom := clear }))

/-! ## The commands of the ring

Each is stated where the next slot can be written and taken in one event (`readyForCommand`): the command is then carried out,
or refused, and answered in that event (that a ring command is its one write into the next slot: log entry 2).
`s.replied c y a` is the state after it, where `y` is the part as the owner leaves it and `a` the answer; a refused command leaves the part as the take found it, `s.chip.taking c`. -/

/-- NOP and an undefined kind change nothing and are answered, and every command but NOP, CONFIGURE and RESTART is refused
with the detail UNCONFIGURED while the part is UNCONFIGURED (R163, R165, R172). -/
def Obligations.NopUnknownKindAndUnconfigured : Prop :=
  ∀ s : State, s.chip.readyForCommand →
    exec .nop s = .next (s.replied .nop (s.chip.taking .nop) { status := .done, detail := 0, value := 0 }) ∧
    (∀ kind, definedKinds.contains kind = false →
      exec (.unknownKind kind) s = .next (s.replied (.unknown kind) (s.chip.taking (.unknown kind))
        { status := .unknownKind, detail := 0, value := 0 })) ∧
    (s.chip.cmi.partState = .unconfigured →
      let refused := fun c : RingCommand =>
        s.replied c (s.chip.taking c) { status := .refusedState, detail := 0xFF, value := 0 }
      (∀ a, exec (.setChannel a) s = .next (refused (.setChannel a))) ∧
      (∀ a, exec (.setRoll a) s = .next (refused (.setRoll a))) ∧
      (∀ a, exec (.queueSheet a) s = .next (refused (.queueSheet a))) ∧
      (∀ a, exec (.swathReady a) s = .next (refused (.swathReady a))) ∧
      (∀ id, exec (.cancelSheet id) s = .next (refused (.cancelSheet id))) ∧
      exec .clearJam s = .next (refused .clearJam) ∧
      (∀ a, exec (.setNozzle a) s = .next (refused (.setNozzle a))) ∧
      (∀ a : LoadProgramArgs, a.wellFormed = true → exec (.loadProgram a) s = .next (refused (.loadProgram a))) ∧
      (∀ p, exec (.runProgram p) s = .next (refused (.runProgram p))))

/-- CONFIGURE is checked in the order of R164; accepted, it builds the window and the buffer table, stores the gate's
settings, the budget and the journal capacity, and the first one starts the presence polls with the part RUNNING (R5, R6, R60,
R154, R164, R170). -/
def Obligations.ConfigureChecksAndEffects : Prop :=
  ∀ (a : ConfigureArgs) (s : State), s.chip.readyForCommand →
    let c : RingCommand := .configure a
    let x := s.chip.taking c
    let running := s.chip.cmi.partState = .running
    let area := a.bufferCount.toNat * (a.capacity.toNat * 768)
    let control := s.chip.psw.controlBase
    let refuse := fun (status : ReplyStatus) (detail : Nat) =>
      s.replied c x { status := status, detail := detail, value := 0 }
    let y0 : Chip := { x with
      psw := { x.psw with
        swath := some { base := a.base.toNat, count := a.bufferCount.toNat, capacity := a.capacity.toNat } }
      sgt := { x.sgt with
        buffers := List.replicate a.bufferCount.toNat { bound := false, tally := .all 0, late := false }
        spitColumns := a.spitColumns.toNat
        holdLimit := a.holdLimit.toNat }
      svc := { x.svc with budget := a.budget.toNat }
      rpw :=
        if x.rpw.capacity = a.journalCapacity.toNat then x.rpw
        else { x.rpw with capacity := a.journalCapacity.toNat, writeIndex := 0#32, readIndex := 0#32 } }
    let y1 := if x.rpw.capacity = a.journalCapacity.toNat then y0 else y0.journalOverflow
    let y2 : Chip :=
      if running then y1
      else { y1 with
        cmi := { y1.cmi with partState := .running }
        ink := .of fun k => { y1.ink.get k with pollTimer := some (x.rpw.timeBase + 500000) } }
    exec (.configure a) s = .next
      (if running ∧ s.chip.fdc.sheets ≠ [] then refuse .refusedState 1
      else if running ∧ s.chip.sgt.swaths ≠ [] then refuse .refusedState 2
      else if running ∧ s.chip.svc.cycle.state ≠ .none then refuse .refusedState 3
      else if a.bufferCount.toNat < 2 ∨ 8 < a.bufferCount.toNat ∨ a.capacity.toNat < 1024 ∨ 24576 < a.capacity.toNat ∨
          a.capacity.toNat % 1024 ≠ 0 then refuse .refusedArg 4
      else if a.base.toNat % 1024 ≠ 0 ∨ 2 ^ 34 < a.base.toNat + area ∨
          (a.base.toNat < control + 65536 ∧ control < a.base.toNat + area) then refuse .refusedArg 5
      else if 32 < a.spitColumns.toNat then refuse .refusedArg 6
      else if a.holdLimit.toNat < 10 ∨ 5000 < a.holdLimit.toNat then refuse .refusedArg 7
      else if a.journalCapacity.toNat ∉ [64, 128, 256, 512, 1024] then refuse .refusedArg 8
      else if 10000 < a.budget.toNat then refuse .refusedArg 9
      else s.replied c ((y2.markStatus 0).markStatus 10) { status := .done, detail := 0, value := 0 })

/-- RESTART is answered DONE. It is the steps of each block in the model's order (log entry 7): held reads answered WITHHELD,
the reservation of an ARMED or FIRING swath returned, every swath unbound, the hold of the nozzle-out list released with the
pending changes applied; the request list emptied, the firing period ended, the cycle abandoned; a SHEET record with the
outcome CANCELLED for each sheet of the queue, from its head, the sheet leaving and the gate finding the next swath in turn;
then the feed controller and the link master (R17, R40, R86, R92, R109, R125, R140, R150). It leaves the gate with no read
held, no swath bound and a FREE claim, the queue of sheets and the request list empty, the feed idle with the threaded roll
UNKNOWN, no cycle but one ABANDONING, and only the ink controller's orders queued, in the order of their arrival, the freed
places granted to its declined orders, oldest first; the accounts' levels, the windows, the slots, the part state, the time
base and the journal's indices are not acted on (R165). That the idle stretch begins afresh is the model's reading (log entry
31). -/
def Obligations.RestartClearsTheWork : Prop :=
  (∀ m : LinkMaster,
    let kept := m.queue.filter fun o => o.block == .ink
    let free := 16 - kept.length
    let declined := m.inkRoom.declined
    let clear : Room := { waiting := false, declined := [] }
    m.restart = { m with
      queue := if m.inkRoom.waiting = true then kept ++ declined.take free else kept
      feedRoom := clear
      serviceRoom := clear
      inkRoom :=
        if free = 0 then m.inkRoom
        else if m.inkRoom.waiting = true then
          { waiting := decide (free < declined.length), declined := declined.drop free }
        else clear }) ∧
  ∀ s : State, s.chip.readyForCommand →
    let x := s.chip.taking .restart
    let live := x.sgt.swaths.any fun w => w.state == .armed || w.state == .firing
    let withheld : Chip := { x with
      psw := { x.psw with hInFlight := x.psw.hInFlight.map fun e : InFlight =>
        if ∃ h ∈ x.sgt.holdQueue, h.id = e.id then { e with phase := .answered .withheld [] } else e }
      sgt := { x.sgt with holdQueue := [], holdTimer := none } }
    let answered := withheld.showChange x 10
    let returned := if live = true then answered.release .swath else answered
    let cleared : Chip := { returned with sgt := { returned.sgt with
      swaths := [], claim := .free, wakeAskedFor := none
      buffers := x.sgt.buffers.map fun _ => { bound := false, tally := .all 0, late := false } } }
    let marked := (if x.sgt.swaths = [] then cleared else cleared.markStatus 10).refreshStatus returned
    let gate := if live = true then marked.swathGone else marked
    let emptied : Chip := { gate with svc := { gate.svc with requests := [], wakeAsk := none, idleStretch := none } }
    let unlisted := emptied.showChange gate 11
    let served := unlisted.firingEnded.abandonCycle
    let cancelled := served.fdc.sheets.foldl (fun (z : Chip) (h : Sheet) =>
      let recorded := z.journal (h.removedRecord .cancelled)
      let left := (recorded.onFdc fun d => { d with sheets := d.sheets.filter fun a => a.id != h.id }).showChange recorded 9
      (left.showChange recorded 10).markStatus 9) served
    (∀ (z : Chip) (serial : Nat),
      let moved : Chip :=
        if z.svc.location = .stranded then z
        else (Chip.markStatus { z with svc := { z.svc with location := .stranded } } 11).callArming
      let stranded := (moved.onCycle fun c => { c with state := .abandoning }).showChange z 11
      (z.svc.cycle.state = .none → z.abandonCycle = z) ∧
      (z.svc.cycle.state = .claiming → z.abandonCycle = { z with svc := { z.svc with cycle := .idle } }) ∧
      (z.svc.cycle.state = .running ∨ z.svc.cycle.state = .recovering ∨ z.svc.cycle.state = .abandoning →
        z.svc.nextStep = serial →
        z.abandonCycle = if z.flm.onLink (LinkOrder.isOfStep serial) = true then stranded else stranded.endStep .abandoned)) ∧
    ∃ y : Chip,
      y = { cancelled with
        fdc := { cancelled.fdc.rest with
          threaded := .unknown, uncutTail := cancelled.fdc.uncutTail || x.platen.isSome }
        flm := cancelled.flm.restart } ∧
      exec .restart s = .next (s.replied .restart y { status := .done, detail := 0, value := 0 }) ∧
      (y.sgt.holdQueue = [] ∧ y.sgt.holdTimer = none ∧ y.sgt.swaths = [] ∧ y.sgt.claim = .free ∧
        y.sgt.buffers = x.sgt.buffers.map fun _ => { bound := false, tally := .all 0, late := false }) ∧
      (y.fdc.sheets = [] ∧ y.fdc.feed = .idle ∧ y.fdc.positioned = none ∧ y.fdc.order = none ∧ y.fdc.check = none ∧
        y.fdc.dryTimer = none ∧ y.fdc.threaded = .unknown ∧
        y.fdc.uncutTail = (x.fdc.uncutTail || x.platen.isSome) ∧ y.fdc.roll1 = x.fdc.roll1 ∧ y.fdc.roll2 = x.fdc.roll2) ∧
      (y.svc.requests = [] ∧ y.svc.wakeAsk = none ∧ y.svc.firingPeriod = none ∧
        (y.svc.cycle.state = .none ∨ y.svc.cycle.state = .abandoning) ∧
        y.svc.location = if x.svc.cycle.state.busy = true then .stranded else x.svc.location) ∧
      (y.flm.feedRoom = .reset ∧ y.flm.serviceRoom = .reset ∧ y.flm.link = x.flm.link ∧
        ∀ o ∈ y.flm.queue, (o ∈ x.flm.queue ∧ o.block = .ink) ∨ o ∈ x.flm.inkRoom.declined) ∧
      (y.psw.swath = x.psw.swath ∧ y.cmi = x.cmi ∧ y.rpw.timeBase = x.rpw.timeBase ∧
        y.rpw.writeIndex = x.rpw.writeIndex ∧ y.rpw.readIndex = x.rpw.readIndex ∧
        y.rpw.updateCounts = x.rpw.updateCounts ∧
        ∀ k, (y.account k).level = (x.account k).level ∧ (y.account k).remainder = (x.account k).remainder ∧
          y.cartridge k = x.cartridge k ∧ y.owed k = x.owed k)

/-- SET CHANNEL is checked in the order of R44; accepted, it stores the settings in nL with the level 0 and UNKNOWN, places a
LEVEL order for a used channel unless one is on its way, hands the spit settings over, and has the cartridge judged again
(R44, R45, R63, R77). -/
def Obligations.SetChannelChecksAndEffects : Prop :=
  ∀ (a : SetChannelArgs) (s : State), s.chip.readyForCommand → s.chip.cmi.partState = .running →
    let c : RingCommand := .setChannel a
    let x := s.chip.taking c
    let refuse := fun (status : ReplyStatus) (detail : Nat) =>
      s.replied c x { status := status, detail := detail, value := 0 }
    (5 < a.channel.toNat → exec (.setChannel a) s = .next (refuse .refusedArg 1)) ∧
    ∀ k : Channel, a.channel.toNat = k.val →
      let used := 1 ≤ a.inkType.toNat
      let stored := x.onAccount k fun acc =>
        if used then
          { acc with
            inkType := a.inkType.toNat, dropVolume := a.dropVolume.toNat
            tankCapacity := a.tankCapacity.toNat * 1000, floor := a.floor.toNat * 1000
            refillMark := a.refillMark.toNat * 1000, lowMark := a.lowMark.toNat * 1000
            level := 0, levelState := .unknown, shortfall := false }
        else
          { acc with
            inkType := 0, dropVolume := 0, tankCapacity := 0, floor := 0, refillMark := 0, lowMark := 0
            level := 0, levelState := .unknown, shortfall := false }
      let asked :=
        if used ∧ (x.account k).levelReading = .idle then
          (stored.onAccount k fun acc => { acc with levelReading := .pending }).offer (.level k)
        else stored
      let settings : SpitSettings :=
        if used then { idleLimit := a.idleLimit.toNat, spitCount := a.spitCount.toNat }
        else { idleLimit := 0, spitCount := 0 }
      let handed := asked.onNmn fun n =>
        if n.held = true then { n with keptAside := n.keptAside.set k (some settings) }
        else { n with spit := n.spit.set k settings }
      let judged :=
        if (x.cartridge k).state = .noCartridge ∨ (x.cartridge k).state = .reading then handed else handed.judge k
      exec (.setChannel a) s = .next
        (if (s.chip.account k).holder ≠ .none then refuse .refusedState 2
        else if (s.chip.account k).refillState ≠ .idle then refuse .refusedState 3
        else if 15 < a.inkType.toNat then refuse .refusedArg 4
        else if used ∧ (a.dropVolume.toNat < 2 ∨ 16 < a.dropVolume.toNat) then refuse .refusedArg 5
        else if used ∧ (a.tankCapacity.toNat < 1000 ∨ 100000 < a.tankCapacity.toNat) then refuse .refusedArg 6
        else if used ∧ ¬ (a.floor.toNat < a.lowMark.toNat ∧ a.lowMark.toNat ≤ a.refillMark.toNat ∧
            a.refillMark.toNat < a.tankCapacity.toNat) then refuse .refusedArg 7
        else if used ∧ ((a.idleLimit.toNat ≠ 0 ∧ (a.idleLimit.toNat < 100 ∨ 60000 < a.idleLimit.toNat)) ∨
            32 < a.spitCount.toNat) then refuse .refusedArg 8
        else s.replied c judged.callAdmission.noticeInk { status := .done, detail := 0, value := 0 })

/-- SET ROLL as R127 gives it: the checks in their order, a refused one changing no roll, an accepted one storing the roll
with the fed accumulator 0 and its state by the remaining, the threaded roll as it was, its ROLL record rewritten and the
admission test run. -/
def Obligations.SetRollChecksAndEffects : Prop :=
  ∀ (a : SetRollArgs) (s : State), s.chip.readyForCommand →
    let c : RingCommand := .setRoll a
    let x := s.chip.taking c
    let refuse := fun (status : ReplyStatus) (detail : Nat) =>
      s.replied c x { status := status, detail := detail, value := 0 }
    (s.chip.cmi.partState = .unconfigured → exec (.setRoll a) s = .next (refuse .refusedState 0xFF)) ∧
    (s.chip.cmi.partState = .running →
      (a.roll.toNat ≠ 1 → a.roll.toNat ≠ 2 → exec (.setRoll a) s = .next (refuse .refusedArg 1)) ∧
      ∀ n : RollNo, a.roll.toNat = n.number →
        let stored : Roll :=
          { enabled := a.enabled.toNat == 1, mediaType := a.mediaType.toNat, width := a.width.toNat
            remaining := a.remaining.toNat, fed := 0, out := a.remaining.toNat == 0 }
        let y : Chip := { x with
          fdc := match n with
            | .one => { x.fdc with roll1 := stored }
            | .two => { x.fdc with roll2 := stored } }
        exec (.setRoll a) s = .next
          (if 1 < a.enabled.toNat ∨ 15 < a.mediaType.toNat ∨ a.width.toNat < 210 ∨ 914 < a.width.toNat ∨
              200000 < a.remaining.toNat then refuse .refusedArg 2
          else if ∃ h ∈ s.chip.platen, h.state ≠ .halted ∧
              (s.chip.fdc.threaded = .roll n ∨ h.assigned = some n) then refuse .refusedState 3
          else s.replied c (y.markStatus (match n with
              | .one => 7
              | .two => 8)).callAdmission { status := .done, detail := 0, value := n.number }))

/-- QUEUE SHEET is checked in the order of R111, the field check answering the slot byte of the first field at fault (that the
first is the one at the lowest slot byte is DEDUCED, log entry 27); accepted, the sheet joins the end of the queue QUEUED, the
SHEETS record is rewritten, the admission test is called for, and so is the arming test where the next swath has changed (R14,
R19, R110 to R113). -/
def Obligations.QueueSheetChecksAndEffects : Prop :=
  ∀ (a : QueueSheetArgs) (s : State), s.chip.readyForCommand → s.chip.cmi.partState = .running →
    let c : RingCommand := .queueSheet a
    let x := s.chip.taking c
    let refuse := fun (status : ReplyStatus) (detail value : Nat) =>
      s.replied c x { status := status, detail := detail, value := value }
    let short := fun k => a.estimateMarker.toNat = 1 ∧ 1000000 < (a.estimates.get k).toNat
    let sheet : Sheet :=
      { id := a.id.toNat
        preference := if a.rollPreference.toNat = 0 then .roll1 else if a.rollPreference.toNat = 1 then .roll2 else .either
        mediaType := a.mediaType.toNat, length := a.length.toNat, topMargin := a.topMargin.toNat
        swathCount := a.swathCount.toNat, swathAdvance := a.swathAdvance.toNat
        cutMode := if a.cutMode.toNat = 0 then .cut else .keepOn
        dryTime := a.dryTime.toNat
        estimate := if a.estimateMarker.toNat = 1 then some (.of fun k => (a.estimates.get k).toNat) else none
        state := .queued, waitingCause := none, assigned := none, done := 0, loadStep := 0, defect := false
        cancel := false, cause := none }
    exec (.queueSheet a) s = .next
      (if 8 ≤ s.chip.fdc.sheets.length then refuse .refusedFull 1 0
      else if ∃ h ∈ s.chip.fdc.sheets, h.id = a.id.toNat then refuse .refusedArg 2 0
      else if 2 < a.rollPreference.toNat then refuse .refusedArg 3 10
      else if 15 < a.mediaType.toNat then refuse .refusedArg 3 11
      else if a.length.toNat < 210 ∨ 30000 < a.length.toNat then refuse .refusedArg 3 12
      else if 500 < a.topMargin.toNat then refuse .refusedArg 3 14
      else if a.swathCount.toNat < 1 ∨ 4096 < a.swathCount.toNat then refuse .refusedArg 3 16
      else if 1 < a.cutMode.toNat then refuse .refusedArg 3 18
      else if 1 < a.estimateMarker.toNat then refuse .refusedArg 3 19
      else if a.swathAdvance.toNat < 500 ∨ 60000 < a.swathAdvance.toNat then refuse .refusedArg 3 20
      else if 600 < a.dryTime.toNat then refuse .refusedArg 3 24
      else if short 0 then refuse .refusedArg 3 28
      else if short 1 then refuse .refusedArg 3 32
      else if short 2 then refuse .refusedArg 3 36
      else if short 3 then refuse .refusedArg 3 40
      else if short 4 then refuse .refusedArg 3 44
      else if short 5 then refuse .refusedArg 3 48
      else if a.length.toNat * 1000 < a.topMargin.toNat * 1000 + a.swathCount.toNat * a.swathAdvance.toNat then
        refuse .refusedArg 4 0
      else
        let y := x.onFdc fun d => { d with sheets := d.sheets ++ [sheet] }
        s.replied c ((if y.nextSwath = x.nextSwath then y else y.callArming).markStatus 9).callAdmission
          { status := .done, detail := 0, value := s.chip.fdc.sheets.length + 1 })

/-- SWATH READY is checked in the order of R11; accepted, the buffer is BOUND and a record joins the swath table with the
buffer's tally as its projection, the GATE and SHEETS records are rewritten, and the arming test is called for where the new
record is the next swath record (R10 to R13, R19). The number of the record is the model's own (log entry 12). -/
def Obligations.SwathReadyChecksAndEffects : Prop :=
  ∀ (a : SwathReadyArgs) (s : State), s.chip.readyForCommand → s.chip.cmi.partState = .running →
    let c : RingCommand := .swathReady a
    let x := s.chip.taking c
    let refuse := fun (status : ReplyStatus) (detail : Nat) =>
      s.replied c x { status := status, detail := detail, value := 0 }
    (s.chip.sgt.buffers.length ≤ a.buffer.toNat → exec (.swathReady a) s = .next (refuse .refusedArg 1)) ∧
    (∀ b, s.chip.sgt.buffers[a.buffer.toNat]? = some b → b.bound = true →
      exec (.swathReady a) s = .next (refuse .refusedState 2)) ∧
    (∀ b, s.chip.sgt.buffers[a.buffer.toNat]? = some b → b.bound = false →
      (∀ h ∈ s.chip.fdc.sheets, h.id ≠ a.sheet.toNat) → exec (.swathReady a) s = .next (refuse .refusedState 3)) ∧
    ∀ b h, s.chip.sgt.buffers[a.buffer.toNat]? = some b → b.bound = false →
      (s.chip.fdc.sheets.find? fun h => h.id == a.sheet.toNat) = some h →
      let bound := (s.chip.sgt.swaths.filter fun r => r.sheet == h.id).length
      let record : Swath :=
        { id := x.sgt.nextSwathId, sheet := a.sheet.toNat, index := a.index.toNat, buffer := a.buffer.toNat
          columns := a.columns.toNat, state := .bound, projection := b.tally, spitSet := .all [], reservation := .all 0
          delivered := .all 0, lost := 0, injected := 0, faulted := 0, late := 0 }
      exec (.swathReady a) s = .next
        (if h.state = .drying ∨ h.state = .cutting ∨ h.state = .clearing ∨ h.state = .halted ∨ h.cancel = true then
          refuse .refusedState 4
        else if a.index.toNat ≠ h.done + bound then refuse .refusedArg 5
        else if s.chip.psw.capacity < a.columns.toNat ∨ a.columns.toNat < s.chip.sgt.spitColumns + 1 then
          refuse .refusedArg 6
        else if h.swathCount ≤ a.index.toNat then refuse .refusedArg 7
        else
          let y := ((x.onSgt fun g =>
            { g with
              buffers := g.buffers.set a.buffer.toNat { b with bound := true }
              swaths := g.swaths ++ [record]
              nextSwathId := g.nextSwathId + 1 }).markStatus 10).markStatus 9
          s.replied c (if y.nextRecord.map Swath.id = some x.sgt.nextSwathId then y.callArming else y)
            { status := .done, detail := 0, value := a.index.toNat })

/-- CANCEL SHEET by the state of the sheet, its cancel mark and its swath, with the detail and the value of its answer (R119 to
R121). That an ALREADY MARKED answer has the value 0, and that a sheet cleared at once keeps its cancel mark clear, are the
model's readings (log entry 35); the order in which several swaths are unbound is its choice (log entry 50). -/
def Obligations.CancelSheetByTheSheetState : Prop :=
  ∀ (id : BitVec 16) (s : State), s.chip.readyForCommand →
    let c : RingCommand := .cancelSheet id
    let x := s.chip.taking c
    let reply := fun (y : Chip) (status : ReplyStatus) (detail value : Nat) =>
      s.replied c y { status := status, detail := detail, value := value }
    (s.chip.cmi.partState = .unconfigured →
      exec (.cancelSheet id) s = .next (reply x .refusedState 0xFF 0)) ∧
    (s.chip.cmi.partState = .running → (∀ h ∈ s.chip.fdc.sheets, h.id ≠ id.toNat) →
      exec (.cancelSheet id) s = .next (reply x .refusedState 1 0)) ∧
    ∀ h, s.chip.cmi.partState = .running → (s.chip.fdc.sheets.find? fun h => h.id == id.toNat) = some h →
      let printing := h.state = .ready ∨ h.state = .printing
      let marked := x.feedStage fun d => { d with
        sheets := d.sheets.map fun a => if a.id = h.id then { a with cancel := true } else a }
      let bound := s.chip.sgt.swaths.filter fun r => r.sheet == h.id
      (h.state = .drying ∨ h.state = .cutting ∨ h.state = .clearing ∨ h.state = .halted →
        exec (.cancelSheet id) s = .next (reply x .refusedState 2 0)) ∧
      (h.state = .queued ∨ h.state = .waiting →
        exec (.cancelSheet id) s = .next (reply (x.removeSheet h .cancelled) .done 4 h.done)) ∧
      (h.state = .loading ∨ printing → h.cancel = true →
        exec (.cancelSheet id) s = .next (reply x .done 3 0)) ∧
      (h.state = .loading → h.cancel = false →
        exec (.cancelSheet id) s = .next (reply (bound.foldl Chip.unbind marked).callArming .done 5 h.done)) ∧
      (printing → h.cancel = false → (∀ r ∈ bound, r.state ≠ .firing) →
        exec (.cancelSheet id) s = .next (reply x.enterClearing .done 6 h.done)) ∧
      (∀ f, printing → h.cancel = false →
        (s.chip.sgt.swaths.find? fun r => r.sheet == h.id && r.state == .firing) = some f →
        exec (.cancelSheet id) s = .next
          (reply ((bound.filter fun r => r.id != f.id).foldl Chip.unbind marked).callArming .done 5 h.done))

/-- CLEAR JAM by the table of R139: refused unless the feed is HALTED with no check in progress; accepted, a STATUS order is
placed with the feed unit and the check is in progress. -/
def Obligations.ClearJamByTheTable : Prop :=
  ∀ s : State, s.chip.readyForCommand → s.chip.cmi.partState = .running →
    let c : RingCommand := .clearJam
    let x := s.chip.taking c
    let serial := s.chip.fdc.nextOrder
    exec .clearJam s = .next
      (if s.chip.fdc.feed ≠ .halted then s.replied c x { status := .refusedState, detail := 1, value := 0 }
      else if s.chip.fdc.check ≠ none then s.replied c x { status := .refusedState, detail := 2, value := 0 }
      else s.replied c
        ({ x with fdc := { x.fdc with check := some serial, nextOrder := serial + 1 } }.offer (.feedCheck serial))
        { status := .done, detail := 3, value := 0 })

/-- SET NOZZLE is checked in the order of R83; while the list is held the change waits in the pending list, and while it is
free it takes effect by the table of R84, the reply value being the entries on the list after it. An addition keeps the
order of the list, makes the new entry and its partner's UNCOVERED where the partner is out, and makes its ADDED record
and its notices; a removal leaves the partner's entry SUBSTITUTED, its record having both coverages; each change makes its
NOZZLE record (R80, R81, R90, R91). When the swath is gone the list is free again, the spit settings kept aside take
effect, and the pending changes are applied, oldest first, an OUT that finds no room being dropped with its record (R77,
R82, R85, R86). A check report is refused while the list is held; else entries set aside make one BAD ENTRY record, each
counted once, and the reported nozzles are merged: entries of origin CHECK that are not reported are removed, then the
others are added in order while there is room, the overflow flag and record telling what was left (R87 to R89). That the
fields that no rule names are none, and that the coverage of a removed entry is UNCOVERED where its partner stays and none
elsewhere, is log entry 18. -/
def Obligations.SetNozzleChecksAndEffects : Prop :=
  (∀ (a : SetNozzleArgs) (s : State), s.chip.readyForCommand → s.chip.cmi.partState = .running →
    let c : RingCommand := .setNozzle a
    let x := s.chip.taking c
    let refuse := fun (status : ReplyStatus) (detail : Nat) =>
      s.replied c x { status := status, detail := detail, value := 0 }
    (5 < a.channel.toNat → exec (.setNozzle a) s = .next (refuse .refusedArg 1)) ∧
    ∀ k : Channel, a.channel.toNat = k.val →
      let n := a.nozzle.toNat
      let out := a.action.toNat = 1
      let change : NozzleChange := { channel := k, nozzle := n, out := a.action.toNat == 1 }
      let entry := s.chip.nmn.outList.find? fun e => e.channel == k && e.nozzle == n
      let taken := fun (y : Chip) (detail : Nat) =>
        s.replied c y { status := .done, detail := detail, value := y.nmn.outList.length }
      exec (.setNozzle a) s = .next
        (if 1023 < n then refuse .refusedArg 2
        else if a.action.toNat ≠ 1 ∧ a.action.toNat ≠ 2 then refuse .refusedArg 3
        else if s.chip.nmn.held = true ∧ 16 ≤ s.chip.nmn.pending.length then refuse .refusedFull 4
        else if s.chip.nmn.held = false ∧ out ∧ entry = none ∧ 96 ≤ s.chip.nmn.outList.length then refuse .refusedFull 5
        else if s.chip.nmn.held = true then
          s.replied c ((x.onNmn fun m => { m with pending := m.pending ++ [change] }).markStatus 12)
            { status := .done, detail := 6, value := s.chip.nmn.pending.length + 1 }
        else match entry with
          | none => if out then taken (x.addOut k n .command) 1 else taken x 5
          | some e =>
            if out then (if e.origin = .check then taken (x.commandOut e) 2 else taken x 3) else taken (x.removeOut e) 4)) ∧
  (∀ (e : OutEntry) (l : List OutEntry),
    let before := fun a b : OutEntry => a.channel < b.channel ∨ a.channel = b.channel ∧ a.nozzle < b.nozzle
    (∀ a, a ∈ insertOut e l ↔ a = e ∨ a ∈ l) ∧
    (l.Pairwise before → (∀ a ∈ l, a.channel ≠ e.channel ∨ a.nozzle ≠ e.nozzle) → (insertOut e l).Pairwise before)) ∧
  (∀ (y : Chip) (k : Channel) (n : Nat),
    let list := y.nmn.outList
    let mate := if n % 2 = 0 then n + 1 else n - 1
    let paired := ∃ a ∈ list, a.channel = k ∧ a.nozzle = mate
    let record := fun (reason : NozzleReason) (origin : Origin) (coverage partnerCoverage : Option Coverage)
        (entries time : Nat) => JournalRecord.nozzle
      { reason := reason, channel := k.val, nozzle := some n, origin := some origin, coverage := coverage
        partnerCoverage := partnerCoverage, entries := entries, mask := none, count := none, lowest := none
        timeAdded := some time }
    let mated := fun (c : Coverage) (a : OutEntry) =>
      if a.channel = k ∧ a.nozzle = mate then { a with coverage := c } else a
    (∀ origin : Origin,
      let now := y.rpw.timeBase
      let coverage := if paired then Coverage.uncovered else .substituted
      let e : OutEntry := { channel := k, nozzle := n, origin := origin, time := now, coverage := coverage }
      let entered := (y.onNmn fun m => { m with outList := insertOut e (list.map (mated .uncovered)) }).markStatus 12
      let noticed := (entered.journal (record .added origin (some coverage) (if paired then some .uncovered else none)
        (list.length + 1) now)).additionNotice
      y.addOut k n origin = if paired then noticed.uncoveredNotice else noticed) ∧
    ∀ e : OutEntry, e.channel = k → e.nozzle = n →
      let others := list.filter fun a => !(a.channel == k && a.nozzle == n)
      y.removeOut e = ((y.onNmn fun m => { m with outList := others.map (mated .substituted) }).markStatus 12).journal
        (record .removed e.origin (if paired then some .uncovered else none) (if paired then some .substituted else none)
          others.length e.time) ∧
      y.commandOut e =
        (y.onNmn fun m => { m with outList := list.map fun a =>
          if a.channel = k ∧ a.nozzle = n then { a with origin := .command } else a }).journal
        (record .origin .command (some e.coverage)
          ((list.find? fun a => a.channel == k && a.nozzle == mate).map OutEntry.coverage) list.length e.time)) ∧
  (∀ y : Chip,
    let m := y.nmn
    let free := (y.onNmn fun m => { m with held := false, pending := [] }).markStatus 12
    y.swathGone = m.pending.foldl Chip.applyPending ((free.onNmn fun m => { m with
      keptAside := .all none
      spit := .of fun k => match m.keptAside.get k with
        | some given => given
        | none => m.spit.get k }).refreshStatus free)) ∧
  (∀ (y : Chip) (c : NozzleChange),
    let list := y.nmn.outList
    let entry := list.find? fun e => e.channel == c.channel && e.nozzle == c.nozzle
    let mate := if c.nozzle % 2 = 0 then c.nozzle + 1 else c.nozzle - 1
    y.applyPending c =
      match entry with
      | none =>
        if c.out = false then y
        else if list.length < 96 then y.addOut c.channel c.nozzle .command
        else y.journal (.nozzle
          { reason := .pendingDropped, channel := c.channel.val, nozzle := some c.nozzle, origin := none, coverage := none
            partnerCoverage := (list.find? fun e => e.channel == c.channel && e.nozzle == mate).map OutEntry.coverage
            entries := list.length, mask := none, count := none, lowest := none, timeAdded := none })
      | some e =>
        if c.out = false then y.removeOut e else if e.origin = .check then y.commandOut e else y) ∧
  (∀ (y : Chip) (mask : BitVec 8) (entries : List (Nat × Nat)) (reported : List (Channel × Nat)),
    let subject := (((List.range 6).find? fun k => mask.getLsbD k)).getD 0xFFFF
    let record := fun (reason : NozzleReason) (length : Nat) (count : Option Nat) (lowest : Option (Nat × Nat)) =>
      JournalRecord.nozzle
        { reason := reason, channel := subject, nozzle := none, origin := none, coverage := none, partnerCoverage := none
          entries := length, mask := some mask.toNat, count := count, lowest := lowest, timeAdded := none }
    let returned := distinctEntries entries
    let good := returned.filter fun e => decide (e.1 < 6 ∧ e.2 ≤ 1023 ∧ mask.getLsbD e.1 = true)
    let bad := returned.length - good.length
    let noted := if bad = 0 then y else y.journal (record .badEntry y.nmn.outList.length (some bad) none)
    (returned.Nodup ∧ ∀ e, e ∈ returned ↔ e ∈ entries) ∧
    (y.nmn.held = true →
      y.takeReport mask entries = y.journal (record .mergeRefused y.nmn.outList.length none none)) ∧
    (y.nmn.held = false → reported.map (fun e => (e.1.val, e.2)) = good →
      y.takeReport mask entries = noted.merge mask reported) ∧
    (∀ k : Channel, (reportedOf reported k).Pairwise (· < ·) ∧ ∀ n, n ∈ reportedOf reported k ↔ (k, n) ∈ reported) ∧
    (let removed := (y.nmn.outList.filter fun e =>
        mask.getLsbD e.channel.val && e.origin == .check && !reported.contains (e.channel, e.nozzle)).foldl Chip.removeOut y
      let wanted := channels.flatMap fun k => (reportedOf reported k).map fun n => (k, n)
      let merged := removed.mergeAdditions wanted
      let flagged := fun b : Bool => merged.1.onNmn fun m => { m with overflow := b }
      y.merge mask reported =
        (match merged.2 with
        | [] => flagged false
        | (k, n) :: rest =>
          ((flagged true).markStatus 12).journal
            (record .listOverflow merged.1.nmn.outList.length (some (rest.length + 1)) (some (k.val, n)))).markStatus 12) ∧
    y.mergeAdditions [] = (y, []) ∧
    ∀ (wanted : List (Channel × Nat)) (k : Channel) (n : Nat),
      let (z, left) := y.mergeAdditions wanted
      y.mergeAdditions (wanted ++ [(k, n)]) =
        if ∃ e ∈ z.nmn.outList, e.channel = k ∧ e.nozzle = n then (z, left)
        else if z.nmn.outList.length < 96 then (z.addOut k n .check, left)
        else (z, left ++ [(k, n)]))

/-- LOAD PROGRAM is checked in the order of R95, a step at fault answered by its number; accepted, it stores or unloads the
program and resets its counters. RUN PROGRAM is checked by the table of R103 and lists a program once, which rewrites the
SERVICE record and runs the arming test (R19, R94, R95, R101, R103). That the trigger parameter of a COMMAND program must be 0
(log entry 27) and that bits 6 and 7 of a mask are ignored (log entry 28) are DEDUCED; that the reply value of RUN PROGRAM
counts an entry granted the claim in the same event is the model's choice (log entry 41). -/
def Obligations.LoadAndRunProgram : Prop :=
  (∀ (a : LoadProgramArgs) (s : State), s.chip.readyForCommand → s.chip.cmi.partState = .running →
    a.wellFormed = true →
    let c : RingCommand := .loadProgram a
    let x := s.chip.taking c
    let refuse := fun (status : ReplyStatus) (detail value : Nat) =>
      s.replied c x { status := status, detail := detail, value := value }
    (7 < a.program.toNat → exec (.loadProgram a) s = .next (refuse .refusedArg 1 0)) ∧
    ∀ p : Fin 8, a.program.toNat = p.val →
      let count := a.stepCount.toNat
      let given := a.steps.take count
      let trigger := a.triggerKind.toNat
      let parameter := a.triggerParameter.toNat
      let triggerBad := 4 < trigger ∨ trigger = 0 ∧ parameter ≠ 0 ∨ trigger = 1 ∧ (parameter < 1 ∨ 255 < parameter) ∨
        trigger = 2 ∧ (parameter < 1 ∨ 1440 < parameter) ∨ trigger = 3 ∧ (parameter < 1 ∨ 96 < parameter) ∨
        trigger = 4 ∧ (parameter < 10 ∨ 3600 < parameter)
      let argumentBad := fun st : StepArgs =>
        let kind := st.kind.toNat
        let noChannel := st.mask.toNat % 64 = 0
        let outOf := fun lo hi : Nat => st.parameter.toNat < lo ∨ hi < st.parameter.toNat
        decide (kind = 2 ∧ (noChannel ∨ outOf 1 5000) ∨ kind = 3 ∧ noChannel ∨ kind = 6 ∧ outOf 1 60000)
      let program : Program :=
        { trigger := match trigger with
            | 1 => .sheets
            | 2 => .printTime
            | 3 => .nozzle
            | 4 => .idle
            | _ => .command
          parameter := parameter
          urgency := if a.urgency.toNat = 0 then .midSheet else .boundary
          duration := a.duration.toNat
          steps := given.map fun st =>
            { kind := match st.kind.toNat with
                | 0 => .park
                | 1 => .wipe
                | 2 => .prime
                | 3 => .check
                | 4 => .cap
                | 5 => .uncap
                | 6 => .wait
                | _ => .carriageReturn
              mask := st.mask, parameter := st.parameter.toNat } }
      let reset : Counters :=
        { sheets := 0, firing := 0, additions := 0, idleMark := x.rpw.timeBase, idleFired := false }
      exec (.loadProgram a) s = .next
        (if (∃ e ∈ s.chip.svc.requests, e.program = p) ∨
            (s.chip.svc.cycle.state.busy = true ∧ s.chip.svc.cycle.kind = some (.program p)) then refuse .refusedState 2 0
        else if 10 < count then refuse .refusedArg 3 0
        else if 1 ≤ count ∧ triggerBad then refuse .refusedArg 4 0
        else if 1 ≤ count ∧ (1 < a.urgency.toNat ∨ a.duration.toNat < 1 ∨ 600000 < a.duration.toNat) then
          refuse .refusedArg 5 0
        else match given.findIdx? fun st => decide (7 < st.kind.toNat) with
          | some i => refuse .refusedArg 6 (i + 1)
          | none =>
            match given.findIdx? argumentBad with
            | some i => refuse .refusedArg 7 (i + 1)
            | none =>
              s.replied c (x.onSvc fun v =>
                  { v with
                    programs := v.programs.set p (if count = 0 then none else some program)
                    counters := v.counters.set p reset })
                { status := .done, detail := 0, value := p.val })) ∧
  (∀ (program : BitVec 8) (s : State), s.chip.readyForCommand → s.chip.cmi.partState = .running →
    let c : RingCommand := .runProgram program
    let x := s.chip.taking c
    (7 < program.toNat →
      exec (.runProgram program) s = .next (s.replied c x { status := .refusedArg, detail := 1, value := 0 })) ∧
    ∀ p : Fin 8, program.toNat = p.val →
      exec (.runProgram program) s = .next
        (if s.chip.program p = none then s.replied c x { status := .refusedState, detail := 2, value := 0 }
        else if ∃ e ∈ s.chip.svc.requests, e.program = p then
          s.replied c x { status := .done, detail := 3, value := s.chip.svc.requests.length }
        else s.replied c (((x.onSvc fun v =>
            { v with requests := v.requests ++ [{ program := p, cause := .command, time := x.rpw.timeBase }] }).markStatus
              11).callArming)
          { status := .done, detail := 4, value := s.chip.svc.requests.length + 1 }))

/-! ## Timers (log entry 6: each takes effect in the event that finds it due) -/

/-- The hold timer runs out: every held read is answered WITHHELD, the swaths of the waited-for sheet are unbound, the SWATH
WITHHELD record is made and the spoil is reported, which the feed controller takes by the sheet's state (R30, R123). The expiry
may be taken later than the moment it is due (the model's choice, log entry 6), and the order in which several swaths are
unbound is its choice (log entry 50). -/
def Obligations.HoldTimerRunsOut : Prop :=
  (∀ (s : State) (t : Nat) (h : HeldRead) (rest : List HeldRead) (r : Swath), s.chip.inReset = false →
    s.chip.sgt.holdTimer = some t → t ≤ s.chip.rpw.timeBase → s.chip.sgt.holdQueue = h :: rest →
    (s.chip.sgt.swaths.find? fun a => a.id == h.swath) = some r →
    let x := s.chip.holdsAnswered.showChange s.chip 10
    exec .holdTimerExpiry s = .next (s.after
      ((((x.sgt.swaths.filter fun a => a.sheet == r.sheet).foldl Chip.unbind x).journal
        (.swathWithheld r.sheet r.index s.chip.sgt.holdQueue.length s.chip.sgt.holdLimit)).spoil r.sheet))) ∧
  (∀ (x : Chip) (id : Nat) (h : Sheet), (x.fdc.sheets.find? fun a => a.id == id) = some h →
    let marked := x.feedStage fun d => { d with
      sheets := d.sheets.map fun a => if a.id = id then { a with cause := some .spoiled } else a }
    (h.state = .queued ∨ h.state = .waiting → x.spoil id = x.removeSheet h .spoiled) ∧
    (h.state = .loading → x.spoil id = marked) ∧
    (h.state = .ready ∨ h.state = .printing → x.spoil id = marked.enterClearing) ∧
    (h.state = .drying ∨ h.state = .cutting ∨ h.state = .clearing ∨ h.state = .halted → x.spoil id = x))

/-- Each poll offers its order and is set again a period after the time it was due, the order being passed over where one of
its kind is still under way: READ TAG each 500 ms, the pump, station and feed STATUS each 50 ms (R60, R71, R74, R97, R109,
R130, R148, R149). That a poll may be taken later than it is due, and that it is then set again from the time it was due, are
the model's (log entry 6). -/
def Obligations.PollsAreOfferedEachPeriod : Prop :=
  ∀ s : State, s.chip.inReset = false →
    let x := s.chip
    let now := x.rpw.timeBase
    (∀ (k : Channel) (t : Nat), (x.ink.get k).pollTimer = some t → t ≤ now →
      let y := x.onInk k fun i => { i with pollTimer := some (t + 500000) }
      exec (.pollTimerExpiry k) s = .next (s.after
        (if x.flm.onLink (fun o => o == .readTag k) = true then y else y.offer (.readTag k)))) ∧
    (∀ (k : Channel) (t : Nat), (x.refill k).pollAt = some t → t ≤ now →
      let y := x.onRefill k fun f => { f with pollAt := some (t + 50000) }
      exec (.pumpStatusPoll k) s = .next (s.after
        (if .pumpStatus k ∈ x.flm.orders then y else y.offer (.pumpStatus k)))) ∧
    (∀ t : Nat, x.svc.cycle.phase = .polling t → t ≤ now → x.svc.cycle.state ≠ .abandoning →
      let y := x.onCycle fun c => { c with phase := .polling (t + 50000) }
      exec .stationStatusPoll s = .next (s.after
        (if ∃ o ∈ x.flm.orders, isStationStatus o = true then y else y.offer (.stationStatus x.svc.nextStep)))) ∧
    (∀ (o : FeedOrder) (t : Nat), x.fdc.order = some o → o.pollAt = some t → t ≤ now →
      let y := x.onFdc fun d => { d with order := some { o with pollAt := some (t + 50000) } }
      exec .feedStatusPoll s = .next (s.after
        (if ∃ o ∈ x.flm.orders, isFeedStatus o = true then y else y.offer (.feedStatus o.serial))))

/-- The pump deadline makes PUMP TIMEOUT and a STOP; the stop deadline makes STOP LOST and ends the stop; the deadline of a
feed order ends it TIMEOUT with the fed length last stored; the dry timer begins the cut, or removes a CONTINUE sheet (R72,
R74, R130, R134). An expiry may be taken later than the moment it is due (the model's choice, log entry 6); that the pump
deadline is cleared when it has run out is the model's choice too (log entry 38). -/
def Obligations.InkAndFeedTimersRunOut : Prop :=
  ∀ s : State, s.chip.inReset = false →
    let x := s.chip
    let now := x.rpw.timeBase
    (∀ (k : Channel) (t : Nat), (x.account k).refillState = .pumping → (x.refill k).pumpDeadline = some t → t ≤ now →
      let y := x.journal (.inkPumpTimeout k (x.account k).transferRequested (x.refill k).moved)
      exec (.pumpDeadlineExpiry k) s = .next (s.after
        (((y.onAccount k fun a => { a with refillState := .stopping }).onRefill k fun f =>
          { f with pumpDeadline := none, stopCause := .timeout, stopDeadline := some (now + 10000000)
                   pollAt := some (now + 50000) }).offer (.stop k)))) ∧
    (∀ (k : Channel) (t : Nat), (x.account k).refillState = .stopping → (x.refill k).stopDeadline = some t → t ≤ now →
      let y := (x.journal (.inkStopLost k (x.refill k).moved)).creditMoved k
      exec (.stopDeadlineExpiry k) s = .next (s.after
        (if (y.ink.get k).sourcePresent = true then y.enterDebiting k else y.refillIdle k))) ∧
    (∀ o : FeedOrder, x.fdc.order = some o → o.deadline ≤ now →
      exec .orderDeadlineExpiry s = .next (s.after (x.endFeedOrder o .timeout o.fed))) ∧
    (∀ (t : Nat) (h : Sheet), x.fdc.feed = .drying → x.fdc.dryTimer = some t → t ≤ now → x.platen = some h →
      exec .dryTimerExpiry s = .next (s.after
        (match h.cutMode with
        | .cut =>
          let y := (x.feedStage fun d => { d with dryTimer := none }).feedStage fun d => { d with
            sheets := d.sheets.map fun a => if a.state.onPlaten then { a with state := .cutting } else a }
          (y.onFdc fun d => { d with feed := .cutting }).placeFeed .cut 10000000
        | .keepOn =>
          let y := (x.feedStage fun d => { d with dryTimer := none }).feedStage fun d => { d with uncutTail := true }
          y.removeSheet h (if h.defect then .defective else .printed))))

/-- The step deadline ends the current step TIMEOUT, a WAIT step ends DONE when its time has elapsed, and a PRIME step without
its grant ends INK SHORT at its reservation deadline; an IDLE or PRINT TIME trigger that is due lists its program with the time
now, once, and not while it is the program of the cycle in progress, IDLE setting idle fired; the list's change rewrites the
SERVICE record and runs the arming test (R19, R96, R98, R101 to R103). That an expiry or a trigger may be taken later than it
is due is the model's choice (log entry 6), and so is that a trigger reached while its program is listed or in its cycle stays
due (log entry 47), and that one that is not due changes nothing (log entry 1). A notice fires the programs whose trigger it
meets, in ascending number; the order between several notices of one event is the model's choice (log entry 42). -/
def Obligations.ServiceTimersRunOut : Prop :=
  (∀ s : State, s.chip.inReset = false →
     let c := s.chip.svc.cycle
     let now := s.chip.rpw.timeBase
     (∀ t : Nat, c.state = .running ∨ c.state = .recovering ∨ c.state = .abandoning → c.stepDeadline = some t → t ≤ now →
       exec .stepDeadlineExpiry s = .next (s.after (s.chip.endStep .timeout))) ∧
     (∀ t : Nat, c.phase = .waiting t → t ≤ now → exec .waitStepEnd s = .next (s.after (s.chip.endStep .done))) ∧
     (∀ t : Nat, c.phase = .reserving → c.reservationDeadline = some t → t ≤ now →
       exec .reservationDeadlineExpiry s = .next (s.after (s.chip.endStep .inkShort)))) ∧
  (∀ (s : State) (p : Fin 8) (g : Program), s.chip.inReset = false → s.chip.program p = some g →
     let x := s.chip
     let now := x.rpw.timeBase
     let c := x.svc.counters.get p
     let unlisted := (∀ e ∈ x.svc.requests, e.program ≠ p) ∧
       ¬ (x.svc.cycle.state.busy = true ∧ x.svc.cycle.kind = some (.program p))
     let entry : Request := { program := p, cause := .trigger, time := now }
     let idleDue := g.trigger = .idle ∧ x.svc.idleStretch ≠ none ∧ c.idleFired = false ∧
       c.idleMark + g.parameter * 1000000 ≤ now
     let printDue := g.trigger = .printTime ∧
       ∃ start, x.svc.firingPeriod = some start ∧ g.parameter * 60000000 ≤ c.firing + (now - start)
     let listed := ((x.onSvc fun v => { v with requests := v.requests ++ [entry] }).markStatus 11).callArming
     (idleDue → unlisted → exec (.idleTrigger p) s = .next (s.after (listed.onSvc fun v =>
       { v with counters := v.counters.set p { c with idleFired := true } }))) ∧
     (¬ (idleDue ∧ unlisted) → exec (.idleTrigger p) s = .next (s.after x)) ∧
     (printDue → unlisted → exec (.printTimeTrigger p) s = .next (s.after listed)) ∧
     (¬ (printDue ∧ unlisted) → exec (.printTimeTrigger p) s = .next (s.after x))) ∧
  (∀ x : Chip,
     let counting := fun f : Counters → Counters =>
       { x with svc := { x.svc with counters := Vector.ofFn fun p : Fin 8 => f (x.svc.counters.get p) } }
     let fires := fun (y : Chip) (met : Program → Counters → Bool) =>
       ([0, 1, 2, 3, 4, 5, 6, 7] : List (Fin 8)).foldl (fun (z : Chip) (p : Fin 8) =>
         match z.program p with
         | none => z
         | some g =>
           if met g (z.svc.counters.get p) = true ∧ (∀ e ∈ z.svc.requests, e.program ≠ p) ∧
               ¬ (z.svc.cycle.state.busy = true ∧ z.svc.cycle.kind = some (.program p))
           then ((z.onSvc fun v =>
             { v with requests := v.requests ++ [{ program := p, cause := .trigger, time := z.rpw.timeBase }] }).markStatus
               11).callArming
           else z) y
     x.sheetRemoved = fires (counting fun c => { c with sheets := min (c.sheets + 1) 65535 })
       (fun g c => g.trigger == .sheets && decide (g.parameter ≤ c.sheets)) ∧
     x.additionNotice = fires (counting fun c => { c with additions := min (c.additions + 1) 65535 })
       (fun g c => g.trigger == .nozzle && decide (g.parameter ≤ c.additions)) ∧
     x.uncoveredNotice = fires x (fun g _ => g.trigger == .nozzle) ∧
     x.firingBegun = fires (x.onSvc fun v => { v with firingPeriod := some x.rpw.timeBase })
       (fun g c => g.trigger == .printTime && decide (g.parameter * 60000000 ≤ c.firing)) ∧
     x.firingEnded =
       match x.svc.firingPeriod with
       | none => x
       | some start => { x with svc := { x.svc with
         firingPeriod := none
         counters := Vector.ofFn fun p : Fin 8 =>
           let c := x.svc.counters.get p
           if x.program p = none then c else { c with firing := c.firing + (x.rpw.timeBase - start) } } })

/-! ## The field link: frames and what they bring -/

/-- A line check that fails ends the order ABSENT without a start mark; a busy hold past 20 ms ends it BUSY TIMEOUT with no
slot of the frame clocked after the order byte, the unit's release of FLDA being its release mark; the outcome goes to the
block that placed the order, as the outcome of a frame that ran its course does (R142, R143, R145). The busy hold is judged
from the acknowledge slot of the order byte, after a wait of the line check that is a free value (log entry 16). BUSY TIMEOUT
is a failed poll of a tag, a failed LEVEL, DEBIT or STOP, a TRANSFER taken all the same, nothing for a pump, station or feed
STATUS, LINK for a CHECK PAGE, a station or feed order taken all the same, and a failed check of CLEAR JAM (R46, R65, R68, R70,
R71, R74, R97, R99, R109, R130, R139). The slots shown at a release mark with FLDA kept low are the model's choice (log entry
48). -/
def Obligations.FramesEndedByATimeout : Prop :=
  (∀ (s : State) (o : LinkOrder) (since : Nat), s.chip.inReset = false → s.chip.flm.link = .carrying o since →
    (since + 20000 ≤ s.chip.rpw.timeBase →
      exec .lineCheckTimeout s = .next (s.after ((s.chip.frameOver []).deliver o .absent))) ∧
    (since + min (Config.heldAtLineCheck s.chip.flm.frames) 20000 + 50 + 20000 ≤ s.chip.rpw.timeBase →
      exec .busyTimeout s = .next (s.after ((s.chip.frameOver
        [.startMark, .sent (BitVec.ofNat 8 o.unit) true, .orderMark, .sent (BitVec.ofNat 8 o.code) true,
          .releaseByUnit]).deliver o .busyTimeout))) ∧
    (∀ f : FrameEnd,
      let ends := fun c : Instr =>
        exec c s = .next (s.after ((s.chip.frameOver (o.wire f)).deliver o (o.outcome f.exchange)))
      match o with
      | .readTag _ => ends (.readTagOutcome f)
      | .debit _ _ _ => ends (.debitOutcome f)
      | .level _ => ends (.levelOutcome f)
      | .transfer _ _ => ends (.transferOutcome f)
      | .stop _ => ends (.stopOutcome f)
      | .pumpStatus _ => ends (.pumpStatusOutcome f)
      | .station _ _ => ends (.stationOrderOutcome f)
      | .stationStatus _ => ends (.stationStatusOutcome f)
      | .checkPage _ _ => ends (.checkPageOutcome f)
      | .feed _ _ => ends (.feedOrderOutcome f)
      | .feedStatus _ => ends (.feedStatusOutcome f)
      | .feedCheck _ => ends (.clearJamCheckOutcome f))) ∧
  (∀ (x : Chip) (k : Channel) (amount serial volume step page : Nat) (so : StationOrder) (op : FeedOp),
    let now := x.rpw.timeBase
    let c := x.svc.cycle
    let current := c.state.busy = true ∧ x.svc.nextStep = step
    let refill := (x.account k).refillState
    x.deliver (.readTag k) .busyTimeout =
      (if (x.cartridge k).pollFault = true then x
      else ((x.onCartridge k fun c => { c with pollFault := true }).markStatus (channelStatus k)).journal
        (.fieldFault (0x10 + k.val) 0x01 .busyTimeout k none)) ∧
    x.deliver (.debit k amount serial) .busyTimeout =
      (let y := x.journal (.fieldFault (0x10 + k.val) 0x02 .busyTimeout k (some amount))
      if (y.account k).refillState = .debiting then y.refillIdle k else y) ∧
    x.deliver (.level k) .busyTimeout =
      ((x.onAccount k fun a => { a with levelReading := .idle }).showChange x (channelStatus k)).journal
        (.fieldFault 0x20 0x11 .busyTimeout k none) ∧
    x.deliver (.transfer k volume) .busyTimeout =
      (if refill ≠ .queued then x
      else if (x.ink.get k).sourcePresent = true then
        (x.onAccount k fun a => { a with refillState := .pumping }).onRefill k fun r =>
          { r with pumpDeadline := some (now + 120000000), pollAt := some (now + 50000) }
      else ((x.onAccount k fun a => { a with refillState := .stopping }).onRefill k fun r =>
        { r with pumpDeadline := none, stopCause := .removed, stopDeadline := some (now + 10000000)
                 pollAt := some (now + 50000) }).offer (.stop k)) ∧
    x.deliver (.stop k) .busyTimeout = x.journal (.fieldFault 0x20 0x13 .busyTimeout k none) ∧
    x.deliver (.pumpStatus k) .busyTimeout = x ∧
    x.deliver (.station so step) .busyTimeout =
      (if ¬ (current ∧ c.phase = .ordered) then x
      else if c.state = .abandoning then x.endStep .abandoned
      else x.onCycle fun c => { c with phase := .polling (now + 50000) }) ∧
    x.deliver (.stationStatus step) .busyTimeout =
      (if current ∧ c.phase.isPolling = true ∧ c.state = .abandoning then x.endStep .abandoned else x) ∧
    x.deliver (.checkPage page step) .busyTimeout =
      (if current ∧ c.phase = .paging page then x.endStep (.link .busyTimeout) else x) ∧
    x.deliver (.feed op serial) .busyTimeout =
      (match x.fdc.order with
        | some p =>
          if p.serial = serial then x.onFdc fun d => { d with order := some { p with pollAt := some (now + 50000) } } else x
        | none => x) ∧
    x.deliver (.feedStatus serial) .busyTimeout = x ∧
    x.deliver (.feedCheck serial) .busyTimeout =
      (if x.fdc.check ≠ some serial then x
      else
        let y := x.onFdc fun d => { d with check := none }
        match y.platen with
        | some h => y.journal (.sheetClearFailed h.id LinkOutcome.busyTimeout.code)
        | none => y))

/-- The outcome of a frame by what the unit acknowledges and drives: ABSENT, REFUSED, DONE with the content of the reply, most
significant byte first, or CHECK ERROR where the length byte, which each order with a reply has its own of (a CHECK PAGE 2 and
3 for each of at most 8 entries), or the check sum fails, a coded field has an undefined value, or the entry count of a CHECK
PAGE differs from the entries its length holds, 0 to 8 (R142, R144 to R146, 12.7). A slot that no unit drives reads high (log
entry 15). What the part drives for an order is its unit's select byte, its order byte and its write data, most significant
byte first (R146, 12.7), in a frame of the start mark, the select byte, the order mark, the order byte, the write data up to a
byte the unit does not acknowledge, the reply, whose bytes the part acknowledges but for a length byte at fault, and the
release mark, each byte most significant bit first with the receiver's acknowledge slot (R141, R142, R144, R145). Where a unit
keeps FLDA low, up to nine further slots come before the mark, which is the unit's own after nine; how the slots are counted is
the model's choice (log entry 48). -/
def Obligations.FrameOutcomeByItsExchange : Prop :=
  (∀ o : LinkOrder,
    let byte := fun v : Nat => BitVec.ofNat 8 (min v 0xFF)
    let half := fun v : Nat =>
      let n := min v 0xFFFF
      [BitVec.ofNat 8 (n / 0x100), BitVec.ofNat 8 n]
    let word := fun v : Nat =>
      let n := min v 0xFFFFFFFF
      [BitVec.ofNat 8 (n / 0x1000000), BitVec.ofNat 8 (n / 0x10000), BitVec.ofNat 8 (n / 0x100), BitVec.ofNat 8 n]
    let drives := fun (unit code : Nat) (data : List Byte) => o.unit = unit ∧ o.code = code ∧ o.writeData = data
    match o with
    | .readTag k => drives (0x10 + k.val) 0x01 []
    | .debit k amount _ => drives (0x10 + k.val) 0x02 (word amount)
    | .level k => drives 0x20 0x11 [byte k.val]
    | .transfer k ul => drives 0x20 0x12 (byte k.val :: word ul)
    | .stop k => drives 0x20 0x13 [byte k.val]
    | .pumpStatus k => drives 0x20 0x14 [byte k.val]
    | .station .park _ => drives 0x24 0x21 []
    | .station .wipe _ => drives 0x24 0x22 []
    | .station (.prime mask ul) _ => drives 0x24 0x23 (mask :: half ul)
    | .station (.check mask) _ => drives 0x24 0x24 [mask]
    | .station .cap _ => drives 0x24 0x25 []
    | .station .uncap _ => drives 0x24 0x26 []
    | .station .carriageReturn _ => drives 0x24 0x27 []
    | .stationStatus _ => drives 0x24 0x28 []
    | .checkPage page _ => drives 0x24 0x29 [byte page]
    | .feed (.selectRoll r) _ => drives 0x28 0x31 [match r with
      | .one => 1#8
      | .two => 2#8]
    | .feed .rewind _ => drives 0x28 0x32 []
    | .feed .thread _ => drives 0x28 0x33 []
    | .feed .align _ => drives 0x28 0x34 []
    | .feed (.advance um) _ => drives 0x28 0x35 (word um)
    | .feed .cut _ => drives 0x28 0x36 []
    | .feedStatus _ => drives 0x28 0x37 []
    | .feedCheck _ => drives 0x28 0x37 []) ∧
  (∀ (o : LinkOrder) (reply : List Byte) (n low : Nat),
    let select := BitVec.ofNat 8 o.unit
    let order := BitVec.ofNat 8 o.code
    let taken := fun b : Byte => WireEvent.sent b true
    let opening := [.startMark, taken select, .orderMark, taken order]
    let release :=
      if low = 0 then [.releaseMark]
      else if low < 9 then [.recoverySlots low, .releaseMark]
      else [.recoverySlots 9, .releaseByUnit]
    let len := (replyByte reply 0).toNat
    let read :=
      if o.hasReply = false then []
      else if o.lengthOk len = true then (List.range (len + 2)).map fun i => .received (replyByte reply i) true
      else [.received (replyByte reply 0) false]
    o.wire { exchange := .selectNak, lowSlots := low } = [.startMark, .sent select false] ++ release ∧
    o.wire { exchange := .orderNak, lowSlots := low } =
      [.startMark, taken select, .orderMark, .sent order false] ++ release ∧
    (n < o.writeData.length → o.wire { exchange := .dataNak n, lowSlots := low } =
      opening ++ (o.writeData.take n).map taken ++ [.sent (o.writeData.getD n 0#8) false] ++ release) ∧
    o.wire { exchange := .answered reply, lowSlots := low } = opening ++ o.writeData.map taken ++ read ++ release) ∧
  (∀ (b : Byte) (given : Bool),
    let bits := fun byUnit : Bool => ([7, 6, 5, 4, 3, 2, 1, 0] : List Nat).map fun i => Slot.bit byUnit (b.getLsbD i)
    (WireEvent.sent b given).slots = bits false ++ [.acknowledge true given] ∧
    (WireEvent.received b given).slots = bits true ++ [.acknowledge false given] ∧
    WireEvent.startMark.slots = [.markFalls] ∧ WireEvent.orderMark.slots = [.markFalls] ∧
    WireEvent.releaseMark.slots = [.markRises] ∧ WireEvent.releaseByUnit.slots = [.markRises] ∧
    ∀ n, (WireEvent.recoverySlots n).slots = List.replicate n .clocked) ∧
  (∀ (o : LinkOrder) (n : Nat),
    match o with
    | .readTag _ => o.hasReply = true ∧ (o.lengthOk n = true ↔ n = 13)
    | .debit _ _ _ => o.hasReply = true ∧ (o.lengthOk n = true ↔ n = 4)
    | .level _ => o.hasReply = true ∧ (o.lengthOk n = true ↔ n = 4)
    | .pumpStatus _ => o.hasReply = true ∧ (o.lengthOk n = true ↔ n = 6)
    | .stationStatus _ => o.hasReply = true ∧ (o.lengthOk n = true ↔ n = 2)
    | .checkPage _ _ => o.hasReply = true ∧ (o.lengthOk n = true ↔ ∃ entries, entries ≤ 8 ∧ n = 2 + 3 * entries)
    | .feedStatus _ => o.hasReply = true ∧ (o.lengthOk n = true ↔ n = 6)
    | .feedCheck _ => o.hasReply = true ∧ (o.lengthOk n = true ↔ n = 6)
    | .transfer _ _ => o.hasReply = false
    | .stop _ => o.hasReply = false
    | .station _ _ => o.hasReply = false
    | .feed _ _ => o.hasReply = false) ∧
  (∀ o : LinkOrder, o.outcome .selectNak = .absent ∧ o.outcome .orderNak = .refused ∧
    (∀ n, n < o.writeData.length → o.outcome (.dataNak n) = .refused) ∧
    (∀ reply, o.hasReply = false → o.outcome (.answered reply) = .done .none) ∧
    (∀ reply, o.hasReply = true →
      (o.lengthOk (replyByte reply 0).toNat = false ∨
        ((List.range ((replyByte reply 0).toNat + 2)).map fun i => (replyByte reply i).toNat).sum % 256 ≠ 255) →
      o.outcome (.answered reply) = .checkError)) ∧
  (∀ (k : Channel) (serial amount step : Nat) (a b c d e f g h i j l m n check : Byte),
    let sum := fun bs : List Byte => (bs.map BitVec.toNat).sum % 256
    let word := fun w x y z : Byte => ((w.toNat * 256 + x.toNat) * 256 + y.toNat) * 256 + z.toNat
    (sum [13, a, b, c, d, e, f, g, h, i, j, l, m, n, check] = 255 →
      (LinkOrder.readTag k).outcome (.answered [13, a, b, c, d, e, f, g, h, i, j, l, m, n, check]) =
        .done (.tag a.toNat (word b c d e) (word f g h i) (word j l m n))) ∧
    (sum [4, a, b, c, d, check] = 255 →
      (LinkOrder.debit k amount serial).outcome (.answered [4, a, b, c, d, check]) = .done (.remaining (word a b c d)) ∧
      (LinkOrder.level k).outcome (.answered [4, a, b, c, d, check]) = .done (.sensed (word a b c d))) ∧
    (sum [6, a, b, c, d, e, f, check] = 255 →
      let unit := if a.toNat = 0 then UnitState.busy else if a.toNat = 1 then .done else .fault
      let pump := if a.toNat = 0 then PumpState.idle else if a.toNat = 1 then .running else if a.toNat = 2 then .done
        else .fault
      (LinkOrder.pumpStatus k).outcome (.answered [6, a, b, c, d, e, f, check]) =
        (if 3 < a.toNat then .checkError else .done (.pump pump b.toNat (word c d e f))) ∧
      (LinkOrder.feedStatus serial).outcome (.answered [6, a, b, c, d, e, f, check]) =
        (if 2 < a.toNat then .checkError else .done (.feed unit b.toNat (word c d e f))) ∧
      (LinkOrder.feedCheck serial).outcome (.answered [6, a, b, c, d, e, f, check]) =
        (if 2 < a.toNat then .checkError else .done (.feed unit b.toNat (word c d e f)))) ∧
    (sum [2, a, b, check] = 255 →
      (LinkOrder.stationStatus step).outcome (.answered [2, a, b, check]) =
        (if 2 < a.toNat then .checkError
        else .done (.station (if a.toNat = 0 then .busy else if a.toNat = 1 then .done else .fault) b.toNat)))) ∧
  (∀ (page step : Nat) (more count check : Byte) (entries : List (Byte × Byte × Byte)), entries.length ≤ 8 →
    let reply := [BitVec.ofNat 8 (2 + 3 * entries.length), more, count] ++
      entries.flatMap (fun e => [e.1, e.2.1, e.2.2]) ++ [check]
    (reply.map BitVec.toNat).sum % 256 = 255 →
    (LinkOrder.checkPage page step).outcome (.answered reply) =
      if more.toNat ≤ 1 ∧ count.toNat = entries.length then
        .done (.page (more.toNat == 1) (entries.map fun e => (e.1.toNat, e.2.1.toNat * 256 + e.2.2.toNat)))
      else .checkError)

/-- A READ TAG outcome is an insertion, a reply with the known serial, a removal followed by an insertion, a removal, or a
failed poll with one FIELD FAULT record for a run of failures. A cartridge is judged by its record and its account; a change of
state makes its INK record, starts a refill where the new state is ACTIVE, and is told to the feed controller (R57, R61 to R67,
R73). That an ABSENT outcome clears the poll fault even where no cartridge is recorded, and that a reply with the known serial
leaves a cartridge in READING unjudged, are the model's readings of its rules (log entries 21 and 22); that the judgement comes
before the settling DEBIT is DEDUCED from the worked sequence 4.7 (log entry 37). The slots shown at a release mark with FLDA
kept low are the model's choice (log entry 48). -/
def Obligations.ReadTagOutcomeIsTaken : Prop :=
  (∀ (s : State) (k : Channel) (since : Nat) (f : FrameEnd), s.chip.inReset = false →
     s.chip.flm.link = .carrying (.readTag k) since →
     let o := LinkOrder.readTag k
     let x := s.chip.frameOver (o.wire f)
     let answered := x.onCartridge k fun c => { c with pollFault := false }
     let state := (s.chip.cartridge k).state
     let takes := fun (y : Chip) => exec (.readTagOutcome f) s = .next (s.after y)
     let removed := fun y : Chip =>
       let z := (y.onCartridge k fun c =>
         { c with serial := 0, inkType := 0, capacity := 0, remaining := 0, pollFault := false }).setCartridge k .noCartridge
       if state ≠ .noCartridge ∧ (s.chip.cartridge k).serial = (s.chip.refill k).source ∧
           (s.chip.account k).refillState = .pumping then z.enterStopping k .removed else z
     let inserted := fun (y : Chip) (inkType serial capacity remaining : Nat) =>
       let z := (y.onCartridge k fun c =>
         { c with serial := serial, inkType := inkType, capacity := capacity, remaining := remaining }).setCartridge k .reading
       match z.owed k with
       | none => z.judge k
       | some d => if d.serial = serial then z.placeDebit k else (z.discardDebt k).judge k
     (∀ inkType serial capacity remaining, o.outcome f.exchange = .done (.tag inkType serial capacity remaining) →
       (state = .noCartridge → takes (inserted answered inkType serial capacity remaining)) ∧
       (state ≠ .noCartridge → (s.chip.cartridge k).serial = serial →
         let stored := answered.onCartridge k fun c =>
           { c with inkType := inkType, capacity := capacity, remaining := remaining }
         let y := if state = .reading then stored else stored.judge k
         let z := if state = .active ∧ (y.cartridge k).state = .active ∧ (s.chip.cartridge k).remaining ≠ (y.cartridge k).remaining
           then y.callAdmission else y
         takes (if state = .reading ∨ (z.account k).refillState = .idle then z.placeDebit k else z)) ∧
       (state ≠ .noCartridge → (s.chip.cartridge k).serial ≠ serial →
         takes (inserted (removed answered) inkType serial capacity remaining))) ∧
     (o.outcome f.exchange = .absent → takes (if state = .noCartridge then answered else removed answered)) ∧
     ((o.outcome f.exchange = .refused ∨ o.outcome f.exchange = .checkError) →
       takes (if (s.chip.cartridge k).pollFault = true then x
         else ((x.onCartridge k fun c => { c with pollFault := true }).markStatus (channelStatus k)).journal
           (.fieldFault (0x10 + k.val) 0x01 (o.outcome f.exchange).kind k none)))) ∧
  (∀ (x : Chip) (k : Channel),
     let c := x.cartridge k
     (x.judge k = x.setCartridge k
       (if c.inkType = 0 ∨ 15 < c.inkType ∨ c.inkType ≠ (x.account k).inkType then .wrongInk
       else if 500 ≤ c.remaining then .active else .spent)) ∧
     ∀ state, x.setCartridge k state =
       if c.state = state then x
       else
         let y := ((x.onCartridge k fun c => { c with state := state }).markStatus (channelStatus k)).journal
           (.inkCartridge k c.state state c.inkType c.serial c.remaining)
         (if state = .active then y.startRefill k false else y).callAdmission)

/-- A LEVEL outcome DONE sets a used channel's level, at most its tank capacity, with the level state KNOWN and the tests it
calls for; another outcome makes a FIELD FAULT record (R46). A DEBIT outcome DONE lowers the debt it was placed for and sets
the remaining of the cartridge that still holds its serial; another makes a FIELD FAULT record; a refill in DEBITING goes on by
the table of R75 (R67, R68, R75). The judgement of a cartridge in READING, and a DEBITING refill whose debt cannot be placed,
are the model's readings (log entries 22 to 24). The slots shown at a release mark with FLDA kept low are the model's choice
(log entry 48). -/
def Obligations.LevelAndDebitOutcomesAreTaken : Prop :=
  ∀ (s : State) (k : Channel) (since : Nat) (f : FrameEnd), s.chip.inReset = false →
    let old := s.chip.account k
    (s.chip.flm.link = .carrying (.level k) since →
      let o := LinkOrder.level k
      let ended := s.chip.frameOver (o.wire f)
      let shown := fun (new old : Chip) => new.showChange old (channelStatus k)
      let x := shown (ended.onAccount k fun a => { a with levelReading := .idle }) ended
      let takes := fun (y : Chip) => exec (.levelOutcome f) s = .next (s.after y)
      (∀ ul, o.outcome f.exchange = .done (.sensed ul) →
        takes (if old.inkType = 0 then x
          else (((shown (x.onAccount k fun a =>
            { a with level := min (ul * 1000) a.tankCapacity, levelState := .known }) x).journalLevelStatus k
              old.levelStatus).noticeInk.callAdmission).startRefill k false)) ∧
      (o.outcome f.exchange = .absent ∨ o.outcome f.exchange = .refused ∨ o.outcome f.exchange = .checkError →
        takes (x.journal (.fieldFault 0x20 0x11 (o.outcome f.exchange).kind k none)))) ∧
    (∀ amount serial, s.chip.flm.link = .carrying (.debit k amount serial) since →
      let o := LinkOrder.debit k amount serial
      let x := s.chip.frameOver (o.wire f)
      let c := s.chip.cartridge k
      let takes := fun (y : Chip) => exec (.debitOutcome f) s = .next (s.after y)
      let next := fun (y : Chip) (done : Bool) =>
        if (y.account k).refillState ≠ .debiting then y
        else if y.owed k = none then y.refillIdle k
        else if done = true ∧ (y.ink.get k).sourcePresent = true then y.placeDebit k
        else y.refillIdle k
      (∀ ul, o.outcome f.exchange = .done (.remaining ul) →
        let posted : Chip := match s.chip.owed k with
          | some d =>
            if d.serial = serial then x.onInk k fun i =>
              { i with owed := if d.amount ≤ amount then none else some { d with amount := d.amount - amount } }
            else x.journal (.fieldFault (0x10 + k.val) 0x02 .done k (some amount))
          | none => x.journal (.fieldFault (0x10 + k.val) 0x02 .done k (some amount))
        let set : Chip := posted.onCartridge k fun c => { c with remaining := ul }
        let judged : Chip :=
          if c.state = .reading then (if ∃ d ∈ set.owed k, d.serial = c.serial then set else set.judge k)
          else set.judge k
        takes (next
          (if c.state = .noCartridge ∨ c.serial ≠ serial then posted
          else if c.state = .active ∧ (judged.cartridge k).state = .active ∧ c.remaining ≠ (judged.cartridge k).remaining
          then judged.callAdmission else judged) true)) ∧
      (o.outcome f.exchange = .absent ∨ o.outcome f.exchange = .refused ∨ o.outcome f.exchange = .checkError →
        takes (next (x.journal (.fieldFault (0x10 + k.val) 0x02 (o.outcome f.exchange).kind k (some amount))) false)))

/-- The outcomes of a refill's orders. TRANSFER, taken in QUEUED: pumping, or a STOP where the source has gone, or a FIELD
FAULT record and IDLE; STOP: a record where it failed; pump STATUS: the moved volume stored, and the end of the pumping or of
the stop by the pump's state (R70, R71, R74). That a pump STATUS reply taken while the refill is IDLE, QUEUED or DEBITING
changes nothing is the model's choice (log entry 39); that the FIELD FAULT record of a failed TRANSFER is asked for before the
refill is IDLE is its choice too (log entry 52), and that the PUMP IDLE record carries the reply's fault code is DEDUCED (log
entry 18). The slots shown at a release mark with FLDA kept low are the model's choice (log entry 48). -/
def Obligations.RefillOutcomesAreTaken : Prop :=
  ∀ (s : State) (k : Channel) (since : Nat) (f : FrameEnd), s.chip.inReset = false →
    let now := s.chip.rpw.timeBase
    let state := (s.chip.account k).refillState
    (∀ volume, s.chip.flm.link = .carrying (.transfer k volume) since →
      let o := LinkOrder.transfer k volume
      let x := s.chip.frameOver (o.wire f)
      let takes := fun (y : Chip) => exec (.transferOutcome f) s = .next (s.after y)
      (state ≠ .queued → takes x) ∧
      (state = .queued → o.outcome f.exchange = .done .none →
        takes (if (s.chip.ink.get k).sourcePresent = true then
          (x.onAccount k fun a => { a with refillState := .pumping }).onRefill k fun r =>
            { r with pumpDeadline := some (now + 120000000), pollAt := some (now + 50000) }
        else ((x.onAccount k fun a => { a with refillState := .stopping }).onRefill k fun r =>
          { r with pumpDeadline := none, stopCause := .removed, stopDeadline := some (now + 10000000)
                   pollAt := some (now + 50000) }).offer (.stop k))) ∧
      (state = .queued → o.outcome f.exchange = .absent ∨ o.outcome f.exchange = .refused →
        takes ((x.journal (.fieldFault 0x20 0x12 (o.outcome f.exchange).kind k none)).refillIdle k))) ∧
    (s.chip.flm.link = .carrying (.stop k) since →
      let o := LinkOrder.stop k
      let x := s.chip.frameOver (o.wire f)
      let takes := fun (y : Chip) => exec (.stopOutcome f) s = .next (s.after y)
      (o.outcome f.exchange = .done .none → takes x) ∧
      (o.outcome f.exchange = .absent ∨ o.outcome f.exchange = .refused →
        takes (x.journal (.fieldFault 0x20 0x13 (o.outcome f.exchange).kind k none)))) ∧
    (s.chip.flm.link = .carrying (.pumpStatus k) since →
      let o := LinkOrder.pumpStatus k
      let x := s.chip.frameOver (o.wire f)
      let takes := fun (y : Chip) => exec (.pumpStatusOutcome f) s = .next (s.after y)
      (o.outcome f.exchange = .absent ∨ o.outcome f.exchange = .refused ∨ o.outcome f.exchange = .checkError → takes x) ∧
      ∀ pump code moved, o.outcome f.exchange = .done (.pump pump code moved) →
        let stored := x.onRefill k fun r => { r with moved := moved }
        let shown := stored.showChange x (channelStatus k)
        (state = .pumping → takes (match pump with
          | .running => shown
          | .done => (shown.creditMoved k).enterDebiting k
          | .fault => ((shown.journal (.inkPumpFault k code moved)).creditMoved k).enterDebiting k
          | .idle => ((shown.journal (.inkPumpIdle k code moved)).creditMoved k).enterDebiting k)) ∧
        (state = .stopping → takes
          (if pump = .running then stored
          else
            let y := stored.creditMoved k
            if (y.ink.get k).sourcePresent = true then y.enterDebiting k else y.refillIdle k)) ∧
        (state = .idle ∨ state = .queued ∨ state = .debiting → takes x))

/-- What a refill credits and how it leaves its states: the moved volume raises a KNOWN level, at most to the tank capacity,
and the debt of the source serial, the debt of another serial being discarded with its INK record UNPOSTED DEBIT; DEBITING
without a debt, and every other end, returns the refill to IDLE with the start test and the CHANNEL record rewritten (R47, R48,
R53, R57, R67, R68, R75, R168). The notices of a credit of 0 µL (log entry 30), a declined DEBIT counted as under way (log
entry 24), a refill that stays DEBITING where no DEBIT can be placed (log entry 23), the stop deadline cleared at the entry
into DEBITING (log entry 38), an owed amount without bound (log entry 40) and the amount that a declined DEBIT keeps (log entry 51)
are the model's readings and choices. -/
def Obligations.MovedInkIsCreditedAndOwed : Prop :=
  ∀ (x : Chip) (k : Channel),
    let a := x.account k
    let moved := (x.refill k).moved
    let source := (x.refill k).source
    (x.owed k = none → x.discardDebt k = x) ∧
    (∀ d, x.owed k = some d → x.discardDebt k =
      ((x.onInk k fun i => { i with owed := none }).showChange x (channelStatus k)).journal
        (.inkUnposted k d.serial d.amount)) ∧
    (x.creditMoved k =
      let owes := fun (y : Chip) (amount : Nat) =>
        y.onInk k fun i => { i with owed := some { serial := source, amount := amount } }
      let credited :=
        if a.inkType ≠ 0 ∧ a.levelState = .known then
          (x.onAccount k fun b => { b with level := min (b.level + moved * 1000) b.tankCapacity }).showChange x
            (channelStatus k)
        else x
      let told := credited.journalLevelStatus k a.levelStatus
      let owing :=
        if moved = 0 then told
        else match x.owed k with
          | none => owes told moved
          | some d =>
            if d.serial = source then owes told (d.amount + moved) else owes (told.discardDebt k) moved
      { owing with due := { arming := true, prime := true, admission := true } }) ∧
    ((x.creditMoved k).account k =
      if a.inkType ≠ 0 ∧ a.levelState = .known then { a with level := min (a.level + moved * 1000) a.tankCapacity } else a) ∧
    ((x.creditMoved k).owed k =
      if moved = 0 then x.owed k
      else match x.owed k with
        | some d => if d.serial = source then some { d with amount := d.amount + moved } else some { serial := source, amount := moved }
        | none => some { serial := source, amount := moved }) ∧
    (x.creditMoved k).due = { arming := true, prime := true, admission := true } ∧
    (x.refillIdle k =
      (((((x.onAccount k fun a => { a with refillState := .idle, transferRequested := 0 }).markStatus
        (channelStatus k)).onRefill k fun f => { f with pumpDeadline := none, stopDeadline := none, pollAt := none }).onFlm fun m =>
          { m with inkRoom := { m.inkRoom with declined := m.inkRoom.declined.filter fun o =>
            !(o == .stop k || o == .pumpStatus k || (match o with
              | .transfer j _ => j == k
              | _ => false)) } })).startRefill k false) ∧
    (x.owed k = none → x.enterDebiting k =
      ((x.onAccount k fun a => { a with refillState := .debiting }).onRefill k fun f =>
        { f with pumpDeadline := none, stopDeadline := none, pollAt := none }).refillIdle k) ∧
    (x.owed k ≠ none → x.enterDebiting k =
      ((x.onAccount k fun a => { a with refillState := .debiting }).onRefill k fun f =>
        { f with pumpDeadline := none, stopDeadline := none, pollAt := none }).placeDebit k) ∧
    (∀ d, x.owed k = some d → x.placeDebit k =
      if (x.cartridge k).state ≠ .noCartridge ∧ (x.cartridge k).serial = d.serial ∧
          ∀ o ∈ x.flm.orders, isDebitOf k o = false
      then x.offer (.debit k d.amount d.serial) else x)

/-- The outcomes of a step's orders, taken by the step they were placed for while its cycle stands: polling begins, or the step
ends LINK; a station STATUS ends the station's part or fails the step; a page joins the report, which is handed over at the
last page (R96 to R99, R109). A PRIME consumes its parameter in µL and a CHECK 20,480 drops in each channel of its mask, as the
channels' groups take their last fire time, all 384 at an UNCAP (R54, R78, R98, R99); that the channels go in ascending number
is the model's choice (log entry 36). The slots shown at a release mark with FLDA kept low are the model's choice (log entry
48). -/
def Obligations.StationOutcomesAreTaken : Prop :=
  (∀ (x : Chip) (mask : BitVec 8) (ul : Nat),
    let each := fun f : Chip → Channel → Chip =>
      ([0, 1, 2, 3, 4, 5] : List Channel).foldl (fun y k => if mask.getLsbD k.val = true then f y k else y) x
    x.consumePrime mask ul = each (fun y k => y.consume k (ul * 1000 * 1000) .prime) ∧
    x.consumeCheck mask = each (fun y k => y.consume k (20480 * (y.account k).dropVolume) .check) ∧
    x.fireMask mask = { x with nmn := { x.nmn with
      idle := .of fun k => if mask.getLsbD k.val = true then Vector.replicate 64 x.rpw.timeBase else x.nmn.idle.get k } } ∧
    x.fireAll = { x with nmn := { x.nmn with idle := .all (Vector.replicate 64 x.rpw.timeBase) } }) ∧
  ∀ (s : State) (since step : Nat) (f : FrameEnd), s.chip.inReset = false →
    let c := s.chip.svc.cycle
    let now := s.chip.rpw.timeBase
    let current := c.state.busy = true ∧ s.chip.svc.nextStep = step
    let abandoning := c.state = .abandoning
    (∀ so : StationOrder, s.chip.flm.link = .carrying (.station so step) since →
      let o := LinkOrder.station so step
      let x := s.chip.frameOver (o.wire f)
      let takes := fun (y : Chip) => exec (.stationOrderOutcome f) s = .next (s.after y)
      (¬ (current ∧ c.phase = .ordered) → takes x) ∧
      (current → c.phase = .ordered → o.outcome f.exchange = .done .none →
        takes (if abandoning then x.endStep .abandoned
          else x.onCycle fun c => { c with phase := .polling (now + 50000) })) ∧
      (current → c.phase = .ordered → o.outcome f.exchange = .absent ∨ o.outcome f.exchange = .refused →
        takes (x.endStep (.link (o.outcome f.exchange).kind)))) ∧
    (s.chip.flm.link = .carrying (.stationStatus step) since →
      let o := LinkOrder.stationStatus step
      let x := s.chip.frameOver (o.wire f)
      let takes := fun (y : Chip) => exec (.stationStatusOutcome f) s = .next (s.after y)
      let polled := current ∧ ∃ t, c.phase = .polling t
      let otherwise := if abandoning then x.endStep .abandoned else x
      (¬ polled → takes x) ∧
      (∀ code, polled → o.outcome f.exchange = .done (.station .done code) →
        takes (match c.current.kind with
          | .prime =>
            ((((x.consumePrime c.mask c.current.parameter).release .prime).onCycle fun c =>
              { c with granted := false, primeRemaining := .all 0 }).fireMask c.mask).endStep .done
          | .check =>
            let y := (x.consumeCheck c.mask).fireMask c.mask
            if abandoning then y.endStep .done
            else (y.onCycle fun c => { c with phase := .paging 0 }).offer (.checkPage 0 step)
          | .uncap => x.fireAll.endStep .done
          | .park => x.endStep .done
          | .wipe => x.endStep .done
          | .cap => x.endStep .done
          | .wait => x.endStep .done
          | .carriageReturn => x.endStep .done)) ∧
      (∀ code, polled → o.outcome f.exchange = .done (.station .fault code) → takes (x.endStep (.fault code))) ∧
      (∀ code, polled → o.outcome f.exchange = .done (.station .busy code) → takes otherwise) ∧
      (polled → o.outcome f.exchange = .absent ∨ o.outcome f.exchange = .refused ∨ o.outcome f.exchange = .checkError →
        takes otherwise)) ∧
    (∀ page, s.chip.flm.link = .carrying (.checkPage page step) since →
      let o := LinkOrder.checkPage page step
      let x := s.chip.frameOver (o.wire f)
      let takes := fun (y : Chip) => exec (.checkPageOutcome f) s = .next (s.after y)
      (¬ (current ∧ c.phase = .paging page) → takes x) ∧
      (current → c.phase = .paging page →
        o.outcome f.exchange = .absent ∨ o.outcome f.exchange = .refused ∨ o.outcome f.exchange = .checkError →
        takes (x.endStep (.link (o.outcome f.exchange).kind))) ∧
      (∀ more entries, current → c.phase = .paging page → o.outcome f.exchange = .done (.page more entries) →
        let y := x.onCycle fun c => { c with report := c.report ++ entries, pages := c.pages + 1 }
        takes (if more = false then (y.takeReport c.mask (c.report ++ entries)).endStep .done
          else if 127 ≤ page then y.endStep .checkOverrun
          else if abandoning then y.endStep .abandoned
          else (y.onCycle fun c => { c with phase := .paging (page + 1) }).offer (.checkPage (page + 1) step))))

/-- The outcomes of the feed controller's orders: polling begins or the order ends LINK; a STATUS reply stores the fed length
or ends the order; the check of CLEAR JAM removes the HALTED sheet JAMMED, or leaves it with a CLEAR FAILED record (R128, R130,
R139). The slots shown at a release mark with FLDA kept low are the model's choice (log entry 48), and so is that the threaded
roll and the uncut-tail flag change before the removal at a CLEAR JAM check that finds no fault (log entry 55). -/
def Obligations.FeedOutcomesAreTaken : Prop :=
  ∀ (s : State) (since serial : Nat) (f : FrameEnd), s.chip.inReset = false →
    let now := s.chip.rpw.timeBase
    (∀ op, s.chip.flm.link = .carrying (.feed op serial) since →
      let o := LinkOrder.feed op serial
      let x := s.chip.frameOver (o.wire f)
      let takes := fun (y : Chip) => exec (.feedOrderOutcome f) s = .next (s.after y)
      ((∀ p ∈ s.chip.fdc.order, p.serial ≠ serial) → takes x) ∧
      ∀ p, s.chip.fdc.order = some p → p.serial = serial →
        (o.outcome f.exchange = .done .none →
          takes (x.onFdc fun d => { d with order := some { p with pollAt := some (now + 50000) } })) ∧
        (o.outcome f.exchange = .absent → takes (x.endFeedOrder p (.link .absent) p.fed)) ∧
        (o.outcome f.exchange = .refused → takes (x.endFeedOrder p (.link .refused) p.fed))) ∧
    (s.chip.flm.link = .carrying (.feedStatus serial) since →
      let o := LinkOrder.feedStatus serial
      let x := s.chip.frameOver (o.wire f)
      let takes := fun (y : Chip) => exec (.feedStatusOutcome f) s = .next (s.after y)
      ((∀ p ∈ s.chip.fdc.order, p.serial ≠ serial) → takes x) ∧
      (o.outcome f.exchange = .absent ∨ o.outcome f.exchange = .refused ∨ o.outcome f.exchange = .checkError → takes x) ∧
      ∀ p code fed, s.chip.fdc.order = some p → p.serial = serial →
        (o.outcome f.exchange = .done (.feed .busy code fed) →
          takes (x.onFdc fun d => { d with order := some { p with fed := fed } })) ∧
        (o.outcome f.exchange = .done (.feed .done code fed) → takes (x.endFeedOrder p .done fed)) ∧
        (o.outcome f.exchange = .done (.feed .fault code fed) →
          takes (x.endFeedOrder p (if code = 2 then .rollEnd else .fault code) fed))) ∧
    (s.chip.flm.link = .carrying (.feedCheck serial) since →
      let o := LinkOrder.feedCheck serial
      let x := s.chip.frameOver (o.wire f)
      let y := x.onFdc fun d => { d with check := none }
      let takes := fun (y : Chip) => exec (.clearJamCheckOutcome f) s = .next (s.after y)
      (s.chip.fdc.check ≠ some serial → takes x) ∧
      ∀ h, s.chip.fdc.check = some serial → s.chip.platen = some h →
        (∀ state code fed, o.outcome f.exchange = .done (.feed state code fed) → state ≠ .fault →
          takes ((y.feedStage fun d => { d with threaded := .unknown, uncutTail := false }).removeSheet h .jammed)) ∧
        (∀ code fed, o.outcome f.exchange = .done (.feed .fault code fed) → takes (y.journal (.sheetClearFailed h.id code))) ∧
        (o.outcome f.exchange = .absent ∨ o.outcome f.exchange = .refused ∨ o.outcome f.exchange = .checkError →
          takes (y.journal (.sheetClearFailed h.id (o.outcome f.exchange).kind.code))))

/-! ## Steps and cycles -/

/-- The end of a step: what it held is released and its declined orders discarded; DONE moves the carriage by the table of R100
and the next step begins in the same event, the last one making the cycle succeed; any other outcome starts the recovery of a
program, or ends the wake STRANDED; a recovery RETURN and an abandoned step end the cycle (R96, R98, R100, R106 to R109). A
step begins with its deadline and its first act: its order, the wait, or for a PRIME the ask for its parameter in µL in each
channel of its mask, granted or waiting (R96 to R99). A wake that is asked for takes the FREE claim and runs UNCAP where the
carriage is CAPPED, then RETURN (R108). The rounding of the duration is a free value (log entry 19), and the numbers of steps
are the model's own (log entry 12); the last cycle and the recovery of a wake and of an abandoned cycle (log entry 34), the
wake memory forgotten at the wake's end or where no wake is possible (log entry 33) and the fields of their SERVICE records
that no rule names (log entry 43) are the model's readings and choices. -/
def Obligations.EndOfAStep : Prop :=
  ∀ (x : Chip) (outcome : StepOutcome),
    let c := x.svc.cycle
    let now := x.rpw.timeBase
    let closing := fun z : Chip => { z with
      flm := { z.flm with
        serviceRoom := { z.flm.serviceRoom with declined := z.flm.serviceRoom.declined.filter fun _ => false } }
      svc := { z.svc with
        cycle := { z.svc.cycle with
          phase := .none, stepDeadline := none, reservationDeadline := none, granted := false
          primeRemaining := .all 0, report := [], pages := 0 } } }
    let y := x.closeStep
    let ended := fun (z : Chip) (kind : CycleKind) (o : StepOutcome) (recovery : Recovery) =>
      ((z.journal (.service kind o z.svc.cycle.stepReached (z.svc.cycle.reachedKind.getD .carriageReturn) recovery
        z.svc.location (Config.durationMs (z.now - z.svc.cycle.startTime)))).onSvc fun v =>
          { v with
            lastCycle := some { kind := kind, outcome := o, stepReached := v.cycle.stepReached }, cycle := .idle })
        |>.markStatus 11
    let freed := fun z : Chip => { z with sgt := { z.sgt with claim := .free }, due := { z.due with arming := true } }
    let moved := fun (z : Chip) (l : Location) =>
      if z.svc.location = l then z
      else (Chip.markStatus { z with svc := { z.svc with location := l } } 11).callArming
    let told := fun z : Chip =>
      { z with sgt := { z.sgt with wakeAskedFor := none }, due := { z.due with arming := true } }
    y = closing (if c.granted = true then x.release .prime else x) ∧
    (c.state = .running → outcome = .done →
      x.endStep outcome = Chip.runSteps (c.steps.drop c.stepReached) (moved y
        (match c.current.kind with
        | .park => if y.svc.location = .stranded then .stranded else .station
        | .uncap => if y.svc.location = .stranded then .stranded else .station
        | .cap => if y.svc.location = .stranded then .stranded else .capped
        | .carriageReturn => .printSide
        | .wipe => y.svc.location
        | .prime => y.svc.location
        | .check => y.svc.location
        | .wait => y.svc.location))) ∧
    (∀ p, y.svc.cycle.kind = some (.program p) → c.state = .running → outcome ≠ .done →
      x.endStep outcome = (({ y with svc := { y.svc with
        nextStep := y.svc.nextStep + 1
        cycle := { y.svc.cycle with
          state := .recovering, failure := some outcome, current := .carriageReturn, mask := 0#8, phase := .ordered
          stepDeadline := some (y.rpw.timeBase + 60000000), reservationDeadline := none, granted := false
          primeRemaining := .all 0, report := [], pages := 0 } } }).offer
            (.station .carriageReturn (y.svc.nextStep + 1)))) ∧
    (y.svc.cycle.kind = some .wake → c.state = .running → outcome ≠ .done →
      x.endStep outcome = told (freed (ended (moved y .stranded) .wake outcome .none))) ∧
    (∀ kind failure, y.svc.cycle.kind = some kind → y.svc.cycle.failure = some failure → c.state = .recovering →
      (outcome = .done → x.endStep outcome = freed (ended (moved y .printSide) kind failure .returned)) ∧
      (outcome ≠ .done → x.endStep outcome = freed (ended (moved y .stranded) kind failure .stranded))) ∧
    (∀ kind, y.svc.cycle.kind = some kind → c.state = .abandoning →
      x.endStep outcome = ended y kind .abandoned .none) ∧
    (∀ z : Chip,
      (∀ p, z.svc.cycle.kind = some (.program p) →
        Chip.runSteps [] z = freed (ended (z.onSvc fun v => { v with
          counters := v.counters.set p
            { sheets := 0, firing := 0, additions := 0, idleMark := z.rpw.timeBase, idleFired := false } })
          (.program p) .done .none)) ∧
      (z.svc.cycle.kind = some .wake → Chip.runSteps [] z = told (freed (ended z .wake .done .none))) ∧
      ∀ st rest, Chip.runSteps (st :: rest) z =
        let mask := if st.kind = .prime ∨ st.kind = .check then z.usedMask st.mask else st.mask
        let opened := ((z.onCycle fun c => { c with stepReached := c.stepReached + 1 }).openStep st mask).showChange z 11
        if (st.kind = .prime ∨ st.kind = .check) ∧ mask = 0#8 then Chip.runSteps rest opened.closeStep
        else opened.actStep st) ∧
    (∀ (z : Chip) (mask : BitVec 8) (k : Channel),
      (z.usedMask mask).getLsbD k.val = (mask.getLsbD k.val && (z.account k).inkType != 0)) ∧
    (∀ (z : Chip) (st : ServiceStep) (mask : BitVec 8),
      z.openStep st mask = { z with svc := { z.svc with
        nextStep := z.svc.nextStep + 1
        cycle := { z.svc.cycle with
          current := st, mask := mask, phase := .none, stepDeadline := some (z.rpw.timeBase + 60000000)
          reservationDeadline := none, granted := false, primeRemaining := .all 0, report := [], pages := 0 } } }) ∧
    (∀ (z : Chip) (st : ServiceStep),
      let ordered := fun (u : Chip) (o : StationOrder) =>
        (u.onCycle fun c => { c with phase := .ordered }).offer (.station o u.svc.nextStep)
      let asked := z.onCycle fun c => { c with reservationDeadline := some (z.rpw.timeBase + 30000000) }
      z.actStep st =
        (match st.kind with
        | .park => ordered z .park
        | .wipe => ordered z .wipe
        | .prime => asked.askPrime
        | .check => ordered z (.check z.svc.cycle.mask)
        | .cap => ordered z .cap
        | .uncap => ordered z .uncap
        | .wait => z.onCycle fun c => { c with phase := .waiting (z.rpw.timeBase + st.parameter * 1000) }
        | .carriageReturn => ordered z .carriageReturn) ∧
      let p := z.svc.cycle
      let amounts : Six Nat := .of fun k => if p.mask.getLsbD k.val = true then p.current.parameter * 1000 else 0
      (z.canReserve amounts = true → z.askPrime =
        ordered ((z.reserve .prime amounts).onCycle fun c =>
          { c with granted := true, primeRemaining := amounts, reservationDeadline := none })
          (.prime p.mask p.current.parameter)) ∧
      (z.canReserve amounts = false → z.askPrime =
        (z.onCycle fun c => { c with phase := .reserving }).refuseReservation amounts) ∧
      (z.retryPrime = if p.phase = .reserving then z.askPrime else z)) ∧
    (∀ (z : Chip) (id : Nat), z.svc.cycle.state = .none → z.hasEligible = false → z.sgt.claim = .free →
      z.svc.wakeAsk = some id →
      let cleared := { z with svc := { z.svc with wakeAsk := none } }
      let back : ServiceStep := { kind := .carriageReturn, mask := 0#8, parameter := 0 }
      let steps := if z.svc.location = .capped then [{ kind := .uncap, mask := 0#8, parameter := 0 }, back] else [back]
      (z.nextRecord.map Swath.id ≠ some id → z.serviceNext = some cleared) ∧
      (z.nextRecord.map Swath.id = some id → z.svc.location = .station ∨ z.svc.location = .capped →
        z.serviceNext = some (Chip.runSteps steps { z with
          sgt := { z.sgt with claim := .service }
          svc := { z.svc with
            wakeAsk := none
            cycle := { Cycle.idle with
              state := .running, kind := some .wake, steps := steps, startTime := z.rpw.timeBase } } })) ∧
      (z.nextRecord.map Swath.id = some id → z.svc.location = .printSide ∨ z.svc.location = .stranded →
        z.serviceNext = some (told cleared)))

/-! ## Swaths, sheets and feed orders -/

/-- The completion of a swath takes its effects in their order; the feed controller then clears a marked sheet, starts the
advance to the next swath, or the tail or the drying after the last one; a sheet removed leaves the queue with its SHEET
record, is counted, and then the gate finds the next swath again and the SHEETS record is rewritten; a platen sheet leaves the
feed at rest, and the arming test runs where the platen sheet or the next swath has changed. Each change of a sheet, of the
queue or of the swath table makes the records that show it pending before the next effect (R168), but for the eligibility of
the service entries, which a completion has judged on what it leaves of the part before it (R104). A swath unbound leaves the
swath table, its buffer FREE with a cleared tally and flag and the GATE record pending; an ARMED or FIRING one returns its
reservation first, then its claim is FREE, the nozzle monitor is told, and the arming test runs (R14 to R16, R19, R38, R104,
R116, R117, R121, R124, R133, R134). That several swaths of one sheet are unbound in the order of the bound list is the model's
choice (log entry 50). -/
def Obligations.CompletionAndRemovalInOrder : Prop :=
  (∀ (x : Chip) (r : Swath),
    let removed := fun y : Chip => (({ y with sgt := { y.sgt with
      swaths := y.sgt.swaths.filter fun a => a.id != r.id
      buffers := y.sgt.buffers.set r.buffer { bound := false, tally := .all 0, late := false } } }).markStatus 10).showChange y 9
    x.removeSwath r = removed x ∧
    (r.state = .bound → x.unbind r = removed x) ∧
    (r.state = .armed ∨ r.state = .firing → x.unbind r =
      ((((removed (x.release .swath)).showChange x 11).onSgt fun g => { g with claim := .free }).swathGone).callArming)) ∧
  (∀ (x : Chip) (id : Nat) (f : Sheet → Sheet),
    x.onSheet id f = (x.onFdc fun d => { d with
      sheets := d.sheets.map fun h => if h.id = id then f h else h }).refreshStatus x ∧
    x.onPlaten f = (x.onFdc fun d => { d with
      sheets := d.sheets.map fun h => if h.state.onPlaten = true then f h else h }).refreshStatus x) ∧
  (∀ (x : Chip) (id : Nat), x.unbindSheet id = (x.sgt.swaths.filter fun r => r.sheet == id).foldl Chip.unbind x) ∧
  (∀ (x : Chip) (r : Swath), x.swathById r.id = some r →
    let returned := (x.release .swath).journal
      (.swathDone r.sheet r.index r.delivered r.lost r.injected r.faulted r.late)
    let marked := if 0 < r.lost ∨ 0 < r.faulted then
        returned.onSheet r.sheet fun h => { h with defect := true } else returned
    let unbound := (((marked.onSgt fun g => { g with
      swaths := g.swaths.filter fun a => a.id != r.id
      buffers := g.buffers.set r.buffer { bound := false, tally := .all 0, late := false } }).markStatus 10).showChange
        marked 9).onSheet r.sheet fun h => { h with done := h.done + 1 }
    let gone := (unbound.onSgt fun g => { g with claim := .free }).swathGone
    let told := if r.state = .firing then gone.firingEnded else gone
    x.complete r.id = (told.swathComplete x r.index).callArming) ∧
  (∀ (x before : Chip) (h : Sheet) (k : Nat), x.platen = some h →
    let prints := (x.onFdc fun d => { d with
      sheets := d.sheets.map fun a => if a.state.onPlaten = true then { a with state := .printing } else a }).showChange x 9
    let dries := (x.onPlaten fun a => { a with state := .drying }).showChange before 11
    let advance := fun (y : Chip) (um : Nat) (purpose : AdvancePurpose) =>
      (y.onFdc fun d => { d with feed := .advancing, positioned := none, purpose := some purpose }).placeFeed
        (.advance um) 10000000
    let tail := h.length * 1000 - h.topMargin * 1000 - h.swathCount * h.swathAdvance
    (h.cancel = true → x.swathComplete before k = (x.showChange before 11).enterClearing) ∧
    (h.cancel = false → k + 1 < h.swathCount → x.swathComplete before k = advance prints h.swathAdvance .swath) ∧
    (h.cancel = false → h.swathCount ≤ k + 1 → 0 < tail →
      x.swathComplete before k = advance dries.callArming tail .tail) ∧
    (h.cancel = false → h.swathCount ≤ k + 1 → tail = 0 → x.swathComplete before k = dries.callArming.beginDrying)) ∧
  (∀ (x : Chip) (h : Sheet) (outcome : SheetOutcome),
    let recorded := ((x.boundList h.id).foldl Chip.unbind x).journal
      (.sheetRemoved h.id outcome h.state h.done h.swathCount h.assigned h.defect h.cancel h.cause)
    let left := (recorded.onFdc fun d => { d with sheets := d.sheets.filter fun a => a.id != h.id }).showChange recorded 9
    let told := (left.sheetRemoved.showChange recorded 10).markStatus 9
    let rested := if h.state.onPlaten = true then
        (told.onFdc fun d => { d with
          feed := .idle, positioned := none, purpose := none, dryTimer := none, order := none, check := none }).callArming
      else told
    x.removeSheet h outcome =
      (if rested.nextSwath = x.nextSwath then rested else rested.callArming).callAdmission)

/-- A feed order ends with its result: an ADVANCE takes its fed length from the threaded roll, a roll end makes the roll OUT,
and the rule of the feed state that placed the order decides what follows; a fault, a failed frame or a timeout halts the feed
and the platen sheet with its cause, in any feed state that places orders (R128, R130 to R138). LOADING goes on step by step, a
CUT or REWIND that meets the roll's end counting as done and the rest halting, to READY and POSITIONED; CLEARING goes from its
advance to its cut and the removal of the sheet with the outcome of its cause (R116, R118, R120, R123, R131 to R137). That a
sheet SPOILED before the roll end keeps that cause is the model's reading (log entry 25), and that the fed length of an order
starts at 0 its choice (log entry 44); so is that a halt's GATE and SERVICE records become pending before its SHEET record is
asked for (log entry 56). -/
def Obligations.FeedOrderResults : Prop :=
  (∀ (x : Chip) (o : FeedOrder) (r : FeedResult) (fed : Nat),
    let ended := { x with
      fdc := { x.fdc with order := none }
      flm := { x.flm with feedRoom := { x.flm.feedRoom with
        declined := x.flm.feedRoom.declined.filter fun a =>
          !(match a with
            | .feed _ n => n == o.serial
            | .feedStatus n => n == o.serial
            | .feedCheck n => n == o.serial
            | _ => false) } } }
    let taken := match o.op, x.fdc.threaded with
      | .advance _, .roll n => ended.feedStage fun d => d.onRoll n fun a =>
          { a with remaining := a.remaining - (a.fed + fed) / 1000, fed := (a.fed + fed) % 1000 }
      | _, _ => ended
    x.endFeedOrder o r fed = (if r = .rollEnd then taken.rollEnd o.op else taken).feedResult o.op r) ∧
  (∀ (x : Chip) (op : FeedOp) (r : FeedResult),
    (r ≠ .done ∧ r ≠ .rollEnd ∨
      r = .rollEnd ∧ x.fdc.feed = .loading ∧ (op = .thread ∨ op = .align ∨ ∃ n, op = .selectRoll n)) →
    x.fdc.feed = .loading ∨ x.fdc.feed = .advancing ∨ x.fdc.feed = .cutting ∨ x.fdc.feed = .clearing →
    let cause : FailureCause := match r with
      | .fault code => if code = 1 then .jam else if code = 3 then .skew else .feedFault code
      | .link o => .link o
      | .timeout => .timeout op
      | .done => .rollEnd
      | .rollEnd => .rollEnd
    let halted := (x.onPlaten fun h => { h with state := .halted, cause := some cause }).feedStage fun d =>
      { d with feed := .halted, positioned := none, purpose := none }
    x.feedResult op r = (match halted.platen with
      | some h => halted.journal (.sheetHalted h.id x.fdc.feed op cause h.loadStep h.done)
      | none => halted).callArming) ∧
  (∀ (x : Chip) (h : Sheet), x.platen = some h →
    (∀ um, x.fdc.feed = .advancing →
      (h.state = .clearing → x.feedResult (.advance um) .done = x.startClearing false) ∧
      (h.state ≠ .clearing → x.fdc.purpose = some .tail → x.feedResult (.advance um) .done = x.beginDrying) ∧
      (h.state ≠ .clearing → x.fdc.purpose ≠ some .tail →
        x.feedResult (.advance um) .done = (x.onFdc fun d =>
          { d with feed := .positioned, positioned := some h.done, purpose := none }).callArming) ∧
      (x.feedResult (.advance um) .rollEnd =
        ((((x.onPlaten fun a =>
          { a with cause := if a.cause = some .spoiled then a.cause else some .mediaOut, state := .clearing }).unbindSheet
            h.id).callArming).startClearing true))) ∧
    (x.fdc.feed = .cutting →
      let out := (x.feedStage fun d => { d with uncutTail := false }).removeSheet h (if h.defect = true then .defective else .printed)
      x.feedResult .cut .done = out ∧ x.feedResult .cut .rollEnd = out)) ∧
  (∀ (x : Chip) (op : FeedOp) (r : FeedResult),
    x.fdc.feed = .idle ∨ x.fdc.feed = .positioned ∨ x.fdc.feed = .drying ∨ x.fdc.feed = .halted →
    x.feedResult op r = x) ∧
  (∀ (x : Chip) (op : FeedOp) (limit : Nat), x.placeFeed op limit =
    { x with fdc := { x.fdc with
      order := some { op := op, serial := x.fdc.nextOrder, deadline := x.rpw.timeBase + limit, fed := 0, pollAt := none }
      nextOrder := x.fdc.nextOrder + 1 } }.offer (.feed op x.fdc.nextOrder)) ∧
  (∀ (x : Chip) (op : FeedOp),
    let roll := match x.fdc.threaded with
      | .roll n => some n
      | .none => x.platen.bind fun h =>
        if x.fdc.feed = .loading ∧ (h.loadStep = 2 ∨ h.loadStep = 3) then h.assigned else none
      | .unknown => none
    let ended := x.feedStage fun d => { (match roll with
      | some n => d.onRoll n fun a => { a with out := true, remaining := 0, fed := 0 }
      | none => d) with threaded := .none }
    x.rollEnd op = match x.platen with
      | some h => ended.journal (.sheetRollEnd h.id roll op)
      | none => ended) ∧
  (∀ (x : Chip) (h : Sheet), x.platen = some h → x.fdc.feed = .loading →
    let next := fun y : Chip =>
      if h.cancel = true ∨ h.cause = some .spoiled then y.enterClearing else y.runLoad (5 - h.loadStep)
    let uncut := x.feedStage fun d => { d with uncutTail := false }
    (x.feedResult .cut .done = if x.fdc.threaded = .none then next uncut else uncut.placeFeed .rewind 30000000) ∧
    x.feedResult .cut .rollEnd = next uncut ∧
    x.feedResult .rewind .done = next (x.feedStage fun d => { d with threaded := .none }) ∧
    x.feedResult .rewind .rollEnd = next x ∧
    (∀ n, x.feedResult (.selectRoll n) .done = next x) ∧
    (∀ n, h.assigned = some n → x.feedResult .thread .done = next (x.feedStage fun d => { d with threaded := .roll n })) ∧
    x.feedResult .align .done = next x ∧
    ∀ um, x.feedResult (.advance um) .done = next x ∧
      x.feedResult (.advance um) .rollEnd =
        ((((x.onPlaten fun a =>
          { a with cause := if a.cause = some .spoiled then a.cause else some .mediaOut, state := .clearing }).unbindSheet
            h.id).callArming).startClearing true)) ∧
  (∀ (x : Chip) (h : Sheet), x.platen = some h →
    x.runLoad 0 = ((x.onPlaten fun a => { a with state := .ready }).onFdc fun d =>
      { d with feed := .positioned, positioned := some 0, purpose := none }).callArming ∧
    ∀ n, n < 5 →
      let step := 5 - n
      let op :=
        if step = 1 then
          (if x.fdc.uncutTail = true then some FeedOp.cut else if x.fdc.threaded = .none then none else some .rewind)
        else if step = 2 then h.assigned.map FeedOp.selectRoll
        else if step = 3 then some .thread
        else if step = 4 then some .align
        else if h.topMargin = 0 then none else some (.advance (h.topMargin * 1000))
      let begun := x.onPlaten fun a => { a with loadStep := step }
      x.runLoad (n + 1) = match op with
        | none => begun.runLoad n
        | some o => (begun.onFdc fun d =>
          { d with purpose := if step = 5 then some .margin else none }).placeFeed o 30000000) ∧
  (∀ (x : Chip) (h : Sheet), x.platen = some h →
    let outcome := fun cause : Option FailureCause =>
      if cause = some .mediaOut then SheetOutcome.mediaOut else if cause = some .spoiled then .spoiled else .cancelled
    let begun := x.feedStage fun d => { d with feed := .clearing, positioned := none, purpose := none }
    let cleared := ((x.onPlaten fun a => { a with state := .clearing }).unbindSheet h.id).callArming
    let uncut := x.feedStage fun d => { d with uncutTail := false }
    let marked := fun y : Chip => y.onPlaten fun a =>
      { a with cause := if a.cause = none then some .mediaOut else a.cause }
    let media := if h.cause = none then some .mediaOut else h.cause
    let ends := fun y : Chip => (y.onFdc fun d => { d with purpose := none }).placeFeed .cut 10000000
    (∀ cutOnly, cutOnly = true ∨ h.cause = some .mediaOut →
      x.startClearing cutOnly = begun.placeFeed .cut 10000000) ∧
    (∀ n, h.cause ≠ some .mediaOut → x.fdc.threaded = .roll n → x.startClearing false =
      (begun.onFdc fun d => { d with purpose := some .clear }).placeFeed (.advance 300000) 10000000) ∧
    (h.cause ≠ some .mediaOut → x.fdc.threaded = .none ∨ x.fdc.threaded = .unknown →
      x.startClearing false = begun.removeSheet h (outcome h.cause)) ∧
    x.enterClearing = (if cleared.fdc.order = none then cleared.startClearing false else cleared) ∧
    (x.fdc.feed = .clearing →
      (∀ um, x.feedResult (.advance um) .done = ends x ∧ x.feedResult (.advance um) .rollEnd = ends (marked x)) ∧
      x.feedResult .cut .done = uncut.removeSheet h (outcome h.cause) ∧
      x.feedResult .cut .rollEnd = (marked uncut).removeSheet { h with cause := media } (outcome media))) ∧
  (∀ (x : Chip) (h : Sheet), x.platen = some h →
    let begun := x.onFdc fun d => { d with
      feed := .drying, positioned := none, purpose := none
      dryTimer := some (x.rpw.timeBase + h.dryTime * 1000000) }
    x.beginDrying = (if h.dryTime = 0 then begun.dryExpired else begun) ∧
    x.dryExpired =
      (let stopped := x.feedStage fun d => { d with dryTimer := none }
      match h.cutMode with
      | .cut => ((stopped.onPlaten fun a => { a with state := .cutting }).onFdc fun d =>
        { d with feed := .cutting }).placeFeed .cut 10000000
      | .keepOn => (stopped.feedStage fun d => { d with uncutTail := true }).removeSheet h
        (if h.defect = true then .defective else .printed)))

/-! ## The end of an event -/

/-- The end of an event: the status records that its own effect has changed, what it has called for in one order between the
blocks, the next frame of the link, the responses, and the writer's forward queue. It changes nothing of the part but what
`Chip.kept` leaves out; held reads for a record that is no longer the next are answered WITHHELD; on each port the oldest
in-flight reads are responded to, in order, while they are ANSWERED, each with its credit freed; every status record whose
fields the event's effect, or a test at its end, has changed is pending, and within the effect so is every record that a change
of the feed controller's state has changed, or the one record that an operation compares, before what follows that change; and
a part with nothing left to do only has its pending status records and the writer's forward queue brought up to date (R29,
R101, R147, R153, R155, R168). The order between the blocks (log entry 7), the moment the link takes its next order (log entry
8), the order in which status records become pending (log entry 9) and the filling of the writer's forward queue once, at the
end (log entry 53), are the model's choices. -/
def Obligations.EndOfAnEvent : Prop :=
  (∀ old x : Chip, (conclude old x).kept = x.kept) ∧
  (∀ old x : Chip, x.quiet → conclude old x = (x.refreshStatus old).fillWriter) ∧
  (∀ old x : Chip, (conclude old x).rpw.timeBase = x.rpw.timeBase ∧ (conclude old x).due = .nothing) ∧
  (∀ old x : Chip, conclude old x = ((x.refreshStatus old).settle.releaseLink.sendResponses).fillWriter) ∧
  (∀ x : Chip,
    let served := x.dropStaleHolds.serviceLoop 10
    let primed := if served.due.prime = true then served.retryPrime.refreshStatus served else served
    let admitted := if primed.due.admission = true then primed.admissionTest.refreshStatus primed else primed
    let armed :=
      if admitted.due.arming = true then admitted.dropStaleHolds.armingTest.refreshStatus admitted else admitted
    x.settle = { (armed.serviceLoop 10).updateIdle with due := .nothing }) ∧
  (∀ (n : Nat) (x y : Chip),
    (x.serviceNext = some y → x.serviceLoop (n + 1) = (y.refreshStatus x).serviceLoop n) ∧
    (x.serviceNext.isNone = true → x.serviceLoop (n + 1) = x)) ∧
  (∀ x : Chip,
    let holds := x.fdc.sheets = [] ∧ x.svc.location = .printSide
    let now := x.rpw.timeBase
    (holds → x.svc.idleStretch ≠ none → x.updateIdle = x) ∧
    (holds → x.svc.idleStretch = none → x.updateIdle = { x with svc := { x.svc with
      idleStretch := some now
      counters := Vector.ofFn fun p : Fin 8 => { x.svc.counters.get p with idleMark := now, idleFired := false } } }) ∧
    (¬ holds → x.updateIdle = { x with svc := { x.svc with idleStretch := none } })) ∧
  (∀ x : Chip,
    let next := x.nextRecord.map Swath.id
    let left := x.sgt.holdQueue.filter fun h => next == some h.swath
    (x.sgt.holdQueue = [] → x.dropStaleHolds = x) ∧
    (x.sgt.holdQueue ≠ [] → x.dropStaleHolds = Chip.refreshStatus { x with
      psw := { x.psw with hInFlight := x.psw.hInFlight.map fun e =>
        if ∃ h ∈ x.sgt.holdQueue, h.id = e.id ∧ next ≠ some h.swath then { e with phase := .answered .withheld [] } else e }
      sgt := { x.sgt with holdQueue := left, holdTimer := if left = [] then none else x.sgt.holdTimer } } x)) ∧
  (∀ x : Chip,
    (x.flm.link = .ended → x.releaseLink = { x with flm := { x.flm with link := .free }.begin x.rpw.timeBase }) ∧
    (x.flm.link ≠ .ended → x.releaseLink = x)) ∧
  (∀ (x : Chip) (cFront cRest hFront hRest : List InFlight),
    x.psw.cInFlight = cFront ++ cRest → x.psw.hInFlight = hFront ++ hRest →
    (∀ e ∈ cFront ++ hFront, e.isAnswered = true) → nothingAnswered cRest = true → nothingAnswered hRest = true →
    let response := fun (port : Port) (e : InFlight) => match e.phase with
      | .answered status data => Emission.response port e.tag status data
      | .waiting => .response port e.tag .fault []
      | .issued => .response port e.tag .fault []
    x.sendResponses = { x with
      psw := { x.psw with
        cInFlight := cRest, cCredits := x.psw.cCredits + cFront.length
        hInFlight := hRest, hCredits := x.psw.hCredits + hFront.length }
      sent := x.sent ++ cFront.map (response .cPort) ++ hFront.map (response .hPort) }) ∧
  (∀ (x : Chip) (n : Fin 13), x.markStatus n =
    if n ∈ x.rpw.statusSet then x else { x with rpw := { x.rpw with statusSet := x.rpw.statusSet ++ [n] } }) ∧
  (∀ old x : Chip, x.refreshStatus old = { x with rpw := { x.rpw with
    statusSet := x.rpw.statusSet ++ statusNumbers.filter fun n =>
      decide (n ∉ x.rpw.statusSet ∧ statusFields old n ≠ statusFields x n) } }) ∧
  (∀ (old x : Chip) (n : Fin 13), x.showChange old n = if statusFields old n = statusFields x n then x else x.markStatus n) ∧
  (∀ (x : Chip) (f : FeedController → FeedController), x.feedStage f = Chip.refreshStatus { x with fdc := f x.fdc } x)

/-- The report writer makes a record where the ordered list has a free place that is not reserved and the journal has room,
with the time and the fence of the event; otherwise the record is dropped and counted, the first drop's time kept; a JOURNAL
OVERFLOW record is made when there is room again; each drop and each JOURNAL OVERFLOW makes the HEADER record pending; status
records are taken oldest first, after the ordered list (R168 to R171). ATTN is high exactly while the write index differs from
the read index (R170). A journal record has 32 bytes and opens with its kind, its reason, its subject in two bytes and the time
of its event in eight, least significant byte first (12.5, R167, R172); the reason 0 of SWATH WITHHELD, LATE WRITE and JOURNAL
OVERFLOW, for which the layout names none, is the model's choice (log entry 46). -/
def Obligations.ReportWriterByItsRules : Prop :=
  ∀ x : Chip,
    let w := x.rpw
    let places := w.ordered.length + (if w.replyReserved = true then 1 else 0)
    let unread := (w.writeIndex - w.readIndex).toNat
    let waiting := (w.ordered.filter fun e => e.body.isJournal).length
    let room := places < 32 ∧ unread + waiting < w.capacity
    let entry := fun r : JournalRecord =>
      ({ body := .journal r w.timeBase, fence := x.fence, taken := false } : OrderedEntry)
    (∀ r, room → x.journal r = { x with rpw := { w with ordered := w.ordered ++ [entry r] } }) ∧
    (∀ r, ¬ room → x.journal r = { x with rpw := { w with
      overflow := true, dropped := min (w.dropped + 1) 0xFFFFFFFF
      firstDrop := if w.overflow = true then w.firstDrop else w.timeBase
      statusSet := if 0 ∈ w.statusSet then w.statusSet else w.statusSet ++ [0] } }) ∧
    (w.overflow = true → room → x.journalOverflow = { x with rpw := { w with
      ordered := w.ordered ++ [entry (.journalOverflow w.dropped w.firstDrop)], overflow := false, dropped := 0
      statusSet := if 0 ∈ w.statusSet then w.statusSet else w.statusSet ++ [0] } }) ∧
    (¬ (w.overflow = true ∧ room) → x.journalOverflow = x) ∧
    (x.attn = true ↔ w.writeIndex ≠ w.readIndex) ∧
    (∀ (r : JournalRecord) (time : Nat),
      (r.bytes time).length = 32 ∧
      let opens := fun kind reason subject : Nat =>
        let named := min subject 0xFFFF
        let stamp := min time 0xFFFFFFFFFFFFFFFF
        (r.bytes time).take 12 =
          [BitVec.ofNat 8 kind, BitVec.ofNat 8 reason, BitVec.ofNat 8 named, BitVec.ofNat 8 (named / 256)] ++
            (List.range 8).map fun i => BitVec.ofNat 8 (stamp / 256 ^ i)
      match r with
      | .sheetWaitingMedia sheet _ _ _ => opens 1 1 sheet
      | .sheetWaitingInk sheet _ _ _ => opens 1 1 sheet
      | .sheetRemoved sheet _ _ _ _ _ _ _ _ => opens 1 2 sheet
      | .sheetRollEnd sheet _ _ => opens 1 3 sheet
      | .sheetHalted sheet _ _ _ _ _ => opens 1 4 sheet
      | .sheetClearFailed sheet _ => opens 1 5 sheet
      | .swathDone sheet _ _ _ _ faulted _ => opens 2 (min faulted 255) sheet
      | .swathWithheld sheet _ _ _ => opens 3 0 sheet
      | .swathOrder buffer notNext _ _ => opens 4 (if notNext = true then 2 else 1) buffer
      | .lateWrite sheet _ _ _ => opens 5 0 sheet
      | .inkLevelStatus k _ _ _ => opens 6 1 k.val
      | .inkShortfall k _ => opens 6 2 k.val
      | .inkCartridge k _ _ _ _ _ => opens 6 4 k.val
      | .inkUnposted k _ _ => opens 6 5 k.val
      | .inkPumpFault k _ _ => opens 6 6 k.val
      | .inkPumpIdle k _ _ => opens 6 7 k.val
      | .inkPumpTimeout k _ _ => opens 6 8 k.val
      | .inkStopLost k _ => opens 6 9 k.val
      | .nozzle n => opens 7 (match n.reason with
        | .added => 1
        | .origin => 2
        | .removed => 3
        | .pendingDropped => 4
        | .listOverflow => 5
        | .badEntry => 6
        | .mergeRefused => 7) n.channel
      | .service kind outcome _ _ _ _ _ => opens 8 (match outcome with
        | .done => 0
        | .fault _ => 1
        | .link _ => 2
        | .timeout => 3
        | .inkShort => 4
        | .checkOverrun => 5
        | .abandoned => 6) (match kind with
        | .program p => p.val
        | .wake => 0xFF)
      | .fieldFault unit _ outcome _ _ => opens 9 (match outcome with
        | .done => 0
        | .absent => 1
        | .refused => 2
        | .busyTimeout => 3
        | .checkError => 4) unit
      | .memoryFault port malformed _ _ _ _ => opens 10 (if malformed = true then 2 else 1) (match port with
        | .cPort => 0
        | .hPort => 1)
      | .journalOverflow _ _ => opens 11 0 0) ∧
    (x.psw.writer.isSome = true → x.fillWriter = x) ∧
    (∀ e before rest, x.psw.writer = none → w.ordered = before ++ e :: rest → (∀ a ∈ before, a.taken = true) →
      e.taken = false →
      x.fillWriter = { x with
        psw := { x.psw with writer := some { body := .ordered e.body, fence := e.fence } }
        rpw := { w with ordered := before ++ { e with taken := true } :: rest } }) ∧
    (∀ n rest, x.psw.writer = none → (∀ a ∈ w.ordered, a.taken = true) → w.statusSet = n :: rest →
      x.fillWriter = { x with
        psw := { x.psw with
          writer := some { body := .status n (statusBytes x n (w.updateCounts.get n + 1)), fence := x.fence } }
        rpw := { w with statusSet := rest, updateCounts := w.updateCounts.set n (w.updateCounts.get n + 1) } })

/-! ## Headline results -/

/-- A command of the ring survives its slot: the slot written for any well-formed command, decoded, gives back the command
with every operand at its value (12.4). -/
def Obligations.SlotCodecReadsBack : Prop :=
  ∀ c : RingCommand, c.wellFormed = true → (encodeSlot c).length = 64 ∧ decodeSlot (encodeSlot c) = c

/-- Every step keeps the limits of the part: 32 outstanding reads and a head run of 8, the 32 places of the ordered list, the
16 of the order queue, the 8 of the sheet queue, remainders of 0 to 999 pL; and between events no test is called for, no
reply's place stands reserved and no frame stands ended (R54, R110, R147, R155, R156, R169). It keeps the lists in agreement:
the 16 credits of each port are all accounted for (R153); at most 16 reads are held, each once, each waiting in flight and
neither queued nor issued (R18, R27, R155); the nozzle-out list has at most 96 entries, in order and no two for one nozzle, and
the pending list at most 16 (R80, R85); the request list has at most 8, a program at most once (R103); each BOUND buffer has
one swath record and each record a BOUND buffer (R10, R13); at most one swath is ARMED or FIRING, it has the claim and the
nozzle-out list is held exactly while there is one, and a service cycle has the claim exactly while it is RUNNING or RECOVERING
(R19, R23, R82, R105); a released read's swath, while it is bound, is ARMED or FIRING (R28). The numbers of reads and swath
records are the model's (log entry 12). -/
def Obligations.StepsKeepTheLimits : Prop :=
  ∀ s t : State, s.chip.invariant → step s = .next t → t.chip.invariant

/-- The limits and the agreement that every step keeps hold at reset, for every strap value, and in the state after reset. -/
def Obligations.LimitsHoldAtReset : Prop :=
  State.reset.chip.invariant ∧ ∀ straps, (Chip.reset straps).invariant
end

