-- ==== Sys2Proof/Laws/State.lean ====
section
/-! SUPPORT. The fields of the part after each update of one block, each true by definition, and what the marking and comparing
of status records leaves alone. -/

namespace Sys2Proof.Machine

@[simp] theorem Chip.onPsw_inReset (x : Chip) (f : PortSwitch → PortSwitch) : (x.onPsw f).inReset = x.inReset := rfl
@[simp] theorem Chip.onPsw_psw (x : Chip) (f : PortSwitch → PortSwitch) : (x.onPsw f).psw = f x.psw := rfl
@[simp] theorem Chip.onPsw_cmi (x : Chip) (f : PortSwitch → PortSwitch) : (x.onPsw f).cmi = x.cmi := rfl
@[simp] theorem Chip.onPsw_sgt (x : Chip) (f : PortSwitch → PortSwitch) : (x.onPsw f).sgt = x.sgt := rfl
@[simp] theorem Chip.onPsw_ink (x : Chip) (f : PortSwitch → PortSwitch) : (x.onPsw f).ink = x.ink := rfl
@[simp] theorem Chip.onPsw_nmn (x : Chip) (f : PortSwitch → PortSwitch) : (x.onPsw f).nmn = x.nmn := rfl
@[simp] theorem Chip.onPsw_svc (x : Chip) (f : PortSwitch → PortSwitch) : (x.onPsw f).svc = x.svc := rfl
@[simp] theorem Chip.onPsw_fdc (x : Chip) (f : PortSwitch → PortSwitch) : (x.onPsw f).fdc = x.fdc := rfl
@[simp] theorem Chip.onPsw_flm (x : Chip) (f : PortSwitch → PortSwitch) : (x.onPsw f).flm = x.flm := rfl
@[simp] theorem Chip.onPsw_rpw (x : Chip) (f : PortSwitch → PortSwitch) : (x.onPsw f).rpw = x.rpw := rfl
@[simp] theorem Chip.onPsw_sent (x : Chip) (f : PortSwitch → PortSwitch) : (x.onPsw f).sent = x.sent := rfl
@[simp] theorem Chip.onPsw_due (x : Chip) (f : PortSwitch → PortSwitch) : (x.onPsw f).due = x.due := rfl

@[simp] theorem Chip.onCmi_inReset (x : Chip) (f : Intake → Intake) : (x.onCmi f).inReset = x.inReset := rfl
@[simp] theorem Chip.onCmi_psw (x : Chip) (f : Intake → Intake) : (x.onCmi f).psw = x.psw := rfl
@[simp] theorem Chip.onCmi_cmi (x : Chip) (f : Intake → Intake) : (x.onCmi f).cmi = f x.cmi := rfl
@[simp] theorem Chip.onCmi_sgt (x : Chip) (f : Intake → Intake) : (x.onCmi f).sgt = x.sgt := rfl
@[simp] theorem Chip.onCmi_ink (x : Chip) (f : Intake → Intake) : (x.onCmi f).ink = x.ink := rfl
@[simp] theorem Chip.onCmi_nmn (x : Chip) (f : Intake → Intake) : (x.onCmi f).nmn = x.nmn := rfl
@[simp] theorem Chip.onCmi_svc (x : Chip) (f : Intake → Intake) : (x.onCmi f).svc = x.svc := rfl
@[simp] theorem Chip.onCmi_fdc (x : Chip) (f : Intake → Intake) : (x.onCmi f).fdc = x.fdc := rfl
@[simp] theorem Chip.onCmi_flm (x : Chip) (f : Intake → Intake) : (x.onCmi f).flm = x.flm := rfl
@[simp] theorem Chip.onCmi_rpw (x : Chip) (f : Intake → Intake) : (x.onCmi f).rpw = x.rpw := rfl
@[simp] theorem Chip.onCmi_sent (x : Chip) (f : Intake → Intake) : (x.onCmi f).sent = x.sent := rfl
@[simp] theorem Chip.onCmi_due (x : Chip) (f : Intake → Intake) : (x.onCmi f).due = x.due := rfl

@[simp] theorem Chip.onSgt_inReset (x : Chip) (f : Gate → Gate) : (x.onSgt f).inReset = x.inReset := rfl
@[simp] theorem Chip.onSgt_psw (x : Chip) (f : Gate → Gate) : (x.onSgt f).psw = x.psw := rfl
@[simp] theorem Chip.onSgt_cmi (x : Chip) (f : Gate → Gate) : (x.onSgt f).cmi = x.cmi := rfl
@[simp] theorem Chip.onSgt_sgt (x : Chip) (f : Gate → Gate) : (x.onSgt f).sgt = f x.sgt := rfl
@[simp] theorem Chip.onSgt_ink (x : Chip) (f : Gate → Gate) : (x.onSgt f).ink = x.ink := rfl
@[simp] theorem Chip.onSgt_nmn (x : Chip) (f : Gate → Gate) : (x.onSgt f).nmn = x.nmn := rfl
@[simp] theorem Chip.onSgt_svc (x : Chip) (f : Gate → Gate) : (x.onSgt f).svc = x.svc := rfl
@[simp] theorem Chip.onSgt_fdc (x : Chip) (f : Gate → Gate) : (x.onSgt f).fdc = x.fdc := rfl
@[simp] theorem Chip.onSgt_flm (x : Chip) (f : Gate → Gate) : (x.onSgt f).flm = x.flm := rfl
@[simp] theorem Chip.onSgt_rpw (x : Chip) (f : Gate → Gate) : (x.onSgt f).rpw = x.rpw := rfl
@[simp] theorem Chip.onSgt_sent (x : Chip) (f : Gate → Gate) : (x.onSgt f).sent = x.sent := rfl
@[simp] theorem Chip.onSgt_due (x : Chip) (f : Gate → Gate) : (x.onSgt f).due = x.due := rfl

@[simp] theorem Chip.onNmn_inReset (x : Chip) (f : NozzleMonitor → NozzleMonitor) : (x.onNmn f).inReset = x.inReset := rfl
@[simp] theorem Chip.onNmn_psw (x : Chip) (f : NozzleMonitor → NozzleMonitor) : (x.onNmn f).psw = x.psw := rfl
@[simp] theorem Chip.onNmn_cmi (x : Chip) (f : NozzleMonitor → NozzleMonitor) : (x.onNmn f).cmi = x.cmi := rfl
@[simp] theorem Chip.onNmn_sgt (x : Chip) (f : NozzleMonitor → NozzleMonitor) : (x.onNmn f).sgt = x.sgt := rfl
@[simp] theorem Chip.onNmn_ink (x : Chip) (f : NozzleMonitor → NozzleMonitor) : (x.onNmn f).ink = x.ink := rfl
@[simp] theorem Chip.onNmn_nmn (x : Chip) (f : NozzleMonitor → NozzleMonitor) : (x.onNmn f).nmn = f x.nmn := rfl
@[simp] theorem Chip.onNmn_svc (x : Chip) (f : NozzleMonitor → NozzleMonitor) : (x.onNmn f).svc = x.svc := rfl
@[simp] theorem Chip.onNmn_fdc (x : Chip) (f : NozzleMonitor → NozzleMonitor) : (x.onNmn f).fdc = x.fdc := rfl
@[simp] theorem Chip.onNmn_flm (x : Chip) (f : NozzleMonitor → NozzleMonitor) : (x.onNmn f).flm = x.flm := rfl
@[simp] theorem Chip.onNmn_rpw (x : Chip) (f : NozzleMonitor → NozzleMonitor) : (x.onNmn f).rpw = x.rpw := rfl
@[simp] theorem Chip.onNmn_sent (x : Chip) (f : NozzleMonitor → NozzleMonitor) : (x.onNmn f).sent = x.sent := rfl
@[simp] theorem Chip.onNmn_due (x : Chip) (f : NozzleMonitor → NozzleMonitor) : (x.onNmn f).due = x.due := rfl

@[simp] theorem Chip.onSvc_inReset (x : Chip) (f : ServiceController → ServiceController) : (x.onSvc f).inReset = x.inReset := rfl
@[simp] theorem Chip.onSvc_psw (x : Chip) (f : ServiceController → ServiceController) : (x.onSvc f).psw = x.psw := rfl
@[simp] theorem Chip.onSvc_cmi (x : Chip) (f : ServiceController → ServiceController) : (x.onSvc f).cmi = x.cmi := rfl
@[simp] theorem Chip.onSvc_sgt (x : Chip) (f : ServiceController → ServiceController) : (x.onSvc f).sgt = x.sgt := rfl
@[simp] theorem Chip.onSvc_ink (x : Chip) (f : ServiceController → ServiceController) : (x.onSvc f).ink = x.ink := rfl
@[simp] theorem Chip.onSvc_nmn (x : Chip) (f : ServiceController → ServiceController) : (x.onSvc f).nmn = x.nmn := rfl
@[simp] theorem Chip.onSvc_svc (x : Chip) (f : ServiceController → ServiceController) : (x.onSvc f).svc = f x.svc := rfl
@[simp] theorem Chip.onSvc_fdc (x : Chip) (f : ServiceController → ServiceController) : (x.onSvc f).fdc = x.fdc := rfl
@[simp] theorem Chip.onSvc_flm (x : Chip) (f : ServiceController → ServiceController) : (x.onSvc f).flm = x.flm := rfl
@[simp] theorem Chip.onSvc_rpw (x : Chip) (f : ServiceController → ServiceController) : (x.onSvc f).rpw = x.rpw := rfl
@[simp] theorem Chip.onSvc_sent (x : Chip) (f : ServiceController → ServiceController) : (x.onSvc f).sent = x.sent := rfl
@[simp] theorem Chip.onSvc_due (x : Chip) (f : ServiceController → ServiceController) : (x.onSvc f).due = x.due := rfl

@[simp] theorem Chip.onFdc_inReset (x : Chip) (f : FeedController → FeedController) : (x.onFdc f).inReset = x.inReset := rfl
@[simp] theorem Chip.onFdc_psw (x : Chip) (f : FeedController → FeedController) : (x.onFdc f).psw = x.psw := rfl
@[simp] theorem Chip.onFdc_cmi (x : Chip) (f : FeedController → FeedController) : (x.onFdc f).cmi = x.cmi := rfl
@[simp] theorem Chip.onFdc_sgt (x : Chip) (f : FeedController → FeedController) : (x.onFdc f).sgt = x.sgt := rfl
@[simp] theorem Chip.onFdc_ink (x : Chip) (f : FeedController → FeedController) : (x.onFdc f).ink = x.ink := rfl
@[simp] theorem Chip.onFdc_nmn (x : Chip) (f : FeedController → FeedController) : (x.onFdc f).nmn = x.nmn := rfl
@[simp] theorem Chip.onFdc_svc (x : Chip) (f : FeedController → FeedController) : (x.onFdc f).svc = x.svc := rfl
@[simp] theorem Chip.onFdc_fdc (x : Chip) (f : FeedController → FeedController) : (x.onFdc f).fdc = f x.fdc := rfl
@[simp] theorem Chip.onFdc_flm (x : Chip) (f : FeedController → FeedController) : (x.onFdc f).flm = x.flm := rfl
@[simp] theorem Chip.onFdc_rpw (x : Chip) (f : FeedController → FeedController) : (x.onFdc f).rpw = x.rpw := rfl
@[simp] theorem Chip.onFdc_sent (x : Chip) (f : FeedController → FeedController) : (x.onFdc f).sent = x.sent := rfl
@[simp] theorem Chip.onFdc_due (x : Chip) (f : FeedController → FeedController) : (x.onFdc f).due = x.due := rfl

@[simp] theorem Chip.onFlm_inReset (x : Chip) (f : LinkMaster → LinkMaster) : (x.onFlm f).inReset = x.inReset := rfl
@[simp] theorem Chip.onFlm_psw (x : Chip) (f : LinkMaster → LinkMaster) : (x.onFlm f).psw = x.psw := rfl
@[simp] theorem Chip.onFlm_cmi (x : Chip) (f : LinkMaster → LinkMaster) : (x.onFlm f).cmi = x.cmi := rfl
@[simp] theorem Chip.onFlm_sgt (x : Chip) (f : LinkMaster → LinkMaster) : (x.onFlm f).sgt = x.sgt := rfl
@[simp] theorem Chip.onFlm_ink (x : Chip) (f : LinkMaster → LinkMaster) : (x.onFlm f).ink = x.ink := rfl
@[simp] theorem Chip.onFlm_nmn (x : Chip) (f : LinkMaster → LinkMaster) : (x.onFlm f).nmn = x.nmn := rfl
@[simp] theorem Chip.onFlm_svc (x : Chip) (f : LinkMaster → LinkMaster) : (x.onFlm f).svc = x.svc := rfl
@[simp] theorem Chip.onFlm_fdc (x : Chip) (f : LinkMaster → LinkMaster) : (x.onFlm f).fdc = x.fdc := rfl
@[simp] theorem Chip.onFlm_flm (x : Chip) (f : LinkMaster → LinkMaster) : (x.onFlm f).flm = f x.flm := rfl
@[simp] theorem Chip.onFlm_rpw (x : Chip) (f : LinkMaster → LinkMaster) : (x.onFlm f).rpw = x.rpw := rfl
@[simp] theorem Chip.onFlm_sent (x : Chip) (f : LinkMaster → LinkMaster) : (x.onFlm f).sent = x.sent := rfl
@[simp] theorem Chip.onFlm_due (x : Chip) (f : LinkMaster → LinkMaster) : (x.onFlm f).due = x.due := rfl

@[simp] theorem Chip.onRpw_inReset (x : Chip) (f : ReportWriter → ReportWriter) : (x.onRpw f).inReset = x.inReset := rfl
@[simp] theorem Chip.onRpw_psw (x : Chip) (f : ReportWriter → ReportWriter) : (x.onRpw f).psw = x.psw := rfl
@[simp] theorem Chip.onRpw_cmi (x : Chip) (f : ReportWriter → ReportWriter) : (x.onRpw f).cmi = x.cmi := rfl
@[simp] theorem Chip.onRpw_sgt (x : Chip) (f : ReportWriter → ReportWriter) : (x.onRpw f).sgt = x.sgt := rfl
@[simp] theorem Chip.onRpw_ink (x : Chip) (f : ReportWriter → ReportWriter) : (x.onRpw f).ink = x.ink := rfl
@[simp] theorem Chip.onRpw_nmn (x : Chip) (f : ReportWriter → ReportWriter) : (x.onRpw f).nmn = x.nmn := rfl
@[simp] theorem Chip.onRpw_svc (x : Chip) (f : ReportWriter → ReportWriter) : (x.onRpw f).svc = x.svc := rfl
@[simp] theorem Chip.onRpw_fdc (x : Chip) (f : ReportWriter → ReportWriter) : (x.onRpw f).fdc = x.fdc := rfl
@[simp] theorem Chip.onRpw_flm (x : Chip) (f : ReportWriter → ReportWriter) : (x.onRpw f).flm = x.flm := rfl
@[simp] theorem Chip.onRpw_rpw (x : Chip) (f : ReportWriter → ReportWriter) : (x.onRpw f).rpw = f x.rpw := rfl
@[simp] theorem Chip.onRpw_sent (x : Chip) (f : ReportWriter → ReportWriter) : (x.onRpw f).sent = x.sent := rfl
@[simp] theorem Chip.onRpw_due (x : Chip) (f : ReportWriter → ReportWriter) : (x.onRpw f).due = x.due := rfl

@[simp] theorem Chip.onInk_inReset (x : Chip) (k : Channel) (f : InkChannel → InkChannel) : (x.onInk k f).inReset = x.inReset := rfl
@[simp] theorem Chip.onInk_psw (x : Chip) (k : Channel) (f : InkChannel → InkChannel) : (x.onInk k f).psw = x.psw := rfl
@[simp] theorem Chip.onInk_cmi (x : Chip) (k : Channel) (f : InkChannel → InkChannel) : (x.onInk k f).cmi = x.cmi := rfl
@[simp] theorem Chip.onInk_sgt (x : Chip) (k : Channel) (f : InkChannel → InkChannel) : (x.onInk k f).sgt = x.sgt := rfl
@[simp] theorem Chip.onInk_ink (x : Chip) (k : Channel) (f : InkChannel → InkChannel) : (x.onInk k f).ink = x.ink.set k (f (x.ink.get k)) := rfl
@[simp] theorem Chip.onInk_nmn (x : Chip) (k : Channel) (f : InkChannel → InkChannel) : (x.onInk k f).nmn = x.nmn := rfl
@[simp] theorem Chip.onInk_svc (x : Chip) (k : Channel) (f : InkChannel → InkChannel) : (x.onInk k f).svc = x.svc := rfl
@[simp] theorem Chip.onInk_fdc (x : Chip) (k : Channel) (f : InkChannel → InkChannel) : (x.onInk k f).fdc = x.fdc := rfl
@[simp] theorem Chip.onInk_flm (x : Chip) (k : Channel) (f : InkChannel → InkChannel) : (x.onInk k f).flm = x.flm := rfl
@[simp] theorem Chip.onInk_rpw (x : Chip) (k : Channel) (f : InkChannel → InkChannel) : (x.onInk k f).rpw = x.rpw := rfl
@[simp] theorem Chip.onInk_sent (x : Chip) (k : Channel) (f : InkChannel → InkChannel) : (x.onInk k f).sent = x.sent := rfl
@[simp] theorem Chip.onInk_due (x : Chip) (k : Channel) (f : InkChannel → InkChannel) : (x.onInk k f).due = x.due := rfl

@[simp] theorem Chip.emit_inReset (x : Chip) (e : Emission) : (x.emit e).inReset = x.inReset := rfl
@[simp] theorem Chip.emit_psw (x : Chip) (e : Emission) : (x.emit e).psw = x.psw := rfl
@[simp] theorem Chip.emit_cmi (x : Chip) (e : Emission) : (x.emit e).cmi = x.cmi := rfl
@[simp] theorem Chip.emit_sgt (x : Chip) (e : Emission) : (x.emit e).sgt = x.sgt := rfl
@[simp] theorem Chip.emit_ink (x : Chip) (e : Emission) : (x.emit e).ink = x.ink := rfl
@[simp] theorem Chip.emit_nmn (x : Chip) (e : Emission) : (x.emit e).nmn = x.nmn := rfl
@[simp] theorem Chip.emit_svc (x : Chip) (e : Emission) : (x.emit e).svc = x.svc := rfl
@[simp] theorem Chip.emit_fdc (x : Chip) (e : Emission) : (x.emit e).fdc = x.fdc := rfl
@[simp] theorem Chip.emit_flm (x : Chip) (e : Emission) : (x.emit e).flm = x.flm := rfl
@[simp] theorem Chip.emit_rpw (x : Chip) (e : Emission) : (x.emit e).rpw = x.rpw := rfl
@[simp] theorem Chip.emit_sent (x : Chip) (e : Emission) : (x.emit e).sent = x.sent ++ [e] := rfl
@[simp] theorem Chip.emit_due (x : Chip) (e : Emission) : (x.emit e).due = x.due := rfl

@[simp] theorem Chip.callArming_inReset (x : Chip) : x.callArming.inReset = x.inReset := rfl
@[simp] theorem Chip.callArming_psw (x : Chip) : x.callArming.psw = x.psw := rfl
@[simp] theorem Chip.callArming_cmi (x : Chip) : x.callArming.cmi = x.cmi := rfl
@[simp] theorem Chip.callArming_sgt (x : Chip) : x.callArming.sgt = x.sgt := rfl
@[simp] theorem Chip.callArming_ink (x : Chip) : x.callArming.ink = x.ink := rfl
@[simp] theorem Chip.callArming_nmn (x : Chip) : x.callArming.nmn = x.nmn := rfl
@[simp] theorem Chip.callArming_svc (x : Chip) : x.callArming.svc = x.svc := rfl
@[simp] theorem Chip.callArming_fdc (x : Chip) : x.callArming.fdc = x.fdc := rfl
@[simp] theorem Chip.callArming_flm (x : Chip) : x.callArming.flm = x.flm := rfl
@[simp] theorem Chip.callArming_rpw (x : Chip) : x.callArming.rpw = x.rpw := rfl
@[simp] theorem Chip.callArming_sent (x : Chip) : x.callArming.sent = x.sent := rfl
@[simp] theorem Chip.callArming_due (x : Chip) : x.callArming.due = { x.due with arming := true } := rfl

@[simp] theorem Chip.callAdmission_inReset (x : Chip) : x.callAdmission.inReset = x.inReset := rfl
@[simp] theorem Chip.callAdmission_psw (x : Chip) : x.callAdmission.psw = x.psw := rfl
@[simp] theorem Chip.callAdmission_cmi (x : Chip) : x.callAdmission.cmi = x.cmi := rfl
@[simp] theorem Chip.callAdmission_sgt (x : Chip) : x.callAdmission.sgt = x.sgt := rfl
@[simp] theorem Chip.callAdmission_ink (x : Chip) : x.callAdmission.ink = x.ink := rfl
@[simp] theorem Chip.callAdmission_nmn (x : Chip) : x.callAdmission.nmn = x.nmn := rfl
@[simp] theorem Chip.callAdmission_svc (x : Chip) : x.callAdmission.svc = x.svc := rfl
@[simp] theorem Chip.callAdmission_fdc (x : Chip) : x.callAdmission.fdc = x.fdc := rfl
@[simp] theorem Chip.callAdmission_flm (x : Chip) : x.callAdmission.flm = x.flm := rfl
@[simp] theorem Chip.callAdmission_rpw (x : Chip) : x.callAdmission.rpw = x.rpw := rfl
@[simp] theorem Chip.callAdmission_sent (x : Chip) : x.callAdmission.sent = x.sent := rfl
@[simp] theorem Chip.callAdmission_due (x : Chip) : x.callAdmission.due = { x.due with admission := true } := rfl

@[simp] theorem Chip.noticeInk_inReset (x : Chip) : x.noticeInk.inReset = x.inReset := rfl
@[simp] theorem Chip.noticeInk_psw (x : Chip) : x.noticeInk.psw = x.psw := rfl
@[simp] theorem Chip.noticeInk_cmi (x : Chip) : x.noticeInk.cmi = x.cmi := rfl
@[simp] theorem Chip.noticeInk_sgt (x : Chip) : x.noticeInk.sgt = x.sgt := rfl
@[simp] theorem Chip.noticeInk_ink (x : Chip) : x.noticeInk.ink = x.ink := rfl
@[simp] theorem Chip.noticeInk_nmn (x : Chip) : x.noticeInk.nmn = x.nmn := rfl
@[simp] theorem Chip.noticeInk_svc (x : Chip) : x.noticeInk.svc = x.svc := rfl
@[simp] theorem Chip.noticeInk_fdc (x : Chip) : x.noticeInk.fdc = x.fdc := rfl
@[simp] theorem Chip.noticeInk_flm (x : Chip) : x.noticeInk.flm = x.flm := rfl
@[simp] theorem Chip.noticeInk_rpw (x : Chip) : x.noticeInk.rpw = x.rpw := rfl
@[simp] theorem Chip.noticeInk_sent (x : Chip) : x.noticeInk.sent = x.sent := rfl
@[simp] theorem Chip.noticeInk_due (x : Chip) : x.noticeInk.due = { x.due with arming := true, prime := true } := rfl

/-! ## A status record becomes pending (R168) -/

theorem ReportWriter.mark_eq (w : ReportWriter) (n : Fin 13) :
    w.mark n = { w with statusSet := if w.statusSet.contains n then w.statusSet else w.statusSet ++ [n] } := by
  unfold ReportWriter.mark; split <;> rfl

@[simp] theorem ReportWriter.mark_timeBase (w : ReportWriter) (n : Fin 13) : (w.mark n).timeBase = w.timeBase := by
  rw [mark_eq]
@[simp] theorem ReportWriter.mark_updateCounts (w : ReportWriter) (n : Fin 13) :
    (w.mark n).updateCounts = w.updateCounts := by rw [mark_eq]
@[simp] theorem ReportWriter.mark_ordered (w : ReportWriter) (n : Fin 13) : (w.mark n).ordered = w.ordered := by
  rw [mark_eq]
@[simp] theorem ReportWriter.mark_replyReserved (w : ReportWriter) (n : Fin 13) :
    (w.mark n).replyReserved = w.replyReserved := by rw [mark_eq]
@[simp] theorem ReportWriter.mark_capacity (w : ReportWriter) (n : Fin 13) : (w.mark n).capacity = w.capacity := by
  rw [mark_eq]
@[simp] theorem ReportWriter.mark_writeIndex (w : ReportWriter) (n : Fin 13) :
    (w.mark n).writeIndex = w.writeIndex := by rw [mark_eq]
@[simp] theorem ReportWriter.mark_readIndex (w : ReportWriter) (n : Fin 13) : (w.mark n).readIndex = w.readIndex := by
  rw [mark_eq]
@[simp] theorem ReportWriter.mark_overflow (w : ReportWriter) (n : Fin 13) : (w.mark n).overflow = w.overflow := by
  rw [mark_eq]
@[simp] theorem ReportWriter.mark_dropped (w : ReportWriter) (n : Fin 13) : (w.mark n).dropped = w.dropped := by
  rw [mark_eq]
@[simp] theorem ReportWriter.mark_firstDrop (w : ReportWriter) (n : Fin 13) :
    (w.mark n).firstDrop = w.firstDrop := by rw [mark_eq]
@[simp] theorem ReportWriter.mark_placesTaken (w : ReportWriter) (n : Fin 13) :
    (w.mark n).placesTaken = w.placesTaken := by rw [mark_eq]; rfl
@[simp] theorem ReportWriter.mark_hasRoom (w : ReportWriter) (n : Fin 13) : (w.mark n).hasRoom = w.hasRoom := by
  rw [mark_eq]; rfl

/-! ## The six-channel record -/

@[simp] theorem Six.get_all {α : Type} (a : α) (k : Channel) : (Six.all a).get k = a := by
  match k with
  | 0 | 1 | 2 | 3 | 4 | 5 => rfl

@[simp] theorem Six.get_of {α : Type} (f : Channel → α) (k : Channel) : (Six.of f).get k = f k := by
  match k with
  | 0 | 1 | 2 | 3 | 4 | 5 => rfl

@[simp] theorem Six.get_set_same {α : Type} (v : Six α) (k : Channel) (a : α) : (v.set k a).get k = a := by
  match k with
  | 0 | 1 | 2 | 3 | 4 | 5 => rfl

theorem Six.get_set_other {α : Type} (v : Six α) (j k : Channel) (a : α) (h : j ≠ k) :
    (v.set k a).get j = v.get j := by
  match j, k with
  | 0, 0 | 1, 1 | 2, 2 | 3, 3 | 4, 4 | 5, 5 => exact absurd rfl h
  | 0, 1 | 0, 2 | 0, 3 | 0, 4 | 0, 5 | 1, 0 | 1, 2 | 1, 3 | 1, 4 | 1, 5 | 2, 0 | 2, 1 | 2, 3 | 2, 4 | 2, 5 => rfl
  | 3, 0 | 3, 1 | 3, 2 | 3, 4 | 3, 5 | 4, 0 | 4, 1 | 4, 2 | 4, 3 | 4, 5 | 5, 0 | 5, 1 | 5, 2 | 5, 3 | 5, 4 => rfl

theorem Six.get_set {α : Type} (v : Six α) (j k : Channel) (a : α) :
    (v.set k a).get j = if j = k then a else v.get j := by
  by_cases h : j = k
  · subst h; simp
  · simp [h, Six.get_set_other]

@[simp] theorem Six.set_get_self {α : Type} (v : Six α) (k : Channel) : v.set k (v.get k) = v := by
  match k with
  | 0 | 1 | 2 | 3 | 4 | 5 => rfl

theorem Six.ext_get {α : Type} (v w : Six α) (h : ∀ k, v.get k = w.get k) : v = w := by
  have h0 := h 0; have h1 := h 1; have h2 := h 2; have h3 := h 3; have h4 := h 4; have h5 := h 5
  cases v; cases w
  simp_all [Six.get]

/-! ## One channel of the ink controller -/

@[simp] theorem Chip.account_onAccount_same (x : Chip) (k : Channel) (f : Account → Account) :
    (x.onAccount k f).account k = f (x.account k) := by
  simp [Chip.account, Chip.onAccount]

theorem Chip.account_onAccount_other (x : Chip) (j k : Channel) (f : Account → Account) (h : j ≠ k) :
    (x.onAccount k f).account j = x.account j := by
  simp [Chip.account, Chip.onAccount, Six.get_set_other, h]

@[simp] theorem Chip.account_onRefill (x : Chip) (j k : Channel) (f : Refill → Refill) :
    (x.onRefill k f).account j = x.account j := by
  by_cases h : j = k
  · subst h; simp [Chip.account, Chip.onRefill]
  · simp [Chip.account, Chip.onRefill, Six.get_set_other, h]

@[simp] theorem Chip.account_onCartridge (x : Chip) (j k : Channel) (f : Cartridge → Cartridge) :
    (x.onCartridge k f).account j = x.account j := by
  by_cases h : j = k
  · subst h; simp [Chip.account, Chip.onCartridge]
  · simp [Chip.account, Chip.onCartridge, Six.get_set_other, h]

/-! ## The pending status records (R168) -/

/-- The showing of one record's change marks the record, or does nothing. -/
theorem Chip.showChange_eq (x old : Chip) (n : Fin 13) :
    x.showChange old n = if statusFields old n == statusFields x n then x else x.markStatus n := by
  unfold Chip.showChange; split <;> rfl

/-- The refreshing of the status records is a mark of each that has changed, in turn. -/
theorem Chip.refreshStatus_eq (x old : Chip) : x.refreshStatus old =
    statusNumbers.foldl (fun y n => if statusFields old n == statusFields x n then y else y.markStatus n) x := by
  suffices h : ∀ (p : Fin 13 → Bool) (ns : List (Fin 13)) (y : Chip),
      (y.onRpw fun w => ns.foldl (fun v n => if p n then v else v.mark n) w) =
        ns.foldl (fun y n => if p n then y else y.markStatus n) y from h _ _ x
  intro p ns
  induction ns with
  | nil => exact fun y => rfl
  | cons n ns ih =>
    intro y
    rw [List.foldl_cons, ← ih]
    simp only [List.foldl_cons]
    split <;> rfl

/-- The refreshing of the status records changes the status set only. -/
theorem Chip.refreshStatus_rpw (x old : Chip) :
    ∃ l, x.refreshStatus old = x.onRpw fun w => { w with statusSet := l } := by
  rw [Chip.refreshStatus_eq]
  suffices h : ∀ (ns : List (Fin 13)) (y : Chip), (∃ l, y = x.onRpw fun w => { w with statusSet := l }) →
      ∃ l, ns.foldl (fun y n => if statusFields old n == statusFields x n then y else y.markStatus n) y =
        x.onRpw fun w => { w with statusSet := l } from h _ _ ⟨x.rpw.statusSet, rfl⟩
  intro ns
  induction ns with
  | nil => exact fun y h => h
  | cons n ns ih =>
    intro y ⟨l, e⟩
    refine ih _ ?_
    dsimp only
    split
    · exact ⟨l, e⟩
    · subst e
      refine ⟨if l.contains n then l else l ++ [n], ?_⟩
      simp only [Chip.markStatus, Chip.onRpw, ReportWriter.mark_eq]

@[simp] theorem Chip.markStatus_inReset (x : Chip) (n : Fin 13) : (x.markStatus n).inReset = x.inReset := rfl
@[simp] theorem Chip.markStatus_psw (x : Chip) (n : Fin 13) : (x.markStatus n).psw = x.psw := rfl
@[simp] theorem Chip.markStatus_cmi (x : Chip) (n : Fin 13) : (x.markStatus n).cmi = x.cmi := rfl
@[simp] theorem Chip.markStatus_sgt (x : Chip) (n : Fin 13) : (x.markStatus n).sgt = x.sgt := rfl
@[simp] theorem Chip.markStatus_ink (x : Chip) (n : Fin 13) : (x.markStatus n).ink = x.ink := rfl
@[simp] theorem Chip.markStatus_nmn (x : Chip) (n : Fin 13) : (x.markStatus n).nmn = x.nmn := rfl
@[simp] theorem Chip.markStatus_svc (x : Chip) (n : Fin 13) : (x.markStatus n).svc = x.svc := rfl
@[simp] theorem Chip.markStatus_fdc (x : Chip) (n : Fin 13) : (x.markStatus n).fdc = x.fdc := rfl
@[simp] theorem Chip.markStatus_flm (x : Chip) (n : Fin 13) : (x.markStatus n).flm = x.flm := rfl
@[simp] theorem Chip.markStatus_sent (x : Chip) (n : Fin 13) : (x.markStatus n).sent = x.sent := rfl
@[simp] theorem Chip.markStatus_due (x : Chip) (n : Fin 13) : (x.markStatus n).due = x.due := rfl

@[simp] theorem Chip.showChange_inReset (x old : Chip) (n : Fin 13) : (x.showChange old n).inReset = x.inReset := rfl
@[simp] theorem Chip.showChange_psw (x old : Chip) (n : Fin 13) : (x.showChange old n).psw = x.psw := rfl
@[simp] theorem Chip.showChange_cmi (x old : Chip) (n : Fin 13) : (x.showChange old n).cmi = x.cmi := rfl
@[simp] theorem Chip.showChange_sgt (x old : Chip) (n : Fin 13) : (x.showChange old n).sgt = x.sgt := rfl
@[simp] theorem Chip.showChange_ink (x old : Chip) (n : Fin 13) : (x.showChange old n).ink = x.ink := rfl
@[simp] theorem Chip.showChange_nmn (x old : Chip) (n : Fin 13) : (x.showChange old n).nmn = x.nmn := rfl
@[simp] theorem Chip.showChange_svc (x old : Chip) (n : Fin 13) : (x.showChange old n).svc = x.svc := rfl
@[simp] theorem Chip.showChange_fdc (x old : Chip) (n : Fin 13) : (x.showChange old n).fdc = x.fdc := rfl
@[simp] theorem Chip.showChange_flm (x old : Chip) (n : Fin 13) : (x.showChange old n).flm = x.flm := rfl
@[simp] theorem Chip.showChange_sent (x old : Chip) (n : Fin 13) : (x.showChange old n).sent = x.sent := rfl
@[simp] theorem Chip.showChange_due (x old : Chip) (n : Fin 13) : (x.showChange old n).due = x.due := rfl

@[simp] theorem Chip.refreshStatus_inReset (x old : Chip) : (x.refreshStatus old).inReset = x.inReset := rfl
@[simp] theorem Chip.refreshStatus_psw (x old : Chip) : (x.refreshStatus old).psw = x.psw := rfl
@[simp] theorem Chip.refreshStatus_cmi (x old : Chip) : (x.refreshStatus old).cmi = x.cmi := rfl
@[simp] theorem Chip.refreshStatus_sgt (x old : Chip) : (x.refreshStatus old).sgt = x.sgt := rfl
@[simp] theorem Chip.refreshStatus_ink (x old : Chip) : (x.refreshStatus old).ink = x.ink := rfl
@[simp] theorem Chip.refreshStatus_nmn (x old : Chip) : (x.refreshStatus old).nmn = x.nmn := rfl
@[simp] theorem Chip.refreshStatus_svc (x old : Chip) : (x.refreshStatus old).svc = x.svc := rfl
@[simp] theorem Chip.refreshStatus_fdc (x old : Chip) : (x.refreshStatus old).fdc = x.fdc := rfl
@[simp] theorem Chip.refreshStatus_flm (x old : Chip) : (x.refreshStatus old).flm = x.flm := rfl
@[simp] theorem Chip.refreshStatus_sent (x old : Chip) : (x.refreshStatus old).sent = x.sent := rfl
@[simp] theorem Chip.refreshStatus_due (x old : Chip) : (x.refreshStatus old).due = x.due := rfl

@[simp] theorem Chip.feedStage_inReset (x : Chip) (f : FeedController → FeedController) : (x.feedStage f).inReset = x.inReset :=
  rfl
@[simp] theorem Chip.feedStage_psw (x : Chip) (f : FeedController → FeedController) : (x.feedStage f).psw = x.psw :=
  rfl
@[simp] theorem Chip.feedStage_cmi (x : Chip) (f : FeedController → FeedController) : (x.feedStage f).cmi = x.cmi :=
  rfl
@[simp] theorem Chip.feedStage_sgt (x : Chip) (f : FeedController → FeedController) : (x.feedStage f).sgt = x.sgt :=
  rfl
@[simp] theorem Chip.feedStage_ink (x : Chip) (f : FeedController → FeedController) : (x.feedStage f).ink = x.ink :=
  rfl
@[simp] theorem Chip.feedStage_nmn (x : Chip) (f : FeedController → FeedController) : (x.feedStage f).nmn = x.nmn :=
  rfl
@[simp] theorem Chip.feedStage_svc (x : Chip) (f : FeedController → FeedController) : (x.feedStage f).svc = x.svc :=
  rfl
@[simp] theorem Chip.feedStage_fdc (x : Chip) (f : FeedController → FeedController) : (x.feedStage f).fdc = f x.fdc := rfl
@[simp] theorem Chip.feedStage_flm (x : Chip) (f : FeedController → FeedController) : (x.feedStage f).flm = x.flm :=
  rfl
@[simp] theorem Chip.feedStage_sent (x : Chip) (f : FeedController → FeedController) : (x.feedStage f).sent = x.sent :=
  rfl
@[simp] theorem Chip.feedStage_due (x : Chip) (f : FeedController → FeedController) : (x.feedStage f).due = x.due :=
  rfl

@[simp] theorem Chip.account_markStatus (x : Chip) (n : Fin 13) (j : Channel) : (x.markStatus n).account j = x.account j := rfl
@[simp] theorem Chip.account_showChange (x old : Chip) (n : Fin 13) (j : Channel) : (x.showChange old n).account j = x.account j := rfl
@[simp] theorem Chip.account_refreshStatus (x old : Chip) (j : Channel) : (x.refreshStatus old).account j = x.account j := rfl
@[simp] theorem Chip.cartridge_markStatus (x : Chip) (n : Fin 13) (j : Channel) : (x.markStatus n).cartridge j = x.cartridge j := rfl
@[simp] theorem Chip.cartridge_showChange (x old : Chip) (n : Fin 13) (j : Channel) : (x.showChange old n).cartridge j = x.cartridge j := rfl
@[simp] theorem Chip.cartridge_refreshStatus (x old : Chip) (j : Channel) : (x.refreshStatus old).cartridge j = x.cartridge j := rfl
@[simp] theorem Chip.refill_markStatus (x : Chip) (n : Fin 13) (j : Channel) : (x.markStatus n).refill j = x.refill j := rfl
@[simp] theorem Chip.refill_showChange (x old : Chip) (n : Fin 13) (j : Channel) : (x.showChange old n).refill j = x.refill j := rfl
@[simp] theorem Chip.refill_refreshStatus (x old : Chip) (j : Channel) : (x.refreshStatus old).refill j = x.refill j := rfl
@[simp] theorem Chip.owed_markStatus (x : Chip) (n : Fin 13) (j : Channel) : (x.markStatus n).owed j = x.owed j := rfl
@[simp] theorem Chip.owed_showChange (x old : Chip) (n : Fin 13) (j : Channel) : (x.showChange old n).owed j = x.owed j := rfl
@[simp] theorem Chip.owed_refreshStatus (x old : Chip) (j : Channel) : (x.refreshStatus old).owed j = x.owed j := rfl
@[simp] theorem Chip.platen_markStatus (x : Chip) (n : Fin 13) : (x.markStatus n).platen = x.platen := rfl
@[simp] theorem Chip.platen_showChange (x old : Chip) (n : Fin 13) : (x.showChange old n).platen = x.platen := rfl
@[simp] theorem Chip.platen_refreshStatus (x old : Chip) : (x.refreshStatus old).platen = x.platen := rfl

/-! ## The sheets that RESTART removes (R125) -/

/-- A journal record asked for changes the ordered list, or the counts of drops with the status set, and nothing else. -/
theorem Chip.journal_rpw (x : Chip) (r : JournalRecord) : ∃ st ord ov dr fd, x.journal r = x.onRpw fun w =>
    { w with statusSet := st, ordered := ord, overflow := ov, dropped := dr, firstDrop := fd } := by
  unfold Chip.journal Chip.onRpw
  dsimp only
  split
  · exact ⟨x.rpw.statusSet, _, x.rpw.overflow, x.rpw.dropped, x.rpw.firstDrop, rfl⟩
  · simp only [ReportWriter.drop, ReportWriter.mark_eq]
    exact ⟨_, x.rpw.ordered, _, _, _, rfl⟩

/-- A removal by RESTART takes the sheet from the queue and tells the report writer; it changes nothing else. -/
theorem Chip.restartRemoval_eq (x : Chip) (h : Sheet) : ∃ st ord ov dr fd, x.restartRemoval h =
    (x.onFdc fun d => { d with sheets := d.sheets.filter fun a => a.id != h.id }).onRpw fun w =>
      { w with statusSet := st, ordered := ord, overflow := ov, dropped := dr, firstDrop := fd } := by
  obtain ⟨st, ord, ov, dr, fd, e⟩ := x.journal_rpw (h.removedRecord .cancelled)
  unfold Chip.restartRemoval Chip.leaveQueue Chip.tellGate
  dsimp only
  rw [Chip.showChange_eq, Chip.showChange_eq, e]
  repeat' split
  all_goals
    simp only [Chip.markStatus, Chip.onRpw, Chip.onFdc, ReportWriter.mark_eq]
    exact ⟨_, ord, ov, dr, fd, rfl⟩

/-- RESTART empties the sheet queue and tells the report writer; it changes nothing else of the part there. -/
theorem Chip.restartSheets_eq (x : Chip) : ∃ st ord ov dr fd, x.restartSheets =
    (x.onFdc fun d => { d with sheets := [] }).onRpw fun w =>
      { w with statusSet := st, ordered := ord, overflow := ov, dropped := dr, firstDrop := fd } := by
  suffices h : ∀ (l : List Sheet) (y : Chip), ∃ st ord ov dr fd, l.foldl Chip.restartRemoval y =
      (y.onFdc fun d => { d with sheets := d.sheets.filter fun a => !l.any fun b => b.id == a.id }).onRpw fun w =>
        { w with statusSet := st, ordered := ord, overflow := ov, dropped := dr, firstDrop := fd } by
    obtain ⟨st, ord, ov, dr, fd, e⟩ := h x.fdc.sheets x
    refine ⟨st, ord, ov, dr, fd, e.trans ?_⟩
    have : (x.fdc.sheets.filter fun a => !x.fdc.sheets.any fun b => b.id == a.id) = [] := by
      refine List.filter_eq_nil_iff.mpr fun a ha => ?_
      simp only [Bool.not_eq_true', Bool.not_eq_false]
      exact List.any_eq_true.mpr ⟨a, ha, beq_self_eq_true _⟩
    simp only [Chip.onFdc, this]
  intro l
  induction l with
  | nil =>
    intro y
    refine ⟨y.rpw.statusSet, y.rpw.ordered, y.rpw.overflow, y.rpw.dropped, y.rpw.firstDrop, ?_⟩
    have : (y.fdc.sheets.filter fun _ => true) = y.fdc.sheets := List.filter_eq_self.mpr fun _ _ => rfl
    simp only [List.foldl_nil, List.any_nil, Bool.not_false, Chip.onFdc, Chip.onRpw, this]
  | cons a l ih =>
    intro y
    obtain ⟨st, ord, ov, dr, fd, e⟩ := y.restartRemoval_eq a
    obtain ⟨st', ord', ov', dr', fd', e'⟩ := ih (y.restartRemoval a)
    refine ⟨st', ord', ov', dr', fd', ?_⟩
    rw [List.foldl_cons, e', e]
    have : ∀ s : List Sheet, ((s.filter fun b => b.id != a.id).filter fun b => !l.any fun c => c.id == b.id) =
        s.filter fun b => !(a :: l).any fun c => c.id == b.id := by
      intro s
      rw [List.filter_filter]
      refine List.filter_congr fun b _ => ?_
      rw [List.any_cons, Bool.not_or, Bool.and_comm, bne, Bool.beq_comm]
    simp only [Chip.onFdc, Chip.onRpw, this]

/-! ## Events -/

/-- Outside RESET an event is its own effect followed by the end of the event. -/
theorem State.event_eq (s : State) (f : Chip → Chip) (h : s.chip.inReset = false) :
    ({ s with chip := s.chip.event f } : State) = s.after (f s.chip) := by
  simp [Chip.event, h, State.after]

/-- While RESET is asserted no event happens. -/
theorem State.event_inReset (s : State) (f : Chip → Chip) (h : s.chip.inReset = true) :
    ({ s with chip := s.chip.event f } : State) = s := by
  simp [Chip.event, h]

end Sys2Proof.Machine
end

