-- ==== Sys2Proof/Laws/Acts.lean ====
section
/-! SUPPORT. What the blocks can do, said once. Every operation of a block is a chain of `Act`s, each a change of one block within
stated limits; what every `Act` leaves alone, every operation leaves alone. -/

namespace Sys2Proof.Machine

/-- What no block operation touches: the pin, the slots, the forward queues of the C-port and the writer, the reads issued, the
arbiter, the time base and the reserved place. -/
structure Outer where
  inReset : Bool
  shadows : Vector (Vector Byte 64) 16
  slots : Vector SlotState 16
  nextSlot : Fin 16
  straps : BitVec 3
  cQueue : List Forward
  writer : Option WriterWrite
  outstanding : List Outstanding
  headRun : Nat
  preference : Preference
  cForwarded : Nat
  nextRead : Nat
  timeBase : Nat
  replyReserved : Bool

def Chip.outer (x : Chip) : Outer :=
  { inReset := x.inReset, shadows := x.cmi.shadows, slots := x.cmi.slots, nextSlot := x.cmi.nextSlot,
    straps := x.psw.straps, cQueue := x.psw.cQueue, writer := x.psw.writer, outstanding := x.psw.outstanding,
    headRun := x.psw.headRun, preference := x.psw.preference, cForwarded := x.psw.cForwarded,
    nextRead := x.psw.nextRead, timeBase := x.rpw.timeBase, replyReserved := x.rpw.replyReserved }

/-- A pL remainder is left as it was or within 0 to 999 (R54). -/
def remainderOk (a b : Account) : Prop := b.remainder = a.remainder ∨ b.remainder ≤ 999

/-- One change of one block, within its limits. -/
inductive Act : Chip → Chip → Prop where
  | sgt (x : Chip) (f : Gate → Gate) : Act x (x.onSgt f)
  | nmn (x : Chip) (f : NozzleMonitor → NozzleMonitor) : Act x (x.onNmn f)
  | svc (x : Chip) (f : ServiceController → ServiceController) : Act x (x.onSvc f)
  | fdc (x : Chip) (f : FeedController → FeedController) (h : (f x.fdc).sheets.length ≤ x.fdc.sheets.length) :
      Act x (x.onFdc f)
  | ink (x : Chip) (v : Six InkChannel)
      (h : ∀ k, remainderOk (x.ink.get k).account (v.get k).account) : Act x { x with ink := v }
  | flm (x : Chip) (f : LinkMaster → LinkMaster)
      (hq : x.flm.queue.length ≤ Config.linkPlaces → (f x.flm).queue.length ≤ Config.linkPlaces)
      (hl : (f x.flm).link = .ended → x.flm.link = .ended) : Act x (x.onFlm f)
  | rpw (x : Chip) (f : ReportWriter → ReportWriter) (ht : (f x.rpw).timeBase = x.rpw.timeBase)
      (hr : (f x.rpw).replyReserved = x.rpw.replyReserved)
      (hp : x.rpw.placesTaken ≤ Config.orderedPlaces → (f x.rpw).placesTaken ≤ Config.orderedPlaces) :
      Act x (x.onRpw f)
  | psw (x : Chip) (f : PortSwitch → PortSwitch) (h : (x.onPsw f).outer = x.outer) : Act x (x.onPsw f)
  | cmi (x : Chip) (f : Intake → Intake) (h : (x.onCmi f).outer = x.outer) : Act x (x.onCmi f)
  | emit (x : Chip) (e : Emission) : Act x (x.emit e)
  | due (x : Chip) (d : Due) : Act x { x with due := d }

/-- A chain of such changes. -/
inductive Acts : Chip → Chip → Prop where
  | refl (x : Chip) : Acts x x
  | step {x y z : Chip} (h : Acts x y) (a : Act y z) : Acts x z

theorem Acts.trans {x y z : Chip} (h : Acts x y) (g : Acts y z) : Acts x z := by
  induction g with
  | refl => exact h
  | step _ a ih => exact .step ih a

/-! ## What a chain leaves alone -/

theorem Act.outer {x y : Chip} (a : Act x y) : y.outer = x.outer := by
  cases a with
  | rpw f ht hr hp => simp [Chip.outer, ht, hr]
  | psw f h => exact h
  | cmi f h => exact h
  | _ => rfl

theorem Acts.outer {x y : Chip} (h : Acts x y) : y.outer = x.outer := by
  induction h with
  | refl => rfl
  | step _ a ih => rw [a.outer, ih]

theorem Act.ordered {x y : Chip} (a : Act x y) (h : x.orderedWithinLimit) : y.orderedWithinLimit := by
  cases a with
  | rpw f ht hr hp => exact hp h
  | _ => exact h

theorem Acts.ordered {x y : Chip} (g : Acts x y) (h : x.orderedWithinLimit) : y.orderedWithinLimit := by
  induction g with
  | refl => exact h
  | step _ a ih => exact a.ordered ih

theorem Act.linkQueue {x y : Chip} (a : Act x y) (h : x.linkWithinLimit) : y.linkWithinLimit := by
  cases a with
  | flm f hq hl => exact hq h
  | _ => exact h

theorem Acts.linkQueue {x y : Chip} (g : Acts x y) (h : x.linkWithinLimit) : y.linkWithinLimit := by
  induction g with
  | refl => exact h
  | step _ a ih => exact a.linkQueue ih

theorem Act.linkState {x y : Chip} (a : Act x y) (h : y.flm.link = .ended) : x.flm.link = .ended := by
  cases a with
  | flm f hq hl => exact hl h
  | _ => exact h

theorem Acts.linkState {x y : Chip} (g : Acts x y) (h : y.flm.link = .ended) : x.flm.link = .ended := by
  induction g with
  | refl => exact h
  | step _ a ih => exact ih (a.linkState h)

theorem Act.sheets {x y : Chip} (a : Act x y) : y.fdc.sheets.length ≤ x.fdc.sheets.length := by
  cases a with
  | fdc f h => exact h
  | _ => exact Nat.le_refl _

theorem Acts.sheets {x y : Chip} (g : Acts x y) : y.fdc.sheets.length ≤ x.fdc.sheets.length := by
  induction g with
  | refl => exact Nat.le_refl _
  | step _ a ih => exact Nat.le_trans a.sheets ih

theorem Act.remainders {x y : Chip} (a : Act x y) (h : x.remaindersWithinLimit) : y.remaindersWithinLimit := by
  cases a with
  | ink v hv =>
    intro k
    rcases hv k with e | e
    · exact Nat.le_trans (Nat.le_of_eq e) (h k)
    · exact e
  | _ => exact h

theorem Acts.remainders {x y : Chip} (g : Acts x y) (h : x.remaindersWithinLimit) : y.remaindersWithinLimit := by
  induction g with
  | refl => exact h
  | step _ a ih => exact a.remainders ih

/-! ## The changes as steps of a chain -/

theorem Acts.onSgt {x y : Chip} (h : Acts x y) (f : Gate → Gate) : Acts x (y.onSgt f) := .step h (.sgt y f)
theorem Acts.onNmn {x y : Chip} (h : Acts x y) (f : NozzleMonitor → NozzleMonitor) : Acts x (y.onNmn f) :=
  .step h (.nmn y f)
theorem Acts.onSvc {x y : Chip} (h : Acts x y) (f : ServiceController → ServiceController) : Acts x (y.onSvc f) :=
  .step h (.svc y f)
theorem Acts.onCycle {x y : Chip} (h : Acts x y) (f : Cycle → Cycle) : Acts x (y.onCycle f) := .step h (.svc y _)
theorem Acts.emit {x y : Chip} (h : Acts x y) (e : Emission) : Acts x (y.emit e) := .step h (.emit y e)
theorem Acts.callArming {x y : Chip} (h : Acts x y) : Acts x y.callArming := .step h (.due y _)
theorem Acts.callAdmission {x y : Chip} (h : Acts x y) : Acts x y.callAdmission := .step h (.due y _)
theorem Acts.noticeInk {x y : Chip} (h : Acts x y) : Acts x y.noticeInk := .step h (.due y _)

theorem Acts.onFdc {x y : Chip} (h : Acts x y) (f : FeedController → FeedController)
    (hf : (f y.fdc).sheets.length ≤ y.fdc.sheets.length) : Acts x (y.onFdc f) := .step h (.fdc y f hf)

theorem Acts.onInk {x y : Chip} (h : Acts x y) (k : Channel) (f : InkChannel → InkChannel)
    (hf : remainderOk (y.ink.get k).account (f (y.ink.get k)).account) : Acts x (y.onInk k f) := by
  refine .step h (.ink y _ fun j => ?_)
  rw [Six.get_set]
  by_cases e : j = k
  · subst e; simpa using hf
  · simp only [e, if_false]; exact Or.inl rfl

theorem Acts.onAccount {x y : Chip} (h : Acts x y) (k : Channel) (f : Account → Account)
    (hf : remainderOk (y.account k) (f (y.account k))) : Acts x (y.onAccount k f) := Acts.onInk h k _ hf
theorem Acts.onCartridge {x y : Chip} (h : Acts x y) (k : Channel) (f : Cartridge → Cartridge) :
    Acts x (y.onCartridge k f) := Acts.onInk h k _ (Or.inl rfl)
theorem Acts.onRefill {x y : Chip} (h : Acts x y) (k : Channel) (f : Refill → Refill) :
    Acts x (y.onRefill k f) := Acts.onInk h k _ (Or.inl rfl)

theorem Acts.foldl {α : Type} {x : Chip} (f : Chip → α → Chip) (hf : ∀ z a, Acts x z → Acts x (f z a)) (l : List α)
    {y : Chip} (h : Acts x y) : Acts x (l.foldl f y) := by
  induction l generalizing y with
  | nil => exact h
  | cons a l ih => exact ih (hf y a h)

/-! ## The journal and the status set -/

theorem ReportWriter.placesTaken_enter (w : ReportWriter) (r : JournalRecord) (n : Nat) (h : w.hasRoom = true) :
    (w.enter r n).placesTaken ≤ Config.orderedPlaces := by
  have h1 : w.placesTaken < Config.orderedPlaces := (of_decide_eq_true h).1
  have h2 : (w.enter r n).placesTaken = w.placesTaken + 1 := by
    simp only [ReportWriter.enter, ReportWriter.placesTaken, List.length_append, List.length_cons, List.length_nil]
    exact Nat.add_right_comm _ _ _
  omega

theorem ReportWriter.drop_eq (w : ReportWriter) : w.drop =
    { w with overflow := true, dropped := addCount w.dropped 1,
             firstDrop := if w.overflow then w.firstDrop else w.timeBase,
             statusSet := if w.statusSet.contains 0 then w.statusSet else w.statusSet ++ [0] } := by
  simp only [ReportWriter.drop, ReportWriter.mark_eq]

theorem Acts.journal {x y : Chip} (h : Acts x y) (r : JournalRecord) : Acts x (y.journal r) := by
  refine .step h (.rpw y _ ?_ ?_ ?_)
  · split
    · rfl
    · rw [ReportWriter.drop_eq]
  · split
    · rfl
    · rw [ReportWriter.drop_eq]
  · split
    · rename_i hr; intro _; exact ReportWriter.placesTaken_enter _ _ _ hr
    · rw [ReportWriter.drop_eq]; exact id

theorem Acts.journalOverflow {x y : Chip} (h : Acts x y) : Acts x y.journalOverflow := by
  refine .step h (.rpw y _ ?_ ?_ ?_)
  · split
    · rw [ReportWriter.mark_timeBase]; rfl
    · rfl
  · split
    · rw [ReportWriter.mark_replyReserved]; rfl
    · rfl
  · split
    · rename_i hr
      simp only [Bool.and_eq_true] at hr
      rw [ReportWriter.mark_placesTaken]
      intro _; exact ReportWriter.placesTaken_enter _ _ _ hr.2
    · exact id

theorem Acts.markStatus {x y : Chip} (h : Acts x y) (n : Fin 13) : Acts x (y.markStatus n) :=
  .step h (.rpw y _ (ReportWriter.mark_timeBase _ _) (ReportWriter.mark_replyReserved _ _)
    (by rw [ReportWriter.mark_placesTaken]; exact id))

/-! ## The status set (R168) -/

theorem Acts.showChange {z x : Chip} (hz : Acts z x) (old : Chip) (n : Fin 13) : Acts z (x.showChange old n) := by
  rw [Chip.showChange_eq]
  split
  · exact hz
  · exact Acts.markStatus hz n

theorem Acts.refreshStatus {z x : Chip} (hz : Acts z x) (old : Chip) : Acts z (x.refreshStatus old) := by
  rw [Chip.refreshStatus_eq]
  refine Acts.foldl _ (fun y n hy => ?_) _ hz
  split
  · exact hy
  · exact Acts.markStatus hy n

/-- The refreshing asks of the state before the event only what the status records showed of it. -/
theorem Chip.refreshStatus_congr (x : Chip) {old old' : Chip} (h : ∀ n, statusFields old n = statusFields old' n) :
    x.refreshStatus old = x.refreshStatus old' := by
  unfold Chip.refreshStatus; simp only [h]

theorem Acts.feedStage {x y : Chip} (h : Acts x y) (f : FeedController → FeedController)
    (hf : (f y.fdc).sheets.length ≤ y.fdc.sheets.length) : Acts x (y.feedStage f) := (h.onFdc f hf).refreshStatus _

/-! ## What the blocks hear of -/

theorem Acts.noticeNext {z x : Chip} (h : Acts z x) (old : Chip) : Acts z (x.noticeNext old) := by
  unfold Chip.noticeNext; split
  · exact h
  · exact Acts.callArming h

theorem Acts.setReadPhase {x y : Chip} (h : Acts x y) (p : Port) (id : Nat) (f : ReadPhase) :
    Acts x (y.setReadPhase p id f) := by
  refine .step h (.psw y _ ?_); cases p <;> rfl

/-! ## Accounts -/

theorem remainderOk_takeInk (a : Account) (n : Nat) : remainderOk a (a.takeInk n) := by
  simp only [Account.takeInk]; split <;> exact Or.inl rfl

theorem remainderOk_mod (a b : Account) (n : Nat) (h : b.remainder = n % 1000) : remainderOk a b :=
  Or.inr (by omega)

/-! ## Sheets and rolls -/

@[simp] theorem FeedController.onRoll_sheets (d : FeedController) (n : RollNo) (f : Roll → Roll) :
    (d.onRoll n f).sheets = d.sheets := by cases n <;> rfl

theorem Acts.sheets_filter (p : Sheet → Bool) (l : List Sheet) : (l.filter p).length ≤ l.length :=
  List.length_filter_le _ _

/-! ## The link (R147, R148, R150) -/

theorem takeFirst_length {α : Type} (p : α → Bool) (l : List α) (a : α) (rest : List α)
    (h : takeFirst p l = some (a, rest)) : rest.length + 1 = l.length := by
  induction l generalizing a rest with
  | nil => simp [takeFirst] at h
  | cons b l ih =>
    simp only [takeFirst] at h
    split at h
    · simp only [Option.some.injEq, Prod.mk.injEq] at h; simp [← h.2]
    · split at h
      · rename_i c rest' e
        simp only [Option.some.injEq, Prod.mk.injEq] at h
        rw [← h.2]; simp [ih _ _ e]
      · exact absurd h (by simp)

theorem LinkMaster.grantPlace_queue (m : LinkMaster) : m.grantPlace.queue.length ≤ m.queue.length + 1 := by
  simp only [LinkMaster.grantPlace]; repeat' split
  all_goals simp

@[simp] theorem LinkMaster.grantPlace_link (m : LinkMaster) : m.grantPlace.link = m.link := by
  simp only [LinkMaster.grantPlace]; repeat' split
  all_goals rfl

theorem LinkMaster.begin_queue (m : LinkMaster) (now : Nat) : (m.begin now).queue.length ≤ m.queue.length := by
  simp only [LinkMaster.begin]
  split
  · split
    · rename_i o rest e
      have hl := takeFirst_length _ _ _ _ e
      split
      · exact Nat.le_trans (LinkMaster.grantPlace_queue _) (Nat.le_of_eq hl)
      · show rest.length ≤ _
        omega
    · exact Nat.le_refl _
  · exact Nat.le_refl _
  · exact Nat.le_refl _

theorem LinkMaster.begin_link (m : LinkMaster) (now : Nat) (h : (m.begin now).link = .ended) : m.link = .ended := by
  simp only [LinkMaster.begin] at h
  split at h
  · split at h
    · split at h <;> simp at h
    · exact h
  · exact h
  · rename_i e; exact e

theorem LinkMaster.offer_queue (m : LinkMaster) (o : LinkOrder) (now : Nat)
    (h : m.queue.length ≤ Config.linkPlaces) : (m.offer o now).queue.length ≤ Config.linkPlaces := by
  simp only [LinkMaster.offer]
  split
  · exact h
  · split
    · simp only [LinkMaster.decline]; split <;> exact h
    · refine Nat.le_trans (LinkMaster.begin_queue _ _) ?_
      simp only [List.length_append, List.length_cons, List.length_nil]; omega

theorem LinkMaster.offer_link (m : LinkMaster) (o : LinkOrder) (now : Nat) (h : (m.offer o now).link = .ended) :
    m.link = .ended := by
  simp only [LinkMaster.offer] at h
  split at h
  · exact h
  · split at h
    · simp only [LinkMaster.decline] at h; split at h <;> exact h
    · have := LinkMaster.begin_link _ now h
      exact this

theorem Acts.offer {x y : Chip} (h : Acts x y) (o : LinkOrder) : Acts x (y.offer o) :=
  .step h (.flm y _ (LinkMaster.offer_queue _ _ _) (LinkMaster.offer_link _ _ _))

theorem Acts.onFlm {x y : Chip} (h : Acts x y) (f : LinkMaster → LinkMaster) (hq : (f y.flm).queue = y.flm.queue)
    (hl : (f y.flm).link = y.flm.link) : Acts x (y.onFlm f) :=
  .step h (.flm y f (by rw [hq]; exact id) (by rw [hl]; exact id))

theorem LinkMaster.grantFreed_queue (n : Nat) (m : LinkMaster) (h : m.queue.length ≤ Config.linkPlaces) :
    (m.grantFreed n).queue.length ≤ Config.linkPlaces := by
  induction n generalizing m with
  | zero => exact h
  | succ n ih =>
    simp only [LinkMaster.grantFreed]
    split
    · rename_i hl; exact ih _ (Nat.le_trans (LinkMaster.grantPlace_queue m) hl)
    · exact h

theorem LinkMaster.grantFreed_link (n : Nat) (m : LinkMaster) : (m.grantFreed n).link = m.link := by
  induction n generalizing m with
  | zero => rfl
  | succ n ih => simp only [LinkMaster.grantFreed]; split <;> simp [ih]

theorem Acts.restartLink {x y : Chip} (h : Acts x y) : Acts x (y.onFlm LinkMaster.restart) := by
  refine .step h (.flm y _ (fun hq => ?_) (fun hl => ?_))
  · exact LinkMaster.grantFreed_queue _ _ (Nat.le_trans (List.length_filter_le _ _) hq)
  · simpa [LinkMaster.restart, LinkMaster.grantFreed_link] using hl

/-! ## Ink -/

theorem Acts.onLiveSwath {z x : Chip} (hz : Acts z x) (f : Swath → Swath) : Acts z (x.onLiveSwath f) := by
  unfold Chip.onLiveSwath
  try dsimp only
  repeat' split
  all_goals repeat'
    first
    | with_reducible assumption
    | with_reducible apply Acts.onSgt
    | split

theorem Acts.setRemaining {z x : Chip} (hz : Acts z x) (h : Holder) (k : Channel) (amount : Nat) : Acts z (x.setRemaining h k amount) := by
  unfold Chip.setRemaining
  try dsimp only
  repeat' split
  all_goals repeat'
    first
    | with_reducible assumption
    | with_reducible apply Acts.onLiveSwath
    | with_reducible apply Acts.onCycle
    | split

theorem Acts.journalLevelStatus {z x : Chip} (hz : Acts z x) (k : Channel) (old : LevelStatus) : Acts z (x.journalLevelStatus k old) := by
  unfold Chip.journalLevelStatus
  try dsimp only
  repeat' split
  all_goals repeat'
    first
    | with_reducible assumption
    | with_reducible apply Acts.journal
    | split

theorem Acts.startRefill {z x : Chip} (hz : Acts z x) (k : Channel) (ignoreMark : Bool) : Acts z (x.startRefill k ignoreMark) := by
  unfold Chip.startRefill
  try dsimp only
  repeat' split
  all_goals repeat'
    first
    | with_reducible assumption
    | with_reducible apply Acts.markStatus
    | with_reducible apply Acts.callArming
    | with_reducible apply Acts.offer
    | with_reducible apply Acts.onRefill
    | with_reducible refine Acts.onAccount ?_ _ _ ?_
    | split
    | exact Or.inl rfl
    | exact remainderOk_takeInk _ _
    | exact remainderOk_mod _ _ _ rfl

theorem Acts.reserve {z x : Chip} (hz : Acts z x) (h : Holder) (amounts : Six Nat) : Acts z (x.reserve h amounts) := by
  unfold Chip.reserve
  try dsimp only
  repeat' split
  all_goals repeat'
    first
    | with_reducible assumption
    | with_reducible apply Acts.markStatus
    | with_reducible refine Acts.onAccount ?_ _ _ ?_
    | with_reducible apply Acts.noticeInk
    | (with_reducible refine Acts.foldl _ (fun _ _ _ => ?_) _ ?_)
    | split
    | exact Or.inl rfl
    | exact remainderOk_takeInk _ _
    | exact remainderOk_mod _ _ _ rfl

theorem Acts.refuseReservation {z x : Chip} (hz : Acts z x) (amounts : Six Nat) : Acts z (x.refuseReservation amounts) := by
  unfold Chip.refuseReservation
  try dsimp only
  repeat' split
  all_goals repeat'
    first
    | with_reducible assumption
    | with_reducible apply Acts.startRefill
    | (with_reducible refine Acts.foldl _ (fun _ _ _ => ?_) _ ?_)
    | split

theorem Acts.applyConsumed {z x : Chip} (hz : Acts z x) (k : Channel) (n : Nat) (source : InkSource) : Acts z (x.applyConsumed k n source) := by
  unfold Chip.applyConsumed
  try dsimp only
  repeat' split
  all_goals repeat'
    first
    | with_reducible assumption
    | with_reducible apply Acts.showChange
    | with_reducible apply Acts.startRefill
    | with_reducible apply Acts.journalLevelStatus
    | with_reducible apply Acts.setRemaining
    | with_reducible apply Acts.journal
    | with_reducible refine Acts.onAccount ?_ _ _ ?_
    | split
    | exact Or.inl rfl
    | exact remainderOk_takeInk _ _
    | exact remainderOk_mod _ _ _ rfl

theorem Acts.consume {z x : Chip} (hz : Acts z x) (k : Channel) (pl : Nat) (source : InkSource) : Acts z (x.consume k pl source) := by
  unfold Chip.consume
  try dsimp only
  repeat' split
  all_goals repeat'
    first
    | with_reducible assumption
    | with_reducible apply Acts.showChange
    | with_reducible apply Acts.applyConsumed
    | with_reducible refine Acts.onAccount ?_ _ _ ?_
    | with_reducible apply Acts.noticeInk
    | split
    | exact Or.inl rfl
    | exact remainderOk_takeInk _ _
    | exact remainderOk_mod _ _ _ rfl

theorem Acts.releaseChannel {z x : Chip} (hz : Acts z x) (h : Holder) (k : Channel) : Acts z (x.releaseChannel h k) := by
  unfold Chip.releaseChannel
  try dsimp only
  repeat' split
  all_goals repeat'
    first
    | with_reducible assumption
    | with_reducible apply Acts.markStatus
    | with_reducible apply Acts.setRemaining
    | with_reducible refine Acts.onAccount ?_ _ _ ?_
    | with_reducible apply Acts.noticeInk
    | with_reducible apply Acts.callAdmission
    | split
    | exact Or.inl rfl
    | exact remainderOk_takeInk _ _
    | exact remainderOk_mod _ _ _ rfl

theorem Acts.release {z x : Chip} (hz : Acts z x) (h : Holder) : Acts z (x.release h) := by
  unfold Chip.release
  try dsimp only
  repeat' split
  all_goals repeat'
    first
    | with_reducible assumption
    | with_reducible apply Acts.releaseChannel
    | (with_reducible refine Acts.foldl _ (fun _ _ _ => ?_) _ ?_)
    | split

theorem Acts.discardDebt {z x : Chip} (hz : Acts z x) (k : Channel) : Acts z (x.discardDebt k) := by
  unfold Chip.discardDebt
  try dsimp only
  repeat' split
  all_goals repeat'
    first
    | with_reducible assumption
    | with_reducible apply Acts.showChange
    | with_reducible apply Acts.journal
    | with_reducible refine Acts.onInk ?_ _ _ ?_
    | split
    | exact Or.inl rfl

theorem Acts.owe {z x : Chip} (hz : Acts z x) (k : Channel) (serial amount : Nat) : Acts z (x.owe k serial amount) := by
  unfold Chip.owe
  try dsimp only
  repeat' split
  all_goals repeat'
    first
    | with_reducible assumption
    | with_reducible apply Acts.discardDebt
    | with_reducible refine Acts.onInk ?_ _ _ ?_
    | split
    | exact Or.inl rfl

theorem Acts.placeDebit {z x : Chip} (hz : Acts z x) (k : Channel) : Acts z (x.placeDebit k) := by
  unfold Chip.placeDebit
  try dsimp only
  repeat' split
  all_goals repeat'
    first
    | with_reducible assumption
    | with_reducible apply Acts.offer
    | split

theorem Acts.creditMoved {z x : Chip} (hz : Acts z x) (k : Channel) : Acts z (x.creditMoved k) := by
  unfold Chip.creditMoved
  try dsimp only
  repeat' split
  all_goals repeat'
    first
    | with_reducible assumption
    | with_reducible apply Acts.showChange
    | with_reducible apply Acts.owe
    | with_reducible apply Acts.journalLevelStatus
    | with_reducible refine Acts.onAccount ?_ _ _ ?_
    | with_reducible apply Acts.noticeInk
    | with_reducible apply Acts.callAdmission
    | split
    | exact Or.inl rfl
    | exact remainderOk_takeInk _ _
    | exact remainderOk_mod _ _ _ rfl

theorem Acts.refillIdle {z x : Chip} (hz : Acts z x) (k : Channel) : Acts z (x.refillIdle k) := by
  unfold Chip.refillIdle
  try dsimp only
  repeat' split
  all_goals repeat'
    first
    | with_reducible assumption
    | with_reducible apply Acts.markStatus
    | with_reducible apply Acts.callArming
    | with_reducible apply Acts.startRefill
    | with_reducible refine Acts.onFlm ?_ _ ?_ ?_
    | with_reducible apply Acts.onRefill
    | with_reducible refine Acts.onAccount ?_ _ _ ?_
    | split
    | exact Or.inl rfl
    | exact remainderOk_takeInk _ _
    | exact remainderOk_mod _ _ _ rfl
    | rfl

theorem Acts.enterDebiting {z x : Chip} (hz : Acts z x) (k : Channel) : Acts z (x.enterDebiting k) := by
  unfold Chip.enterDebiting
  try dsimp only
  repeat' split
  all_goals repeat'
    first
    | with_reducible assumption
    | with_reducible apply Acts.refillIdle
    | with_reducible apply Acts.placeDebit
    | with_reducible apply Acts.onRefill
    | with_reducible refine Acts.onAccount ?_ _ _ ?_
    | split
    | exact Or.inl rfl
    | exact remainderOk_takeInk _ _
    | exact remainderOk_mod _ _ _ rfl

theorem Acts.enterPumping {z x : Chip} (hz : Acts z x) (k : Channel) : Acts z (x.enterPumping k) := by
  unfold Chip.enterPumping
  try dsimp only
  repeat' split
  all_goals repeat'
    first
    | with_reducible assumption
    | with_reducible apply Acts.onRefill
    | with_reducible refine Acts.onAccount ?_ _ _ ?_
    | split
    | exact Or.inl rfl
    | exact remainderOk_takeInk _ _
    | exact remainderOk_mod _ _ _ rfl

theorem Acts.enterStopping {z x : Chip} (hz : Acts z x) (k : Channel) (cause : StopCause) : Acts z (x.enterStopping k cause) := by
  unfold Chip.enterStopping
  try dsimp only
  repeat' split
  all_goals repeat'
    first
    | with_reducible assumption
    | with_reducible apply Acts.offer
    | with_reducible apply Acts.onRefill
    | with_reducible refine Acts.onAccount ?_ _ _ ?_
    | split
    | exact Or.inl rfl
    | exact remainderOk_takeInk _ _
    | exact remainderOk_mod _ _ _ rfl

theorem Acts.endStop {z x : Chip} (hz : Acts z x) (k : Channel) : Acts z (x.endStop k) := by
  unfold Chip.endStop
  try dsimp only
  repeat' split
  all_goals repeat'
    first
    | with_reducible assumption
    | with_reducible apply Acts.enterDebiting
    | with_reducible apply Acts.refillIdle
    | with_reducible apply Acts.creditMoved
    | split

theorem Acts.setCartridge {z x : Chip} (hz : Acts z x) (k : Channel) (state : CartridgeState) : Acts z (x.setCartridge k state) := by
  unfold Chip.setCartridge
  try dsimp only
  repeat' split
  all_goals repeat'
    first
    | with_reducible assumption
    | with_reducible apply Acts.markStatus
    | with_reducible apply Acts.startRefill
    | with_reducible apply Acts.journal
    | with_reducible apply Acts.onCartridge
    | with_reducible apply Acts.callAdmission
    | split

theorem Acts.judge {z x : Chip} (hz : Acts z x) (k : Channel) : Acts z (x.judge k) := by
  unfold Chip.judge
  try dsimp only
  repeat' split
  all_goals repeat'
    first
    | with_reducible assumption
    | with_reducible apply Acts.setCartridge
    | split

theorem Acts.judgeAgain {z x : Chip} (hz : Acts z x) (k : Channel) : Acts z (x.judgeAgain k) := by
  unfold Chip.judgeAgain
  try dsimp only
  repeat' split
  all_goals repeat'
    first
    | with_reducible assumption
    | with_reducible apply Acts.judge
    | split

theorem Acts.noticeRemaining {z x : Chip} (hz : Acts z x) (k : Channel) (old : Cartridge) : Acts z (x.noticeRemaining k old) := by
  unfold Chip.noticeRemaining
  try dsimp only
  repeat' split
  all_goals repeat'
    first
    | with_reducible assumption
    | with_reducible apply Acts.callAdmission
    | split

theorem Acts.removeCartridge {z x : Chip} (hz : Acts z x) (k : Channel) : Acts z (x.removeCartridge k) := by
  unfold Chip.removeCartridge
  try dsimp only
  repeat' split
  all_goals repeat'
    first
    | with_reducible assumption
    | with_reducible apply Acts.setCartridge
    | with_reducible apply Acts.enterStopping
    | with_reducible apply Acts.onCartridge
    | split

theorem Acts.insertCartridge {z x : Chip} (hz : Acts z x) (k : Channel) (inkType serial capacity remaining : Nat) : Acts z (x.insertCartridge k inkType serial capacity remaining) := by
  unfold Chip.insertCartridge
  try dsimp only
  repeat' split
  all_goals repeat'
    first
    | with_reducible assumption
    | with_reducible apply Acts.judge
    | with_reducible apply Acts.setCartridge
    | with_reducible apply Acts.placeDebit
    | with_reducible apply Acts.discardDebt
    | with_reducible apply Acts.onCartridge
    | split

theorem Acts.rereadCartridge {z x : Chip} (hz : Acts z x) (k : Channel) (inkType capacity remaining : Nat) : Acts z (x.rereadCartridge k inkType capacity remaining) := by
  unfold Chip.rereadCartridge
  try dsimp only
  repeat' split
  all_goals repeat'
    first
    | with_reducible assumption
    | with_reducible apply Acts.noticeRemaining
    | with_reducible apply Acts.judgeAgain
    | with_reducible apply Acts.placeDebit
    | with_reducible apply Acts.onCartridge
    | split

theorem Acts.fieldFault {z x : Chip} (hz : Acts z x) (o : LinkOrder) (k : Channel) (outcome : FrameOutcome) (amount : Option Nat) : Acts z (x.fieldFault o k outcome amount) := by
  unfold Chip.fieldFault
  try dsimp only
  repeat' split
  all_goals repeat'
    first
    | with_reducible assumption
    | with_reducible apply Acts.journal
    | split

theorem Acts.takeReadTag {z x : Chip} (hz : Acts z x) (k : Channel) (outcome : FrameOutcome) : Acts z (x.takeReadTag k outcome) := by
  unfold Chip.takeReadTag
  try dsimp only
  repeat' split
  all_goals repeat'
    first
    | with_reducible assumption
    | with_reducible apply Acts.markStatus
    | with_reducible apply Acts.fieldFault
    | with_reducible apply Acts.rereadCartridge
    | with_reducible apply Acts.insertCartridge
    | with_reducible apply Acts.removeCartridge
    | with_reducible apply Acts.onCartridge
    | split

theorem Acts.debitDone {z x : Chip} (hz : Acts z x) (k : Channel) (amount serial remaining : Nat) : Acts z (x.debitDone k amount serial remaining) := by
  unfold Chip.debitDone
  try dsimp only
  repeat' split
  all_goals repeat'
    first
    | with_reducible assumption
    | with_reducible apply Acts.fieldFault
    | with_reducible apply Acts.noticeRemaining
    | with_reducible apply Acts.judgeAgain
    | with_reducible apply Acts.judge
    | with_reducible apply Acts.onCartridge
    | with_reducible refine Acts.onInk ?_ _ _ ?_
    | split
    | exact Or.inl rfl

theorem Acts.debitingNext {z x : Chip} (hz : Acts z x) (k : Channel) (done : Bool) : Acts z (x.debitingNext k done) := by
  unfold Chip.debitingNext
  try dsimp only
  repeat' split
  all_goals repeat'
    first
    | with_reducible assumption
    | with_reducible apply Acts.refillIdle
    | with_reducible apply Acts.placeDebit
    | split

theorem Acts.takeDebit {z x : Chip} (hz : Acts z x) (k : Channel) (amount serial : Nat) (outcome : FrameOutcome) : Acts z (x.takeDebit k amount serial outcome) := by
  unfold Chip.takeDebit
  try dsimp only
  repeat' split
  all_goals repeat'
    first
    | with_reducible assumption
    | with_reducible apply Acts.debitingNext
    | with_reducible apply Acts.debitDone
    | with_reducible apply Acts.fieldFault
    | split

theorem Acts.takeLevel {z x : Chip} (hz : Acts z x) (k : Channel) (outcome : FrameOutcome) : Acts z (x.takeLevel k outcome) := by
  unfold Chip.takeLevel
  try dsimp only
  repeat' split
  all_goals repeat'
    first
    | with_reducible assumption
    | with_reducible apply Acts.showChange
    | with_reducible apply Acts.fieldFault
    | with_reducible apply Acts.startRefill
    | with_reducible apply Acts.journalLevelStatus
    | with_reducible refine Acts.onAccount ?_ _ _ ?_
    | with_reducible apply Acts.noticeInk
    | with_reducible apply Acts.callAdmission
    | split
    | exact Or.inl rfl
    | exact remainderOk_takeInk _ _
    | exact remainderOk_mod _ _ _ rfl

theorem Acts.takeTransfer {z x : Chip} (hz : Acts z x) (k : Channel) (volume : Nat) (outcome : FrameOutcome) : Acts z (x.takeTransfer k volume outcome) := by
  unfold Chip.takeTransfer
  try dsimp only
  repeat' split
  all_goals repeat'
    first
    | with_reducible assumption
    | with_reducible apply Acts.fieldFault
    | with_reducible apply Acts.enterStopping
    | with_reducible apply Acts.enterPumping
    | with_reducible apply Acts.refillIdle
    | split

theorem Acts.takeStop {z x : Chip} (hz : Acts z x) (k : Channel) (outcome : FrameOutcome) : Acts z (x.takeStop k outcome) := by
  unfold Chip.takeStop
  try dsimp only
  repeat' split
  all_goals repeat'
    first
    | with_reducible assumption
    | with_reducible apply Acts.fieldFault
    | split

theorem Acts.pumpingReply {z x : Chip} (hz : Acts z x) (k : Channel) (state : PumpState) (code moved : Nat) : Acts z (x.pumpingReply k state code moved) := by
  unfold Chip.pumpingReply
  try dsimp only
  repeat' split
  all_goals repeat'
    first
    | with_reducible assumption
    | with_reducible apply Acts.enterDebiting
    | with_reducible apply Acts.creditMoved
    | with_reducible apply Acts.journal
    | split

theorem Acts.takePumpStatus {z x : Chip} (hz : Acts z x) (k : Channel) (outcome : FrameOutcome) : Acts z (x.takePumpStatus k outcome) := by
  unfold Chip.takePumpStatus
  try dsimp only
  repeat' split
  all_goals repeat'
    first
    | with_reducible assumption
    | with_reducible apply Acts.showChange
    | with_reducible apply Acts.pumpingReply
    | with_reducible apply Acts.endStop
    | with_reducible apply Acts.onRefill
    | split

/-! ## Triggers -/

theorem Acts.listProgram {z x : Chip} (hz : Acts z x) (p : Fin 8) (cause : RequestCause) : Acts z (x.listProgram p cause) := by
  unfold Chip.listProgram
  try dsimp only
  repeat' split
  all_goals repeat'
    first
    | with_reducible assumption
    | with_reducible apply Acts.markStatus
    | with_reducible apply Acts.callArming
    | with_reducible apply Acts.onSvc
    | split

theorem Acts.fireTriggers {z x : Chip} (hz : Acts z x) (met : Program → Counters → Bool) : Acts z (x.fireTriggers met) := by
  unfold Chip.fireTriggers
  try dsimp only
  repeat' split
  all_goals repeat'
    first
    | with_reducible assumption
    | with_reducible apply Acts.listProgram
    | (with_reducible refine Acts.foldl _ (fun _ _ _ => ?_) _ ?_)
    | split

theorem Acts.onCounters {z x : Chip} (hz : Acts z x) (f : Counters → Counters) : Acts z (x.onCounters f) := by
  unfold Chip.onCounters
  try dsimp only
  repeat' split
  all_goals repeat'
    first
    | with_reducible assumption
    | with_reducible apply Acts.onSvc
    | split

theorem Acts.resetCounters {z x : Chip} (hz : Acts z x) (p : Fin 8) : Acts z (x.resetCounters p) := by
  unfold Chip.resetCounters
  try dsimp only
  repeat' split
  all_goals repeat'
    first
    | with_reducible assumption
    | with_reducible apply Acts.onSvc
    | split

theorem Acts.sheetRemoved {z x : Chip} (hz : Acts z x) : Acts z (x.sheetRemoved) := by
  unfold Chip.sheetRemoved
  try dsimp only
  repeat' split
  all_goals repeat'
    first
    | with_reducible assumption
    | with_reducible apply Acts.onCounters
    | with_reducible apply Acts.fireTriggers
    | split

theorem Acts.additionNotice {z x : Chip} (hz : Acts z x) : Acts z (x.additionNotice) := by
  unfold Chip.additionNotice
  try dsimp only
  repeat' split
  all_goals repeat'
    first
    | with_reducible assumption
    | with_reducible apply Acts.onCounters
    | with_reducible apply Acts.fireTriggers
    | split

theorem Acts.uncoveredNotice {z x : Chip} (hz : Acts z x) : Acts z (x.uncoveredNotice) := by
  unfold Chip.uncoveredNotice
  try dsimp only
  repeat' split
  all_goals repeat'
    first
    | with_reducible assumption
    | with_reducible apply Acts.fireTriggers
    | split

theorem Acts.firingBegun {z x : Chip} (hz : Acts z x) : Acts z (x.firingBegun) := by
  unfold Chip.firingBegun
  try dsimp only
  repeat' split
  all_goals repeat'
    first
    | with_reducible assumption
    | with_reducible apply Acts.fireTriggers
    | with_reducible apply Acts.onSvc
    | split

theorem Acts.firingEnded {z x : Chip} (hz : Acts z x) : Acts z (x.firingEnded) := by
  unfold Chip.firingEnded
  try dsimp only
  repeat' split
  all_goals repeat'
    first
    | with_reducible assumption
    | with_reducible apply Acts.onSvc
    | (with_reducible refine Acts.foldl _ (fun _ _ _ => ?_) _ ?_)
    | split

theorem Acts.updateIdle {z x : Chip} (hz : Acts z x) : Acts z (x.updateIdle) := by
  unfold Chip.updateIdle
  try dsimp only
  repeat' split
  all_goals repeat'
    first
    | with_reducible assumption
    | with_reducible apply Acts.onCounters
    | with_reducible apply Acts.onSvc
    | split

theorem Acts.fireIdle {z x : Chip} (hz : Acts z x) (p : Fin 8) : Acts z (x.fireIdle p) := by
  unfold Chip.fireIdle
  try dsimp only
  repeat' split
  all_goals repeat'
    first
    | with_reducible assumption
    | with_reducible apply Acts.listProgram
    | with_reducible apply Acts.onSvc
    | split

theorem Acts.firePrintTime {z x : Chip} (hz : Acts z x) (p : Fin 8) : Acts z (x.firePrintTime p) := by
  unfold Chip.firePrintTime
  try dsimp only
  repeat' split
  all_goals repeat'
    first
    | with_reducible assumption
    | with_reducible apply Acts.listProgram
    | split

/-! ## Nozzle -/

theorem Acts.fireGroup {z x : Chip} (hz : Acts z x) (k : Channel) (g : Nat) : Acts z (x.fireGroup k g) := by
  unfold Chip.fireGroup
  try dsimp only
  repeat' split
  all_goals repeat'
    first
    | with_reducible assumption
    | with_reducible apply Acts.onNmn
    | split

theorem Acts.fireChannel {z x : Chip} (hz : Acts z x) (k : Channel) : Acts z (x.fireChannel k) := by
  unfold Chip.fireChannel
  try dsimp only
  repeat' split
  all_goals repeat'
    first
    | with_reducible assumption
    | with_reducible apply Acts.onNmn
    | split

theorem Acts.fireMask {z x : Chip} (hz : Acts z x) (mask : BitVec 8) : Acts z (x.fireMask mask) := by
  unfold Chip.fireMask
  try dsimp only
  repeat' split
  all_goals repeat'
    first
    | with_reducible assumption
    | with_reducible apply Acts.fireChannel
    | (with_reducible refine Acts.foldl _ (fun _ _ _ => ?_) _ ?_)
    | split

theorem Acts.fireAll {z x : Chip} (hz : Acts z x) : Acts z (x.fireAll) := by
  unfold Chip.fireAll
  try dsimp only
  repeat' split
  all_goals repeat'
    first
    | with_reducible assumption
    | with_reducible apply Acts.onNmn
    | split

theorem Acts.addOut {z x : Chip} (hz : Acts z x) (k : Channel) (n : Nat) (origin : Origin) : Acts z (x.addOut k n origin) := by
  unfold Chip.addOut
  try dsimp only
  repeat' split
  all_goals repeat'
    first
    | with_reducible assumption
    | with_reducible apply Acts.markStatus
    | with_reducible apply Acts.callArming
    | with_reducible apply Acts.uncoveredNotice
    | with_reducible apply Acts.additionNotice
    | with_reducible apply Acts.journal
    | with_reducible apply Acts.onNmn
    | split

theorem Acts.removeOut {z x : Chip} (hz : Acts z x) (e : OutEntry) : Acts z (x.removeOut e) := by
  unfold Chip.removeOut
  try dsimp only
  repeat' split
  all_goals repeat'
    first
    | with_reducible assumption
    | with_reducible apply Acts.markStatus
    | with_reducible apply Acts.callArming
    | with_reducible apply Acts.journal
    | with_reducible apply Acts.onNmn
    | split

theorem Acts.commandOut {z x : Chip} (hz : Acts z x) (e : OutEntry) : Acts z (x.commandOut e) := by
  unfold Chip.commandOut
  try dsimp only
  repeat' split
  all_goals repeat'
    first
    | with_reducible assumption
    | with_reducible apply Acts.journal
    | with_reducible apply Acts.onNmn
    | split

theorem Acts.applyNozzle {z x : Chip} (hz : Acts z x) (c : NozzleChange) : Acts z (x.applyNozzle c) := by
  unfold Chip.applyNozzle
  try dsimp only
  repeat' split
  all_goals repeat'
    first
    | with_reducible assumption
    | with_reducible apply Acts.commandOut
    | with_reducible apply Acts.removeOut
    | with_reducible apply Acts.addOut
    | split

theorem Acts.applyPending {z x : Chip} (hz : Acts z x) (c : NozzleChange) : Acts z (x.applyPending c) := by
  unfold Chip.applyPending
  try dsimp only
  repeat' split
  all_goals repeat'
    first
    | with_reducible assumption
    | with_reducible apply Acts.applyNozzle
    | with_reducible apply Acts.journal
    | split

theorem Acts.swathGone {z x : Chip} (hz : Acts z x) : Acts z (x.swathGone) := by
  unfold Chip.swathGone
  try dsimp only
  repeat' split
  all_goals repeat'
    first
    | with_reducible assumption
    | with_reducible apply Acts.refreshStatus
    | with_reducible apply Acts.applyPending
    | with_reducible apply Acts.markStatus
    | with_reducible apply Acts.onNmn
    | (with_reducible refine Acts.foldl _ (fun _ _ _ => ?_) _ ?_)
    | split

theorem Acts.handSpit {z x : Chip} (hz : Acts z x) (k : Channel) (s : SpitSettings) : Acts z (x.handSpit k s) := by
  unfold Chip.handSpit
  try dsimp only
  repeat' split
  all_goals repeat'
    first
    | with_reducible assumption
    | with_reducible apply Acts.onNmn
    | split

theorem Acts.mergeRemovals {z x : Chip} (hz : Acts z x) (mask : BitVec 8) (entries : List (Channel × Nat)) : Acts z (x.mergeRemovals mask entries) := by
  unfold Chip.mergeRemovals
  try dsimp only
  repeat' split
  all_goals repeat'
    first
    | with_reducible assumption
    | with_reducible apply Acts.removeOut
    | (with_reducible refine Acts.foldl _ (fun _ _ _ => ?_) _ ?_)
    | split

theorem Acts.mergeAdditions {z x : Chip} (hz : Acts z x) (wanted : List (Channel × Nat)) :
    Acts z (x.mergeAdditions wanted).1 := by
  have h : ∀ (l : List (Channel × Nat)) (p : Chip × List (Channel × Nat)), Acts z p.1 →
      Acts z (l.foldl (fun (y, left) (k, n) =>
        if isOut y.nmn.outList k n then (y, left)
        else if y.nmn.outList.length < Config.outPlaces then (y.addOut k n .check, left)
        else (y, left ++ [(k, n)])) p).1 := by
    intro l
    induction l with
    | nil => intro p hp; exact hp
    | cons a l ih =>
      intro p hp
      apply ih
      dsimp only
      split
      · exact hp
      · split
        · exact Acts.addOut hp _ _ _
        · exact hp
  exact h wanted (x, []) hz

theorem Acts.mergeOverflow {z x : Chip} (hz : Acts z x) (mask : BitVec 8) (left : List (Channel × Nat)) : Acts z (x.mergeOverflow mask left) := by
  unfold Chip.mergeOverflow
  try dsimp only
  repeat' split
  all_goals repeat'
    first
    | with_reducible assumption
    | with_reducible apply Acts.markStatus
    | with_reducible apply Acts.journal
    | with_reducible apply Acts.onNmn
    | split

theorem Acts.merge {z x : Chip} (hz : Acts z x) (mask : BitVec 8) (entries : List (Channel × Nat)) :
    Acts z (x.merge mask entries) :=
  Acts.markStatus (Acts.mergeOverflow (Acts.mergeAdditions (Acts.mergeRemovals hz _ _) _) _ _) _

theorem Acts.takeReport {z x : Chip} (hz : Acts z x) (mask : BitVec 8) (entries : List (Nat × Nat)) : Acts z (x.takeReport mask entries) := by
  unfold Chip.takeReport
  try dsimp only
  repeat' split
  all_goals repeat'
    first
    | with_reducible assumption
    | with_reducible apply Acts.merge
    | with_reducible apply Acts.journal
    | split

/-! ## Gate -/

theorem Acts.withhold {z x : Chip} (hz : Acts z x) (id : Nat) : Acts z (x.withhold id) := by
  unfold Chip.withhold
  try dsimp only
  repeat' split
  all_goals repeat'
    first
    | with_reducible assumption
    | with_reducible apply Acts.setReadPhase
    | split

theorem Acts.dropHeld {z x : Chip} (hz : Acts z x) (p : HeldRead → Bool) : Acts z (x.dropHeld p) := by
  unfold Chip.dropHeld
  try dsimp only
  repeat' split
  all_goals repeat'
    first
    | with_reducible assumption
    | with_reducible apply Acts.withhold
    | with_reducible apply Acts.onSgt
    | (with_reducible refine Acts.foldl _ (fun _ _ _ => ?_) _ ?_)
    | split

theorem Acts.dropStaleHolds {z x : Chip} (hz : Acts z x) : Acts z (x.dropStaleHolds) := by
  unfold Chip.dropStaleHolds
  try dsimp only
  repeat' split
  all_goals repeat'
    first
    | with_reducible assumption
    | with_reducible apply Acts.refreshStatus
    | with_reducible apply Acts.dropHeld
    | split

theorem Acts.releaseRead {z x : Chip} (hz : Acts z x) (id swath : Nat) (addr : Addr) (len : Nat) :
    Acts z (x.releaseRead id swath addr len) := by
  unfold Chip.releaseRead
  exact .step (Acts.onSgt hz _) (.psw _ _ rfl)

theorem Acts.releaseHeld {z x : Chip} (hz : Acts z x) : Acts z (x.releaseHeld) := by
  unfold Chip.releaseHeld
  try dsimp only
  repeat' split
  all_goals repeat'
    first
    | with_reducible assumption
    | with_reducible apply Acts.releaseRead
    | with_reducible apply Acts.onSgt
    | (with_reducible refine Acts.foldl _ (fun _ _ _ => ?_) _ ?_)
    | split

theorem Acts.removeSwath {z x : Chip} (hz : Acts z x) (r : Swath) : Acts z (x.removeSwath r) := by
  unfold Chip.removeSwath
  try dsimp only
  repeat' split
  all_goals repeat'
    first
    | with_reducible assumption
    | with_reducible apply Acts.showChange
    | with_reducible apply Acts.markStatus
    | with_reducible apply Acts.onSgt
    | split

theorem Acts.unbind {z x : Chip} (hz : Acts z x) (r : Swath) : Acts z (x.unbind r) := by
  unfold Chip.unbind
  try dsimp only
  repeat' split
  all_goals repeat'
    first
    | with_reducible assumption
    | with_reducible apply Acts.showChange
    | with_reducible apply Acts.removeSwath
    | with_reducible apply Acts.swathGone
    | with_reducible apply Acts.release
    | with_reducible apply Acts.callArming
    | with_reducible apply Acts.onSgt
    | split

theorem Acts.unbindSheet {z x : Chip} (hz : Acts z x) (id : Nat) : Acts z (x.unbindSheet id) := by
  unfold Chip.unbindSheet
  try dsimp only
  repeat' split
  all_goals repeat'
    first
    | with_reducible assumption
    | with_reducible apply Acts.unbind
    | (with_reducible refine Acts.foldl _ (fun _ _ _ => ?_) _ ?_)
    | split

theorem Acts.onSwath {z x : Chip} (hz : Acts z x) (id : Nat) (f : Swath → Swath) : Acts z (x.onSwath id f) := by
  unfold Chip.onSwath
  try dsimp only
  repeat' split
  all_goals repeat'
    first
    | with_reducible assumption
    | with_reducible apply Acts.onSgt
    | split

theorem Acts.arm {z x : Chip} (hz : Acts z x) (r : Swath) (spit : Six (List Nat)) (amounts : Six Nat) : Acts z (x.arm r spit amounts) := by
  unfold Chip.arm
  try dsimp only
  repeat' split
  all_goals repeat'
    first
    | with_reducible assumption
    | with_reducible apply Acts.refreshStatus
    | with_reducible apply Acts.onSwath
    | with_reducible apply Acts.releaseHeld
    | with_reducible apply Acts.reserve
    | with_reducible apply Acts.markStatus
    | with_reducible apply Acts.onNmn
    | with_reducible apply Acts.onSgt
    | split

theorem Acts.askWake {z x : Chip} (hz : Acts z x) (r : Swath) : Acts z (x.askWake r) := by
  unfold Chip.askWake
  try dsimp only
  repeat' split
  all_goals repeat'
    first
    | with_reducible assumption
    | with_reducible apply Acts.onSvc
    | with_reducible apply Acts.onSgt
    | split

theorem Acts.armingTest {z x : Chip} (hz : Acts z x) : Acts z (x.armingTest) := by
  unfold Chip.armingTest
  try dsimp only
  repeat' split
  all_goals repeat'
    first
    | with_reducible assumption
    | with_reducible apply Acts.askWake
    | with_reducible apply Acts.arm
    | with_reducible apply Acts.refuseReservation
    | split

theorem Acts.refuseRead {z x : Chip} (hz : Acts z x) (id buffer : Nat) (addr : Addr) (notNext : Bool) : Acts z (x.refuseRead id buffer addr notNext) := by
  unfold Chip.refuseRead
  try dsimp only
  repeat' split
  all_goals repeat'
    first
    | with_reducible assumption
    | with_reducible apply Acts.withhold
    | with_reducible apply Acts.journal
    | split

theorem Acts.holdRead {z x : Chip} (hz : Acts z x) (r : HeldRead) : Acts z (x.holdRead r) := by
  unfold Chip.holdRead
  try dsimp only
  repeat' split
  all_goals repeat'
    first
    | with_reducible assumption
    | with_reducible apply Acts.markStatus
    | with_reducible apply Acts.onSgt
    | split

theorem Acts.presentRead {z x : Chip} (hz : Acts z x) (id : Nat) (q : ReadRequest) : Acts z (x.presentRead id q) := by
  unfold Chip.presentRead
  try dsimp only
  repeat' split
  all_goals repeat'
    first
    | with_reducible assumption
    | with_reducible apply Acts.holdRead
    | with_reducible apply Acts.refuseRead
    | with_reducible apply Acts.releaseRead
    | split

theorem Acts.consumeDelivered {z x : Chip} (hz : Acts z x) (w : Rewrite) (k : Channel) : Acts z (x.consumeDelivered w k) := by
  unfold Chip.consumeDelivered
  try dsimp only
  repeat' split
  all_goals repeat'
    first
    | with_reducible assumption
    | with_reducible apply Acts.consume
    | split

theorem Acts.fireDelivered {z x : Chip} (hz : Acts z x) (e : Channel × Nat) : Acts z (x.fireDelivered e) := by
  unfold Chip.fireDelivered
  try dsimp only
  repeat' split
  all_goals repeat'
    first
    | with_reducible assumption
    | with_reducible apply Acts.fireGroup
    | split

theorem Acts.countDelivered {z x : Chip} (hz : Acts z x) (r : Swath) (w : Rewrite) : Acts z (x.countDelivered r w) := by
  unfold Chip.countDelivered
  try dsimp only
  repeat' split
  all_goals repeat'
    first
    | with_reducible assumption
    | with_reducible apply Acts.markStatus
    | with_reducible apply Acts.fireDelivered
    | with_reducible apply Acts.consumeDelivered
    | with_reducible apply Acts.onSwath
    | with_reducible apply Acts.firingBegun
    | (with_reducible refine Acts.foldl _ (fun _ _ _ => ?_) _ ?_)
    | split

/-! ## Feed -/

theorem Acts.onPlaten {z x : Chip} (hz : Acts z x) (f : Sheet → Sheet) : Acts z (x.onPlaten f) := by
  unfold Chip.onPlaten
  try dsimp only
  repeat' split
  all_goals repeat'
    first
    | with_reducible assumption
    | with_reducible refine Acts.feedStage ?_ _ ?_
    | with_reducible refine Acts.onFdc ?_ _ ?_
    | split
    | exact Nat.le_refl _
    | exact Acts.sheets_filter _ _
    | exact Nat.le_of_eq (by simp)

theorem Acts.onSheet {z x : Chip} (hz : Acts z x) (id : Nat) (f : Sheet → Sheet) : Acts z (x.onSheet id f) := by
  unfold Chip.onSheet
  try dsimp only
  repeat' split
  all_goals repeat'
    first
    | with_reducible assumption
    | with_reducible refine Acts.feedStage ?_ _ ?_
    | with_reducible refine Acts.onFdc ?_ _ ?_
    | split
    | exact Nat.le_refl _
    | exact Acts.sheets_filter _ _
    | exact Nat.le_of_eq (by simp)

theorem Acts.fedOnto {z x : Chip} (hz : Acts z x) (um : Nat) : Acts z (x.fedOnto um) := by
  unfold Chip.fedOnto
  try dsimp only
  repeat' split
  all_goals repeat'
    first
    | with_reducible assumption
    | with_reducible refine Acts.feedStage ?_ _ ?_
    | with_reducible refine Acts.onFdc ?_ _ ?_
    | split
    | exact Nat.le_refl _
    | exact Acts.sheets_filter _ _
    | exact Nat.le_of_eq (by simp)

theorem Acts.rollEnd {z x : Chip} (hz : Acts z x) (op : FeedOp) : Acts z (x.rollEnd op) := by
  unfold Chip.rollEnd
  try dsimp only
  repeat' split
  all_goals repeat'
    first
    | with_reducible assumption
    | with_reducible refine Acts.feedStage ?_ _ ?_
    | with_reducible apply Acts.journal
    | with_reducible refine Acts.onFdc ?_ _ ?_
    | split
    | exact Nat.le_refl _
    | exact Acts.sheets_filter _ _
    | exact Nat.le_of_eq (by simp)

theorem Acts.placeFeed {z x : Chip} (hz : Acts z x) (op : FeedOp) (limit : Nat) : Acts z (x.placeFeed op limit) := by
  unfold Chip.placeFeed
  try dsimp only
  repeat' split
  all_goals repeat'
    first
    | with_reducible assumption
    | with_reducible apply Acts.offer
    | with_reducible refine Acts.onFdc ?_ _ ?_
    | split
    | exact Nat.le_refl _
    | exact Acts.sheets_filter _ _
    | exact Nat.le_of_eq (by simp)

theorem Acts.onFdcRest {z x : Chip} (hz : Acts z x) : Acts z (x.onFdc FeedController.rest) :=
  Acts.onFdc hz _ (Nat.le_refl _)

theorem Acts.leaveQueue {z x : Chip} (hz : Acts z x) (id : Nat) : Acts z (x.leaveQueue id) :=
  Acts.showChange (Acts.onFdc hz _ (Acts.sheets_filter _ _)) _ _

theorem Acts.tellGate {z x : Chip} (hz : Acts z x) (old : Chip) : Acts z (x.tellGate old) :=
  Acts.markStatus (Acts.showChange hz _ _) _

theorem Acts.removeSheet {z x : Chip} (hz : Acts z x) (s : Sheet) (outcome : SheetOutcome) :
    Acts z (x.removeSheet s outcome) := by
  unfold Chip.removeSheet
  dsimp only
  apply Acts.callAdmission
  apply Acts.noticeNext
  have g := Acts.tellGate (Acts.sheetRemoved (Acts.leaveQueue (Acts.journal (Acts.unbindSheet hz s.id)
    (s.removedRecord outcome)) s.id)) ((x.unbindSheet s.id).journal (s.removedRecord outcome))
  split
  · exact Acts.callArming (Acts.onFdcRest g)
  · exact g

theorem Acts.removePlaten {z x : Chip} (hz : Acts z x) (outcome : Sheet → SheetOutcome) : Acts z (x.removePlaten outcome) := by
  unfold Chip.removePlaten
  try dsimp only
  repeat' split
  all_goals repeat'
    first
    | with_reducible assumption
    | with_reducible apply Acts.removeSheet
    | split

theorem Acts.halt {z x : Chip} (hz : Acts z x) (op : FeedOp) (cause : FailureCause) : Acts z (x.halt op cause) := by
  unfold Chip.halt
  try dsimp only
  repeat' split
  all_goals repeat'
    first
    | with_reducible assumption
    | with_reducible refine Acts.feedStage ?_ _ ?_
    | with_reducible apply Acts.onPlaten
    | with_reducible apply Acts.journal
    | with_reducible refine Acts.onFdc ?_ _ ?_
    | with_reducible apply Acts.callArming
    | split
    | exact Nat.le_refl _
    | exact Acts.sheets_filter _ _
    | exact Nat.le_of_eq (by simp)

theorem Acts.haltBy {z x : Chip} (hz : Acts z x) (op : FeedOp) (r : FeedResult) : Acts z (x.haltBy op r) := by
  unfold Chip.haltBy
  try dsimp only
  repeat' split
  all_goals repeat'
    first
    | with_reducible assumption
    | with_reducible apply Acts.halt
    | split

theorem Acts.clearUncut {z x : Chip} (hz : Acts z x) : Acts z (x.clearUncut) := by
  unfold Chip.clearUncut
  try dsimp only
  repeat' split
  all_goals repeat'
    first
    | with_reducible assumption
    | with_reducible refine Acts.feedStage ?_ _ ?_
    | with_reducible refine Acts.onFdc ?_ _ ?_
    | split
    | exact Nat.le_refl _
    | exact Acts.sheets_filter _ _
    | exact Nat.le_of_eq (by simp)

theorem Acts.startClearing {z x : Chip} (hz : Acts z x) (cutOnly : Bool) : Acts z (x.startClearing cutOnly) := by
  unfold Chip.startClearing
  try dsimp only
  repeat' split
  all_goals repeat'
    first
    | with_reducible assumption
    | with_reducible refine Acts.feedStage ?_ _ ?_
    | with_reducible apply Acts.removePlaten
    | with_reducible apply Acts.placeFeed
    | with_reducible refine Acts.onFdc ?_ _ ?_
    | split
    | exact Nat.le_refl _
    | exact Acts.sheets_filter _ _
    | exact Nat.le_of_eq (by simp)

theorem Acts.enterClearing {z x : Chip} (hz : Acts z x) : Acts z (x.enterClearing) := by
  unfold Chip.enterClearing
  try dsimp only
  repeat' split
  all_goals repeat'
    first
    | with_reducible assumption
    | with_reducible apply Acts.startClearing
    | with_reducible apply Acts.onPlaten
    | with_reducible apply Acts.unbindSheet
    | with_reducible apply Acts.callArming
    | split

theorem Acts.platenRollEnd {z x : Chip} (hz : Acts z x) : Acts z (x.platenRollEnd) := by
  unfold Chip.platenRollEnd
  try dsimp only
  repeat' split
  all_goals repeat'
    first
    | with_reducible assumption
    | with_reducible apply Acts.startClearing
    | with_reducible apply Acts.onPlaten
    | with_reducible apply Acts.unbindSheet
    | with_reducible apply Acts.callArming
    | split

theorem Acts.clearingResult {z x : Chip} (hz : Acts z x) (op : FeedOp) (r : FeedResult) : Acts z (x.clearingResult op r) := by
  unfold Chip.clearingResult
  try dsimp only
  repeat' split
  all_goals repeat'
    first
    | with_reducible assumption
    | with_reducible apply Acts.clearUncut
    | with_reducible apply Acts.haltBy
    | with_reducible apply Acts.removePlaten
    | with_reducible apply Acts.placeFeed
    | with_reducible apply Acts.rollEnd
    | with_reducible apply Acts.onPlaten
    | with_reducible refine Acts.onFdc ?_ _ ?_
    | split
    | exact Nat.le_refl _
    | exact Acts.sheets_filter _ _
    | exact Nat.le_of_eq (by simp)

theorem Acts.positionFor {z x : Chip} (hz : Acts z x) (index : Nat) : Acts z (x.positionFor index) := by
  unfold Chip.positionFor
  try dsimp only
  repeat' split
  all_goals repeat'
    first
    | with_reducible assumption
    | with_reducible refine Acts.onFdc ?_ _ ?_
    | with_reducible apply Acts.callArming
    | split
    | exact Nat.le_refl _
    | exact Acts.sheets_filter _ _
    | exact Nat.le_of_eq (by simp)

theorem Acts.loadComplete {z x : Chip} (hz : Acts z x) : Acts z (x.loadComplete) := by
  unfold Chip.loadComplete
  try dsimp only
  repeat' split
  all_goals repeat'
    first
    | with_reducible assumption
    | with_reducible apply Acts.positionFor
    | with_reducible apply Acts.onPlaten
    | split

theorem Acts.beginLoadStep {z x : Chip} (hz : Acts z x) (step : Nat) (op : Option FeedOp) : Acts z (x.beginLoadStep step op) := by
  unfold Chip.beginLoadStep
  try dsimp only
  repeat' split
  all_goals repeat'
    first
    | with_reducible assumption
    | with_reducible apply Acts.placeFeed
    | with_reducible apply Acts.onPlaten
    | with_reducible refine Acts.onFdc ?_ _ ?_
    | split
    | exact Nat.le_refl _
    | exact Acts.sheets_filter _ _
    | exact Nat.le_of_eq (by simp)

theorem Acts.runLoad {z x : Chip} (hz : Acts z x) (n : Nat) : Acts z (Chip.runLoad n x) := by
  induction n generalizing x with
  | zero => exact Acts.loadComplete hz
  | succ n ih =>
    simp only [Chip.runLoad]
    split
    · exact hz
    · split
      · exact Acts.beginLoadStep hz _ _
      · exact ih (Acts.beginLoadStep hz _ _)

theorem Acts.loadStepDone {z x : Chip} (hz : Acts z x) : Acts z (x.loadStepDone) := by
  unfold Chip.loadStepDone
  try dsimp only
  repeat' split
  all_goals repeat'
    first
    | with_reducible assumption
    | with_reducible apply Acts.runLoad
    | with_reducible apply Acts.enterClearing
    | split

theorem Acts.loadResult {z x : Chip} (hz : Acts z x) (op : FeedOp) (r : FeedResult) : Acts z (x.loadResult op r) := by
  unfold Chip.loadResult
  try dsimp only
  repeat' split
  all_goals repeat'
    first
    | with_reducible assumption
    | with_reducible refine Acts.feedStage ?_ _ ?_
    | with_reducible apply Acts.loadStepDone
    | with_reducible apply Acts.platenRollEnd
    | with_reducible apply Acts.clearUncut
    | with_reducible apply Acts.haltBy
    | with_reducible apply Acts.placeFeed
    | with_reducible apply Acts.rollEnd
    | with_reducible refine Acts.onFdc ?_ _ ?_
    | split
    | exact Nat.le_refl _
    | exact Acts.sheets_filter _ _
    | exact Nat.le_of_eq (by simp)

theorem Acts.dryExpired {z x : Chip} (hz : Acts z x) : Acts z (x.dryExpired) := by
  unfold Chip.dryExpired
  try dsimp only
  repeat' split
  all_goals repeat'
    first
    | with_reducible assumption
    | with_reducible refine Acts.feedStage ?_ _ ?_
    | with_reducible apply Acts.removePlaten
    | with_reducible apply Acts.placeFeed
    | with_reducible apply Acts.onPlaten
    | with_reducible refine Acts.onFdc ?_ _ ?_
    | split
    | exact Nat.le_refl _
    | exact Acts.sheets_filter _ _
    | exact Nat.le_of_eq (by simp)

theorem Acts.beginDrying {z x : Chip} (hz : Acts z x) : Acts z (x.beginDrying) := by
  unfold Chip.beginDrying
  try dsimp only
  repeat' split
  all_goals repeat'
    first
    | with_reducible assumption
    | with_reducible apply Acts.dryExpired
    | with_reducible refine Acts.onFdc ?_ _ ?_
    | split
    | exact Nat.le_refl _
    | exact Acts.sheets_filter _ _
    | exact Nat.le_of_eq (by simp)

theorem Acts.beginAdvance {z x : Chip} (hz : Acts z x) (um : Nat) (purpose : AdvancePurpose) : Acts z (x.beginAdvance um purpose) := by
  unfold Chip.beginAdvance
  try dsimp only
  repeat' split
  all_goals repeat'
    first
    | with_reducible assumption
    | with_reducible apply Acts.placeFeed
    | with_reducible refine Acts.onFdc ?_ _ ?_
    | split
    | exact Nat.le_refl _
    | exact Acts.sheets_filter _ _
    | exact Nat.le_of_eq (by simp)

theorem Acts.onPlatenShown {z x : Chip} (hz : Acts z x) (f : Sheet → Sheet) : Acts z (x.onPlatenShown f) :=
  Acts.showChange (Acts.onFdc hz _ (Nat.le_of_eq (by simp))) _ _

theorem Acts.swathComplete {z x : Chip} (hz : Acts z x) (before : Chip) (k : Nat) : Acts z (x.swathComplete before k) := by
  unfold Chip.swathComplete
  try dsimp only
  repeat' split
  all_goals repeat'
    first
    | with_reducible assumption
    | with_reducible apply Acts.showChange
    | with_reducible apply Acts.onPlatenShown
    | with_reducible apply Acts.beginAdvance
    | with_reducible apply Acts.beginDrying
    | with_reducible apply Acts.enterClearing
    | with_reducible apply Acts.onPlaten
    | with_reducible apply Acts.callArming
    | split

theorem Acts.advanceResult {z x : Chip} (hz : Acts z x) (op : FeedOp) (r : FeedResult) : Acts z (x.advanceResult op r) := by
  unfold Chip.advanceResult
  try dsimp only
  repeat' split
  all_goals repeat'
    first
    | with_reducible assumption
    | with_reducible apply Acts.beginDrying
    | with_reducible apply Acts.positionFor
    | with_reducible apply Acts.platenRollEnd
    | with_reducible apply Acts.startClearing
    | with_reducible apply Acts.haltBy
    | with_reducible apply Acts.rollEnd
    | split

theorem Acts.cuttingResult {z x : Chip} (hz : Acts z x) (op : FeedOp) (r : FeedResult) : Acts z (x.cuttingResult op r) := by
  unfold Chip.cuttingResult
  try dsimp only
  repeat' split
  all_goals repeat'
    first
    | with_reducible assumption
    | with_reducible apply Acts.clearUncut
    | with_reducible apply Acts.haltBy
    | with_reducible apply Acts.removePlaten
    | with_reducible apply Acts.rollEnd
    | split

theorem Acts.feedResult {z x : Chip} (hz : Acts z x) (op : FeedOp) (r : FeedResult) : Acts z (x.feedResult op r) := by
  unfold Chip.feedResult
  try dsimp only
  repeat' split
  all_goals repeat'
    first
    | with_reducible assumption
    | with_reducible apply Acts.cuttingResult
    | with_reducible apply Acts.advanceResult
    | with_reducible apply Acts.loadResult
    | with_reducible apply Acts.clearingResult
    | split

theorem Acts.endFeedOrder {z x : Chip} (hz : Acts z x) (o : FeedOrder) (r : FeedResult) (fed : Nat) : Acts z (x.endFeedOrder o r fed) := by
  unfold Chip.endFeedOrder
  try dsimp only
  repeat' split
  all_goals repeat'
    first
    | with_reducible assumption
    | with_reducible apply Acts.feedResult
    | with_reducible apply Acts.rollEnd
    | with_reducible apply Acts.fedOnto
    | with_reducible refine Acts.onFlm ?_ _ ?_ ?_
    | with_reducible refine Acts.onFdc ?_ _ ?_
    | split
    | exact Nat.le_refl _
    | exact Acts.sheets_filter _ _
    | exact Nat.le_of_eq (by simp)
    | rfl

theorem Acts.takeFeedFrame {z x : Chip} (hz : Acts z x) (serial : Nat) (outcome : FrameOutcome) : Acts z (x.takeFeedFrame serial outcome) := by
  unfold Chip.takeFeedFrame
  try dsimp only
  repeat' split
  all_goals repeat'
    first
    | with_reducible assumption
    | with_reducible apply Acts.endFeedOrder
    | with_reducible refine Acts.onFdc ?_ _ ?_
    | split
    | exact Nat.le_refl _
    | exact Acts.sheets_filter _ _
    | exact Nat.le_of_eq (by simp)

theorem Acts.takeFeedStatus {z x : Chip} (hz : Acts z x) (serial : Nat) (outcome : FrameOutcome) : Acts z (x.takeFeedStatus serial outcome) := by
  unfold Chip.takeFeedStatus
  try dsimp only
  repeat' split
  all_goals repeat'
    first
    | with_reducible assumption
    | with_reducible apply Acts.endFeedOrder
    | with_reducible apply Acts.rollEnd
    | with_reducible refine Acts.onFdc ?_ _ ?_
    | split
    | exact Nat.le_refl _
    | exact Acts.sheets_filter _ _
    | exact Nat.le_of_eq (by simp)

theorem Acts.jamCleared {z x : Chip} (hz : Acts z x) : Acts z (x.jamCleared) := by
  unfold Chip.jamCleared
  try dsimp only
  repeat' split
  all_goals repeat'
    first
    | with_reducible assumption
    | with_reducible refine Acts.feedStage ?_ _ ?_
    | with_reducible apply Acts.removePlaten
    | with_reducible refine Acts.onFdc ?_ _ ?_
    | split
    | exact Nat.le_refl _
    | exact Acts.sheets_filter _ _
    | exact Nat.le_of_eq (by simp)

theorem Acts.clearFailed {z x : Chip} (hz : Acts z x) (code : Nat) : Acts z (x.clearFailed code) := by
  unfold Chip.clearFailed
  try dsimp only
  repeat' split
  all_goals repeat'
    first
    | with_reducible assumption
    | with_reducible apply Acts.journal
    | split

theorem Acts.takeFeedCheck {z x : Chip} (hz : Acts z x) (serial : Nat) (outcome : FrameOutcome) : Acts z (x.takeFeedCheck serial outcome) := by
  unfold Chip.takeFeedCheck
  try dsimp only
  repeat' split
  all_goals repeat'
    first
    | with_reducible assumption
    | with_reducible apply Acts.clearFailed
    | with_reducible apply Acts.jamCleared
    | with_reducible refine Acts.onFdc ?_ _ ?_
    | split
    | exact Nat.le_refl _
    | exact Acts.sheets_filter _ _
    | exact Nat.le_of_eq (by simp)

theorem Acts.spoil {z x : Chip} (hz : Acts z x) (id : Nat) : Acts z (x.spoil id) := by
  unfold Chip.spoil
  try dsimp only
  repeat' split
  all_goals repeat'
    first
    | with_reducible assumption
    | with_reducible apply Acts.enterClearing
    | with_reducible apply Acts.removeSheet
    | with_reducible apply Acts.onSheet
    | split

theorem Acts.admitTo {z x : Chip} (hz : Acts z x) (h : Sheet) (n : RollNo) : Acts z (x.admitTo h n) := by
  unfold Chip.admitTo
  try dsimp only
  repeat' split
  all_goals repeat'
    first
    | with_reducible assumption
    | with_reducible apply Acts.runLoad
    | with_reducible apply Acts.onSheet
    | with_reducible refine Acts.onFdc ?_ _ ?_
    | with_reducible apply Acts.callArming
    | split
    | exact Nat.le_refl _
    | exact Acts.sheets_filter _ _
    | exact Nat.le_of_eq (by simp)

theorem Acts.keepWaiting {z x : Chip} (hz : Acts z x) (h : Sheet) (cause : WaitingCause) (record : JournalRecord) : Acts z (x.keepWaiting h cause record) := by
  unfold Chip.keepWaiting
  try dsimp only
  repeat' split
  all_goals repeat'
    first
    | with_reducible assumption
    | with_reducible apply Acts.onSheet
    | with_reducible apply Acts.journal
    | split

theorem Acts.admissionTest {z x : Chip} (hz : Acts z x) : Acts z (x.admissionTest) := by
  unfold Chip.admissionTest
  try dsimp only
  repeat' split
  all_goals repeat'
    first
    | with_reducible assumption
    | with_reducible apply Acts.keepWaiting
    | with_reducible apply Acts.admitTo
    | split

theorem Acts.restartSheets {z x : Chip} (hz : Acts z x) : Acts z x.restartSheets :=
  Acts.foldl _ (fun _ _ h => Acts.tellGate (Acts.leaveQueue (Acts.journal h _) _) _) _ hz

theorem Acts.restartFeed {z x : Chip} (hz : Acts z x) : Acts z (x.restartFeed) := by
  unfold Chip.restartFeed
  try dsimp only
  repeat' split
  all_goals repeat'
    first
    | with_reducible assumption
    | with_reducible apply Acts.restartSheets
    | with_reducible refine Acts.onFdc ?_ _ ?_
    | split
    | exact Nat.le_refl _
    | exact Acts.sheets_filter _ _
    | exact Nat.le_of_eq (by simp)

/-! ## Service -/

theorem Acts.setLocation {z x : Chip} (hz : Acts z x) (l : Location) : Acts z (x.setLocation l) := by
  unfold Chip.setLocation
  try dsimp only
  repeat' split
  all_goals repeat'
    first
    | with_reducible assumption
    | with_reducible apply Acts.markStatus
    | with_reducible apply Acts.callArming
    | with_reducible apply Acts.onSvc
    | split

theorem Acts.offerStation {z x : Chip} (hz : Acts z x) (o : StationOrder) : Acts z (x.offerStation o) := by
  unfold Chip.offerStation
  try dsimp only
  repeat' split
  all_goals repeat'
    first
    | with_reducible assumption
    | with_reducible apply Acts.offer
    | split

theorem Acts.orderStep {z x : Chip} (hz : Acts z x) (o : StationOrder) : Acts z (x.orderStep o) := by
  unfold Chip.orderStep
  try dsimp only
  repeat' split
  all_goals repeat'
    first
    | with_reducible assumption
    | with_reducible apply Acts.offerStation
    | with_reducible apply Acts.onCycle
    | split

theorem Acts.askPrime {z x : Chip} (hz : Acts z x) : Acts z (x.askPrime) := by
  unfold Chip.askPrime
  try dsimp only
  repeat' split
  all_goals repeat'
    first
    | with_reducible assumption
    | with_reducible apply Acts.orderStep
    | with_reducible apply Acts.refuseReservation
    | with_reducible apply Acts.reserve
    | with_reducible apply Acts.onCycle
    | split

theorem Acts.retryPrime {z x : Chip} (hz : Acts z x) : Acts z (x.retryPrime) := by
  unfold Chip.retryPrime
  try dsimp only
  repeat' split
  all_goals repeat'
    first
    | with_reducible assumption
    | with_reducible apply Acts.askPrime
    | split

theorem Acts.openStep {z x : Chip} (hz : Acts z x) (st : ServiceStep) (mask : BitVec 8) : Acts z (x.openStep st mask) := by
  unfold Chip.openStep
  try dsimp only
  repeat' split
  all_goals repeat'
    first
    | with_reducible assumption
    | with_reducible apply Acts.onSvc
    | split

theorem Acts.actStep {z x : Chip} (hz : Acts z x) (st : ServiceStep) : Acts z (x.actStep st) := by
  unfold Chip.actStep
  try dsimp only
  repeat' split
  all_goals repeat'
    first
    | with_reducible assumption
    | with_reducible apply Acts.askPrime
    | with_reducible apply Acts.orderStep
    | with_reducible apply Acts.onCycle
    | split

theorem Acts.closeStep {z x : Chip} (hz : Acts z x) : Acts z x.closeStep := by
  unfold Chip.closeStep
  dsimp only
  apply Acts.onCycle
  refine Acts.onFlm ?_ _ rfl rfl
  split
  · exact Acts.release hz _
  · exact hz

theorem Acts.endCycle {z x : Chip} (hz : Acts z x) (outcome : StepOutcome) (recovery : Recovery) : Acts z (x.endCycle outcome recovery) := by
  unfold Chip.endCycle
  try dsimp only
  repeat' split
  all_goals repeat'
    first
    | with_reducible assumption
    | with_reducible apply Acts.markStatus
    | with_reducible apply Acts.callArming
    | with_reducible apply Acts.journal
    | with_reducible apply Acts.onCycle
    | with_reducible apply Acts.onSvc
    | split

theorem Acts.freeClaim {z x : Chip} (hz : Acts z x) : Acts z (x.freeClaim) := by
  unfold Chip.freeClaim
  try dsimp only
  repeat' split
  all_goals repeat'
    first
    | with_reducible assumption
    | with_reducible apply Acts.callArming
    | with_reducible apply Acts.onSgt
    | split

theorem Acts.wakeEnded {z x : Chip} (hz : Acts z x) : Acts z (x.wakeEnded) := by
  unfold Chip.wakeEnded
  try dsimp only
  repeat' split
  all_goals repeat'
    first
    | with_reducible assumption
    | with_reducible apply Acts.callArming
    | with_reducible apply Acts.onSgt
    | split

theorem Acts.cycleSucceeds {z x : Chip} (hz : Acts z x) : Acts z (x.cycleSucceeds) := by
  unfold Chip.cycleSucceeds
  try dsimp only
  repeat' split
  all_goals repeat'
    first
    | with_reducible assumption
    | with_reducible apply Acts.wakeEnded
    | with_reducible apply Acts.freeClaim
    | with_reducible apply Acts.endCycle
    | with_reducible apply Acts.resetCounters
    | split

theorem Acts.runSteps {z x : Chip} (hz : Acts z x) (l : List ServiceStep) : Acts z (Chip.runSteps l x) := by
  induction l generalizing x with
  | nil => exact Acts.cycleSucceeds hz
  | cons s l ih =>
    simp only [Chip.runSteps]
    split
    · exact ih (Acts.closeStep (Acts.showChange (Acts.openStep (Acts.onCycle hz _) _ _) _ _))
    · exact Acts.actStep (Acts.showChange (Acts.openStep (Acts.onCycle hz _) _ _) _ _) _

theorem Acts.recover {z x : Chip} (hz : Acts z x) (outcome : StepOutcome) : Acts z (x.recover outcome) := by
  unfold Chip.recover
  try dsimp only
  repeat' split
  all_goals repeat'
    first
    | with_reducible assumption
    | with_reducible apply Acts.actStep
    | with_reducible apply Acts.openStep
    | with_reducible apply Acts.onCycle
    | split

theorem Acts.recovered {z x : Chip} (hz : Acts z x) (outcome : StepOutcome) : Acts z (x.recovered outcome) := by
  unfold Chip.recovered
  try dsimp only
  repeat' split
  all_goals repeat'
    first
    | with_reducible assumption
    | with_reducible apply Acts.freeClaim
    | with_reducible apply Acts.endCycle
    | with_reducible apply Acts.setLocation
    | split

theorem Acts.runningFailed {z x : Chip} (hz : Acts z x) (outcome : StepOutcome) : Acts z (x.runningFailed outcome) := by
  unfold Chip.runningFailed
  try dsimp only
  repeat' split
  all_goals repeat'
    first
    | with_reducible assumption
    | with_reducible apply Acts.recover
    | with_reducible apply Acts.wakeEnded
    | with_reducible apply Acts.freeClaim
    | with_reducible apply Acts.endCycle
    | with_reducible apply Acts.setLocation
    | split

theorem Acts.endStep {z x : Chip} (hz : Acts z x) (outcome : StepOutcome) : Acts z (x.endStep outcome) := by
  unfold Chip.endStep
  try dsimp only
  repeat' split
  all_goals repeat'
    first
    | with_reducible assumption
    | with_reducible apply Acts.runningFailed
    | with_reducible apply Acts.recovered
    | with_reducible apply Acts.runSteps
    | with_reducible apply Acts.endCycle
    | with_reducible apply Acts.closeStep
    | with_reducible apply Acts.setLocation
    | split

theorem Acts.beginPolling {z x : Chip} (hz : Acts z x) : Acts z (x.beginPolling) := by
  unfold Chip.beginPolling
  try dsimp only
  repeat' split
  all_goals repeat'
    first
    | with_reducible assumption
    | with_reducible apply Acts.endStep
    | with_reducible apply Acts.onCycle
    | split

theorem Acts.takeStation {z x : Chip} (hz : Acts z x) (step : Nat) (outcome : FrameOutcome) : Acts z (x.takeStation step outcome) := by
  unfold Chip.takeStation
  try dsimp only
  repeat' split
  all_goals repeat'
    first
    | with_reducible assumption
    | with_reducible apply Acts.beginPolling
    | with_reducible apply Acts.endStep
    | split

theorem Acts.consumePrime {z x : Chip} (hz : Acts z x) (mask : BitVec 8) (ul : Nat) : Acts z (x.consumePrime mask ul) := by
  unfold Chip.consumePrime
  try dsimp only
  repeat' split
  all_goals repeat'
    first
    | with_reducible assumption
    | with_reducible apply Acts.consume
    | (with_reducible refine Acts.foldl _ (fun _ _ _ => ?_) _ ?_)
    | split

theorem Acts.consumeCheck {z x : Chip} (hz : Acts z x) (mask : BitVec 8) : Acts z (x.consumeCheck mask) := by
  unfold Chip.consumeCheck
  try dsimp only
  repeat' split
  all_goals repeat'
    first
    | with_reducible assumption
    | with_reducible apply Acts.consume
    | (with_reducible refine Acts.foldl _ (fun _ _ _ => ?_) _ ?_)
    | split

theorem Acts.stationDone {z x : Chip} (hz : Acts z x) : Acts z (x.stationDone) := by
  unfold Chip.stationDone
  try dsimp only
  repeat' split
  all_goals repeat'
    first
    | with_reducible assumption
    | with_reducible apply Acts.consumeCheck
    | with_reducible apply Acts.consumePrime
    | with_reducible apply Acts.endStep
    | with_reducible apply Acts.fireAll
    | with_reducible apply Acts.fireMask
    | with_reducible apply Acts.release
    | with_reducible apply Acts.offer
    | with_reducible apply Acts.onCycle
    | split

theorem Acts.endIfAbandoning {z x : Chip} (hz : Acts z x) : Acts z (x.endIfAbandoning) := by
  unfold Chip.endIfAbandoning
  try dsimp only
  repeat' split
  all_goals repeat'
    first
    | with_reducible assumption
    | with_reducible apply Acts.endStep
    | split

theorem Acts.takeStationStatus {z x : Chip} (hz : Acts z x) (step : Nat) (outcome : FrameOutcome) : Acts z (x.takeStationStatus step outcome) := by
  unfold Chip.takeStationStatus
  try dsimp only
  repeat' split
  all_goals repeat'
    first
    | with_reducible assumption
    | with_reducible apply Acts.endIfAbandoning
    | with_reducible apply Acts.stationDone
    | with_reducible apply Acts.endStep
    | split

theorem Acts.takePage {z x : Chip} (hz : Acts z x) (page : Nat) (more : Bool) (entries : List (Nat × Nat)) : Acts z (x.takePage page more entries) := by
  unfold Chip.takePage
  try dsimp only
  repeat' split
  all_goals repeat'
    first
    | with_reducible assumption
    | with_reducible apply Acts.endStep
    | with_reducible apply Acts.takeReport
    | with_reducible apply Acts.offer
    | with_reducible apply Acts.onCycle
    | split

theorem Acts.takeCheckPage {z x : Chip} (hz : Acts z x) (page step : Nat) (outcome : FrameOutcome) : Acts z (x.takeCheckPage page step outcome) := by
  unfold Chip.takeCheckPage
  try dsimp only
  repeat' split
  all_goals repeat'
    first
    | with_reducible assumption
    | with_reducible apply Acts.takePage
    | with_reducible apply Acts.endStep
    | split

theorem Acts.grantCycle {z x : Chip} (hz : Acts z x) : Acts z (x.grantCycle) := by
  unfold Chip.grantCycle
  try dsimp only
  repeat' split
  all_goals repeat'
    first
    | with_reducible assumption
    | with_reducible apply Acts.markStatus
    | with_reducible apply Acts.callArming
    | with_reducible apply Acts.runSteps
    | with_reducible apply Acts.onSvc
    | with_reducible apply Acts.onSgt
    | split

theorem Acts.startWake {z x : Chip} (hz : Acts z x) : Acts z (x.startWake) := by
  unfold Chip.startWake
  try dsimp only
  repeat' split
  all_goals repeat'
    first
    | with_reducible assumption
    | with_reducible apply Acts.runSteps
    | with_reducible apply Acts.onSvc
    | with_reducible apply Acts.onSgt
    | split

theorem Acts.clearWakeAsk {z x : Chip} (hz : Acts z x) : Acts z (x.clearWakeAsk) := by
  unfold Chip.clearWakeAsk
  try dsimp only
  repeat' split
  all_goals repeat'
    first
    | with_reducible assumption
    | with_reducible apply Acts.onSvc
    | split

theorem Acts.takeWakeAsk {z x : Chip} (hz : Acts z x) (id : Nat) : Acts z (x.takeWakeAsk id) := by
  unfold Chip.takeWakeAsk
  try dsimp only
  repeat' split
  all_goals repeat'
    first
    | with_reducible assumption
    | with_reducible apply Acts.clearWakeAsk
    | with_reducible apply Acts.startWake
    | with_reducible apply Acts.wakeEnded
    | split

theorem Acts.serviceNext {z x y : Chip} (hz : Acts z x) (h : x.serviceNext = some y) : Acts z y := by
  simp only [Chip.serviceNext] at h
  repeat' split at h
  all_goals first
    | (simp only [Option.some.injEq] at h; subst h; first | exact Acts.grantCycle hz | exact Acts.onCycle hz _)
    | (simp only [Option.map_eq_some_iff] at h; obtain ⟨id, _, rfl⟩ := h; exact Acts.takeWakeAsk hz _)
    | exact absurd h (by simp)

theorem Acts.serviceLoop {z x : Chip} (hz : Acts z x) (n : Nat) : Acts z (Chip.serviceLoop n x) := by
  induction n generalizing x with
  | zero => exact hz
  | succ n ih =>
    simp only [Chip.serviceLoop]
    split
    · rename_i y h; exact ih (Acts.refreshStatus (Acts.serviceNext hz h) x)
    · exact hz

theorem Acts.abandonCycle {z x : Chip} (hz : Acts z x) : Acts z (x.abandonCycle) := by
  unfold Chip.abandonCycle
  try dsimp only
  repeat' split
  all_goals repeat'
    first
    | with_reducible assumption
    | with_reducible apply Acts.showChange
    | with_reducible apply Acts.endStep
    | with_reducible apply Acts.setLocation
    | with_reducible apply Acts.onCycle
    | split

theorem Acts.restartService {z x : Chip} (hz : Acts z x) : Acts z (x.restartService) := by
  unfold Chip.restartService
  try dsimp only
  repeat' split
  all_goals repeat'
    first
    | with_reducible assumption
    | with_reducible apply Acts.showChange
    | with_reducible apply Acts.abandonCycle
    | with_reducible apply Acts.firingEnded
    | with_reducible apply Acts.onSvc
    | split

/-! ## Cascade -/

theorem Acts.settle {z x : Chip} (hz : Acts z x) : Acts z x.settle := by
  unfold Chip.settle
  dsimp only
  refine .step ?_ (.due _ _)
  repeat'
    first
    | with_reducible assumption
    | with_reducible apply Acts.refreshStatus
    | with_reducible apply Acts.updateIdle
    | with_reducible apply Acts.serviceLoop
    | with_reducible apply Acts.armingTest
    | with_reducible apply Acts.admissionTest
    | with_reducible apply Acts.retryPrime
    | with_reducible apply Acts.dropStaleHolds
    | split

/-! ## Commands -/

theorem Acts.startPolls {z x : Chip} (hz : Acts z x) : Acts z x.startPolls :=
  .step hz (.ink x _ fun k => by rw [Six.get_of]; exact Or.inl rfl)

theorem Acts.applyConfigure {z x : Chip} (hz : Acts z x) (a : ConfigureArgs) : Acts z (x.applyConfigure a) := by
  unfold Chip.applyConfigure
  dsimp only
  apply Acts.markStatus
  apply Acts.markStatus
  have h : Acts z ((((x.onPsw fun p =>
      { p with swath := some (SwathWindow.mk a.base.toNat a.bufferCount.toNat a.capacity.toNat) }).onSgt fun g =>
      { g with buffers := List.replicate a.bufferCount.toNat Buffer.cleared, spitColumns := a.spitColumns.toNat,
               holdLimit := a.holdLimit.toNat }).onSvc fun v => { v with budget := a.budget.toNat }).onRpw fun w =>
      w.withCapacity a.journalCapacity.toNat) := by
    refine .step (Acts.onSvc (Acts.onSgt (.step hz (.psw _ _ rfl)) _) _) (.rpw _ _ ?_ ?_ ?_)
    · simp only [ReportWriter.withCapacity]; split <;> rfl
    · simp only [ReportWriter.withCapacity]; split <;> rfl
    · simp only [ReportWriter.withCapacity]; split <;> exact id
  have g : ∀ y, Acts z y → Acts z ((y.onCmi fun c => { c with partState := .running }).startPolls) := fun y hy =>
    Acts.startPolls (.step hy (.cmi _ _ rfl))
  split
  · split
    · exact Acts.journalOverflow h
    · exact h
  · apply g
    split
    · exact Acts.journalOverflow h
    · exact h

theorem Acts.doConfigure {z x : Chip} (hz : Acts z x) (a : ConfigureArgs) : Acts z (x.doConfigure a).1 := by
  unfold Chip.doConfigure
  try dsimp only
  repeat' split
  all_goals repeat'
    first
    | with_reducible assumption
    | with_reducible apply Acts.applyConfigure
    | split

theorem Acts.restartGate {z x : Chip} (hz : Acts z x) : Acts z (x.restartGate) := by
  unfold Chip.restartGate
  try dsimp only
  repeat' split
  all_goals repeat'
    first
    | with_reducible assumption
    | with_reducible apply Acts.refreshStatus
    | with_reducible apply Acts.showChange
    | with_reducible apply Acts.markStatus
    | with_reducible apply Acts.callArming
    | with_reducible apply Acts.dropHeld
    | with_reducible apply Acts.swathGone
    | with_reducible apply Acts.release
    | with_reducible apply Acts.onSgt
    | split

theorem Acts.restart {z x : Chip} (hz : Acts z x) : Acts z x.restart :=
  Acts.restartLink (Acts.restartFeed (Acts.restartService (Acts.restartGate hz)))

theorem Acts.readLevel {z x : Chip} (hz : Acts z x) (k : Channel) : Acts z (x.readLevel k) := by
  unfold Chip.readLevel
  try dsimp only
  repeat' split
  all_goals repeat'
    first
    | with_reducible assumption
    | with_reducible apply Acts.offer
    | with_reducible refine Acts.onAccount ?_ _ _ ?_
    | split
    | exact Or.inl rfl
    | exact remainderOk_takeInk _ _
    | exact remainderOk_mod _ _ _ rfl

theorem Acts.applySetChannel {z x : Chip} (hz : Acts z x) (k : Channel) (a : SetChannelArgs) : Acts z (x.applySetChannel k a) := by
  unfold Chip.applySetChannel
  try dsimp only
  repeat' split
  all_goals repeat'
    first
    | with_reducible assumption
    | with_reducible apply Acts.readLevel
    | with_reducible apply Acts.handSpit
    | with_reducible apply Acts.judgeAgain
    | with_reducible refine Acts.onAccount ?_ _ _ ?_
    | with_reducible apply Acts.noticeInk
    | with_reducible apply Acts.callAdmission
    | split
    | exact Or.inl rfl
    | exact remainderOk_takeInk _ _
    | exact remainderOk_mod _ _ _ rfl

theorem Acts.doSetChannel {z x : Chip} (hz : Acts z x) (a : SetChannelArgs) : Acts z (x.doSetChannel a).1 := by
  unfold Chip.doSetChannel
  try dsimp only
  repeat' split
  all_goals repeat'
    first
    | with_reducible assumption
    | with_reducible apply Acts.applySetChannel
    | split

theorem Acts.doSetRoll {z x : Chip} (hz : Acts z x) (a : SetRollArgs) : Acts z (x.doSetRoll a).1 := by
  unfold Chip.doSetRoll
  try dsimp only
  repeat' split
  all_goals repeat'
    first
    | with_reducible assumption
    | with_reducible apply Acts.markStatus
    | with_reducible refine Acts.onFdc ?_ _ ?_
    | with_reducible apply Acts.callAdmission
    | split
    | exact Nat.le_refl _
    | exact Acts.sheets_filter _ _
    | exact Nat.le_of_eq (by simp)

theorem Acts.bind {z x : Chip} (hz : Acts z x) (a : SwathReadyArgs) (b : Buffer) : Acts z (x.bind a b) := by
  unfold Chip.bind
  try dsimp only
  repeat' split
  all_goals repeat'
    first
    | with_reducible assumption
    | with_reducible apply Acts.markStatus
    | with_reducible apply Acts.callArming
    | with_reducible apply Acts.onSgt
    | split

theorem Acts.doSwathReady {z x : Chip} (hz : Acts z x) (a : SwathReadyArgs) : Acts z (x.doSwathReady a).1 := by
  unfold Chip.doSwathReady
  try dsimp only
  repeat' split
  all_goals repeat'
    first
    | with_reducible assumption
    | with_reducible apply Acts.bind
    | split

theorem Acts.cancelPrinting {z x : Chip} (hz : Acts z x) (h : Sheet) : Acts z (x.cancelPrinting h).1 := by
  unfold Chip.cancelPrinting
  try dsimp only
  repeat' split
  all_goals repeat'
    first
    | with_reducible assumption
    | with_reducible apply Acts.enterClearing
    | with_reducible apply Acts.onSheet
    | with_reducible apply Acts.unbind
    | with_reducible apply Acts.callArming
    | (with_reducible refine Acts.foldl _ (fun _ _ _ => ?_) _ ?_)
    | split

theorem Acts.doCancelSheet {z x : Chip} (hz : Acts z x) (id : Nat) : Acts z (x.doCancelSheet id).1 := by
  unfold Chip.doCancelSheet
  try dsimp only
  repeat' split
  all_goals repeat'
    first
    | with_reducible assumption
    | with_reducible apply Acts.cancelPrinting
    | with_reducible apply Acts.removeSheet
    | with_reducible apply Acts.onSheet
    | with_reducible apply Acts.unbindSheet
    | with_reducible apply Acts.callArming
    | split

theorem Acts.doClearJam {z x : Chip} (hz : Acts z x) : Acts z (x.doClearJam).1 := by
  unfold Chip.doClearJam
  try dsimp only
  repeat' split
  all_goals repeat'
    first
    | with_reducible assumption
    | with_reducible apply Acts.offer
    | with_reducible refine Acts.onFdc ?_ _ ?_
    | split
    | exact Nat.le_refl _
    | exact Acts.sheets_filter _ _
    | exact Nat.le_of_eq (by simp)

theorem Acts.doSetNozzle {z x : Chip} (hz : Acts z x) (a : SetNozzleArgs) : Acts z (x.doSetNozzle a).1 := by
  unfold Chip.doSetNozzle
  try dsimp only
  repeat' split
  all_goals repeat'
    first
    | with_reducible assumption
    | with_reducible apply Acts.markStatus
    | with_reducible apply Acts.callArming
    | with_reducible apply Acts.applyNozzle
    | with_reducible apply Acts.onNmn
    | split

theorem Acts.doLoadProgram {z x : Chip} (hz : Acts z x) (a : LoadProgramArgs) : Acts z (x.doLoadProgram a).1 := by
  unfold Chip.doLoadProgram
  try dsimp only
  repeat' split
  all_goals repeat'
    first
    | with_reducible assumption
    | with_reducible apply Acts.resetCounters
    | with_reducible apply Acts.onSvc
    | split

theorem Acts.doRunProgram {z x : Chip} (hz : Acts z x) (program : Nat) : Acts z (x.doRunProgram program).1 := by
  unfold Chip.doRunProgram
  try dsimp only
  repeat' split
  all_goals repeat'
    first
    | with_reducible assumption
    | with_reducible apply Acts.listProgram
    | with_reducible apply Acts.callArming
    | split

/-! ## Timers -/

theorem Acts.holdExpired {z x : Chip} (hz : Acts z x) : Acts z (x.holdExpired) := by
  unfold Chip.holdExpired
  try dsimp only
  repeat' split
  all_goals repeat'
    first
    | with_reducible assumption
    | with_reducible apply Acts.showChange
    | with_reducible apply Acts.bind
    | with_reducible apply Acts.spoil
    | with_reducible apply Acts.unbindSheet
    | with_reducible apply Acts.dropHeld
    | with_reducible apply Acts.journal
    | split

theorem Acts.pollTag {z x : Chip} (hz : Acts z x) (k : Channel) : Acts z (x.pollTag k) := by
  unfold Chip.pollTag
  try dsimp only
  repeat' split
  all_goals repeat'
    first
    | with_reducible assumption
    | with_reducible apply Acts.offer
    | with_reducible refine Acts.onInk ?_ _ _ ?_
    | split
    | exact Or.inl rfl

theorem Acts.pollPump {z x : Chip} (hz : Acts z x) (k : Channel) : Acts z (x.pollPump k) := by
  unfold Chip.pollPump
  try dsimp only
  repeat' split
  all_goals repeat'
    first
    | with_reducible assumption
    | with_reducible apply Acts.offer
    | with_reducible apply Acts.onRefill
    | split

theorem Acts.pumpTimeout {z x : Chip} (hz : Acts z x) (k : Channel) : Acts z (x.pumpTimeout k) := by
  unfold Chip.pumpTimeout
  try dsimp only
  repeat' split
  all_goals repeat'
    first
    | with_reducible assumption
    | with_reducible apply Acts.enterStopping
    | with_reducible apply Acts.journal
    | split

theorem Acts.stopTimeout {z x : Chip} (hz : Acts z x) (k : Channel) : Acts z (x.stopTimeout k) := by
  unfold Chip.stopTimeout
  try dsimp only
  repeat' split
  all_goals repeat'
    first
    | with_reducible assumption
    | with_reducible apply Acts.endStop
    | with_reducible apply Acts.journal
    | split

theorem Acts.pollStation {z x : Chip} (hz : Acts z x) : Acts z (x.pollStation) := by
  unfold Chip.pollStation
  try dsimp only
  repeat' split
  all_goals repeat'
    first
    | with_reducible assumption
    | with_reducible apply Acts.offer
    | with_reducible apply Acts.onCycle
    | split

theorem Acts.stepTimeout {z x : Chip} (hz : Acts z x) : Acts z (x.stepTimeout) := by
  unfold Chip.stepTimeout
  try dsimp only
  repeat' split
  all_goals repeat'
    first
    | with_reducible assumption
    | with_reducible apply Acts.endStep
    | split

theorem Acts.waitElapsed {z x : Chip} (hz : Acts z x) : Acts z (x.waitElapsed) := by
  unfold Chip.waitElapsed
  try dsimp only
  repeat' split
  all_goals repeat'
    first
    | with_reducible assumption
    | with_reducible apply Acts.endStep
    | split

theorem Acts.reservationTimeout {z x : Chip} (hz : Acts z x) : Acts z (x.reservationTimeout) := by
  unfold Chip.reservationTimeout
  try dsimp only
  repeat' split
  all_goals repeat'
    first
    | with_reducible assumption
    | with_reducible apply Acts.endStep
    | split

theorem Acts.pollFeed {z x : Chip} (hz : Acts z x) : Acts z (x.pollFeed) := by
  unfold Chip.pollFeed
  try dsimp only
  repeat' split
  all_goals repeat'
    first
    | with_reducible assumption
    | with_reducible apply Acts.offer
    | with_reducible refine Acts.onFdc ?_ _ ?_
    | split
    | exact Nat.le_refl _
    | exact Acts.sheets_filter _ _
    | exact Nat.le_of_eq (by simp)

theorem Acts.orderTimeout {z x : Chip} (hz : Acts z x) : Acts z (x.orderTimeout) := by
  unfold Chip.orderTimeout
  try dsimp only
  repeat' split
  all_goals repeat'
    first
    | with_reducible assumption
    | with_reducible apply Acts.endFeedOrder
    | split

theorem Acts.dryTimeout {z x : Chip} (hz : Acts z x) : Acts z (x.dryTimeout) := by
  unfold Chip.dryTimeout
  try dsimp only
  repeat' split
  all_goals repeat'
    first
    | with_reducible assumption
    | with_reducible apply Acts.dryExpired
    | split

/-! ## Frames -/

theorem Acts.deliver {z x : Chip} (hz : Acts z x) (o : LinkOrder) (outcome : FrameOutcome) : Acts z (x.deliver o outcome) := by
  unfold Chip.deliver
  try dsimp only
  repeat' split
  all_goals repeat'
    first
    | with_reducible assumption
    | with_reducible apply Acts.takeCheckPage
    | with_reducible apply Acts.takeStationStatus
    | with_reducible apply Acts.takeStation
    | with_reducible apply Acts.takeFeedCheck
    | with_reducible apply Acts.takeFeedStatus
    | with_reducible apply Acts.takeFeedFrame
    | with_reducible apply Acts.takePumpStatus
    | with_reducible apply Acts.takeStop
    | with_reducible apply Acts.takeTransfer
    | with_reducible apply Acts.takeLevel
    | with_reducible apply Acts.takeDebit
    | with_reducible apply Acts.takeReadTag
    | split

end Sys2Proof.Machine
end

