-- ==== Sys2Proof/Laws/Books.lean ====
section
/-! SUPPORT. How the part's lists stay in agreement: what they say of each other, gathered in a `Stand`, and every operation of a
block that leaves it alone. -/

namespace Sys2Proof.Machine

/-! ## Where the lists stand -/

/-- What a swath record says to the other lists: its number, its buffer, and whether it is ARMED or FIRING. -/
def Swath.core (r : Swath) : Nat × Nat × Bool := (r.id, r.buffer, r.live)

/-- The fields that the agreement of the lists is about; the writer's forward queue is none of them. -/
structure Stand where
  psw : PortSwitch
  table : List (Nat × Nat × Bool)
  bounds : List Bool
  nextSwathId : Nat
  claim : Claim
  holdQueue : List HeldRead
  notes : List ReadNote
  held : Bool
  active : Bool
  partState : PartState

def Chip.stand (x : Chip) : Stand :=
  { psw := { x.psw with writer := none }, table := x.sgt.swaths.map Swath.core, bounds := x.sgt.buffers.map Buffer.bound,
    nextSwathId := x.sgt.nextSwathId, claim := x.sgt.claim, holdQueue := x.sgt.holdQueue, notes := x.sgt.notes,
    held := x.nmn.held, active := x.svc.cycle.state.hasClaim, partState := x.cmi.partState }

/-- The nozzle-out list and the pending list within their limits (R80, R85). -/
structure NozzleMonitor.Ok (n : NozzleMonitor) : Prop where
  places : n.outList.length ≤ Config.outPlaces
  order : n.outList.Pairwise fun a b => a.before b = true
  pending : n.pending.length ≤ Config.pendingPlaces

/-- The lists stand as `p` says, and those of the nozzle monitor and the service controller are within their limits. -/
structure Books (p : Stand → Prop) (x : Chip) : Prop where
  stand : p x.stand
  nozzles : x.nmn.Ok
  requests : (x.svc.requests.map Request.program).Nodup

theorem Books.imp {p q : Stand → Prop} {x : Chip} (h : Books p x) (f : p x.stand → q x.stand) : Books q x :=
  ⟨f h.stand, h.nozzles, h.requests⟩

section Leaves

variable {p : Stand → Prop} {x : Chip}

/-! ## The changes of one block -/

theorem Books.onFdc (h : Books p x) (f : FeedController → FeedController) : Books p (x.onFdc f) :=
  ⟨h.stand, h.nozzles, h.requests⟩
theorem Books.onFlm (h : Books p x) (f : LinkMaster → LinkMaster) : Books p (x.onFlm f) :=
  ⟨h.stand, h.nozzles, h.requests⟩
theorem Books.onRpw (h : Books p x) (f : ReportWriter → ReportWriter) : Books p (x.onRpw f) :=
  ⟨h.stand, h.nozzles, h.requests⟩
theorem Books.ink (h : Books p x) (v : Six InkChannel) : Books p { x with ink := v } := ⟨h.stand, h.nozzles, h.requests⟩
theorem Books.onInk (h : Books p x) (k : Channel) (f : InkChannel → InkChannel) : Books p (x.onInk k f) := h.ink _
theorem Books.onAccount (h : Books p x) (k : Channel) (f : Account → Account) : Books p (x.onAccount k f) := h.ink _
theorem Books.onCartridge (h : Books p x) (k : Channel) (f : Cartridge → Cartridge) : Books p (x.onCartridge k f) := h.ink _
theorem Books.onRefill (h : Books p x) (k : Channel) (f : Refill → Refill) : Books p (x.onRefill k f) := h.ink _
theorem Books.emit (h : Books p x) (e : Emission) : Books p (x.emit e) := ⟨h.stand, h.nozzles, h.requests⟩
theorem Books.withDue (h : Books p x) (d : Due) : Books p { x with due := d } := ⟨h.stand, h.nozzles, h.requests⟩
theorem Books.callArming (h : Books p x) : Books p x.callArming := h.withDue _
theorem Books.callAdmission (h : Books p x) : Books p x.callAdmission := h.withDue _
theorem Books.noticeInk (h : Books p x) : Books p x.noticeInk := h.withDue _

theorem Books.onCmi (h : Books p x) (f : Intake → Intake) (hf : (f x.cmi).partState = x.cmi.partState) :
    Books p (x.onCmi f) := by
  refine ⟨?_, h.nozzles, h.requests⟩
  have e : (x.onCmi f).stand = x.stand := by simp only [Chip.stand, Chip.onCmi, hf]
  rw [e]; exact h.stand

theorem Books.onSvc (h : Books p x) (f : ServiceController → ServiceController) (hr : (f x.svc).requests = x.svc.requests)
    (hc : (f x.svc).cycle.state.hasClaim = x.svc.cycle.state.hasClaim) : Books p (x.onSvc f) := by
  refine ⟨?_, h.nozzles, ?_⟩
  · have e : (x.onSvc f).stand = x.stand := by simp only [Chip.stand, Chip.onSvc, hc]
    rw [e]; exact h.stand
  · show ((f x.svc).requests.map Request.program).Nodup
    rw [hr]; exact h.requests

theorem Books.onCycle (h : Books p x) (f : Cycle → Cycle) (hc : (f x.svc.cycle).state.hasClaim = x.svc.cycle.state.hasClaim) :
    Books p (x.onCycle f) := h.onSvc _ rfl hc

theorem Books.nmn (h : Books p x) (f : NozzleMonitor → NozzleMonitor) (hh : (f x.nmn).held = x.nmn.held)
    (ho : (f x.nmn).Ok) : Books p (x.onNmn f) := by
  refine ⟨?_, ho, h.requests⟩
  have e : (x.onNmn f).stand = x.stand := by simp only [Chip.stand, Chip.onNmn, hh]
  rw [e]; exact h.stand

theorem Books.onNmn (h : Books p x) (f : NozzleMonitor → NozzleMonitor) (hh : (f x.nmn).held = x.nmn.held)
    (ho : (f x.nmn).outList = x.nmn.outList) (hp : (f x.nmn).pending = x.nmn.pending) : Books p (x.onNmn f) :=
  h.nmn f hh ⟨ho ▸ h.nozzles.places, ho ▸ h.nozzles.order, hp ▸ h.nozzles.pending⟩

theorem Books.onSgt (h : Books p x) (f : Gate → Gate) (hf : (x.onSgt f).stand = x.stand) : Books p (x.onSgt f) :=
  ⟨hf ▸ h.stand, h.nozzles, h.requests⟩

theorem Books.foldl {α : Type} (f : Chip → α → Chip) (hf : ∀ z a, Books p z → Books p (f z a)) (l : List α) (h : Books p x) :
    Books p (l.foldl f x) := by
  induction l generalizing x with
  | nil => exact h
  | cons a l ih => exact ih (hf x a h)

theorem Books.journal (h : Books p x) (r : JournalRecord) : Books p (x.journal r) := h.onRpw _
theorem Books.journalOverflow (h : Books p x) : Books p x.journalOverflow := h.onRpw _
theorem Books.markStatus (h : Books p x) (n : Fin 13) : Books p (x.markStatus n) := h.onRpw _

theorem Books.showChange (h : Books p x) (old : Chip) (n : Fin 13) : Books p (x.showChange old n) := by
  rw [Chip.showChange_eq]
  split
  · exact h
  · exact h.markStatus n

theorem Books.refreshStatus (h : Books p x) (old : Chip) : Books p (x.refreshStatus old) := by
  rw [Chip.refreshStatus_eq]
  refine Books.foldl _ (fun y n hy => ?_) _ h
  split
  · exact hy
  · exact hy.markStatus n

theorem Books.feedStage (h : Books p x) (f : FeedController → FeedController) : Books p (x.feedStage f) :=
  (h.onFdc f).refreshStatus _

theorem Books.noticeNext (h : Books p x) (old : Chip) : Books p (x.noticeNext old) := by
  unfold Chip.noticeNext; split
  · exact h
  · exact h.callArming

theorem Books.offer (h : Books p x) (o : LinkOrder) : Books p (x.offer o) := h.onFlm _

/-- A change of the records that leaves what they say to the other lists (R35, R51, R56). -/
theorem Books.swaths (h : Books p x) (f : Swath → Swath) (hf : ∀ r ∈ x.sgt.swaths, (f r).core = r.core) :
    Books p (x.onSgt fun g => { g with swaths := g.swaths.map f }) := by
  refine h.onSgt _ ?_
  have e : (x.sgt.swaths.map f).map Swath.core = x.sgt.swaths.map Swath.core := by
    rw [List.map_map]; exact List.map_congr_left hf
  simp only [Chip.stand, Chip.onSgt, e]

/-- A change of one buffer that leaves it BOUND or FREE as it was (R7, R8). -/
theorem Books.buffer (h : Books p x) (n : Nat) (b c : Buffer) (hn : x.sgt.buffers[n]? = some b) (hc : c.bound = b.bound) :
    Books p (x.onSgt fun g => { g with buffers := g.buffers.set n c }) := by
  refine h.onSgt _ ?_
  have e : (x.sgt.buffers.set n c).map Buffer.bound = x.sgt.buffers.map Buffer.bound := by
    refine List.ext_getElem? fun i => ?_
    simp only [List.getElem?_map, List.getElem?_set]
    split
    · rename_i e; subst e
      have := (List.getElem?_eq_some_iff.mp hn).1
      have hb : x.sgt.buffers[n] = b := (List.getElem?_eq_some_iff.mp hn).2
      simp [this, hb, hc]
    · rfl
  simp only [Chip.stand, Chip.onSgt, e]

theorem Books.onLiveSwath (h : Books p x) (f : Swath → Swath) (hf : ∀ r, (f r).core = r.core) :
    Books p (x.onLiveSwath f) := by
  refine h.swaths _ fun r _ => ?_
  split
  · exact hf r
  · rfl

theorem Books.onSwath (h : Books p x) (id : Nat) (f : Swath → Swath) (hf : ∀ r ∈ x.sgt.swaths, r.id = id → (f r).core = r.core) :
    Books p (x.onSwath id f) := by
  refine h.swaths _ fun r hr => ?_
  split
  · rename_i e; exact hf r hr (by simpa using e)
  · rfl

theorem Books.setRemaining (h : Books p x) (o : Holder) (k : Channel) (amount : Nat) : Books p (x.setRemaining o k amount) := by
  cases o with
  | none => exact h
  | swath => exact h.onLiveSwath _ fun _ => rfl
  | prime => exact h.onCycle (fun c => { c with primeRemaining := c.primeRemaining.set k amount }) rfl

/-- A program joins the request list at most once (R103). -/
theorem Books.listProgram (h : Books p x) (q : Fin 8) (cause : RequestCause) : Books p (x.listProgram q cause) := by
  unfold Chip.listProgram
  split
  · exact h
  · rename_i e
    refine Books.callArming (Books.markStatus (p := p) ?_ 11)
    refine ⟨h.stand, h.nozzles, ?_⟩
    simp only [Chip.listed, List.any_eq_true, beq_iff_eq, not_exists, not_and] at e
    show ((x.svc.requests ++ [_]).map Request.program).Nodup
    rw [List.map_append, List.nodup_append]
    refine ⟨h.requests, by simp, ?_⟩
    simp only [List.mem_map, List.map_cons, List.map_nil, List.mem_singleton]
    rintro _ ⟨r, hr, rfl⟩ _ rfl
    exact e r hr

/-! ## The nozzle-out list (R80 to R86) -/

/-- The place of an entry in the order of the list (R80). -/
def OutEntry.place (e : OutEntry) : Nat × Nat := (e.channel.val, e.nozzle)

theorem OutEntry.before_iff (a b : OutEntry) :
    a.before b = true ↔ a.channel.val < b.channel.val ∨ (a.channel.val = b.channel.val ∧ a.nozzle < b.nozzle) := by
  simp [OutEntry.before, Fin.ext_iff]

theorem insertOut_length (e : OutEntry) (l : List OutEntry) : (insertOut e l).length = l.length + 1 := by
  induction l with
  | nil => rfl
  | cons a l ih => simp only [insertOut]; split <;> simp [ih]

theorem mem_insertOut (e a : OutEntry) (l : List OutEntry) : a ∈ insertOut e l ↔ a = e ∨ a ∈ l := by
  induction l with
  | nil => simp [insertOut]
  | cons b l ih =>
    simp only [insertOut]
    split
    · simp
    · simp only [List.mem_cons, ih]
      exact ⟨fun h => by rcases h with h | h | h <;> simp [h], fun h => by rcases h with h | h | h <;> simp [h]⟩

/-- An entry for a nozzle that is not on the list takes its place in the order (R80). -/
theorem insertOut_order (e : OutEntry) (l : List OutEntry) (h : l.Pairwise fun a b => a.before b = true)
    (hn : ∀ a ∈ l, a.channel = e.channel → a.nozzle ≠ e.nozzle) :
    (insertOut e l).Pairwise fun a b => a.before b = true := by
  induction l with
  | nil => simp [insertOut]
  | cons a l ih =>
    have h1 := List.pairwise_cons.mp h
    simp only [insertOut]
    split
    · rename_i e1
      refine List.pairwise_cons.mpr ⟨fun b hb => ?_, h⟩
      rcases List.mem_cons.mp hb with rfl | hb
      · exact e1
      · have := h1.1 b hb
        rw [OutEntry.before_iff] at *
        omega
    · rename_i e1
      refine List.pairwise_cons.mpr ⟨fun b hb => ?_, ih h1.2 fun b hb => hn b (List.mem_cons_of_mem _ hb)⟩
      rcases (mem_insertOut _ _ _).mp hb with rfl | hb
      · have := hn a List.mem_cons_self
        rw [OutEntry.before_iff] at *
        by_cases c : a.channel = b.channel
        · have := this c
          rw [c] at e1 ⊢
          omega
        · have : a.channel.val ≠ b.channel.val := fun g => c (Fin.ext g)
          omega
      · exact h1.1 b hb

/-- A change of entries that keeps their nozzles keeps the order of the list (R80). -/
theorem outOrder_map (f : OutEntry → OutEntry) (hf : ∀ e, (f e).channel = e.channel ∧ (f e).nozzle = e.nozzle)
    {l : List OutEntry} (h : l.Pairwise fun a b => a.before b = true) : (l.map f).Pairwise fun a b => a.before b = true := by
  rw [List.pairwise_map]
  refine h.imp fun {a b} g => ?_
  rw [OutEntry.before_iff] at *
  rw [(hf a).1, (hf a).2, (hf b).1, (hf b).2]
  exact g

theorem setCoverage_order (k : Channel) (n : Nat) (c : Coverage) {l : List OutEntry}
    (h : l.Pairwise fun a b => a.before b = true) : (setCoverage l k n c).Pairwise fun a b => a.before b = true :=
  outOrder_map _ (fun e => by split <;> exact ⟨rfl, rfl⟩) h

/-- The list in its order has no two entries for one nozzle (R80). -/
theorem outOrder_nodup {l : List OutEntry} (h : l.Pairwise fun a b => a.before b = true) :
    (l.map fun e => (e.channel, e.nozzle)).Nodup := by
  rw [List.Nodup, List.pairwise_map]
  refine h.imp fun {a b} g e => ?_
  simp only [Prod.mk.injEq] at e
  rw [OutEntry.before_iff, e.1, e.2] at g
  omega

theorem not_isOut {l : List OutEntry} {k : Channel} {n : Nat} (h : isOut l k n = false) :
    ∀ a ∈ l, a.channel = k → a.nozzle ≠ n := by
  intro a ha hk hn
  have : (outEntry l k n).isSome = true := List.find?_isSome.mpr ⟨a, ha, by simp [hk, hn]⟩
  rw [isOut, this] at h
  exact absurd h (by simp)

/-! ## The report writer -/

theorem Books.fillWriter (h : Books p x) : Books p x.fillWriter := by
  unfold Chip.fillWriter Chip.takeStatus
  dsimp only
  repeat' split
  all_goals first | exact h | exact ⟨h.stand, h.nozzles, h.requests⟩

/-! ## The ink controller -/

theorem Books.journalLevelStatus (h : Books p x) (k : Channel) (old : LevelStatus) : Books p (x.journalLevelStatus k old) :=
    by
  unfold Chip.journalLevelStatus; (try dsimp only); (repeat' split)
  all_goals with_reducible repeat'
    first
    | assumption | apply Books.journal | split

theorem Books.startRefill (h : Books p x) (k : Channel) (ignoreMark : Bool) : Books p (x.startRefill k ignoreMark) := by
  unfold Chip.startRefill; (try dsimp only); (repeat' split)
  all_goals with_reducible repeat'
    first
    | assumption | apply Books.offer | apply Books.markStatus | apply Books.onRefill | apply Books.onAccount | split

theorem Books.reserve (h : Books p x) (j : Holder) (amounts : Six Nat) : Books p (x.reserve j amounts) := by
  unfold Chip.reserve; (try dsimp only); (repeat' split)
  all_goals with_reducible repeat'
    first
    | assumption | apply Books.markStatus | refine Books.foldl _ (fun _ _ _ => ?_) _ ?_ | apply Books.noticeInk
    | apply Books.onAccount | split

theorem Books.refuseReservation (h : Books p x) (amounts : Six Nat) : Books p (x.refuseReservation amounts) := by
  unfold Chip.refuseReservation; (try dsimp only); (repeat' split)
  all_goals with_reducible repeat'
    first
    | assumption | apply Books.startRefill | refine Books.foldl _ (fun _ _ _ => ?_) _ ?_ | split

theorem Books.applyConsumed (h : Books p x) (k : Channel) (n : Nat) (source : InkSource) : Books p (x.applyConsumed k n
    source) := by
  unfold Chip.applyConsumed; (try dsimp only); (repeat' split)
  all_goals with_reducible repeat'
    first
    | assumption | apply Books.showChange | apply Books.startRefill | apply Books.journalLevelStatus | apply Books.setRemaining | apply Books.journal
    | apply Books.onAccount | split

theorem Books.consume (h : Books p x) (k : Channel) (pl : Nat) (source : InkSource) : Books p (x.consume k pl source) := by
  unfold Chip.consume; (try dsimp only); (repeat' split)
  all_goals with_reducible repeat'
    first
    | assumption | apply Books.showChange | apply Books.applyConsumed | apply Books.noticeInk | apply Books.onAccount | split

theorem Books.releaseChannel (h : Books p x) (j : Holder) (k : Channel) : Books p (x.releaseChannel j k) := by
  unfold Chip.releaseChannel; (try dsimp only); (repeat' split)
  all_goals with_reducible repeat'
    first
    | assumption | apply Books.setRemaining | apply Books.markStatus | apply Books.noticeInk | apply Books.callAdmission
    | apply Books.onAccount | split

theorem Books.release (h : Books p x) (j : Holder) : Books p (x.release j) := by
  unfold Chip.release; (try dsimp only); (repeat' split)
  all_goals with_reducible repeat'
    first
    | assumption | apply Books.releaseChannel | refine Books.foldl _ (fun _ _ _ => ?_) _ ?_ | split

theorem Books.discardDebt (h : Books p x) (k : Channel) : Books p (x.discardDebt k) := by
  unfold Chip.discardDebt; (try dsimp only); (repeat' split)
  all_goals with_reducible repeat'
    first
    | assumption | apply Books.showChange | apply Books.journal | apply Books.onInk | split

theorem Books.owe (h : Books p x) (k : Channel) (serial amount : Nat) : Books p (x.owe k serial amount) := by
  unfold Chip.owe; (try dsimp only); (repeat' split)
  all_goals with_reducible repeat'
    first
    | assumption | apply Books.discardDebt | apply Books.onInk | split

theorem Books.placeDebit (h : Books p x) (k : Channel) : Books p (x.placeDebit k) := by
  unfold Chip.placeDebit; (try dsimp only); (repeat' split)
  all_goals with_reducible repeat'
    first
    | assumption | apply Books.offer | split

theorem Books.creditMoved (h : Books p x) (k : Channel) : Books p (x.creditMoved k) := by
  unfold Chip.creditMoved; (try dsimp only); (repeat' split)
  all_goals with_reducible repeat'
    first
    | assumption | apply Books.showChange | apply Books.owe | apply Books.journalLevelStatus | apply Books.noticeInk | apply Books.callAdmission
    | apply Books.onAccount | split

theorem Books.refillIdle (h : Books p x) (k : Channel) : Books p (x.refillIdle k) := by
  unfold Chip.refillIdle; (try dsimp only); (repeat' split)
  all_goals with_reducible repeat'
    first
    | assumption | apply Books.startRefill | apply Books.markStatus | apply Books.onRefill | apply Books.onAccount
    | apply Books.onFlm | split

theorem Books.enterDebiting (h : Books p x) (k : Channel) : Books p (x.enterDebiting k) := by
  unfold Chip.enterDebiting; (try dsimp only); (repeat' split)
  all_goals with_reducible repeat'
    first
    | assumption | apply Books.refillIdle | apply Books.placeDebit | apply Books.onRefill | apply Books.onAccount | split

theorem Books.enterPumping (h : Books p x) (k : Channel) : Books p (x.enterPumping k) := by
  unfold Chip.enterPumping; (try dsimp only); (repeat' split)
  all_goals with_reducible repeat'
    first
    | assumption | apply Books.onRefill | apply Books.onAccount | split

theorem Books.enterStopping (h : Books p x) (k : Channel) (cause : StopCause) : Books p (x.enterStopping k cause) := by
  unfold Chip.enterStopping; (try dsimp only); (repeat' split)
  all_goals with_reducible repeat'
    first
    | assumption | apply Books.offer | apply Books.onRefill | apply Books.onAccount | split

theorem Books.endStop (h : Books p x) (k : Channel) : Books p (x.endStop k) := by
  unfold Chip.endStop; (try dsimp only); (repeat' split)
  all_goals with_reducible repeat'
    first
    | assumption | apply Books.enterDebiting | apply Books.refillIdle | apply Books.creditMoved | split

theorem Books.setCartridge (h : Books p x) (k : Channel) (state : CartridgeState) : Books p (x.setCartridge k state) := by
  unfold Chip.setCartridge; (try dsimp only); (repeat' split)
  all_goals with_reducible repeat'
    first
    | assumption | apply Books.markStatus | apply Books.startRefill | apply Books.journal | apply Books.callAdmission | apply Books.onCartridge | split

theorem Books.judge (h : Books p x) (k : Channel) : Books p (x.judge k) := by
  unfold Chip.judge; (try dsimp only); (repeat' split)
  all_goals with_reducible repeat'
    first
    | assumption | apply Books.setCartridge | split

theorem Books.judgeAgain (h : Books p x) (k : Channel) : Books p (x.judgeAgain k) := by
  unfold Chip.judgeAgain; (try dsimp only); (repeat' split)
  all_goals with_reducible repeat'
    first
    | assumption | apply Books.judge | split

theorem Books.noticeRemaining (h : Books p x) (k : Channel) (old : Cartridge) : Books p (x.noticeRemaining k old) := by
  unfold Chip.noticeRemaining; (try dsimp only); (repeat' split)
  all_goals with_reducible repeat'
    first
    | assumption | apply Books.callAdmission | split

theorem Books.removeCartridge (h : Books p x) (k : Channel) : Books p (x.removeCartridge k) := by
  unfold Chip.removeCartridge; (try dsimp only); (repeat' split)
  all_goals with_reducible repeat'
    first
    | assumption | apply Books.setCartridge | apply Books.enterStopping | apply Books.onCartridge | split

theorem Books.insertCartridge (h : Books p x) (k : Channel) (inkType serial capacity remaining : Nat) : Books p
    (x.insertCartridge k inkType serial capacity remaining) := by
  unfold Chip.insertCartridge; (try dsimp only); (repeat' split)
  all_goals with_reducible repeat'
    first
    | assumption | apply Books.judge | apply Books.setCartridge | apply Books.placeDebit | apply Books.discardDebt
    | apply Books.onCartridge | split

theorem Books.rereadCartridge (h : Books p x) (k : Channel) (inkType capacity remaining : Nat) : Books p (x.rereadCartridge k
    inkType capacity remaining) := by
  unfold Chip.rereadCartridge; (try dsimp only); (repeat' split)
  all_goals with_reducible repeat'
    first
    | assumption | apply Books.noticeRemaining | apply Books.judgeAgain | apply Books.placeDebit | apply Books.onCartridge
    | split

theorem Books.fieldFault (h : Books p x) (o : LinkOrder) (k : Channel) (outcome : FrameOutcome) (amount : Option Nat) : Books
    p (x.fieldFault o k outcome amount) := by
  unfold Chip.fieldFault; (try dsimp only); (repeat' split)
  all_goals with_reducible repeat'
    first
    | assumption | apply Books.journal | split

theorem Books.takeReadTag (h : Books p x) (k : Channel) (outcome : FrameOutcome) : Books p (x.takeReadTag k outcome) := by
  unfold Chip.takeReadTag; (try dsimp only); (repeat' split)
  all_goals with_reducible repeat'
    first
    | assumption | apply Books.markStatus | apply Books.fieldFault | apply Books.rereadCartridge | apply Books.insertCartridge
    | apply Books.removeCartridge | apply Books.onCartridge | split

theorem Books.debitDone (h : Books p x) (k : Channel) (amount serial remaining : Nat) : Books p (x.debitDone k amount serial
    remaining) := by
  unfold Chip.debitDone; (try dsimp only); (repeat' split)
  all_goals with_reducible repeat'
    first
    | assumption | apply Books.fieldFault | apply Books.noticeRemaining | apply Books.judgeAgain | apply Books.judge
    | apply Books.onCartridge | apply Books.onInk | split

theorem Books.debitingNext (h : Books p x) (k : Channel) (done : Bool) : Books p (x.debitingNext k done) := by
  unfold Chip.debitingNext; (try dsimp only); (repeat' split)
  all_goals with_reducible repeat'
    first
    | assumption | apply Books.refillIdle | apply Books.placeDebit | split

theorem Books.takeDebit (h : Books p x) (k : Channel) (amount serial : Nat) (outcome : FrameOutcome) : Books p (x.takeDebit k
    amount serial outcome) := by
  unfold Chip.takeDebit; (try dsimp only); (repeat' split)
  all_goals with_reducible repeat'
    first
    | assumption | apply Books.debitingNext | apply Books.debitDone | apply Books.fieldFault | split

theorem Books.takeLevel (h : Books p x) (k : Channel) (outcome : FrameOutcome) : Books p (x.takeLevel k outcome) := by
  unfold Chip.takeLevel; (try dsimp only); (repeat' split)
  all_goals with_reducible repeat'
    first
    | assumption | apply Books.showChange | apply Books.fieldFault | apply Books.startRefill | apply Books.journalLevelStatus | apply Books.noticeInk
    | apply Books.callAdmission | apply Books.onAccount | split

theorem Books.takeTransfer (h : Books p x) (k : Channel) (volume : Nat) (outcome : FrameOutcome) : Books p (x.takeTransfer k
    volume outcome) := by
  unfold Chip.takeTransfer; (try dsimp only); (repeat' split)
  all_goals with_reducible repeat'
    first
    | assumption | apply Books.fieldFault | apply Books.enterStopping | apply Books.enterPumping | apply Books.refillIdle
    | split

theorem Books.takeStop (h : Books p x) (k : Channel) (outcome : FrameOutcome) : Books p (x.takeStop k outcome) := by
  unfold Chip.takeStop; (try dsimp only); (repeat' split)
  all_goals with_reducible repeat'
    first
    | assumption | apply Books.fieldFault | split

theorem Books.pumpingReply (h : Books p x) (k : Channel) (state : PumpState) (code moved : Nat) : Books p (x.pumpingReply k
    state code moved) := by
  unfold Chip.pumpingReply; (try dsimp only); (repeat' split)
  all_goals with_reducible repeat'
    first
    | assumption | apply Books.enterDebiting | apply Books.creditMoved | apply Books.journal | split

theorem Books.takePumpStatus (h : Books p x) (k : Channel) (outcome : FrameOutcome) : Books p (x.takePumpStatus k outcome) :=
    by
  unfold Chip.takePumpStatus; (try dsimp only); (repeat' split)
  all_goals with_reducible repeat'
    first
    | assumption | apply Books.showChange | apply Books.pumpingReply | apply Books.endStop | apply Books.onRefill | split

/-! ## The triggers -/

theorem Books.fireTriggers (h : Books p x) (met : Program → Counters → Bool) : Books p (x.fireTriggers met) := by
  unfold Chip.fireTriggers; (try dsimp only); (repeat' split)
  all_goals with_reducible repeat'
    first
    | assumption | apply Books.listProgram | refine Books.foldl _ (fun _ _ _ => ?_) _ ?_ | split

theorem Books.onCounters (h : Books p x) (f : Counters → Counters) : Books p (x.onCounters f) := by
  unfold Chip.onCounters; (try dsimp only); (repeat' split)
  all_goals with_reducible repeat'
    first
    | assumption | apply Books.onSvc | split | rfl

theorem Books.resetCounters (h : Books p x) (q : Fin 8) : Books p (x.resetCounters q) := by
  unfold Chip.resetCounters; (try dsimp only); (repeat' split)
  all_goals with_reducible repeat'
    first
    | assumption | apply Books.onSvc | split | rfl

theorem Books.sheetRemoved (h : Books p x) : Books p x.sheetRemoved := by
  unfold Chip.sheetRemoved; (try dsimp only); (repeat' split)
  all_goals with_reducible repeat'
    first
    | assumption | apply Books.onCounters | apply Books.fireTriggers | split

theorem Books.additionNotice (h : Books p x) : Books p x.additionNotice := by
  unfold Chip.additionNotice; (try dsimp only); (repeat' split)
  all_goals with_reducible repeat'
    first
    | assumption | apply Books.onCounters | apply Books.fireTriggers | split

theorem Books.uncoveredNotice (h : Books p x) : Books p x.uncoveredNotice := by
  unfold Chip.uncoveredNotice; (try dsimp only); (repeat' split)
  all_goals with_reducible repeat'
    first
    | assumption | apply Books.fireTriggers | split

theorem Books.firingBegun (h : Books p x) : Books p x.firingBegun := by
  unfold Chip.firingBegun; (try dsimp only); (repeat' split)
  all_goals with_reducible repeat'
    first
    | assumption | apply Books.fireTriggers | apply Books.onSvc | split | rfl

theorem Books.firingEnded (h : Books p x) : Books p x.firingEnded := by
  unfold Chip.firingEnded; (try dsimp only); (repeat' split)
  all_goals with_reducible repeat'
    first
    | assumption | refine Books.foldl _ (fun _ _ _ => ?_) _ ?_ | apply Books.onSvc | split | rfl

theorem Books.updateIdle (h : Books p x) : Books p x.updateIdle := by
  unfold Chip.updateIdle; (try dsimp only); (repeat' split)
  all_goals with_reducible repeat'
    first
    | assumption | apply Books.onCounters | apply Books.onSvc | split | rfl

theorem Books.fireIdle (h : Books p x) (q : Fin 8) : Books p (x.fireIdle q) := by
  unfold Chip.fireIdle; (try dsimp only); (repeat' split)
  all_goals with_reducible repeat'
    first
    | assumption | apply Books.listProgram | apply Books.onSvc | split | rfl

theorem Books.firePrintTime (h : Books p x) (q : Fin 8) : Books p (x.firePrintTime q) := by
  unfold Chip.firePrintTime; (try dsimp only); (repeat' split)
  all_goals with_reducible repeat'
    first
    | assumption | apply Books.listProgram | split

/-! ## The nozzle monitor -/

theorem Books.fireGroup (h : Books p x) (k : Channel) (g : Nat) : Books p (x.fireGroup k g) := by
  unfold Chip.fireGroup; (try dsimp only); (repeat' split)
  all_goals with_reducible repeat'
    first
    | assumption | apply Books.onNmn | split | rfl

theorem Books.fireChannel (h : Books p x) (k : Channel) : Books p (x.fireChannel k) := by
  unfold Chip.fireChannel; (try dsimp only); (repeat' split)
  all_goals with_reducible repeat'
    first
    | assumption | apply Books.onNmn | split | rfl

theorem Books.fireMask (h : Books p x) (mask : BitVec 8) : Books p (x.fireMask mask) := by
  unfold Chip.fireMask; (try dsimp only); (repeat' split)
  all_goals with_reducible repeat'
    first
    | assumption | apply Books.fireChannel | refine Books.foldl _ (fun _ _ _ => ?_) _ ?_ | split

theorem Books.fireAll (h : Books p x) : Books p x.fireAll := by
  unfold Chip.fireAll; (try dsimp only); (repeat' split)
  all_goals with_reducible repeat'
    first
    | assumption | apply Books.onNmn | split | rfl

/-- An entry for a nozzle that is not on the list joins it where a place is free (R80, R84). -/
theorem Books.addOut (h : Books p x) (k : Channel) (n : Nat) (origin : Origin) (hn : isOut x.nmn.outList k n = false)
    (hl : x.nmn.outList.length < Config.outPlaces) : Books p (x.addOut k n origin) := by
  have g : ∀ e : OutEntry, e.channel = k → e.nozzle = n →
      Books p (x.onNmn fun m => { m with outList := insertOut e (setCoverage m.outList k (partner n) .uncovered) }) := by
    intro e ek en
    refine h.nmn _ rfl ⟨?_, insertOut_order _ _ (setCoverage_order _ _ _ h.nozzles.order) ?_, h.nozzles.pending⟩
    · show (insertOut e (setCoverage x.nmn.outList k (partner n) .uncovered)).length ≤ _
      rw [insertOut_length, setCoverage, List.length_map]; exact hl
    · intro a ha hk
      obtain ⟨b, hb, rfl⟩ := List.mem_map.mp ha
      have := not_isOut hn b hb
      rw [ek] at hk; rw [en]
      split at hk <;> (split; all_goals first | exact this hk | contradiction)
  unfold Chip.addOut
  dsimp only
  split
  · exact (((g _ rfl rfl).markStatus _).journal _).additionNotice.uncoveredNotice
  · exact (((g _ rfl rfl).markStatus _).journal _).additionNotice

theorem Books.removeOut (h : Books p x) (e : OutEntry) : Books p (x.removeOut e) := by
  refine ((h.nmn _ rfl ⟨?_, setCoverage_order _ _ _ (h.nozzles.order.filter _), h.nozzles.pending⟩).markStatus _).journal _
  show (setCoverage (x.nmn.outList.filter _) _ _ _).length ≤ _
  rw [setCoverage, List.length_map]
  exact Nat.le_trans (List.length_filter_le _ _) h.nozzles.places

theorem Books.commandOut (h : Books p x) (e : OutEntry) : Books p (x.commandOut e) := by
  refine (h.nmn _ rfl ⟨?_, outOrder_map _ (fun a => ?_) h.nozzles.order, h.nozzles.pending⟩).journal _
  · show (x.nmn.outList.map _).length ≤ _
    rw [List.length_map]; exact h.nozzles.places
  · split <;> exact ⟨rfl, rfl⟩

/-- A change takes effect on a list that has a place for it where it needs one (R84). -/
theorem Books.applyNozzle (h : Books p x) (c : NozzleChange)
    (hc : c.out = true → isOut x.nmn.outList c.channel c.nozzle = false → x.nmn.outList.length < Config.outPlaces) :
    Books p (x.applyNozzle c) := by
  unfold Chip.applyNozzle
  split
  · rename_i e
    have hn : isOut x.nmn.outList c.channel c.nozzle = false := by rw [isOut, e]; rfl
    split
    · rename_i ho; exact h.addOut _ _ _ hn (hc ho hn)
    · exact h
  · split
    · split
      · exact h.commandOut _
      · exact h
    · exact h.removeOut _

theorem Books.applyPending (h : Books p x) (c : NozzleChange) : Books p (x.applyPending c) := by
  unfold Chip.applyPending
  split
  · exact h.journal _
  · rename_i e
    refine h.applyNozzle c fun ho hn => ?_
    rw [ho, hn] at e
    simpa using e

/-- The hold is FREE after the swath is gone (R82, R86). -/
theorem Books.swathGone (h : Books (fun s => p { s with held := false }) x) : Books p x.swathGone := by
  unfold Chip.swathGone
  refine Books.foldl _ (fun _ _ g => g.applyPending _) _ (Books.refreshStatus ?_ _)
  refine (?_ : Books p (((x.onNmn fun n => { n with held := false, pending := [] }).onNmn
    NozzleMonitor.takeKeptAside).markStatus 12))
  refine Books.markStatus ?_ _
  exact ⟨h.stand, ⟨h.nozzles.places, h.nozzles.order, Nat.zero_le _⟩, h.requests⟩

theorem Books.handSpit (h : Books p x) (k : Channel) (s : SpitSettings) : Books p (x.handSpit k s) := by
  refine h.onNmn _ ?_ ?_ ?_ <;> (split <;> rfl)

theorem Books.mergeRemovals (h : Books p x) (mask : BitVec 8) (entries : List (Channel × Nat)) : Books p (x.mergeRemovals mask
    entries) := by
  unfold Chip.mergeRemovals; (try dsimp only); (repeat' split)
  all_goals with_reducible repeat'
    first
    | assumption | apply Books.removeOut | refine Books.foldl _ (fun _ _ _ => ?_) _ ?_ | split

theorem Books.mergeAdditions (h : Books p x) (wanted : List (Channel × Nat)) : Books p (x.mergeAdditions wanted).1 := by
  have g : ∀ (l : List (Channel × Nat)) (q : Chip × List (Channel × Nat)), Books p q.1 →
      Books p (l.foldl (fun (y, left) (k, n) =>
        if isOut y.nmn.outList k n then (y, left)
        else if y.nmn.outList.length < Config.outPlaces then (y.addOut k n .check, left)
        else (y, left ++ [(k, n)])) q).1 := by
    intro l
    induction l with
    | nil => intro q hq; exact hq
    | cons a l ih =>
      intro q hq
      apply ih
      dsimp only
      split
      · exact hq
      · rename_i e
        split
        · rename_i r; exact hq.addOut _ _ _ (by simpa using e) r
        · exact hq
  exact g wanted (x, []) h

theorem Books.mergeOverflow (h : Books p x) (mask : BitVec 8) (left : List (Channel × Nat)) : Books p (x.mergeOverflow mask
    left) := by
  unfold Chip.mergeOverflow; (try dsimp only); (repeat' split)
  all_goals with_reducible repeat'
    first
    | assumption | apply Books.markStatus | apply Books.journal | apply Books.onNmn | split | rfl

theorem Books.merge (h : Books p x) (mask : BitVec 8) (entries : List (Channel × Nat)) : Books p (x.merge mask entries) :=
  (((h.mergeRemovals _ _).mergeAdditions _).mergeOverflow _ _).markStatus _

theorem Books.takeReport (h : Books p x) (mask : BitVec 8) (entries : List (Nat × Nat)) : Books p (x.takeReport mask entries)
    := by
  unfold Chip.takeReport; (try dsimp only); (repeat' split)
  all_goals with_reducible repeat'
    first
    | assumption | apply Books.merge | apply Books.journal | split

/-! ## The gate -/

theorem Books.askWake (h : Books p x) (r : Swath) : Books p (x.askWake r) := by
  unfold Chip.askWake
  split
  · exact (h.onSgt (fun g => { g with wakeAskedFor := some r.id }) rfl).onSvc _ rfl rfl
  · exact h

theorem Books.consumeDelivered (h : Books p x) (w : Rewrite) (k : Channel) : Books p (x.consumeDelivered w k) := by
  unfold Chip.consumeDelivered; (try dsimp only); (repeat' split)
  all_goals with_reducible repeat'
    first
    | assumption | apply Books.consume | split

theorem Books.fireDelivered (h : Books p x) (e : Channel × Nat) : Books p (x.fireDelivered e) := by
  unfold Chip.fireDelivered; (try dsimp only); (repeat' split)
  all_goals with_reducible repeat'
    first
    | assumption | apply Books.fireGroup | split

/-! ## The feed controller -/

theorem Books.onPlaten (h : Books p x) (f : Sheet → Sheet) : Books p (x.onPlaten f) := by
  unfold Chip.onPlaten; (try dsimp only); (repeat' split)
  all_goals with_reducible repeat'
    first
    | assumption | apply Books.feedStage | apply Books.onFdc | split

theorem Books.onPlatenShown (h : Books p x) (f : Sheet → Sheet) : Books p (x.onPlatenShown f) := by
  unfold Chip.onPlatenShown; (try dsimp only); (repeat' split)
  all_goals with_reducible repeat'
    first
    | assumption | apply Books.showChange | apply Books.onFdc | split

theorem Books.leaveQueue (h : Books p x) (id : Nat) : Books p (x.leaveQueue id) := by
  unfold Chip.leaveQueue; (try dsimp only); (repeat' split)
  all_goals with_reducible repeat'
    first
    | assumption | apply Books.showChange | apply Books.onFdc | split

theorem Books.tellGate (h : Books p x) (old : Chip) : Books p (x.tellGate old) := (h.showChange old 10).markStatus 9

theorem Books.onSheet (h : Books p x) (id : Nat) (f : Sheet → Sheet) : Books p (x.onSheet id f) := by
  unfold Chip.onSheet; (try dsimp only); (repeat' split)
  all_goals with_reducible repeat'
    first
    | assumption | apply Books.feedStage | apply Books.onFdc | split

theorem Books.fedOnto (h : Books p x) (um : Nat) : Books p (x.fedOnto um) := by
  unfold Chip.fedOnto; (try dsimp only); (repeat' split)
  all_goals with_reducible repeat'
    first
    | assumption | apply Books.feedStage | apply Books.onFdc | split

theorem Books.rollEnd (h : Books p x) (op : FeedOp) : Books p (x.rollEnd op) := by
  unfold Chip.rollEnd; (try dsimp only); (repeat' split)
  all_goals with_reducible repeat'
    first
    | assumption | apply Books.feedStage | apply Books.journal | apply Books.onFdc | split

theorem Books.placeFeed (h : Books p x) (op : FeedOp) (limit : Nat) : Books p (x.placeFeed op limit) := by
  unfold Chip.placeFeed; (try dsimp only); (repeat' split)
  all_goals with_reducible repeat'
    first
    | assumption | apply Books.offer | apply Books.onFdc | split

theorem Books.halt (h : Books p x) (op : FeedOp) (cause : FailureCause) : Books p (x.halt op cause) := by
  unfold Chip.halt; (try dsimp only); (repeat' split)
  all_goals with_reducible repeat'
    first
    | assumption | apply Books.feedStage | apply Books.onPlaten | apply Books.journal | apply Books.callArming | apply Books.onFdc | split

theorem Books.haltBy (h : Books p x) (op : FeedOp) (r : FeedResult) : Books p (x.haltBy op r) := by
  unfold Chip.haltBy; (try dsimp only); (repeat' split)
  all_goals with_reducible repeat'
    first
    | assumption | apply Books.halt | split

theorem Books.clearUncut (h : Books p x) : Books p x.clearUncut := by
  unfold Chip.clearUncut; (try dsimp only); (repeat' split)
  all_goals with_reducible repeat'
    first
    | assumption | apply Books.feedStage | apply Books.onFdc | split

theorem Books.positionFor (h : Books p x) (index : Nat) : Books p (x.positionFor index) := by
  unfold Chip.positionFor; (try dsimp only); (repeat' split)
  all_goals with_reducible repeat'
    first
    | assumption | apply Books.callArming | apply Books.onFdc | split

theorem Books.loadComplete (h : Books p x) : Books p x.loadComplete := by
  unfold Chip.loadComplete; (try dsimp only); (repeat' split)
  all_goals with_reducible repeat'
    first
    | assumption | apply Books.positionFor | apply Books.onPlaten | split

theorem Books.beginLoadStep (h : Books p x) (step : Nat) (op : Option FeedOp) : Books p (x.beginLoadStep step op) := by
  unfold Chip.beginLoadStep; (try dsimp only); (repeat' split)
  all_goals with_reducible repeat'
    first
    | assumption | apply Books.placeFeed | apply Books.onPlaten | apply Books.onFdc | split

theorem Books.runLoad (h : Books p x) (n : Nat) : Books p (x.runLoad n) := by
  induction n generalizing x with
  | zero => exact h.loadComplete
  | succ n ih =>
    simp only [Chip.runLoad]
    split
    · exact h
    · split
      · exact h.beginLoadStep _ _
      · exact ih (h.beginLoadStep _ _)

theorem Books.beginAdvance (h : Books p x) (um : Nat) (purpose : AdvancePurpose) : Books p (x.beginAdvance um purpose) := by
  unfold Chip.beginAdvance; (try dsimp only); (repeat' split)
  all_goals with_reducible repeat'
    first
    | assumption | apply Books.placeFeed | apply Books.onFdc | split

theorem Books.clearFailed (h : Books p x) (code : Nat) : Books p (x.clearFailed code) := by
  unfold Chip.clearFailed; (try dsimp only); (repeat' split)
  all_goals with_reducible repeat'
    first
    | assumption | apply Books.journal | split

theorem Books.admitTo (h : Books p x) (j : Sheet) (n : RollNo) : Books p (x.admitTo j n) := by
  unfold Chip.admitTo; (try dsimp only); (repeat' split)
  all_goals with_reducible repeat'
    first
    | assumption | apply Books.runLoad | apply Books.onSheet | apply Books.callArming | apply Books.onFdc | split

theorem Books.keepWaiting (h : Books p x) (j : Sheet) (cause : WaitingCause) (record : JournalRecord) : Books p (x.keepWaiting
    j cause record) := by
  unfold Chip.keepWaiting; (try dsimp only); (repeat' split)
  all_goals with_reducible repeat'
    first
    | assumption | apply Books.onSheet | apply Books.journal | split

theorem Books.admissionTest (h : Books p x) : Books p x.admissionTest := by
  unfold Chip.admissionTest; (try dsimp only); (repeat' split)
  all_goals with_reducible repeat'
    first
    | assumption | apply Books.keepWaiting | apply Books.admitTo | split

theorem Books.restartRemoval (h : Books p x) (j : Sheet) : Books p (x.restartRemoval j) :=
  ((h.journal _).leaveQueue _).tellGate _

theorem Books.restartSheets (h : Books p x) : Books p x.restartSheets := by
  unfold Chip.restartSheets; (try dsimp only); (repeat' split)
  all_goals with_reducible repeat'
    first
    | assumption | apply Books.restartRemoval | refine Books.foldl _ (fun _ _ _ => ?_) _ ?_ | split

theorem Books.restartFeed (h : Books p x) : Books p x.restartFeed := by
  unfold Chip.restartFeed; (try dsimp only); (repeat' split)
  all_goals with_reducible repeat'
    first
    | assumption | apply Books.restartSheets | apply Books.onFdc | split

/-! ## The service controller -/

theorem Books.setLocation (h : Books p x) (l : Location) : Books p (x.setLocation l) := by
  unfold Chip.setLocation; (try dsimp only); (repeat' split)
  all_goals with_reducible repeat'
    first
    | assumption | apply Books.markStatus | apply Books.onSvc | apply Books.callArming | split | rfl

theorem Books.offerStation (h : Books p x) (o : StationOrder) : Books p (x.offerStation o) := by
  unfold Chip.offerStation; (try dsimp only); (repeat' split)
  all_goals with_reducible repeat'
    first
    | assumption | apply Books.offer | split

theorem Books.orderStep (h : Books p x) (o : StationOrder) : Books p (x.orderStep o) := by
  unfold Chip.orderStep; (try dsimp only); (repeat' split)
  all_goals with_reducible repeat'
    first
    | assumption | apply Books.offerStation | apply Books.onCycle | split | rfl

theorem Books.askPrime (h : Books p x) : Books p x.askPrime := by
  unfold Chip.askPrime; (try dsimp only); (repeat' split)
  all_goals with_reducible repeat'
    first
    | assumption | apply Books.orderStep | apply Books.refuseReservation | apply Books.reserve | apply Books.onCycle | split
    | rfl

theorem Books.retryPrime (h : Books p x) : Books p x.retryPrime := by
  unfold Chip.retryPrime; (try dsimp only); (repeat' split)
  all_goals with_reducible repeat'
    first
    | assumption | apply Books.askPrime | split

theorem Books.openStep (h : Books p x) (st : ServiceStep) (mask : BitVec 8) : Books p (x.openStep st mask) := by
  unfold Chip.openStep; (try dsimp only); (repeat' split)
  all_goals with_reducible repeat'
    first
    | assumption | apply Books.onSvc | split | rfl

theorem Books.actStep (h : Books p x) (st : ServiceStep) : Books p (x.actStep st) := by
  unfold Chip.actStep; (try dsimp only); (repeat' split)
  all_goals with_reducible repeat'
    first
    | assumption | apply Books.askPrime | apply Books.orderStep | apply Books.onCycle | split | rfl

theorem Books.closeStep (h : Books p x) : Books p x.closeStep := by
  unfold Chip.closeStep; (try dsimp only); (repeat' split)
  all_goals with_reducible repeat'
    first
    | assumption | apply Books.release | apply Books.onCycle | apply Books.onFlm | split | rfl

theorem Books.wakeEnded (h : Books p x) : Books p x.wakeEnded := (h.onSgt _ rfl).callArming

theorem Books.consumePrime (h : Books p x) (mask : BitVec 8) (ul : Nat) : Books p (x.consumePrime mask ul) := by
  unfold Chip.consumePrime; (try dsimp only); (repeat' split)
  all_goals with_reducible repeat'
    first
    | assumption | apply Books.consume | refine Books.foldl _ (fun _ _ _ => ?_) _ ?_ | split

theorem Books.consumeCheck (h : Books p x) (mask : BitVec 8) : Books p (x.consumeCheck mask) := by
  unfold Chip.consumeCheck; (try dsimp only); (repeat' split)
  all_goals with_reducible repeat'
    first
    | assumption | apply Books.consume | refine Books.foldl _ (fun _ _ _ => ?_) _ ?_ | split

theorem Books.clearWakeAsk (h : Books p x) : Books p x.clearWakeAsk := by
  unfold Chip.clearWakeAsk; (try dsimp only); (repeat' split)
  all_goals with_reducible repeat'
    first
    | assumption | apply Books.onSvc | split | rfl

/-! ## The commands -/

theorem Books.startPolls (h : Books p x) : Books p x.startPolls := h.ink _

theorem Books.readLevel (h : Books p x) (k : Channel) : Books p (x.readLevel k) := by
  unfold Chip.readLevel; (try dsimp only); (repeat' split)
  all_goals with_reducible repeat'
    first
    | assumption | apply Books.offer | apply Books.onAccount | split

theorem Books.applySetChannel (h : Books p x) (k : Channel) (a : SetChannelArgs) : Books p (x.applySetChannel k a) := by
  unfold Chip.applySetChannel; (try dsimp only); (repeat' split)
  all_goals with_reducible repeat'
    first
    | assumption | apply Books.readLevel | apply Books.handSpit | apply Books.judgeAgain | apply Books.noticeInk
    | apply Books.callAdmission | apply Books.onAccount | split

theorem Books.doSetChannel (h : Books p x) (a : SetChannelArgs) : Books p (x.doSetChannel a).1 := by
  unfold Chip.doSetChannel; (try dsimp only); (repeat' split)
  all_goals with_reducible repeat'
    first
    | assumption | apply Books.applySetChannel | split

theorem Books.doSetRoll (h : Books p x) (a : SetRollArgs) : Books p (x.doSetRoll a).1 := by
  unfold Chip.doSetRoll; (try dsimp only); (repeat' split)
  all_goals with_reducible repeat'
    first
    | assumption | apply Books.markStatus | apply Books.callAdmission | apply Books.onFdc | split

theorem Books.doQueueSheet (h : Books p x) (a : QueueSheetArgs) : Books p (x.doQueueSheet a).1 := by
  unfold Chip.doQueueSheet; (try dsimp only); (repeat' split)
  all_goals with_reducible repeat'
    first
    | assumption | apply Books.noticeNext | apply Books.markStatus | apply Books.callAdmission | apply Books.onFdc | split

theorem Books.doClearJam (h : Books p x) : Books p (x.doClearJam).1 := by
  unfold Chip.doClearJam; (try dsimp only); (repeat' split)
  all_goals with_reducible repeat'
    first
    | assumption | apply Books.offer | apply Books.onFdc | split

theorem Books.doLoadProgram (h : Books p x) (a : LoadProgramArgs) : Books p (x.doLoadProgram a).1 := by
  unfold Chip.doLoadProgram; (try dsimp only); (repeat' split)
  all_goals with_reducible repeat'
    first
    | assumption | apply Books.resetCounters | apply Books.onSvc | split | rfl

theorem Books.doRunProgram (h : Books p x) (program : Nat) : Books p (x.doRunProgram program).1 := by
  unfold Chip.doRunProgram; (try dsimp only); (repeat' split)
  all_goals with_reducible repeat'
    first
    | assumption | apply Books.listProgram | split

/-! ## The intake -/

theorem Books.reply (h : Books p x) (slot : Fin 16) (shadow : List Byte) (a : Answer) : Books p (x.reply slot shadow a) := by
  unfold Chip.reply; (try dsimp only); (repeat' split)
  all_goals with_reducible repeat'
    first
    | assumption | apply Books.onRpw | split

theorem Books.readIndexWritten (h : Books p x) (v : BitVec 32) : Books p (x.readIndexWritten v) := by
  unfold Chip.readIndexWritten; (try dsimp only); (repeat' split)
  all_goals with_reducible repeat'
    first
    | assumption | apply Books.journalOverflow | apply Books.onRpw | split

theorem Books.lateWrite (h : Books p x) (n : Nat) (b : Buffer) (addr : Addr) (bytes : List (Nat × Byte))
    (hn : x.sgt.buffers[n]? = some b) : Books p (x.lateWrite n b addr bytes) := by
  unfold Chip.lateWrite
  split
  · exact h
  · rename_i r _
    have g := h.onSwath r.id (fun a => { a with late := addCount a.late (marksOf bytes) }) fun _ _ _ => rfl
    dsimp only
    split
    · exact g
    · exact ((g.buffer n b { b with late := true } hn rfl).markStatus 10).journal _

theorem Books.swathWritten (h : Books p x) (w : WriteRequest) : Books p (x.swathWritten w) := by
  unfold Chip.swathWritten
  dsimp only
  split
  · exact h
  · rename_i b e
    split
    · exact h.lateWrite _ _ _ _ e
    · exact h.buffer _ b _ e rfl

theorem Books.malformedRecord (h : Books p x) (port : Port) (isWrite : Bool) (tag : Fin 32) (len : Nat) (addr : Addr) : Books
    p (x.malformedRecord port isWrite tag len addr) := by
  unfold Chip.malformedRecord; (try dsimp only); (repeat' split)
  all_goals with_reducible repeat'
    first
    | assumption | apply Books.journal | split

/-! ## The ports -/

theorem Books.forwardReply (h : Books p x) (slot : Fin 16) (bytes : List Byte) : Books p (x.forwardReply slot bytes) := by
  unfold Chip.forwardReply; (try dsimp only); (repeat' split)
  all_goals with_reducible repeat'
    first
    | assumption | apply Books.onCmi | apply Books.emit | split | rfl

theorem Books.forwardJournal (h : Books p x) (r : JournalRecord) (time : Nat) : Books p (x.forwardJournal r time) := by
  unfold Chip.forwardJournal
  exact Books.markStatus (Books.onRpw (Books.emit h _) _) _

theorem Books.markDefect (h : Books p x) (r : Swath) : Books p (x.markDefect r) := by
  unfold Chip.markDefect; (try dsimp only); (repeat' split)
  all_goals with_reducible repeat'
    first
    | assumption | apply Books.onSheet | split

/-! ## The timers -/

theorem Books.pollTag (h : Books p x) (k : Channel) : Books p (x.pollTag k) := by
  unfold Chip.pollTag; (try dsimp only); (repeat' split)
  all_goals with_reducible repeat'
    first
    | assumption | apply Books.offer | apply Books.onInk | split

theorem Books.pollPump (h : Books p x) (k : Channel) : Books p (x.pollPump k) := by
  unfold Chip.pollPump; (try dsimp only); (repeat' split)
  all_goals with_reducible repeat'
    first
    | assumption | apply Books.offer | apply Books.onRefill | split

theorem Books.pumpTimeout (h : Books p x) (k : Channel) : Books p (x.pumpTimeout k) := by
  unfold Chip.pumpTimeout; (try dsimp only); (repeat' split)
  all_goals with_reducible repeat'
    first
    | assumption | apply Books.enterStopping | apply Books.journal | split

theorem Books.stopTimeout (h : Books p x) (k : Channel) : Books p (x.stopTimeout k) := by
  unfold Chip.stopTimeout; (try dsimp only); (repeat' split)
  all_goals with_reducible repeat'
    first
    | assumption | apply Books.endStop | apply Books.journal | split

theorem Books.pollStation (h : Books p x) : Books p x.pollStation := by
  unfold Chip.pollStation; (try dsimp only); (repeat' split)
  all_goals with_reducible repeat'
    first
    | assumption | apply Books.offer | apply Books.onCycle | split | rfl

theorem Books.pollFeed (h : Books p x) : Books p x.pollFeed := by
  unfold Chip.pollFeed; (try dsimp only); (repeat' split)
  all_goals with_reducible repeat'
    first
    | assumption | apply Books.offer | apply Books.onFdc | split

end Leaves

end Sys2Proof.Machine
end

