-- ==== Sys2Proof/Laws/Slot.lean ====
section
/-! SUPPORT. The slot codec: each field of a command's slot is read back as it was written (12.4). -/

namespace Sys2Proof

theorem word16_split (w : BitVec 16) : w.extractLsb' 8 8 ++ w.extractLsb' 0 8 = w := by
  apply BitVec.eq_of_getLsbD_eq
  intro i hi
  simp only [BitVec.getLsbD_append, BitVec.getLsbD_extractLsb']
  by_cases h : i < 8
  · simp [h]
  · simp [h]
    have h1 : i - 8 < 8 := by omega
    have h2 : 8 + (i - 8) = i := by omega
    simp [h1, h2]

/-- The 32-bit field in the form that reading it back from its bytes takes. -/
theorem word32_bytes (w : BitVec 32) :
    w.extractLsb' 16 16 ++ (w.extractLsb' 8 8 ++ w.extractLsb' 0 8) = w := by
  apply BitVec.eq_of_getLsbD_eq
  intro i hi
  simp only [BitVec.getLsbD_append, BitVec.getLsbD_extractLsb']
  rcases Nat.lt_or_ge i 8 with h | h
  · simp [h, show i < 16 by omega]
  rcases Nat.lt_or_ge i 16 with h2 | h2
  · simp [h2, show ¬ i < 8 by omega, show i - 8 < 8 by omega, show 8 + (i - 8) = i by omega]
  · simp [show ¬ i < 16 by omega, show i - 16 < 16 by omega, show 16 + (i - 16) = i by omega]

/-- The 64-bit field in the form that reading it back from its bytes takes. -/
theorem word64_bytes (w : BitVec 64) :
    (w.extractLsb' 32 32).extractLsb' 16 16 ++
          ((w.extractLsb' 32 32).extractLsb' 8 8 ++ (w.extractLsb' 32 32).extractLsb' 0 8) ++
        (w.extractLsb' 16 16 ++ (w.extractLsb' 8 8 ++ w.extractLsb' 0 8)) = w := by
  apply BitVec.eq_of_getLsbD_eq
  intro i hi
  simp only [BitVec.getLsbD_append, BitVec.getLsbD_extractLsb']
  rcases Nat.lt_or_ge i 8 with h | h
  · simp [h, show i < 32 by omega, show i < 16 by omega]
  rcases Nat.lt_or_ge i 16 with h2 | h2
  · simp [h2, show i < 32 by omega, show ¬ i < 8 by omega, show i - 8 < 8 by omega, show 8 + (i - 8) = i by omega]
  rcases Nat.lt_or_ge i 32 with h3 | h3
  · simp [h3, show ¬ i < 16 by omega, show i - 16 < 16 by omega, show 16 + (i - 16) = i by omega]
  rcases Nat.lt_or_ge i 40 with h4 | h4
  · simp [show ¬ i < 32 by omega, show i - 32 < 8 by omega, show i - 32 < 16 by omega, show i - 32 < 32 by omega,
      show 32 + (i - 32) = i by omega]
  rcases Nat.lt_or_ge i 48 with h5 | h5
  · simp [show ¬ i < 32 by omega, show ¬ i - 32 < 8 by omega, show i - 32 < 16 by omega,
      show i - 32 - 8 < 8 by omega, show 8 + (i - 32 - 8) < 32 by omega, show 32 + (8 + (i - 32 - 8)) = i by omega]
  · simp [show ¬ i < 32 by omega, show ¬ i - 32 < 16 by omega, show i - 32 - 16 < 16 by omega,
      show 16 + (i - 32 - 16) < 32 by omega, show 32 + (16 + (i - 32 - 16)) = i by omega]

theorem decodeSlot_nop : decodeSlot (encodeSlot .nop) = .nop := by decide
theorem decodeSlot_restart : decodeSlot (encodeSlot .restart) = .restart := by decide
theorem decodeSlot_clearJam : decodeSlot (encodeSlot .clearJam) = .clearJam := by decide

theorem decodeSlot_configure (a : ConfigureArgs) : decodeSlot (encodeSlot (.configure a)) = .configure a := by
  cases a
  simp [decodeSlot, encodeSlot, decodeConfigure, RingCommand.kindCode, RingCommand.argumentBytes, byteAt, word16At,
    word32At, word64At, bytes16, bytes32, bytes64, zeros, word16_split]
  exact word64_bytes _

theorem decodeSlot_setChannel (a : SetChannelArgs) : decodeSlot (encodeSlot (.setChannel a)) = .setChannel a := by
  cases a
  simp [decodeSlot, encodeSlot, decodeSetChannel, RingCommand.kindCode, RingCommand.argumentBytes, byteAt, word16At,
    word32At, bytes16, bytes32, zeros, word16_split]
  exact ⟨word32_bytes _, word32_bytes _, word32_bytes _, word32_bytes _⟩

theorem decodeSlot_setRoll (a : SetRollArgs) : decodeSlot (encodeSlot (.setRoll a)) = .setRoll a := by
  cases a
  simp [decodeSlot, encodeSlot, decodeSetRoll, RingCommand.kindCode, RingCommand.argumentBytes, byteAt, word16At,
    word32At, bytes16, bytes32, zeros, word16_split]
  exact word32_bytes _

theorem decodeSlot_queueSheet (a : QueueSheetArgs) : decodeSlot (encodeSlot (.queueSheet a)) = .queueSheet a := by
  cases a; rename_i estimates; cases estimates
  simp [decodeSlot, encodeSlot, decodeQueueSheet, RingCommand.kindCode, RingCommand.argumentBytes, byteAt, word16At,
    word32At, bytes16, bytes32, zeros, word16_split]
  exact ⟨word32_bytes _, word32_bytes _, word32_bytes _, word32_bytes _, word32_bytes _, word32_bytes _, word32_bytes _⟩

theorem decodeSlot_swathReady (a : SwathReadyArgs) : decodeSlot (encodeSlot (.swathReady a)) = .swathReady a := by
  cases a
  simp [decodeSlot, encodeSlot, decodeSwathReady, RingCommand.kindCode, RingCommand.argumentBytes, byteAt, word16At,
    bytes16, zeros, word16_split]

theorem decodeSlot_cancelSheet (id : BitVec 16) : decodeSlot (encodeSlot (.cancelSheet id)) = .cancelSheet id := by
  simp [decodeSlot, encodeSlot, RingCommand.kindCode, RingCommand.argumentBytes, byteAt, word16At, bytes16, zeros,
    word16_split]

theorem decodeSlot_setNozzle (a : SetNozzleArgs) : decodeSlot (encodeSlot (.setNozzle a)) = .setNozzle a := by
  cases a
  simp [decodeSlot, encodeSlot, decodeSetNozzle, RingCommand.kindCode, RingCommand.argumentBytes, byteAt, word16At,
    bytes16, zeros, word16_split]

theorem decodeSlot_runProgram (p : BitVec 8) : decodeSlot (encodeSlot (.runProgram p)) = .runProgram p := by
  simp [decodeSlot, encodeSlot, RingCommand.kindCode, RingCommand.argumentBytes, byteAt, zeros]

theorem decodeSlot_loadProgram (a : LoadProgramArgs) (h : a.wellFormed = true) :
    decodeSlot (encodeSlot (.loadProgram a)) = .loadProgram a := by
  obtain ⟨p, t, u, c, tp, steps, d⟩ := a
  simp only [LoadProgramArgs.wellFormed, decide_eq_true_eq] at h
  match steps, h with
  | [⟨_, _, _⟩, ⟨_, _, _⟩, ⟨_, _, _⟩, ⟨_, _, _⟩, ⟨_, _, _⟩, ⟨_, _, _⟩, ⟨_, _, _⟩, ⟨_, _, _⟩, ⟨_, _, _⟩, ⟨_, _, _⟩], _ =>
    simp [decodeSlot, encodeSlot, decodeLoadProgram, stepAt, stepBytes, RingCommand.kindCode,
      RingCommand.argumentBytes, byteAt, word16At, word32At, bytes16, bytes32, zeros, word16_split]
    exact word32_bytes _

theorem decodeSlot_unknown (k : BitVec 8) (h : definedKinds.contains k = false) :
    decodeSlot (encodeSlot (.unknown k)) = .unknown k := by
  simp [definedKinds] at h
  simp [decodeSlot, encodeSlot, RingCommand.kindCode, RingCommand.argumentBytes, byteAt, zeros, h]

/-! ## The length of a slot (R159) -/

theorem bytes16_length (w : BitVec 16) : (bytes16 w).length = 2 := rfl
theorem bytes32_length (w : BitVec 32) : (bytes32 w).length = 4 := rfl
theorem bytes64_length (w : BitVec 64) : (bytes64 w).length = 8 := rfl
theorem zeros_length (n : Nat) : (zeros n).length = n := List.length_replicate

theorem stepBytes_length (l : List StepArgs) : (l.flatMap stepBytes).length = 4 * l.length := by
  induction l with
  | nil => rfl
  | cons a l ih =>
    have h : (stepBytes a).length = 4 := rfl
    simp only [List.flatMap_cons, List.length_append, List.length_cons, h, ih]; omega

/-- The arguments of a command that a slot can spell end before the go word. -/
theorem argumentBytes_length (c : RingCommand) (h : c.wellFormed = true) : c.argumentBytes.length ≤ 52 := by
  cases c <;>
    simp only [RingCommand.argumentBytes, List.length_append, List.length_cons, List.length_nil, bytes16_length,
      bytes32_length, bytes64_length, zeros_length, stepBytes_length] <;>
    try omega
  rename_i a
  simp only [RingCommand.wellFormed, LoadProgramArgs.wellFormed, decide_eq_true_eq] at h
  omega

theorem encodeSlot_length (c : RingCommand) (h : c.wellFormed = true) : (encodeSlot c).length = 64 := by
  have := argumentBytes_length c h
  simp only [encodeSlot, List.length_append, List.length_cons, List.length_nil, bytes32_length, zeros_length]
  omega

end Sys2Proof
end

