-- ==== Sys2Proof/Laws/Ring.lean ====
section
/-! SUPPORT. A command written into the next slot of the ring is taken and carried out in the same event (R160, R161). -/

namespace Sys2Proof.Machine

/-! ## What a command's owner leaves alone -/

theorem Chip.outer_doQueueSheet (x : Chip) (a : QueueSheetArgs) : (x.doQueueSheet a).1.outer = x.outer := by
  simp only [Chip.doQueueSheet]
  split
  · rfl
  · exact (Acts.callAdmission (Acts.markStatus (Acts.noticeNext (.refl _) x) 9)).outer

theorem Chip.outer_carryOut (x : Chip) (c : RingCommand) : (x.carryOut c).1.outer = x.outer := by
  have run : ∀ f : Chip → Chip × Answer, (f x).1.outer = x.outer → (x.whenRunning f).1.outer = x.outer := by
    intro f hf; simp only [Chip.whenRunning]; split
    · exact hf
    · rfl
  cases c with
  | nop => rfl
  | unknown k => rfl
  | configure a => exact (Acts.doConfigure (.refl x) a).outer
  | restart => exact (Acts.restart (.refl x)).outer
  | setChannel a => exact run _ (Acts.doSetChannel (.refl x) a).outer
  | setRoll a => exact run _ (Acts.doSetRoll (.refl x) a).outer
  | queueSheet a => exact run _ (Chip.outer_doQueueSheet x a)
  | swathReady a => exact run _ (Acts.doSwathReady (.refl x) a).outer
  | cancelSheet id => exact run _ (Acts.doCancelSheet (.refl x) id.toNat).outer
  | clearJam => exact run _ (Acts.doClearJam (.refl x)).outer
  | setNozzle a => exact run _ (Acts.doSetNozzle (.refl x) a).outer
  | loadProgram a => exact run _ (Acts.doLoadProgram (.refl x) a).outer
  | runProgram p => exact run _ (Acts.doRunProgram (.refl x) p.toNat).outer

/-! ## The window of the ring (R154) -/

/-- The control area base in the words of R154. -/
theorem PortSwitch.controlBase_eq (p : PortSwitch) : p.controlBase = (p.straps.toNat + 1) * 2147483648 - 65536 := by
  unfold PortSwitch.controlBase
  generalize p.straps = s
  revert s; decide

theorem PortSwitch.controlBase_form (p : PortSwitch) : ∃ q, q < 8 ∧ p.controlBase = q * 2147483648 + 2147418112 := by
  have h := p.straps.isLt
  exact ⟨p.straps.toNat, h, by rw [p.controlBase_eq]; omega⟩

theorem PortSwitch.controlBase_congr {p q : PortSwitch} (h : p.straps = q.straps) : p.controlBase = q.controlBase := by
  unfold PortSwitch.controlBase; rw [h]

/-- The control area in the words of R154. -/
theorem PortSwitch.inControl_iff (p : PortSwitch) (addr : Nat) :
    p.inControl addr = true ↔ p.controlBase ≤ addr ∧ addr < p.controlBase + 65536 := by
  obtain ⟨q, _, hb⟩ := p.controlBase_form
  have hc : Config.controlBytes = 65536 := rfl
  simp only [PortSwitch.inControl, hc, beq_iff_eq]
  rw [hb]; omega

theorem PortSwitch.slotAddress (p : PortSwitch) (n : Fin 16) :
    (BitVec.ofNat 34 (p.controlBase + 64 * n.val)).toNat = p.controlBase + 64 * n.val := by
  obtain ⟨q, _, hb⟩ := p.controlBase_form
  have h2 := n.isLt
  rw [BitVec.toNat_ofNat]
  exact Nat.mod_eq_of_lt (by omega)

theorem PortSwitch.slot_wellFormed (p : PortSwitch) (n : Fin 16) :
    malformed (BitVec.ofNat 34 (p.controlBase + 64 * n.val)) 64 = false := by
  obtain ⟨q, _, hb⟩ := p.controlBase_form
  have h2 := n.isLt
  simp only [malformed, p.slotAddress n]
  generalize p.controlBase = b at hb
  have a1 : (b + 64 * n.val) % 16 = 0 := by omega
  have a2 : (b + 64 * n.val + 64 - 1) / 1024 = (b + 64 * n.val) / 1024 := by omega
  rw [a1, a2]; simp

theorem PortSwitch.slot_window (p : PortSwitch) (n : Fin 16) : p.window (p.controlBase + 64 * n.val) = .control := by
  have h2 := n.isLt
  have h : p.inControl (p.controlBase + 64 * n.val) = true := (p.inControl_iff _).2 (by omega)
  unfold PortSwitch.window
  rw [if_pos h]

theorem PortSwitch.slot_offset (p : PortSwitch) (n : Fin 16) : controlOffset (p.controlBase + 64 * n.val) = 64 * n.val := by
  obtain ⟨q, _, hb⟩ := p.controlBase_form
  have h2 := n.isLt
  have hc : Config.controlBytes = 65536 := rfl
  simp only [controlOffset, hc]; omega

/-! ## The shadow (R160) -/

theorem vector_get {α : Type} {n : Nat} (v : Vector α n) (i : Fin n) : v.get i = v[i.val] := rfl

theorem foldl_setIfInBounds_getElem {n : Nat} (l : List Byte) (k : Nat) (v : Vector Byte n) (i : Nat) (hi : i < n) :
    ((l.zipIdx k).foldl (fun v e => v.setIfInBounds e.2 e.1) v)[i] =
      if k ≤ i ∧ i < k + l.length then l.getD (i - k) 0#8 else v[i] := by
  induction l generalizing k v with
  | nil =>
    simp only [List.zipIdx_nil, List.foldl_nil, List.length_nil]
    rw [if_neg (by omega)]
  | cons b l ih =>
    simp only [List.zipIdx_cons, List.foldl_cons, ih, List.length_cons]
    by_cases h : k + 1 ≤ i ∧ i < k + 1 + l.length
    · rw [if_pos h, if_pos (by omega), show i - k = (i - (k + 1)) + 1 by omega]; simp
    · rw [if_neg h]
      by_cases e : k = i
      · subst e; simp
      · rw [if_neg (by omega), Vector.getElem_setIfInBounds_ne _ e]

theorem shadow_fold (l : List Byte) (hl : l.length = 64) (v : Vector Byte 64) :
    l.zipIdx.foldl (fun v e => v.setIfInBounds e.2 e.1) v = shadowOf l := by
  apply Vector.ext
  intro i hi
  unfold shadowOf
  rw [foldl_setIfInBounds_getElem, foldl_setIfInBounds_getElem]
  simp [hl, hi]

theorem shadowOf_toList (l : List Byte) (hl : l.length = 64) : (shadowOf l).toList = l := by
  apply List.ext_getElem
  · simp [hl]
  · intro i h1 h2
    have hi : i < 64 := by omega
    rw [Vector.getElem_toList]
    unfold shadowOf
    rw [foldl_setIfInBounds_getElem]
    simp [hl, hi]

theorem copyBytes_slot (s : Vector (Vector Byte 64) 16) (n : Fin 16) (l : List Byte) (k : Nat) (h : k + l.length ≤ 64) :
    copyBytes s ((l.zipIdx k).map fun e => (64 * n.val + e.2, e.1)) =
      s.set n ((l.zipIdx k).foldl (fun v e => v.setIfInBounds e.2 e.1) (s.get n)) := by
  induction l generalizing s k with
  | nil =>
    apply Vector.ext; intro i hi
    by_cases e : n.val = i
    · subst e; simp [copyBytes, vector_get]
    · simp [copyBytes, Vector.getElem_set_ne _ _ e]
  | cons b l ih =>
    simp only [List.length_cons] at h
    have hn := n.isLt
    have e1 : (64 * n.val + k) / 64 = n.val := by omega
    have e2 : (64 * n.val + k) % 64 = k := by omega
    have step : copyBytes s (((b :: l).zipIdx k).map fun e => (64 * n.val + e.2, e.1)) =
        copyBytes (s.set n ((s.get n).setIfInBounds k b)) ((l.zipIdx (k + 1)).map fun e => (64 * n.val + e.2, e.1)) := by
      simp only [List.zipIdx_cons, List.map_cons, copyBytes, List.foldl_cons, e1, e2]
      congr 1
      apply Vector.ext; intro i hi
      by_cases e : n.val = i
      · subst e; simp [vector_get, Vector.getD, hn]
      · rw [Vector.getElem_setIfInBounds_ne _ e, Vector.getElem_set_ne _ _ e]
    rw [step, ih _ _ (by omega)]
    apply Vector.ext; intro i hi
    by_cases e : n.val = i
    · subst e; simp [vector_get, List.zipIdx_cons]
    · simp [Vector.getElem_set_ne _ _ e]

theorem enabled_all (l : List Byte) :
    WriteRequest.enabled { tag := 0, addr := a, bytes := l.map fun b => (true, b) } = l.zipIdx.map fun e => (e.2, e.1) := by
  have h : ∀ (l : List Byte) (k : Nat),
      (((l.map fun b => (true, b)).zipIdx k).filter fun e => e.1.1).map (fun e => (e.2, e.1.2)) =
        (l.zipIdx k).map fun e => (e.2, e.1) := by
    intro l
    induction l with
    | nil => intro k; rfl
    | cons b l ih => intro k; simp [List.zipIdx_cons, ih]
  exact h l 0

theorem slotsSpanned_one (n : Fin 16) : slotsSpanned (64 * n.val) 64 = [n] := by
  revert n; decide

theorem goSet_encodeSlot (c : RingCommand) (h : (encodeSlot c).length = 64) : goSet (encodeSlot c) = true := by
  have hf : ([c.kindCode] ++ zeros 7 ++ c.argumentBytes ++
      zeros (60 - ([c.kindCode] ++ zeros 7 ++ c.argumentBytes).length)).length = 60 := by
    simp only [encodeSlot, List.length_append] at h ⊢
    have : (bytes32 1#32).length = 4 := rfl
    omega
  have e : ∀ i, byteAt (encodeSlot c) (60 + i) = byteAt (bytes32 1#32) i := by
    intro i
    simp only [encodeSlot, byteAt, List.getD_eq_getElem?_getD]
    rw [List.getElem?_append_right (by omega), hf, show 60 + i - 60 = i by omega]
  have e0 := e 0; have e1 := e 1; have e2 := e 2; have e3 := e 3
  simp only [goSet, word32At, word16At]
  rw [show (60 + 2 + 1 : Nat) = 60 + 3 from rfl, show (60 : Nat) = 60 + 0 from rfl, e0]
  simp only [Nat.add_zero, e1, e2, e3]
  decide

theorem slotTable_get_set_same (v : Vector SlotState 16) (n : Fin 16) (s : SlotState) : (v.set n s).get n = s := by
  simp [vector_get]

theorem slotTable_get_set_other (v : Vector SlotState 16) (n m : Fin 16) (s : SlotState) (h : n ≠ m) :
    (v.set n s).get m = v.get m := by
  have : n.val ≠ m.val := fun e => h (Fin.ext e)
  simp [vector_get, Vector.getElem_set_ne _ _ this]

theorem nextOf_ne (n : Fin 16) : n ≠ nextOf n := by revert n; decide

/-- A write that begins at a slot is handed to the command intake (R154, R160). -/
theorem Chip.seen_slot (y : Chip) (w : WriteRequest) (n : Fin 16)
    (h : w.addr.toNat = y.psw.controlBase + 64 * n.val) :
    y.seen w = (y.onCmi fun i => i.handOver (64 * n.val) w.bytes.length w.enabled).takeSlots := by
  have hn := n.isLt
  have hw : y.psw.window w.addr.toNat = .control := by rw [h]; exact y.psw.slot_window n
  have ho : controlOffset w.addr.toNat = 64 * n.val := by rw [h]; exact y.psw.slot_offset n
  have hr : 64 * n.val < ringBytes := by unfold ringBytes; omega
  unfold Chip.seen
  rw [hw]
  dsimp only
  rw [ho, if_pos hr]

/-- The write that gives a command is accepted and handed to the command intake. -/
theorem Chip.command_seen (x : Chip) (c : RingCommand) (hc : 0 < x.psw.cCredits) (hl : (encodeSlot c).length = 64) :
    x.command c =
      ((x.onPsw fun p => { p with cCredits := p.cCredits - 1, cQueue := p.cQueue ++ [.write (x.slotWriteOf c)] }).onCmi
        fun i => i.handOver (64 * x.cmi.nextSlot.val) 64 (x.slotWriteOf c).enabled).takeSlots := by
  have len : (x.slotWriteOf c).bytes.length = 64 := by simp [Chip.slotWriteOf, hl]
  have ha : (x.slotWriteOf c).addr = BitVec.ofNat 34 (x.psw.controlBase + 64 * x.cmi.nextSlot.val) := rfl
  have form : malformed (x.slotWriteOf c).addr 64 = false := by rw [ha, PortSwitch.slot_wellFormed]
  unfold Chip.command Chip.cPortWrite
  rw [if_neg (by omega), len, form, if_neg (by simp)]
  have h := Chip.seen_slot
    (x.onPsw fun p => { p with cCredits := p.cCredits - 1, cQueue := p.cQueue ++ [.write (x.slotWriteOf c)] })
    (x.slotWriteOf c) x.cmi.nextSlot (by rw [ha, PortSwitch.slotAddress]; rfl)
  rw [h, len]

theorem enabled_shift (l : List Byte) (a : Addr) (n : Nat) :
    (WriteRequest.enabled { tag := 0, addr := a, bytes := l.map fun b => (true, b) }).map (fun e => (n + e.1, e.2)) =
      l.zipIdx.map fun e => (n + e.2, e.1) := by
  rw [enabled_all, List.map_map]; rfl

/-- The slot written whole is POSTED with the command as its shadow (R160). -/
theorem Intake.handOver_slot (i : Intake) (c : RingCommand) (a : Addr) (hl : (encodeSlot c).length = 64)
    (hs : i.slots.get i.nextSlot = .idle) :
    i.handOver (64 * i.nextSlot.val) 64
        (WriteRequest.enabled { tag := 0, addr := a, bytes := (encodeSlot c).map fun b => (true, b) }) =
      { i with
        shadows := i.shadows.set i.nextSlot (shadowOf (encodeSlot c))
        slots := i.slots.set i.nextSlot .posted } := by
  unfold Intake.handOver
  rw [slotsSpanned_one, enabled_shift]
  have hcopy := copyBytes_slot i.shadows i.nextSlot (encodeSlot c) 0 (by omega)
  rw [shadow_fold _ hl] at hcopy
  rw [hcopy]
  have hg : (i.shadows.set i.nextSlot (shadowOf (encodeSlot c))).get i.nextSlot = shadowOf (encodeSlot c) := by
    rw [vector_get, Vector.getElem_set_self]
  simp only [List.foldl_cons, List.foldl_nil, Intake.postSlot, Intake.shadow, hs, SlotState.afterCopy, hg,
    shadowOf_toList _ hl, goSet_encodeSlot c hl, if_true]

theorem Chip.settle_cmi (x : Chip) : x.settle.outer = x.outer := (Acts.settle (.refl x)).outer

/-- A take is followed by no other while the slot behind it is not POSTED (R161). -/
theorem Chip.takeLoop_stop (n : Nat) (x : Chip) (h : x.cmi.slots.get x.cmi.nextSlot ≠ .posted) :
    Chip.takeLoop n x = x := by
  cases n with
  | zero => rfl
  | succ n =>
    have : x.canTake = false := by
      simp only [Chip.canTake, Bool.and_eq_false_iff]
      exact Or.inl (by simpa using h)
    simp [Chip.takeLoop, this]

/-- A command written into the next slot is taken in the same event, carried out by its owner, and answered (R160 to R162). -/
theorem Chip.event_command (x : Chip) (c : RingCommand) (hx : x.readyForCommand) (hl : (encodeSlot c).length = 64) :
    x.event (fun y => y.command c) =
      x.finish c ((x.taking c).carryOut (decodeSlot (encodeSlot c))).1
        ((x.taking c).carryOut (decodeSlot (encodeSlot c))).2 := by
  obtain ⟨h1, h2, h3, h4, h5⟩ := hx
  unfold Chip.event Chip.finish
  rw [if_neg (by simp [h1])]
  congr 1
  show x.command c = _
  rw [Chip.command_seen x c h2 hl]
  have hh := Intake.handOver_slot x.cmi c (BitVec.ofNat 34 (x.psw.controlBase + 64 * x.cmi.nextSlot.val)) hl h3
  have hy : ((x.onPsw fun p =>
      { p with cCredits := p.cCredits - 1, cQueue := p.cQueue ++ [.write (x.slotWriteOf c)] }).onCmi
        fun i => i.handOver (64 * x.cmi.nextSlot.val) 64 (x.slotWriteOf c).enabled) =
      ({ x with
        psw := { x.psw with cCredits := x.psw.cCredits - 1, cQueue := x.psw.cQueue ++ [.write (x.slotWriteOf c)] }
        cmi :=
          { shadows := x.cmi.shadows.set x.cmi.nextSlot (shadowOf (encodeSlot c))
            slots := x.cmi.slots.set x.cmi.nextSlot .posted, nextSlot := x.cmi.nextSlot
            partState := x.cmi.partState } } : Chip) := by
    simp only [Chip.onCmi, Chip.onPsw]
    rw [Chip.mk.injEq]
    exact ⟨rfl, rfl, hh, rfl, rfl, rfl, rfl, rfl, rfl, rfl, rfl, rfl⟩
  rw [hy]
  generalize hy2 : ({ x with
        psw := { x.psw with cCredits := x.psw.cCredits - 1, cQueue := x.psw.cQueue ++ [.write (x.slotWriteOf c)] }
        cmi :=
          { shadows := x.cmi.shadows.set x.cmi.nextSlot (shadowOf (encodeSlot c))
            slots := x.cmi.slots.set x.cmi.nextSlot .posted, nextSlot := x.cmi.nextSlot
            partState := x.cmi.partState } } : Chip) = y
  have hcmi : y.cmi =
      { shadows := x.cmi.shadows.set x.cmi.nextSlot (shadowOf (encodeSlot c))
        slots := x.cmi.slots.set x.cmi.nextSlot .posted, nextSlot := x.cmi.nextSlot
        partState := x.cmi.partState } := by subst hy2; rfl
  have hrpw : y.rpw = x.rpw := by subst hy2; rfl
  have hcan : y.canTake = true := by
    simp only [Chip.canTake, hcmi, hrpw, slotTable_get_set_same, Bool.and_eq_true, decide_eq_true_eq]
    exact ⟨rfl, h5⟩
  have htake : y.takeSlot =
      (((x.taking c).carryOut (decodeSlot (encodeSlot c))).1.refreshStatus x).settle.reply x.cmi.nextSlot (encodeSlot c)
        ((x.taking c).carryOut (decodeSlot (encodeSlot c))).2 := by
    have hshadow : y.cmi.shadow x.cmi.nextSlot = encodeSlot c := by
      simp only [Intake.shadow, hcmi, vector_get, Vector.getElem_set_self]
      exact shadowOf_toList _ hl
    have hnext : y.cmi.nextSlot = x.cmi.nextSlot := by rw [hcmi]
    have htaking : ((y.onRpw fun w => { w with replyReserved := true }).onCmi fun i =>
        { i with slots := i.slots.set x.cmi.nextSlot .replyPending, nextSlot := nextOf x.cmi.nextSlot }) = x.taking c := by
      subst hy2
      simp [Chip.taking, Chip.onRpw, Chip.onCmi]
    unfold Chip.takeSlot
    simp only [hnext, hshadow, htaking]
    rw [Chip.refreshStatus_congr _ (old := y) (old' := x) fun n => ?_]
    subst hy2
    unfold statusFields
    split <;> rfl
  unfold Chip.takeSlots
  rw [Chip.takeLoop, if_pos hcan, htake]
  apply Chip.takeLoop_stop
  have ho : (((x.taking c).carryOut (decodeSlot (encodeSlot c))).1.refreshStatus x).settle.outer = (x.taking c).outer := by
    rw [Chip.settle_cmi, (Acts.refreshStatus (.refl _) x).outer, Chip.outer_carryOut]
  have hs : (((x.taking c).carryOut (decodeSlot (encodeSlot c))).1.refreshStatus x).settle.cmi.slots =
      (x.taking c).cmi.slots := congrArg Outer.slots ho
  have hn : (((x.taking c).carryOut (decodeSlot (encodeSlot c))).1.refreshStatus x).settle.cmi.nextSlot =
      (x.taking c).cmi.nextSlot := congrArg Outer.nextSlot ho
  simp only [Chip.reply, Chip.onRpw_cmi, hs, hn]
  show (x.cmi.slots.set x.cmi.nextSlot .replyPending).get (nextOf x.cmi.nextSlot) ≠ .posted
  rw [slotTable_get_set_other _ _ _ _ (nextOf_ne _)]
  exact h4

/-- A command that its slot spells is taken in the event that writes it, carried out and answered (R160 to R163). -/
theorem State.command_eq (s : State) (c : RingCommand) (hx : s.chip.readyForCommand) (hw : c.wellFormed = true)
    (hd : decodeSlot (encodeSlot c) = c) {y : Chip} {a : Answer} (h : (s.chip.taking c).carryOut c = (y, a)) :
    ({ s with chip := s.chip.event fun x => x.command c } : State) = s.replied c y a := by
  rw [Chip.event_command _ _ hx (encodeSlot_length c hw), hd, h]
  rfl

end Sys2Proof.Machine
end

