-- ==== Sys2Proof/Laws/Events.lean ====
section
/-! SUPPORT. What an event can do to the limits of the part: each effect of an event that is no chain of block operations, and the end
of an event, said once. -/

namespace Sys2Proof.Machine

/-- The limits of the part, which hold throughout an event once no reply's place is reserved. -/
structure Chip.Limits (x : Chip) : Prop where
  ports : x.portsWithinLimits
  unreserved : x.rpw.replyReserved = false
  ordered : x.orderedWithinLimit
  link : x.linkWithinLimit
  sheets : x.sheetsWithinLimit
  remainders : x.remaindersWithinLimit

theorem Acts.limits {x y : Chip} (g : Acts x y) (h : x.Limits) : y.Limits := by
  have o := g.outer
  have o1 : y.psw.outstanding = x.psw.outstanding := congrArg Outer.outstanding o
  have o2 : y.psw.headRun = x.psw.headRun := congrArg Outer.headRun o
  have o3 : y.rpw.replyReserved = x.rpw.replyReserved := congrArg Outer.replyReserved o
  refine ⟨?_, o3.trans h.unreserved, g.ordered h.ordered, g.linkQueue h.link,
    Nat.le_trans g.sheets h.sheets, g.remainders h.remainders⟩
  unfold Chip.portsWithinLimits
  rw [o1, o2]
  exact h.ports

/-- A change of the port switch that keeps its own limits keeps them all. -/
theorem Chip.Limits.psw {x : Chip} (h : x.Limits) (f : PortSwitch → PortSwitch)
    (hf : (x.onPsw f).portsWithinLimits) : (x.onPsw f).Limits :=
  ⟨hf, h.unreserved, h.ordered, h.link, h.sheets, h.remainders⟩

/-- The same where the outstanding reads and the head run are left alone. -/
theorem Chip.Limits.psw_same {x : Chip} (h : x.Limits) (f : PortSwitch → PortSwitch)
    (h1 : (f x.psw).outstanding = x.psw.outstanding) (h2 : (f x.psw).headRun = x.psw.headRun) : (x.onPsw f).Limits := by
  refine h.psw f ?_
  unfold Chip.portsWithinLimits
  simp only [Chip.onPsw_psw, h1, h2]
  exact h.ports

theorem Chip.Limits.onCmi {x : Chip} (h : x.Limits) (f : Intake → Intake) : (x.onCmi f).Limits :=
  ⟨h.ports, h.unreserved, h.ordered, h.link, h.sheets, h.remainders⟩

theorem Chip.Limits.emit {x : Chip} (h : x.Limits) (e : Emission) : (x.emit e).Limits :=
  ⟨h.ports, h.unreserved, h.ordered, h.link, h.sheets, h.remainders⟩

theorem Chip.Limits.onFlm {x : Chip} (h : x.Limits) (f : LinkMaster → LinkMaster)
    (hf : (f x.flm).queue.length ≤ Config.linkPlaces) : (x.onFlm f).Limits :=
  ⟨h.ports, h.unreserved, h.ordered, hf, h.sheets, h.remainders⟩

theorem Chip.Limits.onRpw {x : Chip} (h : x.Limits) (f : ReportWriter → ReportWriter)
    (h1 : (f x.rpw).replyReserved = false) (h2 : (f x.rpw).placesTaken ≤ Config.orderedPlaces) : (x.onRpw f).Limits :=
  ⟨h.ports, h1, h2, h.link, h.sheets, h.remainders⟩

/-! ## The end of an event -/

theorem Chip.releaseLink_limits {x : Chip} (h : x.Limits) : x.releaseLink.Limits := by
  unfold Chip.releaseLink
  split
  · exact h.onFlm _ (Nat.le_trans (LinkMaster.begin_queue _ _) h.link)
  · exact h
  · exact h

theorem Chip.releaseLink_link (x : Chip) : x.releaseLink.flm.link ≠ .ended := by
  unfold Chip.releaseLink
  split
  · intro e
    have := LinkMaster.begin_link _ _ e
    simp at this
  · rename_i e; rw [e]; simp
  · rename_i e; rw [e]; simp

theorem Chip.respond_foldl (port : Port) (l : List (InFlight × ReadStatus × List Byte)) (x : Chip) :
    ∃ out, l.foldl (respond port) x = { x with sent := out } := by
  induction l generalizing x with
  | nil => exact ⟨x.sent, rfl⟩
  | cons r l ih => obtain ⟨out, e⟩ := ih (respond port x r); exact ⟨out, e⟩

/-- Responses change what has been sent, the in-flight lists and the credits, and nothing else (R155). -/
theorem Chip.sendResponses_eq (x : Chip) :
    ∃ out ci hi cc hc, x.sendResponses =
      { x with sent := out, psw := { x.psw with cInFlight := ci, hInFlight := hi, cCredits := cc, hCredits := hc } } := by
  unfold Chip.sendResponses
  dsimp only
  obtain ⟨o1, e1⟩ := Chip.respond_foldl .cPort (answeredFront x.psw.cInFlight).1 x
  obtain ⟨o2, e2⟩ := Chip.respond_foldl .hPort (answeredFront x.psw.hInFlight).1 { x with sent := o1 }
  rw [e1, e2]
  exact ⟨o2, _, _, _, _, rfl⟩

theorem Chip.sendResponses_limits {x : Chip} (h : x.Limits) : x.sendResponses.Limits := by
  obtain ⟨o, ci, hi, cc, hc, e⟩ := x.sendResponses_eq
  rw [e]
  exact ⟨h.ports, h.unreserved, h.ordered, h.link, h.sheets, h.remainders⟩

theorem takeEntry_length (l : List OrderedEntry) (e : OrderedEntry) (l' : List OrderedEntry)
    (h : takeEntry l = some (e, l')) : l'.length = l.length := by
  induction l generalizing e l' with
  | nil => simp [takeEntry] at h
  | cons a l ih =>
    simp only [takeEntry] at h
    split at h
    · split at h
      · rename_i f rest' e2
        simp only [Option.some.injEq, Prod.mk.injEq] at h
        rw [← h.2]; simp [ih _ _ e2]
      · exact absurd h (by simp)
    · simp only [Option.some.injEq, Prod.mk.injEq] at h
      rw [← h.2]; rfl

theorem Chip.fillWriter_limits {x : Chip} (h : x.Limits) : x.fillWriter.Limits := by
  unfold Chip.fillWriter
  split
  · exact h
  · split
    · rename_i e ordered he
      refine (h.onRpw _ h.unreserved ?_).psw_same _ rfl rfl
      have hl := takeEntry_length _ _ _ he
      have := h.ordered
      unfold Chip.orderedWithinLimit ReportWriter.placesTaken at this
      unfold ReportWriter.placesTaken
      dsimp only
      rw [hl]; exact this
    · unfold Chip.takeStatus
      split
      · exact h
      · refine Chip.Limits.psw_same ?_ _ rfl rfl
        exact ⟨h.ports, h.unreserved, h.ordered, h.link, h.sheets, h.remainders⟩

/-- The end of an event keeps the limits. -/
theorem conclude_limits (old : Chip) {x : Chip} (h : x.Limits) : (conclude old x).Limits := by
  unfold conclude
  refine Chip.fillWriter_limits ?_
  exact Chip.sendResponses_limits (Chip.releaseLink_limits ((Acts.settle (Acts.refreshStatus (.refl x) old)).limits h))

/-- The filling of the writer's forward queue changes that queue, the ordered list's marks, the status set and the update counts,
and nothing else (R168). -/
theorem Chip.fillWriter_eq (x : Chip) :
    ∃ w o l c, x.fillWriter = (x.onRpw fun r => { r with ordered := o, statusSet := l, updateCounts := c }).onPsw
      fun p => { p with writer := w } := by
  unfold Chip.fillWriter
  split
  · exact ⟨x.psw.writer, x.rpw.ordered, x.rpw.statusSet, x.rpw.updateCounts, rfl⟩
  · split
    · exact ⟨_, _, x.rpw.statusSet, x.rpw.updateCounts, rfl⟩
    · unfold Chip.takeStatus
      split
      · exact ⟨x.psw.writer, x.rpw.ordered, x.rpw.statusSet, x.rpw.updateCounts, rfl⟩
      · exact ⟨_, x.rpw.ordered, _, _, rfl⟩

/-- The end of an event leaves no test called for and no frame ended. -/
theorem conclude_between (old x : Chip) : (conclude old x).due = .nothing ∧ (conclude old x).flm.link ≠ .ended := by
  unfold conclude
  obtain ⟨w, o, l, c, e⟩ := ((x.refreshStatus old).settle.releaseLink.sendResponses).fillWriter_eq
  obtain ⟨out, ci, hi, cc, hc, e3⟩ := (x.refreshStatus old).settle.releaseLink.sendResponses_eq
  rw [e, e3]
  refine ⟨?_, (x.refreshStatus old).settle.releaseLink_link⟩
  show (x.refreshStatus old).settle.releaseLink.due = .nothing
  unfold Chip.releaseLink
  split <;> rfl

/-- The end of an event leaves the time base and the reserved place alone. -/
theorem conclude_time (old x : Chip) :
    (conclude old x).rpw.timeBase = x.rpw.timeBase ∧ (conclude old x).rpw.replyReserved = x.rpw.replyReserved := by
  unfold conclude
  obtain ⟨w, o, l, c, e⟩ := ((x.refreshStatus old).settle.releaseLink.sendResponses).fillWriter_eq
  obtain ⟨out, ci, hi, cc, hc, e3⟩ := (x.refreshStatus old).settle.releaseLink.sendResponses_eq
  have hs := (Acts.settle (Acts.refreshStatus (.refl x) old)).outer
  have ht : (x.refreshStatus old).settle.rpw.timeBase = x.rpw.timeBase := congrArg Outer.timeBase hs
  have hr : (x.refreshStatus old).settle.rpw.replyReserved = x.rpw.replyReserved := congrArg Outer.replyReserved hs
  have hl : (x.refreshStatus old).settle.releaseLink.rpw = (x.refreshStatus old).settle.rpw := by
    unfold Chip.releaseLink; split <;> rfl
  rw [e, e3]
  show (x.refreshStatus old).settle.releaseLink.rpw.timeBase = _ ∧
    (x.refreshStatus old).settle.releaseLink.rpw.replyReserved = _
  rw [hl]
  exact ⟨ht, hr⟩

/-! ## The effects of an event

A move leaves the time base alone and keeps the limits. Every effect of an event but RESET, its release and a tick is one. -/

structure Move (x y : Chip) : Prop where
  time : y.rpw.timeBase = x.rpw.timeBase
  limits : x.Limits → y.Limits

theorem Move.refl (x : Chip) : Move x x := ⟨rfl, id⟩

theorem Move.trans {x y z : Chip} (h : Move x y) (g : Move y z) : Move x z :=
  ⟨g.time.trans h.time, fun l => g.limits (h.limits l)⟩

theorem Acts.move {x y : Chip} (g : Acts x y) : Move x y := ⟨congrArg Outer.timeBase g.outer, g.limits⟩

theorem Move.acts {x y z : Chip} (h : Move x y) (g : Acts y z) : Move x z := h.trans g.move

theorem Move.onCmi (x : Chip) (f : Intake → Intake) : Move x (x.onCmi f) := ⟨rfl, fun h => h.onCmi f⟩
theorem Move.emit (x : Chip) (e : Emission) : Move x (x.emit e) := ⟨rfl, fun h => h.emit e⟩

theorem Move.onPsw (x : Chip) (f : PortSwitch → PortSwitch)
    (h : x.portsWithinLimits → (x.onPsw f).portsWithinLimits) : Move x (x.onPsw f) :=
  ⟨rfl, fun l => l.psw f (h l.ports)⟩

theorem Move.conclude {x y : Chip} (h : Move x y) : Move x (conclude x y) :=
  ⟨(conclude_time x y).1.trans h.time, fun l => conclude_limits x (h.limits l)⟩

/-! ### The take of a slot (R161) -/

/-- A command's owner adds at most the one sheet there is room for, and keeps the other limits. -/
theorem Chip.carryOut_limits (x : Chip) (c : RingCommand) (hp : x.portsWithinLimits) (ho : x.orderedWithinLimit)
    (hl : x.linkWithinLimit) (hs : x.sheetsWithinLimit) (hr : x.remaindersWithinLimit) :
    (x.carryOut c).1.portsWithinLimits ∧ (x.carryOut c).1.orderedWithinLimit ∧ (x.carryOut c).1.linkWithinLimit ∧
      (x.carryOut c).1.sheetsWithinLimit ∧ (x.carryOut c).1.remaindersWithinLimit := by
  have outer := x.outer_carryOut c
  have ports : (x.carryOut c).1.portsWithinLimits := by
    have o1 : (x.carryOut c).1.psw.outstanding = x.psw.outstanding := congrArg Outer.outstanding outer
    have o2 : (x.carryOut c).1.psw.headRun = x.psw.headRun := congrArg Outer.headRun outer
    unfold Chip.portsWithinLimits; rw [o1, o2]; exact hp
  refine ⟨ports, ?_⟩
  have acts : ∀ y : Chip, Acts x y →
      y.orderedWithinLimit ∧ y.linkWithinLimit ∧ y.sheetsWithinLimit ∧ y.remaindersWithinLimit :=
    fun y g => ⟨g.ordered ho, g.linkQueue hl, Nat.le_trans g.sheets hs, g.remainders hr⟩
  have run : ∀ f : Chip → Chip × Answer, Acts x (f x).1 → Acts x (x.whenRunning f).1 := by
    intro f hf; simp only [Chip.whenRunning]; split
    · exact hf
    · exact .refl x
  cases c with
  | nop => exact acts _ (.refl x)
  | unknown k => exact acts _ (.refl x)
  | configure a => exact acts _ (Acts.doConfigure (.refl x) a)
  | restart => exact acts _ (Acts.restart (.refl x))
  | setChannel a => exact acts _ (run _ (Acts.doSetChannel (.refl x) a))
  | setRoll a => exact acts _ (run _ (Acts.doSetRoll (.refl x) a))
  | swathReady a => exact acts _ (run _ (Acts.doSwathReady (.refl x) a))
  | cancelSheet id => exact acts _ (run _ (Acts.doCancelSheet (.refl x) id.toNat))
  | clearJam => exact acts _ (run _ (Acts.doClearJam (.refl x)))
  | setNozzle a => exact acts _ (run _ (Acts.doSetNozzle (.refl x) a))
  | loadProgram a => exact acts _ (run _ (Acts.doLoadProgram (.refl x) a))
  | runProgram p => exact acts _ (run _ (Acts.doRunProgram (.refl x) p.toNat))
  | queueSheet a =>
    show (x.whenRunning fun y => y.doQueueSheet a).1.orderedWithinLimit ∧ _
    simp only [Chip.carryOut, Chip.whenRunning, Chip.doQueueSheet]
    split
    · split
      · exact ⟨ho, hl, hs, hr⟩
      · rename_i e
        have hfull : ¬ Config.sheetPlaces ≤ x.fdc.sheets.length := by
          intro g
          simp [Chip.queueChecks, firstRow, g] at e
        have room : (x.onFdc fun d => { d with sheets := d.sheets ++ [a.sheet] }).sheetsWithinLimit := by
          show (x.fdc.sheets ++ [a.sheet]).length ≤ _
          simp only [List.length_append, List.length_cons, List.length_nil]
          omega
        have g := Acts.callAdmission (Acts.markStatus (Acts.noticeNext
          (.refl (x.onFdc fun d => { d with sheets := d.sheets ++ [a.sheet] })) x) 9)
        exact ⟨g.ordered ho, g.linkQueue hl, Nat.le_trans g.sheets room, g.remainders hr⟩
    · exact ⟨ho, hl, hs, hr⟩

theorem Chip.takeSlot_move (x : Chip) (h : x.canTake = true) : Move x x.takeSlot := by
  simp only [Chip.canTake, Bool.and_eq_true, decide_eq_true_eq] at h
  unfold Chip.takeSlot
  dsimp only
  generalize hx1 : ((x.onRpw fun w => { w with replyReserved := true }).onCmi fun c =>
    { c with slots := c.slots.set x.cmi.nextSlot .replyPending, nextSlot := nextOf x.cmi.nextSlot }) = x1
  generalize decodeSlot (x.cmi.shadow x.cmi.nextSlot) = c
  have hr1 : x1.rpw = { x.rpw with replyReserved := true } := by rw [← hx1]; rfl
  have hout := x1.outer_carryOut c
  have hset := Acts.settle (Acts.refreshStatus (.refl (x1.carryOut c).1) x)
  have houter := hset.outer.trans hout
  have htime : ((x1.carryOut c).1.refreshStatus x).settle.rpw.timeBase = x.rpw.timeBase := by
    refine (congrArg Outer.timeBase houter).trans ?_
    show x1.rpw.timeBase = _
    rw [hr1]
  have hres : ((x1.carryOut c).1.refreshStatus x).settle.rpw.replyReserved = true := by
    refine (congrArg Outer.replyReserved houter).trans ?_
    show x1.rpw.replyReserved = _
    rw [hr1]
  refine ⟨htime, fun l => ?_⟩
  have o1 : x1.orderedWithinLimit := by
    have := h.2
    have hf := l.unreserved
    unfold ReportWriter.placesTaken at this
    unfold Chip.orderedWithinLimit ReportWriter.placesTaken
    rw [hr1]
    rw [hf] at this
    simp at this ⊢
    omega
  have w := x1.carryOut_limits c (by rw [← hx1]; exact l.ports) o1 (by rw [← hx1]; exact l.link)
    (by rw [← hx1]; exact l.sheets) (by rw [← hx1]; exact l.remainders)
  have p2 : ((x1.carryOut c).1.refreshStatus x).settle.portsWithinLimits := by
    have a1 : ((x1.carryOut c).1.refreshStatus x).settle.psw.outstanding = (x1.carryOut c).1.psw.outstanding :=
      congrArg Outer.outstanding hset.outer
    have a2 : ((x1.carryOut c).1.refreshStatus x).settle.psw.headRun = (x1.carryOut c).1.psw.headRun := congrArg Outer.headRun hset.outer
    unfold Chip.portsWithinLimits; rw [a1, a2]; exact w.1
  refine ⟨p2, rfl, ?_, hset.linkQueue w.2.2.1, Nat.le_trans hset.sheets w.2.2.2.1, hset.remainders w.2.2.2.2⟩
  have o2 := hset.ordered w.2.1
  unfold Chip.orderedWithinLimit ReportWriter.placesTaken at o2
  rw [hres] at o2
  unfold Chip.orderedWithinLimit ReportWriter.placesTaken Chip.reply
  simp only [Chip.onRpw, List.length_append, List.length_cons, List.length_nil]
  simpa using o2

theorem Chip.takeLoop_move (n : Nat) (x : Chip) : Move x (Chip.takeLoop n x) := by
  induction n generalizing x with
  | zero => exact .refl x
  | succ n ih =>
    unfold Chip.takeLoop
    split
    · rename_i h; exact (x.takeSlot_move h).trans (ih _)
    · exact .refl x

/-! ### Requests and answers -/

theorem Acts.swathWritten {z x : Chip} (hz : Acts z x) (w : WriteRequest) : Acts z (x.swathWritten w) := by
  unfold Chip.swathWritten
  dsimp only
  split
  · exact hz
  · split
    · unfold Chip.lateWrite
      split
      · exact hz
      · dsimp only
        split
        · exact Acts.onSwath hz ..
        · exact Acts.journal (Acts.markStatus (Acts.onSgt (Acts.onSwath hz ..) _) _) _
    · exact Acts.onSgt hz _

theorem Acts.readIndexWritten {z x : Chip} (hz : Acts z x) (v : BitVec 32) : Acts z (x.readIndexWritten v) := by
  unfold Chip.readIndexWritten
  refine Acts.journalOverflow (.step hz (.rpw x _ ?_ ?_ ?_)) <;>
    (simp only [ReportWriter.takeReadIndex]; split <;> first | rfl | exact id)

theorem Chip.seen_move (x : Chip) (w : WriteRequest) : Move x (x.seen w) := by
  unfold Chip.seen
  split
  · dsimp only
    split
    · exact (Move.onCmi x _).trans (Chip.takeLoop_move 16 _)
    · split
      · exact (Acts.readIndexWritten (.refl x) _).move
      · exact .refl x
  · exact (Acts.swathWritten (.refl x) w).move
  · exact .refl x

theorem Chip.cPortWrite_move (x : Chip) (w : WriteRequest) : Move x (x.cPortWrite w) := by
  unfold Chip.cPortWrite
  split
  · exact .refl x
  · split
    · exact (Acts.journal (.refl x) _).move
    · exact (Move.onPsw x _ id).trans (Chip.seen_move _ _)

theorem Chip.malformedRead_move (x : Chip) (p : Port) (r : ReadRequest) : Move x (x.malformedRead p r) := by
  unfold Chip.malformedRead Chip.malformedRecord
  exact (Move.onPsw x _ (by cases p <;> exact id)).acts (Acts.journal (.refl _) _)

theorem Chip.cPortRead_move (x : Chip) (r : ReadRequest) : Move x (x.cPortRead r) := by
  unfold Chip.cPortRead
  split
  · exact .refl x
  · split
    · exact Chip.malformedRead_move ..
    · exact Move.onPsw x _ id

theorem Chip.hPortRead_move (x : Chip) (r : ReadRequest) : Move x (x.hPortRead r) := by
  unfold Chip.hPortRead
  split
  · exact .refl x
  · split
    · exact Chip.malformedRead_move ..
    · dsimp only
      split
      · exact (Move.onPsw x _ id).acts (Acts.presentRead (.refl _) ..)
      · exact (Move.onPsw x _ id).trans (Move.onPsw _ _ id)

theorem Chip.hPortWrite_move (x : Chip) (w : WriteRequest) : Move x (x.hPortWrite w) := by
  unfold Chip.hPortWrite
  split
  · exact .refl x
  · split
    · exact (Acts.journal (.refl x) _).move
    · exact Move.onPsw x _ id

theorem Chip.fillWriter_move (x : Chip) : Move x x.fillWriter := by
  refine ⟨?_, Chip.fillWriter_limits⟩
  obtain ⟨w, o, l, c, e⟩ := x.fillWriter_eq
  rw [e]; rfl

/-! ### A grant of the arbiter (R156) -/

theorem PortSwitch.noteGrant_outstanding (p : PortSwitch) (s : Source) : (p.noteGrant s).outstanding = p.outstanding := by
  cases s <;> rfl

/-- The head run stays within 8 at a grant the arbiter chooses. -/
theorem PortSwitch.noteGrant_headRun (p : PortSwitch) (s : Source) (hs : p.choose = some s) :
    (p.noteGrant s).headRun ≤ Config.headRunLimit := by
  cases s with
  | controller => exact Nat.zero_le _
  | writer => exact Nat.zero_le _
  | head =>
    show (if (p.cReady || p.writerReady) = true then p.headRun + 1 else 0) ≤ Config.headRunLimit
    split
    · rename_i hw
      have : p.headRun < Config.headRunLimit := by
        unfold PortSwitch.choose at hs
        split at hs
        · rename_i g
          simp only [Bool.and_eq_true, Bool.or_eq_true, decide_eq_true_eq, Bool.not_eq_true'] at g
          rcases g.2 with g | ⟨g1, g2⟩
          · exact g
          · rw [g1, g2] at hw; exact absurd hw (by decide)
        · split at hs
          · cases hp : p.preference <;> rw [hp] at hs <;> exact absurd hs (by decide)
          · split at hs
            · exact absurd hs (by decide)
            · split at hs
              · exact absurd hs (by decide)
              · exact absurd hs (by decide)
      omega
    · exact Nat.zero_le _

theorem Chip.setReadPhase_move (x : Chip) (p : Port) (id : Nat) (f : ReadPhase) : Move x (x.setReadPhase p id f) :=
  (Acts.setReadPhase (.refl x) p id f).move

/-- A read is issued while fewer than 32 are outstanding. -/
theorem Chip.issueRead_move (x : Chip) (p : Port) (id : Nat) (a : Addr) (n : Nat)
    (h : x.psw.outstanding.length < Config.outstandingReads) : Move x (x.issueRead p id a n) := by
  unfold Chip.issueRead
  refine (Move.onPsw x (fun p => { p with outstanding := p.outstanding ++ [{ port := _, id := _ }] })
    fun g => ⟨?_, g.2⟩).trans ((Chip.setReadPhase_move ..).trans (Move.emit ..))
  simp only [Chip.onPsw, List.length_append, List.length_cons, List.length_nil]
  exact h

theorem Chip.placeFreed_move (x : Chip) : Move x x.placeFreed := by
  unfold Chip.placeFreed
  refine Move.trans ?_ (Chip.takeLoop_move 16 _)
  refine Move.acts ?_ (Acts.journalOverflow (.refl _))
  refine ⟨rfl, fun l => l.onRpw _ l.unreserved ?_⟩
  have := l.ordered
  unfold Chip.orderedWithinLimit ReportWriter.placesTaken at this
  unfold ReportWriter.placesTaken
  simp only [List.length_drop]
  omega

/-- The forwarding of a journal record moves no limit: an emission, the write index, and the HEADER record's mark. -/
theorem Chip.forwardJournal_move (x : Chip) (r : JournalRecord) (time : Nat) : Move x (x.forwardJournal r time) := by
  unfold Chip.forwardJournal
  refine Move.acts ?_ (Acts.markStatus (.refl _) 0)
  exact ⟨rfl, fun l => ⟨l.ports, l.unreserved, l.ordered, l.link, l.sheets, l.remainders⟩⟩

theorem Chip.grantWriter_move (x : Chip) : Move x x.grantWriter := by
  unfold Chip.grantWriter
  split
  · exact .refl x
  · dsimp only
    refine (Move.onPsw x (fun p => { p with writer := none }) id).trans ?_
    split
    · refine Move.trans ?_ (Chip.placeFreed_move _)
      exact (Move.emit ..).trans (Move.onCmi ..)
    · refine Move.trans ?_ (Chip.placeFreed_move _)
      exact Chip.forwardJournal_move ..
    · exact Move.emit ..

/-- The source the arbiter chooses has a request that can be issued. -/
theorem PortSwitch.choose_ready (p : PortSwitch) (s : Source) (hs : p.choose = some s) :
    match s with
    | .head => p.hReady = true
    | .controller => p.cReady = true
    | .writer => p.writerReady = true := by
  unfold PortSwitch.choose at hs
  split at hs
  · rename_i g
    simp only [Bool.and_eq_true] at g
    cases hs; exact g.1
  · split at hs
    · rename_i g
      simp only [Bool.and_eq_true] at g
      cases hp : p.preference <;> rw [hp] at hs <;> cases hs
      · exact g.1
      · exact g.2
    · split at hs
      · rename_i g; cases hs; exact g
      · split at hs
        · rename_i g; cases hs; exact g
        · cases hs

theorem Chip.grant_move (x : Chip) : Move x x.grant := by
  unfold Chip.grant
  split
  · exact .refl x
  · rename_i s hs
    have hr := x.psw.choose_ready s hs
    refine (Move.onPsw x (fun p => p.noteGrant s) fun g => ?_).trans ?_
    · refine ⟨?_, PortSwitch.noteGrant_headRun _ _ hs⟩
      simp only [Chip.onPsw, PortSwitch.noteGrant_outstanding]; exact g.1
    · cases s with
      | head =>
        show Move _ (Chip.grantHead _)
        unfold Chip.grantHead
        split
        · exact .refl _
        · exact (Move.onPsw _ _ id).trans (Move.emit ..)
        · rename_i id addr len rest e
          refine (Move.onPsw _ (fun p => { p with hQueue := rest }) fun g => g).trans (Chip.issueRead_move _ _ _ _ _ ?_)
          have e2 : x.psw.hQueue = .read id addr len :: rest := e
          have hr2 : queueReady x.psw.hQueue x.psw.outstanding.length = true := hr
          rw [e2] at hr2
          exact of_decide_eq_true hr2
      | controller =>
        show Move _ (Chip.grantController _)
        unfold Chip.grantController
        split
        · exact .refl _
        · exact (Move.onPsw _ _ fun g => g).trans (Move.emit ..)
        · rename_i id addr len rest e
          refine (Move.onPsw _ (fun p => { p with cQueue := rest }) fun g => g).trans (Chip.issueRead_move _ _ _ _ _ ?_)
          have e2 : x.psw.cQueue = .read id addr len :: rest := e
          have hr2 : queueReady x.psw.cQueue x.psw.outstanding.length = true := hr
          rw [e2] at hr2
          exact of_decide_eq_true hr2
      | writer => exact Chip.grantWriter_move _

theorem Chip.complete_acts {z x : Chip} (hz : Acts z x) (id : Nat) : Acts z (x.complete id) := by
  unfold Chip.complete
  split
  · exact hz
  · rename_i r e
    dsimp only
    refine Acts.callArming (Acts.swathComplete ?_ _ _)
    have h1 : Acts z ((x.release .swath).journal r.doneRecord) := Acts.journal (Acts.release hz _) _
    have h2 : Acts z (((x.release .swath).journal r.doneRecord).markDefect r) := by
      unfold Chip.markDefect; split
      · exact Acts.onSheet h1 _ _
      · exact h1
    have h3 := Acts.swathGone (Acts.onSgt (Acts.onSheet (Acts.removeSwath h2 r) r.sheet
      fun h => { h with done := h.done + 1 }) fun g => { g with claim := .free })
    split
    · exact Acts.firingEnded h3
    · exact h3

theorem Chip.completeIfCovered_acts {z x : Chip} (hz : Acts z x) (r : Swath) (n : ReadNote) :
    Acts z (x.completeIfCovered r n) := by
  unfold Chip.completeIfCovered
  split
  · exact Chip.complete_acts hz _
  · exact hz

theorem Chip.gateAnswer_acts {z x : Chip} (hz : Acts z x) (n : ReadNote) (a : MemoryAnswer) :
    Acts z (x.gateAnswer n a) := by
  unfold Chip.gateAnswer
  dsimp only
  have h0 := Acts.onSgt hz fun g => { g with notes := g.notes.filter fun m => m.id != n.id }
  split
  · exact Chip.completeIfCovered_acts (Acts.countDelivered (Acts.setReadPhase h0 ..) ..) _ _
  · exact Chip.completeIfCovered_acts (Acts.onSwath (Acts.setReadPhase h0 ..) ..) _ _
  · exact Acts.withhold h0 _
  · exact Acts.setReadPhase h0 _ _ _

theorem Chip.plainAnswer_acts {z x : Chip} (hz : Acts z x) (p : Port) (id : Nat) (a : MemoryAnswer) :
    Acts z (x.plainAnswer p id a) := by
  unfold Chip.plainAnswer; split <;> exact Acts.setReadPhase hz _ _ _

theorem Chip.memoryAnswer_move (x : Chip) (a : MemoryAnswer) : Move x (x.memoryAnswer a) := by
  unfold Chip.memoryAnswer
  split
  · exact .refl x
  · rename_i o rest e
    split
    · exact .refl x
    · split
      · refine Move.trans (y := x.onPsw fun p => { p with outstanding := rest }) ?_ (Acts.move ?_)
        · refine Move.onPsw x (fun p => { p with outstanding := rest }) fun g => ⟨?_, g.2⟩
          have := g.1
          rw [e] at this
          exact Nat.le_trans (Nat.le_succ _) this
        · dsimp only
          have h1 : Acts (x.onPsw fun p => { p with outstanding := rest })
              (if a == .fault then (x.onPsw fun p => { p with outstanding := rest }).uncorrectable o.port ‹InFlight› else
                x.onPsw fun p => { p with outstanding := rest }) := by
            split
            · exact Acts.journal (.refl _) _
            · exact .refl _
          split
          · split
            · exact Chip.gateAnswer_acts h1 _ _
            · exact Chip.plainAnswer_acts h1 _ _ _
          · exact Chip.plainAnswer_acts h1 _ _ _
      · exact .refl x

/-! ### Frames (R142, R143, R145) -/

theorem Chip.endFrame_move (x : Chip) (o : LinkOrder) (r : FrameOutcome) (e : List WireEvent) :
    Move x (x.endFrame o r e) := by
  unfold Chip.endFrame
  refine Move.trans ?_ (Acts.deliver (.refl _) o r).move
  exact ⟨rfl, fun l => ⟨l.ports, l.unreserved, l.ordered, l.link, l.sheets, l.remainders⟩⟩

theorem Chip.frameEnd_move (x : Chip) (kind : LinkOrder → Bool) (f : FrameEnd) : Move x (x.frameEnd kind f) := by
  unfold Chip.frameEnd
  split
  · split
    · exact Chip.endFrame_move ..
    · exact .refl x
  · exact .refl x
  · exact .refl x

theorem Chip.lineCheckFailed_move (x : Chip) : Move x x.lineCheckFailed := by
  unfold Chip.lineCheckFailed
  split
  · split
    · exact Chip.endFrame_move ..
    · exact .refl x
  · exact .refl x
  · exact .refl x

theorem Chip.busyHoldFailed_move (x : Chip) : Move x x.busyHoldFailed := by
  unfold Chip.busyHoldFailed
  split
  · split
    · exact Chip.endFrame_move ..
    · exact .refl x
  · exact .refl x
  · exact .refl x

/-! ### A whole event -/

theorem Chip.event_move (x : Chip) (f : Chip → Chip) (h : ∀ y, Move y (f y)) : Move x (x.event f) := by
  unfold Chip.event
  split
  · exact .refl x
  · exact (h x).conclude

/-- After an event no test is called for and no frame stands ended, if so it was before. -/
theorem Chip.event_between (x : Chip) (f : Chip → Chip) (h : x.due = .nothing ∧ x.flm.link ≠ .ended) :
    (x.event f).due = .nothing ∧ (x.event f).flm.link ≠ .ended := by
  unfold Chip.event
  split
  · exact h
  · exact conclude_between _ _

end Sys2Proof.Machine
end

