-- ==== Sys2Proof/Laws/Agree.lean ====
section
/-! SUPPORT. Every event keeps the agreement of the part's lists: what the operations that change it do to it, said once. -/

namespace Sys2Proof.Machine

/-! ## Lists without repetitions -/

theorem eq_of_nodup_map {α β : Type} {f : α → β} {l : List α} (h : (l.map f).Nodup) {a b : α} (ha : a ∈ l) (hb : b ∈ l)
    (e : f a = f b) : a = b := by
  induction l with
  | nil => exact absurd ha (by simp)
  | cons c l ih =>
    rw [List.map_cons, List.nodup_cons] at h
    rcases List.mem_cons.mp ha with ea | ha <;> rcases List.mem_cons.mp hb with eb | hb
    · rw [ea, eb]
    · exact absurd (List.mem_map.mpr ⟨b, hb, by rw [← e, ea]⟩) h.1
    · exact absurd (List.mem_map.mpr ⟨a, ha, by rw [e, eb]⟩) h.1
    · exact ih h.2 ha hb

theorem nodup_of_map {α β : Type} {f : α → β} {l : List α} (h : (l.map f).Nodup) : l.Nodup := by
  rw [List.Nodup, List.pairwise_map] at h
  exact h.imp fun g e => g (by rw [e])

theorem nodup_length_le {α : Type} [DecidableEq α] {l m : List α} (h : l.Nodup) (hs : ∀ a ∈ l, a ∈ m) :
    l.length ≤ m.length := by
  induction l generalizing m with
  | nil => exact Nat.zero_le _
  | cons a l ih =>
    have hn := List.nodup_cons.mp h
    have ha := hs a List.mem_cons_self
    have := ih (m := m.erase a) hn.2 fun b hb =>
      (List.mem_erase_of_ne (fun e : b = a => hn.1 (e ▸ hb))).mpr (hs b (List.mem_cons_of_mem _ hb))
    rw [List.length_erase_of_mem ha] at this
    have := List.length_pos_of_mem ha
    simp only [List.length_cons]
    omega

/-- A list whose every entry is one entry of it, without repetitions. -/
theorem eq_singleton {α : Type} {c : α} {l : List α} (hn : l.Nodup) (hc : c ∈ l) (h : ∀ e ∈ l, e = c) : l = [c] := by
  match l with
  | [] => exact absurd hc (by simp)
  | [a] => rw [h a (by simp)]
  | a :: b :: l =>
    have := (List.nodup_cons.mp hn).1
    rw [h a (by simp), h b (by simp)] at this
    simp at this

/-! ## The agreement, on a stand -/

/-- Credits, reads in flight and the reads `q` that are held (R27, R28, R153, R155). -/
structure Reads (p : PortSwitch) (q : List HeldRead) : Prop where
  cCredits : p.cCredits + p.cInFlight.length + (p.cQueue.filter Forward.isWrite).length = Config.portCredits
  hCredits : p.hCredits + p.hInFlight.length + (p.hQueue.filter Forward.isWrite).length = Config.portCredits
  once : (q.map HeldRead.id).Nodup
  held : ∀ h ∈ q, h.id < p.nextRead ∧ (∃ e ∈ p.hInFlight, e.id = h.id ∧ e.phase = .waiting) ∧
    (∀ addr len, .read h.id addr len ∉ p.hQueue) ∧ { port := .hPort, id := h.id : Outstanding } ∉ p.outstanding
  queued : ∀ id addr len, .read id addr len ∈ p.hQueue → id < p.nextRead
  issued : ∀ o ∈ p.outstanding, o.port = .hPort → o.id < p.nextRead

/-- Swath records, buffers, the claim, the list hold and the released-read notes (R10, R13, R19, R23, R28, R82). -/
structure Swaths (s : Stand) : Prop where
  buffers : (s.table.map fun e => e.2.1).Nodup
  bound : ∀ b, b ∈ s.table.map (fun e => e.2.1) ↔ s.bounds[b]? = some true
  ids : (s.table.map Prod.fst).Nodup
  fresh : ∀ e ∈ s.table, e.1 < s.nextSwathId
  none : s.partState = .unconfigured → s.table = []
  live : (s.table.filter fun e => e.2.2).length = if s.claim = .swath then 1 else 0
  hold : s.held = true ↔ s.claim = .swath
  service : s.active = true ↔ s.claim = .service
  notes : ∀ n ∈ s.notes, n.swath < s.nextSwathId ∧ ∀ e ∈ s.table, e.1 = n.swath → e.2.2 = true

/-- The records, the claim and the notes have nothing to do with the port switch and the hold queue. -/
theorem Swaths.switch {s : Stand} (h : Swaths s) (p : PortSwitch) (q : List HeldRead) :
    Swaths { s with psw := p, holdQueue := q } :=
  ⟨h.buffers, h.bound, h.ids, h.fresh, h.none, h.live, h.hold, h.service, h.notes⟩

/-- The writer's forward queue has nothing to do with the reads. -/
theorem Reads.withWriter {p : PortSwitch} {q : List HeldRead} (h : Reads p q) (w : Option WriterWrite) :
    Reads { p with writer := w } q := ⟨h.cCredits, h.hCredits, h.once, h.held, h.queued, h.issued⟩

structure Good (s : Stand) : Prop where
  reads : Reads s.psw s.holdQueue
  swaths : Swaths s

/-- A swath number of the past whose record, while it is in the table, is ARMED or FIRING. -/
def Stand.liveAt (s : Stand) (n : Nat) : Prop := n < s.nextSwathId ∧ ∀ e ∈ s.table, e.1 = n → e.2.2 = true

theorem Swaths.unique {s : Stand} (h : Swaths s) {a b : Nat × Nat × Bool} (ha : a ∈ s.table) (hb : b ∈ s.table)
    (e : a.1 = b.1) : a = b := eq_of_nodup_map h.ids ha hb e

/-- No record of the table is ARMED or FIRING while the claim is not a swath's (R19, R23). -/
theorem Swaths.notLive {s : Stand} (h : Swaths s) (hc : s.claim ≠ .swath) : ∀ e ∈ s.table, e.2.2 = false := by
  have hl := h.live
  rw [if_neg hc, List.length_eq_zero_iff, List.filter_eq_nil_iff] at hl
  intro e he
  simpa using hl e he

/-- The part's lists agree exactly where they stand so. -/
theorem Chip.listsAgree_of_good {x : Chip} (h : Books Good x) : x.listsAgree := by
  have r := h.stand.reads
  have s := h.stand.swaths
  have tb : x.stand.table.map (fun e => e.2.1) = x.sgt.swaths.map Swath.buffer := List.map_map ..
  have ti : x.stand.table.map Prod.fst = x.sgt.swaths.map Swath.id := List.map_map ..
  have mem : ∀ a ∈ x.sgt.swaths, a.core ∈ x.stand.table := fun a ha => List.mem_map_of_mem ha
  have len : x.sgt.holdQueue.length ≤ 16 := by
    have h2 : (x.sgt.holdQueue.map HeldRead.id).length ≤ (x.psw.hInFlight.map InFlight.id).length := by
      refine nodup_length_le r.once fun i hi => ?_
      obtain ⟨q, hq, rfl⟩ := List.mem_map.mp hi
      obtain ⟨e, he, hid, _⟩ := (r.held q hq).2.1
      exact List.mem_map.mpr ⟨e, he, hid⟩
    have h3 : x.psw.hCredits + x.psw.hInFlight.length + (x.psw.hQueue.filter Forward.isWrite).length = 16 := r.hCredits
    simp only [List.length_map] at h2
    omega
  have reqs : x.svc.requests.length ≤ 8 := by
    have := nodup_length_le h.requests (m := programNumbers) fun q _ => by
      match q with
      | 0 | 1 | 2 | 3 | 4 | 5 | 6 | 7 => decide
    simpa [programNumbers] using this
  refine ⟨⟨r.cCredits, r.hCredits⟩, ⟨r.once, r.held, r.queued, r.issued⟩, len,
    ⟨h.nozzles.places, h.nozzles.order, outOrder_nodup h.nozzles.order, h.nozzles.pending⟩, ⟨reqs, h.requests⟩,
    ⟨tb ▸ s.buffers, fun b => ?_, ti ▸ s.ids, fun a ha => s.fresh _ (mem a ha), fun e => ?_⟩,
    ⟨?_, s.hold, s.service⟩, fun n hn => ⟨(s.notes n hn).1, fun a ha e => (s.notes n hn).2 _ (mem a ha) e⟩⟩
  · rw [← tb, s.bound b]
    simp [Chip.stand, List.getElem?_map]
  · exact List.map_eq_nil_iff.mp (s.none e)
  · have e : (x.stand.table.filter fun e => e.2.2) = (x.sgt.swaths.filter Swath.live).map Swath.core := by
      simp only [Chip.stand, List.filter_map]; rfl
    have := s.live
    rw [e, List.length_map] at this
    exact this

theorem Chip.good_of_listsAgree {x : Chip} (h : x.listsAgree) : Books Good x := by
  obtain ⟨⟨c1, c2⟩, ⟨d1, d2, d3, d4⟩, _, ⟨n1, n2, _, n3⟩, ⟨_, q⟩, ⟨b1, b2, b3, b4, b5⟩, ⟨k1, k2, k3⟩, o⟩ := h
  refine ⟨⟨⟨c1, c2, d1, d2, d3, d4⟩, ?_, ?_, ?_, ?_, ?_, ?_, k2, k3, fun n hn => ⟨(o n hn).1, ?_⟩⟩, ⟨n1, n2, n3⟩, q⟩
  · have tb : x.stand.table.map (fun e => e.2.1) = x.sgt.swaths.map Swath.buffer := List.map_map ..
    rw [tb]; exact b1
  · intro b
    have tb : x.stand.table.map (fun e => e.2.1) = x.sgt.swaths.map Swath.buffer := List.map_map ..
    rw [tb, b2 b]
    simp [Chip.stand, List.getElem?_map]
  · have ti : x.stand.table.map Prod.fst = x.sgt.swaths.map Swath.id := List.map_map ..
    rw [ti]; exact b3
  · intro e he
    obtain ⟨a, ha, rfl⟩ := List.mem_map.mp he
    exact b4 a ha
  · intro e
    exact List.map_eq_nil_iff.mpr (b5 e)
  · have e : (x.stand.table.filter fun e => e.2.2) = (x.sgt.swaths.filter Swath.live).map Swath.core := by
      simp only [Chip.stand, List.filter_map]; rfl
    rw [e, List.length_map]
    exact k1
  · intro e he g
    obtain ⟨a, ha, rfl⟩ := List.mem_map.mp he
    exact (o n hn).2 a ha g

/-! ## Reads -/

theorem Reads.sub {p : PortSwitch} {q r : List HeldRead} (h : Reads p q) (hs : r.Sublist q) : Reads p r :=
  { h with once := h.once.sublist (hs.map _), held := fun a ha => h.held a (hs.subset ha) }

theorem Reads.perm {p : PortSwitch} {q r : List HeldRead} (h : Reads p q) (hs : q.Perm r) : Reads p r :=
  { h with once := (hs.map _).nodup_iff.mp h.once, held := fun a ha => h.held a (hs.mem_iff.mpr ha) }

theorem setPhase_length (l : List InFlight) (id : Nat) (ph : ReadPhase) : (setPhase l id ph).length = l.length :=
  List.length_map ..

theorem Reads.phaseC {p : PortSwitch} {q : List HeldRead} (h : Reads p q) (id : Nat) (ph : ReadPhase) :
    Reads { p with cInFlight := setPhase p.cInFlight id ph } q :=
  { h with cCredits := by rw [setPhase_length]; exact h.cCredits }

/-- The phase of a read that is not held (R155). -/
theorem Reads.phaseH {p : PortSwitch} {q : List HeldRead} (h : Reads p q) (id : Nat) (ph : ReadPhase)
    (hid : ∀ a ∈ q, a.id ≠ id) : Reads { p with hInFlight := setPhase p.hInFlight id ph } q := by
  refine { h with hCredits := ?_, held := fun a ha => ?_ }
  · rw [setPhase_length]; exact h.hCredits
  · obtain ⟨h1, ⟨e, he, hi, hp⟩, h3⟩ := h.held a ha
    refine ⟨h1, ⟨e, List.mem_map.mpr ⟨e, he, ?_⟩, hi, hp⟩, h3⟩
    rw [if_neg]
    intro g
    exact hid a ha (hi ▸ by simpa using g)

/-- A read enters the H-port's in-flight list under a fresh number, to wait (R153, R155). -/
theorem Reads.enterH {p : PortSwitch} {q : List HeldRead} (h : Reads p q) (hc : p.hCredits ≠ 0) (r : ReadRequest) (sw : Nat) :
    Reads (p.enterRead .hPort r .waiting) ({ id := p.nextRead, tag := r.tag, addr := r.addr, len := r.len, swath := sw } :: q) := by
  refine ⟨h.cCredits, ?_, ?_, ?_, fun i a l hi => Nat.lt_succ_of_lt (h.queued i a l hi),
    fun o ho hp => Nat.lt_succ_of_lt (h.issued o ho hp)⟩
  · have := h.hCredits
    simp only [PortSwitch.enterRead, List.length_append, List.length_cons, List.length_nil]
    omega
  · refine List.nodup_cons.mpr ⟨fun g => ?_, h.once⟩
    obtain ⟨a, ha, e⟩ := List.mem_map.mp g
    exact absurd (h.held a ha).1 (by rw [e]; exact Nat.lt_irrefl _)
  · intro a ha
    rcases List.mem_cons.mp ha with rfl | ha
    · refine ⟨Nat.lt_succ_self _, ⟨_, List.mem_append_right _ (List.mem_singleton.mpr rfl), rfl, rfl⟩, fun a l g => ?_,
        fun g => ?_⟩
      · exact absurd (h.queued _ a l g) (Nat.lt_irrefl _)
      · exact absurd (h.issued _ g rfl) (Nat.lt_irrefl _)
    · obtain ⟨h1, ⟨e, he, hi, hp⟩, h3⟩ := h.held a ha
      exact ⟨Nat.lt_succ_of_lt h1, ⟨e, List.mem_append_left _ he, hi, hp⟩, h3⟩

/-- A read that was held, or about to be, joins the forward queue of the H-port (R28). -/
theorem Reads.queue {p : PortSwitch} {q : List HeldRead} {r : HeldRead} (h : Reads p (r :: q)) (addr : Addr) (len : Nat) :
    Reads { p with hQueue := p.hQueue ++ [.read r.id addr len] } q := by
  have hn := List.nodup_cons.mp h.once
  refine ⟨h.cCredits, ?_, hn.2, fun a ha => ?_, fun i a l hi => ?_, h.issued⟩
  · have := h.hCredits
    simpa [Forward.isWrite, List.filter_append] using this
  · obtain ⟨h1, h2, h3, h4⟩ := h.held a (List.mem_cons_of_mem _ ha)
    refine ⟨h1, h2, fun ad l g => ?_, h4⟩
    rcases List.mem_append.mp g with g | g
    · exact h3 ad l g
    · simp only [List.mem_singleton, Forward.read.injEq] at g
      exact hn.1 (List.mem_map.mpr ⟨a, ha, g.1⟩)
  · rcases List.mem_append.mp hi with g | g
    · exact h.queued i a l g
    · simp only [List.mem_singleton, Forward.read.injEq] at g
      rw [g.1]
      exact (h.held r List.mem_cons_self).1

/-! ## Swath records -/

/-- The table and the buffers after a record has been removed (R15). -/
def Stand.remove (s : Stand) (c : Nat × Nat × Bool) : Stand :=
  { s with table := s.table.filter fun e => e.1 != c.1, bounds := s.bounds.set c.2.1 false }

theorem Swaths.removed_live {s : Stand} (h : Swaths s) {c : Nat × Nat × Bool} (hc : c ∈ s.table) :
    ((s.remove c).table.filter fun e => e.2.2).length + (if c.2.2 then 1 else 0) =
      (s.table.filter fun e => e.2.2).length := by
  have hp : (s.table.filter fun e => e.1 == c.1) = [c] := by
    have hmem : ∀ e ∈ s.table.filter (fun e => e.1 == c.1), e = c := fun e he => by
      rw [List.mem_filter] at he
      exact h.unique he.1 hc (by simpa using he.2)
    have hnd : (s.table.filter fun e => e.1 == c.1).Nodup := (nodup_of_map h.ids).filter _
    have hin : c ∈ s.table.filter (fun e => e.1 == c.1) := List.mem_filter.mpr ⟨hc, by simp⟩
    exact eq_singleton hnd hin hmem
  have hs := (List.filter_append_perm (fun e : Nat × Nat × Bool => e.1 == c.1) s.table).filter fun e => e.2.2
  have hlen := hs.length_eq
  rw [List.filter_append, hp, List.length_append] at hlen
  have hne : (s.remove c).table = s.table.filter fun e => !(e.1 == c.1) := rfl
  rw [hne, ← hlen]
  cases hb : c.2.2
  · simp [hb]
  · simp [hb]; omega

theorem Swaths.remove_bound {s : Stand} (h : Swaths s) {c : Nat × Nat × Bool} (hc : c ∈ s.table) (b : Nat) :
    b ∈ (s.remove c).table.map (fun e => e.2.1) ↔ (s.remove c).bounds[b]? = some true := by
  simp only [Stand.remove, List.getElem?_set]
  split
  · rename_i e
    subst e
    constructor
    · intro g
      obtain ⟨e, he, eb⟩ := List.mem_map.mp g
      rw [List.mem_filter] at he
      have := eq_of_nodup_map h.buffers he.1 hc eb
      rw [this] at he
      simp at he
    · split <;> simp
  · rename_i e
    rw [← h.bound b]
    simp only [List.mem_map, List.mem_filter]
    constructor
    · rintro ⟨a, ⟨ha, _⟩, hb⟩
      exact ⟨a, ha, hb⟩
    · rintro ⟨a, ha, hb⟩
      refine ⟨a, ⟨ha, ?_⟩, hb⟩
      simp only [bne_iff_ne, ne_eq]
      intro g
      exact e (by rw [← hb, h.unique ha hc g])

/-- A BOUND record leaves the table (R15). -/
theorem Swaths.removeBound {s : Stand} (h : Swaths s) {c : Nat × Nat × Bool} (hc : c ∈ s.table) (hl : c.2.2 = false) :
    Swaths (s.remove c) := by
  refine ⟨h.buffers.sublist (List.filter_sublist.map _), h.remove_bound hc, h.ids.sublist (List.filter_sublist.map _),
    fun e he => h.fresh e (List.mem_filter.mp he).1, fun e => ?_, ?_, h.hold, h.service,
    fun n hn => ⟨(h.notes n hn).1, fun e he g => (h.notes n hn).2 e (List.mem_filter.mp he).1 g⟩⟩
  · show List.filter _ s.table = []
    rw [h.none e]; rfl
  · have := h.removed_live hc
    rw [hl, h.live] at this
    exact this

/-- The ARMED or FIRING record leaves the table, with the claim and the list hold (R15, R16, R38). -/
theorem Swaths.removeLive {s : Stand} (h : Swaths s) {c : Nat × Nat × Bool} (hc : c ∈ s.table) (hl : c.2.2 = true) :
    Swaths { s.remove c with claim := .free, held := false } := by
  have hcl : s.claim = .swath := by
    refine Decidable.byContradiction fun g => ?_
    rw [h.notLive g c hc] at hl
    exact absurd hl (by simp)
  refine ⟨h.buffers.sublist (List.filter_sublist.map _), h.remove_bound hc, h.ids.sublist (List.filter_sublist.map _),
    fun e he => h.fresh e (List.mem_filter.mp he).1, fun e => ?_, ?_, by simp, ?_,
    fun n hn => ⟨(h.notes n hn).1, fun e he g => (h.notes n hn).2 e (List.mem_filter.mp he).1 g⟩⟩
  · show List.filter _ s.table = []
    rw [h.none e]; rfl
  · have := h.removed_live hc
    rw [hl, h.live, hcl] at this
    simp only [if_true, reduceCtorEq, if_false] at this ⊢
    omega
  · have := h.service
    rw [hcl] at this
    simpa [Stand.remove] using this

/-! ## Held reads (R25 to R29) -/

/-- The agreement with `q` for the hold queue and, where it is given, `hv` for the list hold. -/
def Stand.goodAs (q : List HeldRead) (hv : Option Bool) (s : Stand) : Prop :=
  Good { s with holdQueue := q, held := hv.getD s.held }

section

variable {x : Chip}

theorem Books.asHeld (h : Books Good x) : Books (Stand.goodAs x.sgt.holdQueue none) x := h.imp id

theorem Books.ofHeld {q : List HeldRead} (h : Books (Stand.goodAs q none) x) (hq : x.sgt.holdQueue = q) : Books Good x := by
  subst hq; exact h.imp id

/-- A change of the port switch that keeps its agreement with the held reads. -/
theorem Books.onPsw {q : List HeldRead} {hv : Option Bool} {p : Stand → Prop} {r : List HeldRead}
    (h : Books (fun s => s.goodAs q hv ∧ p s) x) (f : PortSwitch → PortSwitch)
    (hf : Reads x.psw q → Reads (f x.psw) r)
    (hp : p x.stand → p { x.stand with psw := { f x.psw with writer := none } } := by exact fun g => g) :
    Books (fun s => s.goodAs r hv ∧ p s) (x.onPsw f) := by
  have g : Reads x.psw q := h.stand.1.reads.withWriter x.psw.writer
  exact ⟨⟨⟨(hf g).withWriter none, h.stand.1.swaths.switch _ _⟩, hp h.stand.2⟩, h.nozzles, h.requests⟩

/-- The same without another property to keep. -/
theorem Books.switch (h : Books Good x) (f : PortSwitch → PortSwitch)
    (hf : Reads x.psw x.sgt.holdQueue → Reads (f x.psw) x.sgt.holdQueue) : Books Good (x.onPsw f) :=
  (Books.onPsw (p := fun _ => True) (h.asHeld.imp fun g => ⟨g, trivial⟩) f hf).imp fun g => g.1

/-- A read that is not held changes phase (R155). -/
theorem Books.setReadPhase {q : List HeldRead} {hv : Option Bool} (h : Books (Stand.goodAs q hv) x) (port : Port) (id : Nat)
    (ph : ReadPhase) (hid : port = .hPort → ∀ a ∈ q, a.id ≠ id) : Books (Stand.goodAs q hv) (x.setReadPhase port id ph) := by
  have g : Books (fun s => s.goodAs q hv ∧ True) x := h.imp fun g => ⟨g, trivial⟩
  cases port with
  | cPort => exact (g.onPsw (r := q) _ fun e => e.phaseC id ph).imp fun g => g.1
  | hPort => exact (g.onPsw (r := q) _ fun e => e.phaseH id ph (hid rfl)).imp fun g => g.1

theorem Chip.withhold_sgt (x : Chip) (id : Nat) : (x.withhold id).sgt = x.sgt := rfl

/-- Reads answered WITHHELD, none of which is still to be held (R29). -/
theorem Books.withholdAll {q : List HeldRead} (h : Books (Stand.goodAs q none) x) (l : List HeldRead)
    (hl : ∀ r ∈ l, ∀ a ∈ q, a.id ≠ r.id) :
    Books (Stand.goodAs q none) (l.foldl (fun y r => y.withhold r.id) x) ∧
      (l.foldl (fun y r => y.withhold r.id) x).sgt = x.sgt := by
  induction l generalizing x with
  | nil => exact ⟨h, rfl⟩
  | cons r l ih =>
    have g := ih (h.setReadPhase .hPort r.id (.answered .withheld []) fun _ => hl r List.mem_cons_self)
      fun b hb => hl b (List.mem_cons_of_mem _ hb)
    exact ⟨g.1, g.2⟩

theorem Books.dropHeld (h : Books Good x) (f : HeldRead → Bool) : Books Good (x.dropHeld f) := by
  have hs : (x.sgt.holdQueue.filter fun r => !f r).Sublist x.sgt.holdQueue := List.filter_sublist
  have h1 : Books (Stand.goodAs (x.sgt.holdQueue.filter fun r => !f r) none) x :=
    h.imp fun g => ⟨g.reads.sub hs, g.swaths.switch _ _⟩
  obtain ⟨h2, h3⟩ := h1.withholdAll (x.sgt.holdQueue.filter f) fun r hr a ha e => by
    rw [List.mem_filter] at hr ha
    have := eq_of_nodup_map h.stand.reads.once ha.1 hr.1 e
    rw [this, hr.2] at ha
    exact absurd ha.2 (by simp)
  unfold Chip.dropHeld
  refine ⟨?_, h2.nozzles, h2.requests⟩
  have e : ((((x.sgt.holdQueue.filter f).foldl (fun y r => y.withhold r.id) x).onSgt fun g =>
      { g with holdQueue := g.holdQueue.filter fun r => !f r,
               holdTimer := if (g.holdQueue.filter fun r => !f r).isEmpty then none else g.holdTimer })).stand =
      { ((x.sgt.holdQueue.filter f).foldl (fun y r => y.withhold r.id) x).stand with
        holdQueue := x.sgt.holdQueue.filter fun r => !f r } := by
    simp only [Chip.stand, Chip.onSgt, h3]
  exact e ▸ h2.stand

theorem Books.dropStaleHolds (h : Books Good x) : Books Good x.dropStaleHolds := by
  unfold Chip.dropStaleHolds
  split
  · exact h
  · exact (h.dropHeld _).refreshStatus _

/-- The reads still held after the stale ones have been answered are held for the next swath record (R29). -/
theorem Chip.dropStaleHolds_next (x : Chip) :
    ∀ a ∈ x.dropStaleHolds.sgt.holdQueue, x.dropStaleHolds.nextRecord.map Swath.id = some a.swath := by
  have fold : ∀ (l : List HeldRead) (y : Chip), (l.foldl (fun y r => y.withhold r.id) y).sgt = y.sgt ∧
      (l.foldl (fun y r => y.withhold r.id) y).fdc = y.fdc := by
    intro l
    induction l with
    | nil => exact fun y => ⟨rfl, rfl⟩
    | cons r l ih => exact fun y => ih (y.withhold r.id)
  have same : ∀ a b : Chip, a.sgt.swaths = b.sgt.swaths → a.fdc = b.fdc → a.nextRecord = b.nextRecord := by
    intro a b h1 h2
    simp only [Chip.nextRecord, Chip.nextSwath, Chip.liveSwath, Chip.platen, h1, h2]
  unfold Chip.dropStaleHolds
  split
  · rename_i e
    intro a ha
    rw [List.isEmpty_iff.mp e] at ha
    exact absurd ha (by simp)
  · obtain ⟨l, e⟩ := Chip.refreshStatus_rpw (x.dropHeld fun r => (x.nextRecord.map Swath.id) != some r.swath) x
    rw [e]
    obtain ⟨f1, f2⟩ := fold (x.sgt.holdQueue.filter fun r => (x.nextRecord.map Swath.id) != some r.swath) x
    intro a ha
    have hn := same ((x.dropHeld fun r => (x.nextRecord.map Swath.id) != some r.swath).onRpw fun w => { w with statusSet := l }) x
      (by simp only [Chip.onRpw_sgt, Chip.dropHeld, Chip.onSgt_sgt, f1])
      (by simp only [Chip.onRpw_fdc, Chip.dropHeld, Chip.onSgt_fdc, f2])
    rw [hn]
    simp only [Chip.onRpw_sgt, Chip.dropHeld, Chip.onSgt_sgt, f1, List.mem_filter] at ha
    simpa using ha.2

/-- A read is released for a swath that is ARMED or FIRING (R28). -/
theorem Books.releaseRead {r : HeldRead} {q : List HeldRead} {hv : Option Bool} {L : List Nat}
    (h : Books (fun s => s.goodAs (r :: q) hv ∧ ∀ n ∈ L, s.liveAt n) x) (swath : Nat) (hs : swath ∈ L) (addr : Addr) (len : Nat) :
    Books (fun s => s.goodAs q hv ∧ ∀ n ∈ L, s.liveAt n) (x.releaseRead r.id swath addr len) := by
  unfold Chip.releaseRead
  refine Books.onPsw (q := r :: q) ?_ _ fun e => e.queue addr len
  refine ⟨⟨⟨h.stand.1.reads, { h.stand.1.swaths with notes := fun n hn => ?_ }⟩, h.stand.2⟩, h.nozzles, h.requests⟩
  rcases List.mem_append.mp hn with hn | hn
  · exact h.stand.1.swaths.notes n hn
  · rw [List.mem_singleton.mp hn]
    exact h.stand.2 swath hs

theorem Books.releaseAll {hv : Option Bool} {L : List Nat} (l : List HeldRead)
    (h : Books (fun s => s.goodAs l hv ∧ ∀ n ∈ L, s.liveAt n) x) (hl : ∀ r ∈ l, r.swath ∈ L) :
    Books (Stand.goodAs [] hv) (l.foldl (fun y r => y.releaseRead r.id r.swath r.addr r.len) x) := by
  induction l generalizing x with
  | nil => exact h.imp fun g => g.1
  | cons r l ih =>
    exact ih (h.releaseRead r.swath (hl r List.mem_cons_self) r.addr r.len) fun b hb => hl b (List.mem_cons_of_mem _ hb)

/-- The held reads are released for a swath that is ARMED (R28). -/
theorem Books.releaseHeld {hv : Option Bool}
    (h : Books (fun s => s.goodAs x.sgt.holdQueue hv ∧ ∀ n ∈ x.sgt.holdQueue.map HeldRead.swath, s.liveAt n) x) :
    Books (Stand.goodAs [] hv) x.releaseHeld := by
  have g := h.releaseAll x.sgt.holdQueue fun r hr => List.mem_map_of_mem hr
  exact ⟨g.stand, g.nozzles, g.requests⟩

/-! ## Unbinding (R15, R16) -/

theorem Good.removeLive {s : Stand} {T : List (Nat × Nat × Bool)} (g : Good s ∧ s.table = T) {c : Nat × Nat × Bool}
    (hc : c ∈ T) (hl : c.2.2 = true) :
    Good { s.remove c with claim := .free, held := false } ∧ (s.remove c).table = T.filter fun e => e.1 != c.1 :=
  ⟨⟨g.1.reads, g.1.swaths.removeLive (g.2.symm ▸ hc) hl⟩, by rw [← g.2]; rfl⟩

theorem Good.removeBound {s : Stand} {T : List (Nat × Nat × Bool)} (g : Good s ∧ s.table = T) {c : Nat × Nat × Bool}
    (hc : c ∈ T) (hl : c.2.2 = false) : Good (s.remove c) ∧ (s.remove c).table = T.filter fun e => e.1 != c.1 :=
  ⟨⟨g.1.reads, g.1.swaths.removeBound (g.2.symm ▸ hc) hl⟩, by rw [← g.2]; rfl⟩

/-- The claim is FREE (R23). -/
theorem Books.claimFree {p : Stand → Prop} (h : Books (fun s => p { s with claim := .free }) x) :
    Books p (x.onSgt fun g => { g with claim := .free }) := ⟨h.stand, h.nozzles, h.requests⟩

theorem Books.removeSwath {p : Stand → Prop} (r : Swath) (h : Books (fun s => p (s.remove r.core)) x) :
    Books p (x.removeSwath r) := by
  unfold Chip.removeSwath
  refine Books.showChange (Books.markStatus (p := p) ?_ _) _ _
  refine ⟨?_, h.nozzles, h.requests⟩
  have e : (x.onSgt fun g => { g with swaths := g.swaths.filter fun a => a.id != r.id,
                                      buffers := g.buffers.set r.buffer Buffer.cleared }).stand = x.stand.remove r.core := by
    simp only [Chip.stand, Chip.onSgt, Stand.remove, List.filter_map, List.map_set]
    rfl
  exact e ▸ h.stand

/-- A swath of the table is unbound (R15, R16). -/
theorem Books.unbind {T : List (Nat × Nat × Bool)} (h : Books (fun s => Good s ∧ s.table = T) x) (r : Swath) (hr : r.core ∈ T) :
    Books (fun s => Good s ∧ s.table = T.filter fun e => e.1 != r.id) (x.unbind r) := by
  unfold Chip.unbind
  split
  · rename_i hl
    have h1 := h.release .swath
    generalize x.release .swath = y at h1
    refine Books.callArming (Books.swathGone (Books.claimFree (Books.showChange (Books.removeSwath r ?_) _ _)))
    exact h1.imp fun g => Good.removeLive g hr hl
  · rename_i hl
    exact Books.removeSwath r (h.imp fun g => Good.removeBound g hr (by simpa [Swath.core] using hl))

theorem Books.unbindAll {T : List (Nat × Nat × Bool)} (l : List Swath) (h : Books (fun s => Good s ∧ s.table = T) x)
    (hn : (l.map Swath.id).Nodup) (hl : ∀ r ∈ l, r.core ∈ T) : Books Good (l.foldl Chip.unbind x) := by
  induction l generalizing x T with
  | nil => exact h.imp fun g => g.1
  | cons r l ih =>
    rw [List.map_cons, List.nodup_cons] at hn
    refine ih (h.unbind r (hl r List.mem_cons_self)) hn.2 fun b hb => ?_
    refine List.mem_filter.mpr ⟨hl b (List.mem_cons_of_mem _ hb), ?_⟩
    simp only [bne_iff_ne, ne_eq]
    exact fun e => hn.1 (List.mem_map.mpr ⟨b, hb, e⟩)

/-- Swaths of a part of the table are unbound, each once. -/
theorem Books.unbindSome (h : Books Good x) (l : List Swath) (hl : l.Sublist x.sgt.swaths) :
    Books Good (l.foldl Chip.unbind x) := by
  refine (h.imp (q := fun s => Good s ∧ s.table = x.stand.table) fun g => ⟨g, rfl⟩).unbindAll l ?_ fun r hr => ?_
  · have ti : x.stand.table.map Prod.fst = x.sgt.swaths.map Swath.id := List.map_map ..
    exact (ti ▸ h.stand.swaths.ids).sublist (hl.map _)
  · exact List.mem_map_of_mem (hl.subset hr)

theorem Books.unbindSheet (h : Books Good x) (id : Nat) : Books Good (x.unbindSheet id) :=
  h.unbindSome _ List.filter_sublist

/-! ## Arming (R20) -/

/-- The stand of an armed swath: the claim is its, and its record is ARMED (R20, R23). -/
theorem Swaths.armed {s : Stand} (h : Swaths s) (hc : s.claim = .free) {c : Nat × Nat × Bool} (hm : c ∈ s.table) :
    Swaths { s with claim := .swath, held := true,
                    table := s.table.map fun e => if e.1 == c.1 then (e.1, e.2.1, true) else e } := by
  have fst : ∀ e : Nat × Nat × Bool, (if e.1 == c.1 then (e.1, e.2.1, true) else e).1 = e.1 := fun e => by split <;> rfl
  have snd : ∀ e : Nat × Nat × Bool, (if e.1 == c.1 then (e.1, e.2.1, true) else e).2.1 = e.2.1 := fun e => by split <;> rfl
  have off := h.notLive (by rw [hc]; simp)
  have e1 : (s.table.map fun e => if e.1 == c.1 then (e.1, e.2.1, true) else e).map (fun e => e.2.1) =
      s.table.map fun e => e.2.1 := by
    rw [List.map_map]; exact List.map_congr_left fun e _ => snd e
  have e2 : (s.table.map fun e => if e.1 == c.1 then (e.1, e.2.1, true) else e).map Prod.fst = s.table.map Prod.fst := by
    rw [List.map_map]; exact List.map_congr_left fun e _ => fst e
  refine ⟨?_, fun b => ?_, ?_, fun e he => ?_, fun e => ?_, ?_, by simp, ?_, fun n hn => ⟨(h.notes n hn).1, fun e he g => ?_⟩⟩
  · simp only [e1]; exact h.buffers
  · simp only [e1]; exact h.bound b
  · simp only [e2]; exact h.ids
  · obtain ⟨a, ha, rfl⟩ := List.mem_map.mp he
    rw [fst]; exact h.fresh a ha
  · have := h.none e
    simp only [this, List.map_nil]
  · have hl : ((s.table.map fun e => if e.1 == c.1 then (e.1, e.2.1, true) else e).filter fun e => e.2.2) =
        [(c.1, c.2.1, true)] := by
      refine eq_singleton ((nodup_of_map (f := Prod.fst) (e2 ▸ h.ids)).filter _) ?_ fun e he => ?_
      · exact List.mem_filter.mpr ⟨List.mem_map.mpr ⟨c, hm, by simp⟩, rfl⟩
      · obtain ⟨h1, h2⟩ := List.mem_filter.mp he
        obtain ⟨a, ha, rfl⟩ := List.mem_map.mp h1
        by_cases g : a.1 = c.1
        · rw [h.unique ha hm g]; simp
        · simp only [beq_iff_eq, g, if_false] at h2
          exact absurd h2 (by simp [off a ha])
    simp only [hl]
    rfl
  · have := h.service
    rw [hc] at this
    simpa using this
  · obtain ⟨a, ha, rfl⟩ := List.mem_map.mp he
    rw [fst] at g
    have := (h.notes n hn).2 a ha g
    split
    · rfl
    · exact this

theorem Books.arm (h : Books Good x) (r : Swath) (spit : Six (List Nat)) (amounts : Six Nat) (hr : r ∈ x.sgt.swaths)
    (hc : x.sgt.claim = .free) (hq : ∀ a ∈ x.sgt.holdQueue, a.swath = r.id) : Books Good (x.arm r spit amounts) := by
  have h1 := (h.imp (q := fun s => Good s ∧ s.claim = .free ∧ r.core ∈ s.table ∧ ∀ a ∈ s.holdQueue, a.swath = r.id)
    fun g => ⟨g, hc, List.mem_map_of_mem hr, hq⟩).reserve .swath amounts
  generalize hy : x.reserve .swath amounts = y at h1
  have e : ((y.onSgt fun g => { g with claim := .swath }).onSwath r.id fun a =>
      { a with spitSet := spit, reservation := amounts, state := .armed }).stand =
      { y.stand with claim := .swath,
                     table := y.stand.table.map fun e => if e.1 == r.core.1 then (e.1, e.2.1, true) else e } := by
    simp only [Chip.stand, Chip.onSgt, Chip.onSwath, List.map_map]
    congr 1
    refine List.map_congr_left fun a _ => ?_
    show Swath.core (if a.id == r.id then _ else a) = if a.id == r.id then _ else _
    split <;> rfl
  have h2 : Books (fun s => s.goodAs s.holdQueue (some true) ∧ ∀ n ∈ s.holdQueue.map HeldRead.swath, s.liveAt n)
      ((y.onSgt fun g => { g with claim := .swath }).onSwath r.id fun a =>
        { a with spitSet := spit, reservation := amounts, state := .armed }) := by
    obtain ⟨g1, g2, g3, g4⟩ := h1.stand
    refine ⟨?_, h1.nozzles, h1.requests⟩
    rw [e]
    refine ⟨⟨g1.reads, g1.swaths.armed g2 g3⟩, fun n hn => ?_⟩
    obtain ⟨a, ha, rfl⟩ := List.mem_map.mp hn
    rw [g4 a ha]
    refine ⟨g1.swaths.fresh _ g3, fun b hb hid => ?_⟩
    obtain ⟨c, _, rfl⟩ := List.mem_map.mp hb
    split
    · rfl
    · rename_i k
      simp only [k] at hid
      exact absurd hid (by simpa [Swath.core] using k)
  generalize hz : (y.onSgt fun g => { g with claim := .swath }).onSwath r.id (fun a =>
    { a with spitSet := spit, reservation := amounts, state := .armed }) = z at h2
  have h3 := (h2.imp (q := fun s => s.goodAs z.sgt.holdQueue (some true) ∧
    ∀ n ∈ z.sgt.holdQueue.map HeldRead.swath, s.liveAt n) fun g => g).releaseHeld
  unfold Chip.arm
  simp only [hy, hz]
  have h4 := ((h3.imp (q := fun s => s.goodAs [] (some true) ∧ s.holdQueue = []) fun g => ⟨g, rfl⟩).markStatus
    10).refreshStatus x
  generalize (z.releaseHeld.markStatus 10).refreshStatus x = v at h4
  refine .markStatus ?_ _
  refine ⟨?_, ⟨h4.nozzles.places, h4.nozzles.order, h4.nozzles.pending⟩, h4.requests⟩
  have g := h4.stand.1
  rw [← h4.stand.2] at g
  exact g

theorem Books.armingTest (h : Books Good x) (hq : ∀ a ∈ x.sgt.holdQueue, x.nextRecord.map Swath.id = some a.swath) :
    Books Good x.armingTest := by
  unfold Chip.armingTest
  split
  · exact h
  · rename_i r e
    have hn : x.nextRecord = some r := by
      unfold Chip.armingCandidate at e
      split at e
      · exact e
      · exact absurd e (by simp)
    have hr : r ∈ x.sgt.swaths := by
      unfold Chip.nextRecord at hn
      split at hn
      · exact List.mem_of_find?_eq_some hn
      · exact absurd hn (by simp)
    split
    · rename_i hc
      simp only [Bool.and_eq_true, beq_iff_eq] at hc
      split
      · dsimp only
        split
        · refine h.arm _ _ _ hr hc.1.2 fun a ha => ?_
          have := hq a ha
          rw [hn] at this
          simpa using this.symm
        · exact h.refuseReservation _
      · exact h.askWake _
    · exact h

end

section

variable {x : Chip}

/-! ## The gate -/

/-- Counting a delivered read of an ARMED or FIRING swath (R35). -/
theorem Books.countDelivered {p : Stand → Prop} (h : Books p x) (r : Swath) (w : Rewrite)
    (hl : ∀ a ∈ x.sgt.swaths, a.id = r.id → a.live = true) : Books p (x.countDelivered r w) := by
  have g := h.onSwath r.id (fun a => a.count w) fun a ha e => by
    show (a.id, a.buffer, true) = (a.id, a.buffer, a.live)
    rw [hl a ha e]
  unfold Chip.countDelivered
  dsimp only
  have g2 := Books.foldl (fun y e => Chip.fireDelivered y e) (fun _ _ g => g.fireDelivered _) w.fired
    (Books.foldl (fun y k => Chip.consumeDelivered y w k) (fun _ _ g => g.consumeDelivered _ _) channels g)
  split
  · exact (g2.markStatus 10).firingBegun
  · exact g2

/-! ## The gating of a head read (R25 to R28) -/

/-- A read about to be held or released is answered WITHHELD instead (R26). -/
theorem Books.refuseRead {r : HeldRead} (h : Books (Stand.goodAs (r :: x.sgt.holdQueue) none) x) (buffer : Nat) (addr : Addr)
    (notNext : Bool) : Books Good (x.refuseRead r.id buffer addr notNext) := by
  have hn := List.nodup_cons.mp h.stand.reads.once
  have g : Books (Stand.goodAs x.sgt.holdQueue none) x :=
    h.imp fun g => ⟨g.reads.sub (List.sublist_cons_self _ _), g.swaths.switch _ _⟩
  refine Books.journal ?_ _
  exact (g.setReadPhase .hPort r.id _ fun _ a ha e => hn.1 (List.mem_map.mpr ⟨a, ha, e⟩)).ofHeld rfl

theorem Books.holdRead {r : HeldRead} (h : Books (Stand.goodAs (r :: x.sgt.holdQueue) none) x) : Books Good (x.holdRead r) := by
  have g : Books Good (x.onSgt fun g =>
      { g with holdQueue := g.holdQueue ++ [r],
               holdTimer := if g.holdQueue.isEmpty then some (x.now + g.holdLimit * 1000) else g.holdTimer }) := by
    refine ⟨⟨?_, ?_⟩, h.nozzles, h.requests⟩
    · exact h.stand.reads.perm (List.perm_append_singleton r x.sgt.holdQueue).symm
    · exact h.stand.swaths.switch _ _
  unfold Chip.holdRead
  dsimp only
  split
  · exact g.markStatus _
  · exact g

/-- A presented read is held, released or answered WITHHELD (R25 to R28). -/
theorem Books.presentRead {r : HeldRead} {q : ReadRequest}
    (h : ∀ n, Books (Stand.goodAs ({ r with swath := n } :: x.sgt.holdQueue) none) x)
    (hq : r.tag = q.tag ∧ r.addr = q.addr ∧ r.len = q.len) : Books Good (x.presentRead r.id q) := by
  unfold Chip.presentRead
  dsimp only
  split
  · exact (h 0).refuseRead _ _ _
  · rename_i a e
    have ha : a ∈ x.sgt.swaths := List.mem_of_find?_eq_some e
    split
    · split
      · rename_i hl
        have s := (h 0).stand.swaths
        have g := Books.releaseRead (L := [a.id]) ((h 0).imp (q := fun s => s.goodAs _ none ∧ ∀ n ∈ [a.id], s.liveAt n)
          fun g => ⟨g, fun n hn => by
            rw [List.mem_singleton.mp hn]
            refine ⟨s.fresh _ (List.mem_map_of_mem ha), fun b hb e => ?_⟩
            rw [s.unique hb (List.mem_map_of_mem ha) e]; exact hl⟩) a.id (by simp) q.addr q.len
        exact (g.imp fun g => g.1).ofHeld rfl
      · have := (h a.id).holdRead
        rw [hq.1, hq.2.1, hq.2.2] at this
        exact this
    · exact (h 0).refuseRead _ _ _

/-! ## The feed controller -/

theorem Books.removeSheet (h : Books Good x) (j : Sheet) (outcome : SheetOutcome) : Books Good (x.removeSheet j outcome) := by
  unfold Chip.removeSheet; (try dsimp only); (repeat' split)
  all_goals with_reducible repeat'
    first
    | assumption | apply Books.leaveQueue | apply Books.tellGate | apply Books.unbindSheet | apply Books.sheetRemoved | apply Books.noticeNext
    | apply Books.journal | apply Books.callAdmission | apply Books.callArming | apply Books.onFdc
    | split

theorem Books.removePlaten (h : Books Good x) (outcome : Sheet → SheetOutcome) : Books Good (x.removePlaten outcome) := by
  unfold Chip.removePlaten; (try dsimp only); (repeat' split)
  all_goals with_reducible repeat'
    first
    | assumption | apply Books.removeSheet | split

theorem Books.startClearing (h : Books Good x) (cutOnly : Bool) : Books Good (x.startClearing cutOnly) := by
  unfold Chip.startClearing; (try dsimp only); (repeat' split)
  all_goals with_reducible repeat'
    first
    | assumption | apply Books.feedStage | apply Books.removePlaten | apply Books.placeFeed | apply Books.onFdc | split

theorem Books.enterClearing (h : Books Good x) : Books Good x.enterClearing := by
  unfold Chip.enterClearing; (try dsimp only); (repeat' split)
  all_goals with_reducible repeat'
    first
    | assumption | apply Books.startClearing | apply Books.unbindSheet | apply Books.onPlaten | apply Books.callArming | split

theorem Books.platenRollEnd (h : Books Good x) : Books Good x.platenRollEnd := by
  unfold Chip.platenRollEnd; (try dsimp only); (repeat' split)
  all_goals with_reducible repeat'
    first
    | assumption | apply Books.startClearing | apply Books.unbindSheet | apply Books.onPlaten | apply Books.callArming | split

theorem Books.clearingResult (h : Books Good x) (op : FeedOp) (r : FeedResult) : Books Good (x.clearingResult op r) := by
  unfold Chip.clearingResult; (try dsimp only); (repeat' split)
  all_goals with_reducible repeat'
    first
    | assumption | apply Books.removePlaten | apply Books.clearUncut | apply Books.haltBy | apply Books.placeFeed
    | apply Books.rollEnd | apply Books.onPlaten | apply Books.onFdc | split

theorem Books.loadStepDone (h : Books Good x) : Books Good x.loadStepDone := by
  unfold Chip.loadStepDone; (try dsimp only); (repeat' split)
  all_goals with_reducible repeat'
    first
    | assumption | apply Books.enterClearing | apply Books.runLoad | split

theorem Books.loadResult (h : Books Good x) (op : FeedOp) (r : FeedResult) : Books Good (x.loadResult op r) := by
  unfold Chip.loadResult; (try dsimp only); (repeat' split)
  all_goals with_reducible repeat'
    first
    | assumption | apply Books.feedStage | apply Books.loadStepDone | apply Books.platenRollEnd | apply Books.clearUncut | apply Books.haltBy
    | apply Books.placeFeed | apply Books.rollEnd | apply Books.onFdc | split

theorem Books.dryExpired (h : Books Good x) : Books Good x.dryExpired := by
  unfold Chip.dryExpired; (try dsimp only); (repeat' split)
  all_goals with_reducible repeat'
    first
    | assumption | apply Books.feedStage | apply Books.removePlaten | apply Books.placeFeed | apply Books.onPlaten | apply Books.onFdc | split

theorem Books.beginDrying (h : Books Good x) : Books Good x.beginDrying := by
  unfold Chip.beginDrying; (try dsimp only); (repeat' split)
  all_goals with_reducible repeat'
    first
    | assumption | apply Books.dryExpired | apply Books.onFdc | split

theorem Books.swathComplete (h : Books Good x) (before : Chip) (k : Nat) : Books Good (x.swathComplete before k) := by
  unfold Chip.swathComplete; (try dsimp only); (repeat' split)
  all_goals with_reducible repeat'
    first
    | assumption | apply Books.beginDrying | apply Books.enterClearing | apply Books.beginAdvance | apply Books.onPlaten
    | apply Books.onPlatenShown | apply Books.showChange | apply Books.callArming | split

theorem Books.advanceResult (h : Books Good x) (op : FeedOp) (r : FeedResult) : Books Good (x.advanceResult op r) := by
  unfold Chip.advanceResult; (try dsimp only); (repeat' split)
  all_goals with_reducible repeat'
    first
    | assumption | apply Books.beginDrying | apply Books.platenRollEnd | apply Books.startClearing | apply Books.positionFor
    | apply Books.haltBy | apply Books.rollEnd | split

theorem Books.cuttingResult (h : Books Good x) (op : FeedOp) (r : FeedResult) : Books Good (x.cuttingResult op r) := by
  unfold Chip.cuttingResult; (try dsimp only); (repeat' split)
  all_goals with_reducible repeat'
    first
    | assumption | apply Books.removePlaten | apply Books.clearUncut | apply Books.haltBy | apply Books.rollEnd | split

theorem Books.feedResult (h : Books Good x) (op : FeedOp) (r : FeedResult) : Books Good (x.feedResult op r) := by
  unfold Chip.feedResult; (try dsimp only); (repeat' split)
  all_goals with_reducible repeat'
    first
    | assumption | apply Books.cuttingResult | apply Books.advanceResult | apply Books.loadResult | apply Books.clearingResult
    | split

theorem Books.endFeedOrder (h : Books Good x) (o : FeedOrder) (r : FeedResult) (fed : Nat) : Books Good (x.endFeedOrder o r
    fed) := by
  unfold Chip.endFeedOrder; (try dsimp only); (repeat' split)
  all_goals with_reducible repeat'
    first
    | assumption | apply Books.feedResult | apply Books.rollEnd | apply Books.fedOnto | apply Books.onFlm | apply Books.onFdc
    | split

theorem Books.takeFeedFrame (h : Books Good x) (serial : Nat) (outcome : FrameOutcome) : Books Good (x.takeFeedFrame serial
    outcome) := by
  unfold Chip.takeFeedFrame; (try dsimp only); (repeat' split)
  all_goals with_reducible repeat'
    first
    | assumption | apply Books.endFeedOrder | apply Books.onFdc | split

theorem Books.takeFeedStatus (h : Books Good x) (serial : Nat) (outcome : FrameOutcome) : Books Good (x.takeFeedStatus serial
    outcome) := by
  unfold Chip.takeFeedStatus; (try dsimp only); (repeat' split)
  all_goals with_reducible repeat'
    first
    | assumption | apply Books.endFeedOrder | apply Books.rollEnd | apply Books.onFdc | split

theorem Books.jamCleared (h : Books Good x) : Books Good x.jamCleared := by
  unfold Chip.jamCleared; (try dsimp only); (repeat' split)
  all_goals with_reducible repeat'
    first
    | assumption | apply Books.feedStage | apply Books.removePlaten | apply Books.onFdc | split

theorem Books.takeFeedCheck (h : Books Good x) (serial : Nat) (outcome : FrameOutcome) : Books Good (x.takeFeedCheck serial
    outcome) := by
  unfold Chip.takeFeedCheck; (try dsimp only); (repeat' split)
  all_goals with_reducible repeat'
    first
    | assumption | apply Books.jamCleared | apply Books.clearFailed | apply Books.onFdc | split

theorem Books.spoil (h : Books Good x) (id : Nat) : Books Good (x.spoil id) := by
  unfold Chip.spoil; (try dsimp only); (repeat' split)
  all_goals with_reducible repeat'
    first
    | assumption | apply Books.enterClearing | apply Books.removeSheet | apply Books.onSheet | split

/-! ## The service controller -/

/-- A cycle that has ended has the claim no more (R106 to R109). -/
theorem Books.endCycle {p : Stand → Prop} (h : Books (fun s => p { s with active := false }) x) (outcome : StepOutcome)
    (recovery : Recovery) : Books p (x.endCycle outcome recovery) := by
  unfold Chip.endCycle
  split
  · exact ⟨h.stand, h.nozzles, h.requests⟩
  · refine Books.markStatus (p := p) ?_ _
    exact ⟨h.stand, h.nozzles, h.requests⟩

theorem Good.cycleEnds {s : Stand} (g : Good s ∧ s.active = true) : Good { s with active := false, claim := .free } := by
  have hc := g.1.swaths.service.mp g.2
  have hl := g.1.swaths.live
  have hh := g.1.swaths.hold
  rw [hc] at hl hh
  refine ⟨g.1.reads, g.1.swaths.buffers, g.1.swaths.bound, g.1.swaths.ids, g.1.swaths.fresh, g.1.swaths.none, hl, ?_, by simp,
    g.1.swaths.notes⟩
  simpa using hh

theorem Good.inactive {s : Stand} (g : Good s) (ha : s.active = false) : Good { s with active := false } := by
  cases s; simp only at ha; subst ha; exact g

/-- The end of a cycle that has the claim, which is released (R23, R106 to R108). -/
theorem Books.endsClaim (h : Books (fun s => Good s ∧ s.active = true) x) (outcome : StepOutcome) (recovery : Recovery) :
    Books Good ((x.endCycle outcome recovery).freeClaim) :=
  Books.callArming (Books.claimFree (Books.endCycle (h.imp Good.cycleEnds) _ _))

theorem Books.cycleSucceeds (h : Books (fun s => Good s ∧ s.active = true) x) : Books Good x.cycleSucceeds := by
  unfold Chip.cycleSucceeds
  split
  · exact (h.resetCounters _).endsClaim _ _
  · exact (h.endsClaim _ _).wakeEnded
  · exact h.imp fun g => g.1

theorem Books.runSteps (l : List ServiceStep) (h : Books (fun s => Good s ∧ s.active = true) x) : Books Good (x.runSteps l) := by
  induction l generalizing x with
  | nil => exact h.cycleSucceeds
  | cons st l ih =>
    have g := ((h.onCycle (fun c => { c with stepReached := c.stepReached + 1 }) rfl).openStep st (x.stepMask st)).showChange x
      11
    simp only [Chip.runSteps]
    split
    · exact ih g.closeStep
    · exact (g.actStep st).imp fun g => g.1

theorem Books.recover (h : Books (fun s => Good s ∧ s.active = true) x) (outcome : StepOutcome) :
    Books Good (x.recover outcome) := by
  have g := h.onCycle (fun c => { c with state := .recovering, failure := some outcome }) h.stand.2.symm
  exact ((g.openStep _ _).actStep _).imp fun g => g.1

theorem Books.recovered (h : Books (fun s => Good s ∧ s.active = true) x) (outcome : StepOutcome) :
    Books Good (x.recovered outcome) := (h.setLocation _).endsClaim _ _

theorem Books.runningFailed (h : Books (fun s => Good s ∧ s.active = true) x) (outcome : StepOutcome) :
    Books Good (x.runningFailed outcome) := by
  unfold Chip.runningFailed
  split
  · exact ((h.setLocation _).endsClaim _ _).wakeEnded
  · exact h.recover _
  · exact h.imp fun g => g.1

theorem Books.endStep (h : Books Good x) (outcome : StepOutcome) : Books Good (x.endStep outcome) := by
  have act : ∀ b, x.svc.cycle.state.hasClaim = b → Books (fun s => Good s ∧ s.active = b) x.closeStep := fun b e =>
    Books.closeStep (h.imp fun g => ⟨g, e⟩)
  unfold Chip.endStep
  dsimp only
  split
  · rename_i e
    have g := act true (by rw [e]; rfl)
    split
    · exact (g.setLocation _).runSteps _
    · exact g.runningFailed _
  · rename_i e
    exact (act true (by rw [e]; rfl)).recovered _
  · rename_i e
    exact ((act false (by rw [e]; rfl)).imp fun g => g.1.inactive g.2).endCycle _ _
  · exact h.closeStep
  · exact h.closeStep

theorem Books.beginPolling (h : Books Good x) : Books Good x.beginPolling := by
  unfold Chip.beginPolling; (try dsimp only); (repeat' split)
  all_goals with_reducible repeat'
    first
    | assumption | apply Books.endStep | apply Books.onCycle | split | rfl

theorem Books.takeStation (h : Books Good x) (step : Nat) (outcome : FrameOutcome) : Books Good (x.takeStation step outcome)
    := by
  unfold Chip.takeStation; (try dsimp only); (repeat' split)
  all_goals with_reducible repeat'
    first
    | assumption | apply Books.beginPolling | apply Books.endStep | split

theorem Books.stationDone (h : Books Good x) : Books Good x.stationDone := by
  unfold Chip.stationDone; (try dsimp only); (repeat' split)
  all_goals with_reducible repeat'
    first
    | assumption | apply Books.endStep | apply Books.consumeCheck | apply Books.consumePrime | apply Books.fireAll
    | apply Books.fireMask | apply Books.release | apply Books.offer | apply Books.onCycle | split | rfl

theorem Books.endIfAbandoning (h : Books Good x) : Books Good x.endIfAbandoning := by
  unfold Chip.endIfAbandoning; (try dsimp only); (repeat' split)
  all_goals with_reducible repeat'
    first
    | assumption | apply Books.endStep | split

theorem Books.takeStationStatus (h : Books Good x) (step : Nat) (outcome : FrameOutcome) : Books Good (x.takeStationStatus
    step outcome) := by
  unfold Chip.takeStationStatus; (try dsimp only); (repeat' split)
  all_goals with_reducible repeat'
    first
    | assumption | apply Books.endIfAbandoning | apply Books.stationDone | apply Books.endStep | split

theorem Books.takePage (h : Books Good x) (page : Nat) (more : Bool) (entries : List (Nat × Nat)) : Books Good (x.takePage
    page more entries) := by
  unfold Chip.takePage; (try dsimp only); (repeat' split)
  all_goals with_reducible repeat'
    first
    | assumption | apply Books.endStep | apply Books.takeReport | apply Books.offer | apply Books.onCycle | split | rfl

theorem Books.takeCheckPage (h : Books Good x) (page step : Nat) (outcome : FrameOutcome) : Books Good (x.takeCheckPage page
    step outcome) := by
  unfold Chip.takeCheckPage; (try dsimp only); (repeat' split)
  all_goals with_reducible repeat'
    first
    | assumption | apply Books.takePage | apply Books.endStep | split

theorem takeFirst_sublist {α : Type} (p : α → Bool) (l : List α) (a : α) (rest : List α)
    (h : takeFirst p l = some (a, rest)) : rest.Sublist l := by
  induction l generalizing a rest with
  | nil => simp [takeFirst] at h
  | cons b l ih =>
    simp only [takeFirst] at h
    split at h
    · simp only [Option.some.injEq, Prod.mk.injEq] at h
      rw [← h.2]; exact List.sublist_cons_self _ _
    · split at h
      · rename_i c rest' e
        simp only [Option.some.injEq, Prod.mk.injEq] at h
        rw [← h.2]; exact (ih _ _ e).cons_cons _
      · exact absurd h (by simp)

theorem Good.granted {s : Stand} (g : Good s ∧ s.claim = .free) :
    Good { s with claim := .service, active := true } ∧ true = true := by
  have hl := g.1.swaths.live
  have hh := g.1.swaths.hold
  rw [g.2] at hl hh
  refine ⟨⟨g.1.reads, g.1.swaths.buffers, g.1.swaths.bound, g.1.swaths.ids, g.1.swaths.fresh, g.1.swaths.none, hl, ?_, by simp,
    g.1.swaths.notes⟩, rfl⟩
  simpa using hh

theorem Books.grantCycle (h : Books (fun s => Good s ∧ s.claim = .free) x) : Books Good x.grantCycle := by
  unfold Chip.grantCycle
  split
  · exact h.imp fun g => g.1
  · rename_i e rest hr
    refine Books.runSteps _ (Books.callArming (Books.markStatus ?_ _))
    exact ⟨Good.granted h.stand, h.nozzles, h.requests.sublist ((takeFirst_sublist _ _ _ _ hr).map _)⟩

theorem Books.startWake (h : Books (fun s => Good s ∧ s.claim = .free) x) : Books Good x.startWake := by
  unfold Chip.startWake
  exact Books.runSteps _ ⟨Good.granted h.stand, h.nozzles, h.requests⟩

theorem Books.takeWakeAsk (h : Books (fun s => Good s ∧ s.claim = .free) x) (id : Nat) : Books Good (x.takeWakeAsk id) := by
  have g := h.imp fun g => g.1
  unfold Chip.takeWakeAsk
  split
  · exact g.clearWakeAsk
  · split
    · exact h.startWake
    · exact g.clearWakeAsk.wakeEnded

theorem Books.serviceNext (h : Books Good x) {y : Chip} (e : x.serviceNext = some y) : Books Good y := by
  have free : x.sgt.claim = .free → Books (fun s => Good s ∧ s.claim = .free) x := fun c => h.imp fun g => ⟨g, c⟩
  have idle : ∀ f : Cycle → Cycle, x.svc.cycle.state.hasClaim = false → (f x.svc.cycle).state.hasClaim = false →
      Books Good (x.onCycle f) := fun f h1 h2 => h.onCycle f (h2.trans h1.symm)
  unfold Chip.serviceNext at e
  dsimp only at e
  split at e
  · rename_i st
    split at e
    · split at e
      · rename_i c
        rw [← Option.some.inj e]
        exact (free (by simpa using c)).grantCycle
      · rw [← Option.some.inj e]
        exact idle _ (by rw [st]; rfl) rfl
    · split at e
      · rename_i c
        obtain ⟨id, _, rfl⟩ := Option.map_eq_some_iff.mp e
        exact (free (by simpa using c)).takeWakeAsk id
      · exact absurd e (by simp)
  · rename_i st
    split at e
    · rw [← Option.some.inj e]
      exact idle _ (by rw [st]; rfl) rfl
    · split at e
      · rename_i c
        rw [← Option.some.inj e]
        exact (free (by simpa using c)).grantCycle
      · exact absurd e (by simp)
  · exact absurd e (by simp)
  · exact absurd e (by simp)
  · exact absurd e (by simp)

theorem Books.serviceLoop (h : Books Good x) (n : Nat) : Books Good (x.serviceLoop n) := by
  induction n generalizing x with
  | zero => exact h
  | succ n ih =>
    simp only [Chip.serviceLoop]
    split
    · rename_i y e; exact ih ((h.serviceNext e).refreshStatus _)
    · exact h

/-- The cycle in progress is abandoned after its claim has been taken from it (R109). -/
theorem Books.abandonCycle (h : Books (fun s => Good { s with active := false }) x) : Books Good x.abandonCycle := by
  unfold Chip.abandonCycle
  split
  · rename_i e
    have ha : x.stand.active = false := by show x.svc.cycle.state.hasClaim = false; rw [e]; rfl
    refine h.imp fun g => ?_
    rw [← ha] at g
    exact g
  · exact ⟨h.stand, h.nozzles, h.requests⟩
  · have h1 := h.setLocation .stranded
    generalize x.setLocation .stranded = y at h1
    have h2 : Books Good ((y.onCycle fun c => { c with state := .abandoning }).showChange x 11) :=
      Books.showChange (x := y.onCycle fun c => { c with state := .abandoning }) ⟨h1.stand, h1.nozzles, h1.requests⟩ _ _
    dsimp only
    split
    · exact h2
    · exact h2.endStep _

theorem Books.restartService (h : Books (fun s => Good { s with active := false }) x) : Books Good x.restartService := by
  refine Books.abandonCycle (Books.firingEnded (Books.showChange ?_ _ _))
  exact ⟨h.stand, h.nozzles, List.nodup_nil⟩

/-! ## The tests of an event -/

theorem Books.settle (h : Books Good x) : Books Good x.settle := by
  have h1 := h.dropStaleHolds.serviceLoop serviceActs
  unfold Chip.settle
  dsimp only
  generalize Chip.serviceLoop serviceActs x.dropStaleHolds = y at h1
  refine Books.withDue (Books.updateIdle (Books.serviceLoop ?_ _)) _
  have h2 : Books Good (if y.due.prime then y.retryPrime.refreshStatus y else y) := by
    split
    · exact h1.retryPrime.refreshStatus _
    · exact h1
  generalize (if y.due.prime then y.retryPrime.refreshStatus y else y) = z at h2
  have h3 : Books Good (if z.due.admission then z.admissionTest.refreshStatus z else z) := by
    split
    · exact h2.admissionTest.refreshStatus _
    · exact h2
  generalize (if z.due.admission then z.admissionTest.refreshStatus z else z) = w at h3
  split
  · exact (h3.dropStaleHolds.armingTest w.dropStaleHolds_next).refreshStatus _
  · exact h3

/-! ## The commands -/

/-- A CONFIGURE is accepted while no swath is bound (R164). -/
theorem Books.applyConfigure (h : Books Good x) (a : ConfigureArgs) (ht : x.sgt.swaths = []) :
    Books Good (x.applyConfigure a) := by
  have g : ∀ y : Chip, y.nmn = x.nmn → y.svc.requests = x.svc.requests →
      y.stand = { x.stand with psw := { x.stand.psw with swath := y.psw.swath },
                               bounds := List.replicate a.bufferCount.toNat false } → Books Good y := by
    intro y e1 e2 e3
    refine ⟨?_, e1 ▸ h.nozzles, e2 ▸ h.requests⟩
    rw [e3]
    have r := h.stand.reads
    have s := h.stand.swaths
    have tn : x.stand.table = [] := by show x.sgt.swaths.map Swath.core = []; rw [ht]; rfl
    refine ⟨⟨r.cCredits, r.hCredits, r.once, r.held, r.queued, r.issued⟩, s.buffers, fun b => ?_, s.ids, s.fresh, s.none, s.live,
      s.hold, s.service, s.notes⟩
    simp [tn, List.getElem?_replicate]
  have run : ∀ y : Chip, Books Good y → Books Good ((y.onCmi fun c => { c with partState := .running }).startPolls) := by
    intro y hy
    refine Books.startPolls ?_
    have s := hy.stand.swaths
    exact ⟨⟨hy.stand.reads, s.buffers, s.bound, s.ids, s.fresh, fun e => absurd e (by simp [Chip.stand, Chip.onCmi]), s.live, s.hold,
      s.service, s.notes⟩, hy.nozzles, hy.requests⟩
  have g1 := g (((x.onPsw fun p =>
      { p with swath := some (SwathWindow.mk a.base.toNat a.bufferCount.toNat a.capacity.toNat) }).onSgt fun g =>
      { g with buffers := List.replicate a.bufferCount.toNat Buffer.cleared, spitColumns := a.spitColumns.toNat,
               holdLimit := a.holdLimit.toNat }).onSvc fun v => { v with budget := a.budget.toNat }) rfl rfl (by
    simp only [Chip.stand, Chip.onPsw, Chip.onSgt, Chip.onSvc, List.map_replicate]
    rfl)
  have g2 := g1.onRpw fun w => w.withCapacity a.journalCapacity.toNat
  unfold Chip.applyConfigure
  dsimp only
  refine Books.markStatus (Books.markStatus ?_ _) _
  split
  · split
    · exact g2.journalOverflow
    · exact g2
  · apply run
    split
    · exact g2.journalOverflow
    · exact g2

theorem firstRow_none {rows : List (Bool × Answer)} (h : firstRow rows = none) : ∀ r ∈ rows, r.1 = false := by
  induction rows with
  | nil => exact fun r hr => absurd hr (by simp)
  | cons a rows ih =>
    obtain ⟨b, c⟩ := a
    simp only [firstRow] at h
    split at h
    · exact absurd h (by simp)
    · rename_i e
      intro r hr
      rcases List.mem_cons.mp hr with rfl | hr
      · simpa using e
      · exact ih h r hr

theorem Books.doConfigure (h : Books Good x) (a : ConfigureArgs) : Books Good (x.doConfigure a).1 := by
  unfold Chip.doConfigure
  split
  · exact h
  · rename_i e
    refine h.applyConfigure a ?_
    have := firstRow_none e (x.isRunning && !x.sgt.swaths.isEmpty, .state 2) (by simp [Chip.configureChecks])
    cases hp : x.cmi.partState with
    | unconfigured => exact List.map_eq_nil_iff.mp (h.stand.swaths.none hp)
    | running => simpa [Chip.isRunning, hp] using this

theorem Good.cleared {s : Stand} (g : Good s) (bs : List Buffer) {hv : Bool} (hh : hv = false) :
    Good { s with table := [], bounds := (bs.map fun _ => Buffer.cleared).map Buffer.bound, claim := .free, held := hv,
                  active := false } := by
  subst hh
  refine ⟨g.reads, List.nodup_nil, fun b => ⟨fun h => absurd h List.not_mem_nil, fun h => ?_⟩, List.nodup_nil,
    fun e he => absurd he (by simp), fun _ => rfl, rfl, by simp, by simp,
    fun n hn => ⟨(g.swaths.notes n hn).1, fun e he => absurd he (by simp)⟩⟩
  obtain ⟨c, hc, e⟩ := List.mem_map.mp (List.mem_of_getElem? h)
  obtain ⟨_, _, rfl⟩ := List.mem_map.mp hc
  exact absurd e (by decide)

/-- The gate's part of RESTART: no swath is left, and the claim is FREE, whatever cycle had it (R17, R40). -/
theorem Books.restartGate (h : Books Good x) : Books (fun s => Good { s with active := false }) x.restartGate := by
  have hl : x.liveSwath.isSome = false → x.nmn.held = false := by
    intro e
    have hn : (x.stand.table.filter fun e => e.2.2) = [] := by
      rw [List.filter_eq_nil_iff]
      intro c hc
      obtain ⟨a, ha, rfl⟩ := List.mem_map.mp hc
      rw [Chip.liveSwath, Option.isSome_eq_false_iff, Option.isNone_iff_eq_none, List.find?_eq_none] at e
      exact e a ha
    have h1 := h.stand.swaths.live
    rw [hn] at h1
    have h2 : x.sgt.claim ≠ .swath := fun g => by
      have : x.stand.claim = .swath := g
      rw [this] at h1; simp at h1
    exact Bool.eq_false_iff.mpr fun g => h2 (h.stand.swaths.hold.mp g)
  have hd := (h.dropHeld fun _ => true)
  have held : (x.dropHeld fun _ => true).nmn = x.nmn := by
    have fold : ∀ (l : List HeldRead) (y : Chip), (l.foldl (fun y r => y.withhold r.id) y).nmn = y.nmn := by
      intro l
      induction l with
      | nil => exact fun y => rfl
      | cons r l ih => exact fun y => ih (y.withhold r.id)
    exact fold _ _
  unfold Chip.restartGate
  dsimp only
  cases e : x.liveSwath.isSome
  · have h1 := (hd.imp (q := fun s => Good s ∧ s.held = false) fun g => ⟨g, by rw [← hl e, ← held]; rfl⟩).showChange x 10
    generalize (x.dropHeld fun _ => true).showChange x 10 = y at h1
    have h2 : Books (fun s => Good { s with active := false }) (y.onSgt fun g =>
        { g with swaths := [], buffers := g.buffers.map fun _ => Buffer.cleared, claim := .free, wakeAskedFor := none }) := by
      exact ⟨h1.stand.1.cleared y.sgt.buffers h1.stand.2, h1.nozzles, h1.requests⟩
    simp only [Bool.false_eq_true, if_false]
    refine Books.refreshStatus ?_ _
    split
    · exact h2.markStatus _
    · exact h2
  · have h1 := (hd.showChange x 10).release .swath
    generalize ((x.dropHeld fun _ => true).showChange x 10).release .swath = y at h1
    have h2 : Books (fun s => Good { s with held := false, active := false }) (y.onSgt fun g =>
        { g with swaths := [], buffers := g.buffers.map fun _ => Buffer.cleared, claim := .free, wakeAskedFor := none }) :=
      ⟨h1.stand.cleared y.sgt.buffers rfl, h1.nozzles, h1.requests⟩
    simp only [if_true]
    refine Books.swathGone (p := fun s => Good { s with active := false }) (Books.refreshStatus ?_ _)
    split
    · exact h2.markStatus _
    · exact h2

theorem Books.restart (h : Books Good x) : Books Good x.restart := ((h.restartGate.restartService).restartFeed).onFlm _

theorem Good.bound {s : Stand} (g : Good s) (hp : s.partState = .running) {b : Nat} (hb : s.bounds[b]? = some false) :
    Good { s with table := s.table ++ [(s.nextSwathId, b, false)], bounds := s.bounds.set b true,
                  nextSwathId := s.nextSwathId + 1 } := by
  have w := g.swaths
  have nb : b ∉ s.table.map fun e => e.2.1 := fun hm => by
    rw [(w.bound b).mp hm] at hb
    exact absurd hb (by simp)
  refine ⟨g.reads, ?_, fun c => ?_, ?_, fun e he => ?_, fun e => ?_, ?_, w.hold, w.service,
    fun n hn => ⟨Nat.lt_succ_of_lt (w.notes n hn).1, fun e he k => ?_⟩⟩
  · rw [List.map_append, List.nodup_append]
    refine ⟨w.buffers, by simp, fun c hc d hd e => ?_⟩
    simp only [List.map_cons, List.map_nil, List.mem_singleton] at hd
    exact nb (hd ▸ e ▸ hc)
  · rw [List.map_append, List.mem_append, w.bound c]
    simp only [List.map_cons, List.map_nil, List.mem_singleton, List.getElem?_set]
    have hlt := (List.getElem?_eq_some_iff.mp hb).1
    by_cases e : b = c
    · subst e; simp [hlt]
    · simp only [e, if_false, or_iff_left_iff_imp]
      exact fun k => absurd k.symm e
  · rw [List.map_append, List.nodup_append]
    refine ⟨w.ids, by simp, fun c hc d hd e => ?_⟩
    simp only [List.map_cons, List.map_nil, List.mem_singleton] at hd
    obtain ⟨a, ha, rfl⟩ := List.mem_map.mp hc
    exact absurd (w.fresh a ha) (by rw [e, hd]; exact Nat.lt_irrefl _)
  · rcases List.mem_append.mp he with he | he
    · exact Nat.lt_succ_of_lt (w.fresh e he)
    · rw [List.mem_singleton.mp he]; exact Nat.lt_succ_self _
  · rw [hp] at e; exact absurd e (by simp)
  · rw [List.filter_append, List.length_append, w.live]; rfl
  · rcases List.mem_append.mp he with he | he
    · exact (w.notes n hn).2 e he k
    · rw [List.mem_singleton.mp he] at k
      exact absurd (w.notes n hn).1 (by rw [← k]; exact Nat.lt_irrefl _)

/-- A FREE buffer is bound (R12). -/
theorem Books.bind (h : Books Good x) (hp : x.isRunning = true) (a : SwathReadyArgs) (b : Buffer)
    (hb : x.sgt.buffers[a.buffer.toNat]? = some b) (hf : b.bound = false) : Books Good (x.bind a b) := by
  have g : Books Good (x.onSgt fun g =>
      { g with buffers := g.buffers.set a.buffer.toNat { b with bound := true },
               swaths := g.swaths ++ [a.record g.nextSwathId b.tally], nextSwathId := g.nextSwathId + 1 }) := by
    refine ⟨?_, h.nozzles, h.requests⟩
    have hs : x.stand.bounds[a.buffer.toNat]? = some false := by
      show (x.sgt.buffers.map Buffer.bound)[a.buffer.toNat]? = _
      rw [List.getElem?_map, hb, ← hf]; rfl
    have w := h.stand.bound (show x.cmi.partState = .running by simpa [Chip.isRunning] using hp) hs
    have e : (x.onSgt fun g =>
        { g with buffers := g.buffers.set a.buffer.toNat { b with bound := true },
                 swaths := g.swaths ++ [a.record g.nextSwathId b.tally], nextSwathId := g.nextSwathId + 1 }).stand =
        { x.stand with table := x.stand.table ++ [(x.stand.nextSwathId, a.buffer.toNat, false)],
                       bounds := x.stand.bounds.set a.buffer.toNat true, nextSwathId := x.stand.nextSwathId + 1 } := by
      simp only [Chip.stand, Chip.onSgt, List.map_append, List.map_set]
      rfl
    exact e ▸ w
  unfold Chip.bind
  dsimp only
  split
  · exact ((g.markStatus _).markStatus _).callArming
  · exact (g.markStatus _).markStatus _

theorem Books.doSwathReady (h : Books Good x) (hp : x.isRunning = true) (a : SwathReadyArgs) :
    Books Good (x.doSwathReady a).1 := by
  unfold Chip.doSwathReady
  split
  · exact h
  · rename_i b hb
    split
    · exact h
    · rename_i hf
      split
      · exact h
      · split
        · exact h
        · exact h.bind hp a b hb (by simpa using hf)

theorem Books.cancelPrinting (h : Books Good x) (j : Sheet) : Books Good (x.cancelPrinting j).1 := by
  unfold Chip.cancelPrinting
  split
  · refine Books.callArming (Books.unbindSome (h.onSheet _ _) _ ?_)
    exact List.filter_sublist.trans List.filter_sublist
  · exact h.enterClearing

theorem Books.doCancelSheet (h : Books Good x) (id : Nat) : Books Good (x.doCancelSheet id).1 := by
  unfold Chip.doCancelSheet; (try dsimp only); (repeat' split)
  all_goals with_reducible repeat'
    first
    | assumption | apply Books.cancelPrinting | apply Books.removeSheet | apply Books.unbindSheet | apply Books.onSheet
    | apply Books.callArming | split

theorem Books.doSetNozzle (h : Books Good x) (a : SetNozzleArgs) : Books Good (x.doSetNozzle a).1 := by
  unfold Chip.doSetNozzle
  split
  · dsimp only
    split
    · exact h
    · rename_i e
      have rows := firstRow_none e
      split
      · rename_i hh
        refine Books.markStatus (h.nmn _ rfl ⟨h.nozzles.places, h.nozzles.order, ?_⟩) _
        have := rows _ (List.mem_cons_of_mem _ (List.mem_cons_of_mem _ List.mem_cons_self))
        simp only [hh, Bool.true_and, decide_eq_false_iff_not] at this
        show (x.nmn.pending ++ [_]).length ≤ _
        rw [List.length_append, List.length_singleton]
        omega
      · rename_i hh
        refine h.applyNozzle _ fun ho hn => ?_
        have := rows _ (List.mem_cons_of_mem _ (List.mem_cons_of_mem _ (List.mem_cons_of_mem _ List.mem_cons_self)))
        dsimp only at ho hn
        rw [ho, hn] at this
        simpa [hh] using this
  · exact h

theorem Books.whenRunning (h : Books Good x) (f : Chip → Chip × Answer) (hf : x.isRunning = true → Books Good (f x).1) :
    Books Good (x.whenRunning f).1 := by
  unfold Chip.whenRunning
  split
  · rename_i e; exact hf e
  · exact h

theorem Books.carryOut (h : Books Good x) (c : RingCommand) : Books Good (x.carryOut c).1 := by
  cases c with
  | nop => exact h
  | unknown k => exact h
  | configure a => exact h.doConfigure a
  | restart => exact h.restart
  | setChannel a => exact h.whenRunning _ fun _ => h.doSetChannel a
  | setRoll a => exact h.whenRunning _ fun _ => h.doSetRoll a
  | queueSheet a => exact h.whenRunning _ fun _ => h.doQueueSheet a
  | swathReady a => exact h.whenRunning _ fun e => h.doSwathReady e a
  | cancelSheet id => exact h.whenRunning _ fun _ => h.doCancelSheet _
  | clearJam => exact h.whenRunning _ fun _ => h.doClearJam
  | setNozzle a => exact h.whenRunning _ fun _ => h.doSetNozzle a
  | loadProgram a => exact h.whenRunning _ fun _ => h.doLoadProgram a
  | runProgram q => exact h.whenRunning _ fun _ => h.doRunProgram _

/-! ## The intake -/

theorem Books.takeSlot (h : Books Good x) : Books Good x.takeSlot := by
  unfold Chip.takeSlot
  dsimp only
  refine Books.reply (Books.settle (Books.refreshStatus (Books.carryOut ?_ _) _)) _ _ _
  exact (h.onRpw _).onCmi _ rfl

theorem Books.takeLoop (h : Books Good x) (n : Nat) : Books Good (x.takeLoop n) := by
  induction n generalizing x with
  | zero => exact h
  | succ n ih =>
    simp only [Chip.takeLoop]
    split
    · exact ih h.takeSlot
    · exact h

theorem Books.takeSlots (h : Books Good x) : Books Good x.takeSlots := by
  unfold Chip.takeSlots; (try dsimp only); (repeat' split)
  all_goals with_reducible repeat'
    first
    | assumption | apply Books.takeLoop | split

theorem Intake.handOver_partState (c : Intake) (offset len : Nat) (bytes : List (Nat × Byte)) :
    (c.handOver offset len bytes).partState = c.partState := by
  have fold : ∀ (l : List (Fin 16)) (d : Intake), (l.foldl Intake.postSlot d).partState = d.partState := by
    intro l
    induction l with
    | nil => exact fun d => rfl
    | cons a l ih => exact fun d => ih (d.postSlot a)
  exact fold _ _

theorem Books.seen (h : Books Good x) (w : WriteRequest) : Books Good (x.seen w) := by
  unfold Chip.seen
  split
  · dsimp only
    split
    · exact Books.takeSlots (h.onCmi _ (Intake.handOver_partState _ _ _ _))
    · split
      · exact h.readIndexWritten _
      · exact h
  · exact h.swathWritten w
  · exact h

theorem Books.cPortWrite (h : Books Good x) (w : WriteRequest) : Books Good (x.cPortWrite w) := by
  unfold Chip.cPortWrite
  split
  · exact h
  · rename_i hc
    split
    · exact h.malformedRecord _ _ _ _ _
    · refine Books.seen (h.switch _ fun r => { r with cCredits := ?_ }) w
      have := r.cCredits
      simp only [List.filter_append, List.length_append, List.filter_cons, Forward.isWrite, List.filter_nil, if_true,
        List.length_singleton]
      omega

/-! ## The ports -/

theorem Reads.enterC {p : PortSwitch} {q : List HeldRead} (h : Reads p q) (hc : p.cCredits ≠ 0) (r : ReadRequest) (ph : ReadPhase) :
    Reads (p.enterRead .cPort r ph) q := by
  refine { h with cCredits := ?_, held := fun a ha => ?_, queued := ?_, issued := ?_ }
  · have := h.cCredits
    simp only [PortSwitch.enterRead, List.length_append, List.length_singleton]
    omega
  · obtain ⟨h1, h2⟩ := h.held a ha
    exact ⟨Nat.lt_succ_of_lt h1, h2⟩
  · exact fun i a l hi => Nat.lt_succ_of_lt (h.queued i a l hi)
  · exact fun o ho hp => Nat.lt_succ_of_lt (h.issued o ho hp)

/-- A read enters the H-port's in-flight list already answered (R152, R153). -/
theorem Reads.enterAnswered {p : PortSwitch} {q : List HeldRead} (h : Reads p q) (hc : p.hCredits ≠ 0) (r : ReadRequest)
    (ph : ReadPhase) : Reads (p.enterRead .hPort r ph) q := by
  refine { h with hCredits := ?_, held := fun a ha => ?_, queued := ?_, issued := ?_ }
  · have := h.hCredits
    simp only [PortSwitch.enterRead, List.length_append, List.length_singleton]
    omega
  · obtain ⟨h1, ⟨e, he, hi, hp⟩, h3⟩ := h.held a ha
    exact ⟨Nat.lt_succ_of_lt h1, ⟨e, List.mem_append_left _ he, hi, hp⟩, h3⟩
  · exact fun i a l hi => Nat.lt_succ_of_lt (h.queued i a l hi)
  · exact fun o ho hp => Nat.lt_succ_of_lt (h.issued o ho hp)

theorem Books.cPortRead (h : Books Good x) (r : ReadRequest) : Books Good (x.cPortRead r) := by
  unfold Chip.cPortRead
  split
  · exact h
  · rename_i hc
    split
    · exact (h.switch _ fun g => g.enterC hc r _).malformedRecord _ _ _ _ _
    · refine h.switch _ fun g => ?_
      have e := g.enterC hc r .waiting
      refine { e with cCredits := ?_ }
      have := e.cCredits
      simpa [PortSwitch.enterRead, List.filter_append, Forward.isWrite] using this

theorem Books.hPortRead (h : Books Good x) (r : ReadRequest) : Books Good (x.hPortRead r) := by
  unfold Chip.hPortRead
  split
  · exact h
  · rename_i hc
    split
    · exact (h.switch _ fun g => g.enterAnswered hc r _).malformedRecord _ _ _ _ _
    · have h1 : ∀ n, Books (Stand.goodAs ({ id := x.psw.nextRead, tag := r.tag, addr := r.addr, len := r.len, swath := n } ::
          x.sgt.holdQueue) none) (x.onPsw fun p => p.enterRead .hPort r .waiting) := fun n =>
        (Books.onPsw (p := fun _ => True) (h.asHeld.imp fun g => ⟨g, trivial⟩) _ fun g => g.enterH hc r n).imp fun g => g.1
      dsimp only
      split
      · exact Books.presentRead (r := { id := x.psw.nextRead, tag := r.tag, addr := r.addr, len := r.len, swath := 0 }) h1
          ⟨rfl, rfl, rfl⟩
      · have g := Books.onPsw (p := fun _ => True) ((h1 0).imp fun g => ⟨g, trivial⟩)
          (fun p => { p with hQueue := p.hQueue ++ [.read x.psw.nextRead r.addr r.len] }) fun g => g.queue r.addr r.len
        exact (g.imp fun g => g.1).ofHeld rfl

theorem Books.hPortWrite (h : Books Good x) (w : WriteRequest) : Books Good (x.hPortWrite w) := by
  unfold Chip.hPortWrite
  split
  · exact h
  · rename_i hc
    split
    · exact h.malformedRecord _ _ _ _ _
    · refine h.switch _ fun r => { r with hCredits := ?_, held := fun a ha => ?_, queued := fun i a l hi => ?_ }
      · have := r.hCredits
        simp only [List.filter_append, List.length_append, List.filter_cons, Forward.isWrite, List.filter_nil, if_true,
          List.length_singleton]
        omega
      · obtain ⟨h1, h2, h3, h4⟩ := r.held a ha
        exact ⟨h1, h2, fun b l g => by simpa using (h3 b l) (by simpa using g), h4⟩
      · exact r.queued i a l (by simpa using hi)

/-- A read of the head of a forward queue is issued; it is none of those held (R155, R156). -/
theorem Reads.issue {p : PortSwitch} {q : List HeldRead} (h : Reads p q) (o : Outstanding)
    (ho : o.port = .hPort → o.id < p.nextRead ∧ ∀ a ∈ q, a.id ≠ o.id) :
    Reads { p with outstanding := p.outstanding ++ [o] } q := by
  refine { h with held := fun a ha => ?_, issued := fun b hb hp => ?_ }
  · obtain ⟨h1, h2, h3, h4⟩ := h.held a ha
    refine ⟨h1, h2, h3, fun g => ?_⟩
    rcases List.mem_append.mp g with g | g
    · exact h4 g
    · have e := List.mem_singleton.mp g
      rw [← e] at ho
      exact (ho rfl).2 a ha rfl
  · rcases List.mem_append.mp hb with hb | hb
    · exact h.issued b hb hp
    · rw [List.mem_singleton.mp hb] at hp ⊢
      exact (ho hp).1

theorem Books.issueRead (h : Books Good x) (port : Port) (id : Nat) (addr : Addr) (len : Nat)
    (hi : port = .hPort → id < x.psw.nextRead ∧ ∀ a ∈ x.sgt.holdQueue, a.id ≠ id) : Books Good (x.issueRead port id addr len) := by
  unfold Chip.issueRead
  refine Books.emit ?_ _
  have g := h.switch (fun p => { p with outstanding := p.outstanding ++ [{ port := port, id := id }] })
    fun r => r.issue { port := port, id := id } hi
  exact (g.asHeld.setReadPhase port id _ fun e => (hi e).2).ofHeld (by cases port <;> rfl)

theorem Books.grantController (h : Books Good x) : Books Good x.grantController := by
  unfold Chip.grantController
  split
  · exact h
  · rename_i w rest e
    refine Books.emit (h.switch _ fun r => { r with cCredits := ?_ }) _
    have := r.cCredits
    rw [e] at this
    simp only [List.filter_cons, Forward.isWrite, if_true, List.length_cons] at this
    dsimp only
    omega
  · rename_i id addr len rest e
    refine Books.issueRead (h.switch _ fun r => { r with cCredits := ?_ }) _ _ _ _ fun g => absurd g (by simp)
    have := r.cCredits
    rw [e] at this
    simpa [Forward.isWrite] using this

theorem Books.grantHead (h : Books Good x) : Books Good x.grantHead := by
  unfold Chip.grantHead
  split
  · exact h
  · rename_i w rest e
    refine Books.emit (h.switch _ fun r => { r with hCredits := ?_, held := fun a ha => ?_, queued := fun i a l hi => ?_ }) _
    · have := r.hCredits
      rw [e] at this
      simp only [List.filter_cons, Forward.isWrite, if_true, List.length_cons] at this
      dsimp only
      omega
    · obtain ⟨h1, h2, h3, h4⟩ := r.held a ha
      exact ⟨h1, h2, fun b l g => h3 b l (e ▸ List.mem_cons_of_mem _ g), h4⟩
    · exact r.queued i a l (e ▸ List.mem_cons_of_mem _ hi)
  · rename_i id addr len rest e
    have hm : Forward.read id addr len ∈ x.psw.hQueue := e ▸ List.mem_cons_self
    have r0 := h.stand.reads
    refine Books.issueRead (h.switch _ fun r => { r with hCredits := ?_, held := fun a ha => ?_, queued := fun i a l hi => ?_ })
      _ _ _ _ fun _ => ⟨r0.queued id addr len hm, fun a ha g => (r0.held a ha).2.2.1 addr len (g ▸ hm)⟩
    · have := r.hCredits
      rw [e] at this
      simpa [Forward.isWrite] using this
    · obtain ⟨h1, h2, h3, h4⟩ := r.held a ha
      exact ⟨h1, h2, fun b l g => h3 b l (e ▸ List.mem_cons_of_mem _ g), h4⟩
    · exact r.queued i a l (e ▸ List.mem_cons_of_mem _ hi)

theorem Books.placeFreed (h : Books Good x) : Books Good x.placeFreed := ((h.onRpw _).journalOverflow).takeSlots

theorem Books.grantWriter (h : Books Good x) : Books Good x.grantWriter := by
  unfold Chip.grantWriter
  split
  · exact h
  · have g : Books Good (x.onPsw fun p => { p with writer := none }) := ⟨h.stand, h.nozzles, h.requests⟩
    dsimp only
    split
    · exact (g.forwardReply _ _).placeFreed
    · exact (g.forwardJournal _ _).placeFreed
    · exact g.emit _

theorem Books.grant (h : Books Good x) : Books Good x.grant := by
  have g : ∀ s, Books Good (x.onPsw fun p => p.noteGrant s) := fun s => h.switch _ fun r => by
    cases s
    all_goals
      simp only [PortSwitch.noteGrant]
      exact ⟨r.cCredits, r.hCredits, r.once, r.held, r.queued, r.issued⟩
  unfold Chip.grant
  split
  · exact h
  · rename_i s _
    dsimp only
    split
    · exact (g _).grantHead
    · exact (g _).grantController
    · exact (g _).grantWriter

/-- An ARMED or FIRING swath completes (R38). -/
theorem Books.complete (h : Books Good x) (id : Nat) (hl : ∀ r ∈ x.sgt.swaths, r.id = id → r.live = true) :
    Books Good (x.complete id) := by
  unfold Chip.complete
  split
  · exact h
  · rename_i r e
    have hr : r ∈ x.sgt.swaths := List.mem_of_find?_eq_some e
    have hid : r.id = id := by simpa using List.find?_some e
    have h1 := (((h.imp (q := fun s => Good s ∧ s.table = x.stand.table) fun g => ⟨g, rfl⟩).release .swath).journal
      r.doneRecord).markDefect r
    dsimp only
    generalize (((x.release .swath).journal r.doneRecord).markDefect r) = y at h1
    refine Books.callArming (Books.swathComplete ?_ _ _)
    have h2 := (Books.removeSwath (p := fun s => Good { s with claim := .free, held := false }) r
      (h1.imp fun g => (Good.removeLive g (List.mem_map_of_mem hr) (hl r hr hid)).1)).onSheet r.sheet
        fun h => { h with done := h.done + 1 }
    have h3 := Books.swathGone (p := Good) (Books.claimFree h2)
    split
    · exact h3.firingEnded
    · exact h3

theorem Books.completeIfCovered (h : Books Good x) (r : Swath) (n : ReadNote)
    (hl : ∀ a ∈ x.sgt.swaths, a.id = r.id → a.live = true) : Books Good (x.completeIfCovered r n) := by
  unfold Chip.completeIfCovered
  split
  · exact h.complete _ hl
  · exact h

/-- The records of a stand that say of themselves what another stand says of them. -/
theorem Chip.live_of_stand {x y : Chip} (h : y.stand.table = x.stand.table) {id : Nat}
    (hl : ∀ a ∈ x.sgt.swaths, a.id = id → a.live = true) : ∀ a ∈ y.sgt.swaths, a.id = id → a.live = true := by
  intro a ha e
  have hm : a.core ∈ x.stand.table := h ▸ List.mem_map_of_mem ha
  obtain ⟨b, hb, hc⟩ := List.mem_map.mp hm
  have hi : b.id = id := (congrArg Prod.fst hc).trans e
  have hv : b.live = a.live := congrArg (fun c => c.2.2) hc
  exact hv ▸ hl b hb hi

/-- Memory's answer to a released read reaches the gate with its note (R32 to R37). -/
theorem Books.gateAnswer (h : Books Good x) (n : ReadNote) (a : MemoryAnswer) (hn : n ∈ x.sgt.notes)
    (hid : ∀ q ∈ x.sgt.holdQueue, q.id ≠ n.id) : Books Good (x.gateAnswer n a) := by
  have live : ∀ r ∈ x.sgt.swaths, r.id = n.swath → r.live = true := fun r hr e =>
    (h.stand.swaths.notes n hn).2 r.core (List.mem_map_of_mem hr) e
  have h1 : Books Good (x.onSgt fun g => { g with notes := g.notes.filter fun m => m.id != n.id }) :=
    ⟨⟨h.stand.reads, { h.stand.swaths with notes := fun m hm => h.stand.swaths.notes m (List.mem_filter.mp hm).1 }⟩, h.nozzles,
      h.requests⟩
  have hv : ∀ r ∈ (x.onSgt fun g => { g with notes := g.notes.filter fun m => m.id != n.id }).sgt.swaths,
      r.id = n.swath → r.live = true := live
  have hq : ∀ q ∈ (x.onSgt fun g => { g with notes := g.notes.filter fun m => m.id != n.id }).sgt.holdQueue, q.id ≠ n.id := hid
  unfold Chip.gateAnswer
  dsimp only
  generalize (x.onSgt fun g => { g with notes := g.notes.filter fun m => m.id != n.id }) = y at h1 hv hq
  have ph : ∀ p, Books (fun s => Good s ∧ s.table = y.stand.table) (y.setReadPhase .hPort n.id p) := fun p =>
    ((h1.asHeld.setReadPhase .hPort n.id p fun _ => hq).ofHeld rfl).imp fun g => ⟨g, rfl⟩
  split
  · rename_i r data e
    have hr : r.id = n.swath := by simpa using List.find?_some e
    have g := (ph (.answered .good (y.rewrite r n.offset data).data)).countDelivered r (y.rewrite r n.offset data)
      (hr ▸ hv)
    exact (g.imp fun g => g.1).completeIfCovered r n (hr ▸ Chip.live_of_stand g.stand.2 hv)
  · rename_i r e
    have hr : r.id = n.swath := by simpa using List.find?_some e
    have g := (ph (.answered .fault [])).onSwath r.id (fun s => { s with faulted := addCount s.faulted 1 }) fun _ _ _ => rfl
    exact (g.imp fun g => g.1).completeIfCovered r n (hr ▸ Chip.live_of_stand g.stand.2 hv)
  · exact (ph _).imp fun g => g.1
  · exact (ph _).imp fun g => g.1

theorem Books.plainAnswer (h : Books Good x) (port : Port) (id : Nat) (a : MemoryAnswer)
    (hid : port = .hPort → ∀ q ∈ x.sgt.holdQueue, q.id ≠ id) : Books Good (x.plainAnswer port id a) := by
  unfold Chip.plainAnswer
  split
  · exact (h.asHeld.setReadPhase port id _ hid).ofHeld (by cases port <;> rfl)
  · exact (h.asHeld.setReadPhase port id _ hid).ofHeld (by cases port <;> rfl)

theorem Books.memoryAnswer (h : Books Good x) (a : MemoryAnswer) : Books Good (x.memoryAnswer a) := by
  unfold Chip.memoryAnswer
  split
  · exact h
  · rename_i o rest e
    split
    · exact h
    · rename_i f _
      split
      · have hm : o ∈ x.psw.outstanding := e ▸ List.mem_cons_self
        have hid : o.port = .hPort → ∀ q ∈ x.sgt.holdQueue, q.id ≠ o.id := fun hp q hq g =>
          (h.stand.reads.held q hq).2.2.2 (by
            have : { port := .hPort, id := q.id : Outstanding } = o := by rw [g, ← hp]
            rw [this]; exact hm)
        have h1 : Books Good (x.onPsw fun p => { p with outstanding := rest }) := h.switch _ fun r =>
          { r with
            held := fun q hq => by
              obtain ⟨h1, h2, h3, h4⟩ := r.held q hq
              exact ⟨h1, h2, h3, fun g => h4 (e ▸ List.mem_cons_of_mem _ g)⟩
            issued := fun b hb => r.issued b (e ▸ List.mem_cons_of_mem _ hb) }
        have h2 : Books Good (if a == .fault then (x.onPsw fun p => { p with outstanding := rest }).uncorrectable o.port f
            else x.onPsw fun p => { p with outstanding := rest }) := by
          split
          · exact h1.journal _
          · exact h1
        have hg : (if a == .fault then (x.onPsw fun p => { p with outstanding := rest }).uncorrectable o.port f
            else x.onPsw fun p => { p with outstanding := rest }).sgt = x.sgt := by split <;> rfl
        dsimp only
        generalize (if a == .fault then (x.onPsw fun p => { p with outstanding := rest }).uncorrectable o.port f
          else x.onPsw fun p => { p with outstanding := rest }) = y at h2 hg
        rw [← hg] at hid
        split
        · rename_i n en
          have hn : n ∈ y.sgt.notes := List.mem_of_find?_eq_some en
          have hi : n.id = o.id := by simpa using List.find?_some en
          split
          · rename_i hp
            exact h2.gateAnswer n a hn (hi ▸ hid (by simpa using hp))
          · exact h2.plainAnswer _ _ _ hid
        · exact h2.plainAnswer _ _ _ hid
      · exact h

/-! ## The timers -/

theorem Books.holdExpired (h : Books Good x) : Books Good x.holdExpired := by
  unfold Chip.holdExpired; (try dsimp only); (repeat' split)
  all_goals with_reducible repeat'
    first
    | assumption | apply Books.showChange | apply Books.bind | apply Books.spoil | apply Books.unbindSheet | apply Books.dropHeld | apply Books.journal
    | split

theorem Books.stepTimeout (h : Books Good x) : Books Good x.stepTimeout := by
  unfold Chip.stepTimeout; (try dsimp only); (repeat' split)
  all_goals with_reducible repeat'
    first
    | assumption | apply Books.endStep | split

theorem Books.waitElapsed (h : Books Good x) : Books Good x.waitElapsed := by
  unfold Chip.waitElapsed; (try dsimp only); (repeat' split)
  all_goals with_reducible repeat'
    first
    | assumption | apply Books.endStep | split

theorem Books.reservationTimeout (h : Books Good x) : Books Good x.reservationTimeout := by
  unfold Chip.reservationTimeout; (try dsimp only); (repeat' split)
  all_goals with_reducible repeat'
    first
    | assumption | apply Books.endStep | split

theorem Books.orderTimeout (h : Books Good x) : Books Good x.orderTimeout := by
  unfold Chip.orderTimeout; (try dsimp only); (repeat' split)
  all_goals with_reducible repeat'
    first
    | assumption | apply Books.endFeedOrder | split

theorem Books.dryTimeout (h : Books Good x) : Books Good x.dryTimeout := by
  unfold Chip.dryTimeout; (try dsimp only); (repeat' split)
  all_goals with_reducible repeat'
    first
    | assumption | apply Books.dryExpired | split

/-! ## The frames -/

theorem Books.deliver (h : Books Good x) (o : LinkOrder) (outcome : FrameOutcome) : Books Good (x.deliver o outcome) := by
  unfold Chip.deliver; (try dsimp only); (repeat' split)
  all_goals with_reducible repeat'
    first
    | assumption | apply Books.takeCheckPage | apply Books.takeStationStatus | apply Books.takeStation
    | apply Books.takeFeedCheck | apply Books.takeFeedStatus | apply Books.takeFeedFrame | apply Books.takePumpStatus
    | apply Books.takeStop | apply Books.takeTransfer | apply Books.takeLevel | apply Books.takeDebit
    | apply Books.takeReadTag | split

theorem Books.endFrame (h : Books Good x) (o : LinkOrder) (outcome : FrameOutcome) (events : List WireEvent) :
    Books Good (x.endFrame o outcome events) := ((h.onFlm _).emit _).deliver _ _

/-! ## Frames -/

theorem Books.frameEnd (h : Books Good x) (kind : LinkOrder → Bool) (f : FrameEnd) : Books Good (x.frameEnd kind f) := by
  unfold Chip.frameEnd
  repeat' split
  all_goals first | exact h | exact h.endFrame _ _ _

theorem Books.lineCheckFailed (h : Books Good x) : Books Good x.lineCheckFailed := by
  unfold Chip.lineCheckFailed
  repeat' split
  all_goals first | exact h | exact h.endFrame _ _ _

theorem Books.busyHoldFailed (h : Books Good x) : Books Good x.busyHoldFailed := by
  unfold Chip.busyHoldFailed
  repeat' split
  all_goals first | exact h | exact h.endFrame _ _ _

/-! ## The end of an event -/

theorem answeredFront_length (l : List InFlight) : (answeredFront l).2.length + (answeredFront l).1.length = l.length := by
  induction l with
  | nil => rfl
  | cons e l ih => simp only [answeredFront]; split <;> simp; omega

theorem mem_answeredFront {l : List InFlight} {e : InFlight} (he : e ∈ l) (hp : e.phase = .waiting) : e ∈ (answeredFront l).2 := by
  induction l with
  | nil => exact absurd he (by simp)
  | cons a l ih =>
    simp only [answeredFront]
    split
    · rename_i status data ea
      rcases List.mem_cons.mp he with rfl | he
      · rw [hp] at ea; exact absurd ea (by simp)
      · exact ih he
    · exact he
    · exact he

theorem Books.sendResponses (h : Books Good x) : Books Good x.sendResponses := by
  unfold Chip.sendResponses
  dsimp only
  have g : Books Good ((answeredFront x.psw.hInFlight).1.foldl (respond .hPort)
      ((answeredFront x.psw.cInFlight).1.foldl (respond .cPort) x)) :=
    Books.foldl _ (fun _ _ g => g.emit _) _ (Books.foldl _ (fun _ _ g => g.emit _) _ h)
  have e : ((answeredFront x.psw.hInFlight).1.foldl (respond .hPort)
      ((answeredFront x.psw.cInFlight).1.foldl (respond .cPort) x)).psw = x.psw := by
    obtain ⟨o1, e1⟩ := Chip.respond_foldl .cPort (answeredFront x.psw.cInFlight).1 x
    obtain ⟨o2, e2⟩ := Chip.respond_foldl .hPort (answeredFront x.psw.hInFlight).1 { x with sent := o1 }
    rw [e1, e2]
  refine g.switch _ fun r => ?_
  rw [e] at r ⊢
  refine { r with cCredits := ?_, hCredits := ?_, held := fun a ha => ?_ }
  · have := r.cCredits
    have := answeredFront_length x.psw.cInFlight
    dsimp only
    omega
  · have := r.hCredits
    have := answeredFront_length x.psw.hInFlight
    dsimp only
    omega
  · obtain ⟨h1, ⟨f, hf, hi, hp⟩, h3⟩ := r.held a ha
    exact ⟨h1, ⟨f, mem_answeredFront hf hp, hi, hp⟩, h3⟩

theorem Books.releaseLink (h : Books Good x) : Books Good x.releaseLink := by
  unfold Chip.releaseLink
  split
  · exact h.onFlm _
  · exact h
  · exact h

/-- The end of an event keeps the agreement of the lists. -/
theorem Books.conclude (h : Books Good x) (old : Chip) : Books Good (conclude old x) :=
  ((((h.refreshStatus old).settle).releaseLink).sendResponses).fillWriter

/-! ## A whole event -/

theorem Books.event (h : Books Good x) (f : Chip → Chip) (hf : Books Good (f x)) : Books Good (x.event f) := by
  unfold Chip.event
  split
  · exact h
  · exact hf.conclude _

/-- The lists agree after RESET (R158). -/
theorem Chip.reset_books (straps : BitVec 3) : Books Good (Chip.reset straps) := by
  refine ⟨⟨⟨rfl, rfl, List.nodup_nil, fun a ha => absurd ha (by simp [Chip.reset, Chip.stand]), fun i a l hi =>
    absurd hi (by simp [Chip.reset, Chip.stand]), fun o ho => absurd ho (by simp [Chip.reset, Chip.stand])⟩,
    ⟨List.nodup_nil, fun b => by simp [Chip.reset, Chip.stand], List.nodup_nil, fun e he => absurd he (by simp [Chip.reset, Chip.stand]),
    fun _ => rfl, rfl, by simp [Chip.reset, Chip.stand], by simp [Chip.reset, Chip.stand, Cycle.idle, CycleState.hasClaim],
    fun n hn => absurd hn (by simp [Chip.reset, Chip.stand])⟩⟩, ⟨Nat.zero_le _, List.Pairwise.nil, Nat.zero_le _⟩, List.nodup_nil⟩

theorem Books.assertReset : Books Good x.assertReset :=
  have h := Chip.reset_books 0#3
  ⟨h.stand, h.nozzles, h.requests⟩

theorem Books.releaseReset (h : Books Good x) (straps : BitVec 3) : Books Good (x.releaseReset straps) := by
  unfold Chip.releaseReset
  split
  · have h := Chip.reset_books straps
    exact Books.fillWriter ⟨h.stand, h.nozzles, h.requests⟩
  · exact h

theorem Books.tick (h : Books Good x) : Books Good x.tick := by
  unfold Chip.tick
  split
  · exact h
  · exact h.fillWriter.onRpw _

end

/-- Every command but RESET, its release and a tick is an event, whose effect is a move that keeps the agreement of the lists. -/
theorem exec_event (c : Instr) (hc : c ≠ .reset) (hr : ∀ straps, c ≠ .resetRelease straps) (ht : c ≠ .timeBaseTick) :
    ∃ f : Chip → Chip, (∀ y, Move y (f y)) ∧ (∀ y, Books Good y → Books Good (f y)) ∧
      ∀ s : State, exec c s = .next { s with chip := s.chip.event f } := by
  cases c with
  | reset => exact absurd rfl hc
  | resetRelease a => exact absurd rfl (hr a)
  | timeBaseTick => exact absurd rfl ht
  | slotWrite w => exact ⟨_, fun y => y.cPortWrite_move w, fun _ h => h.cPortWrite w, fun _ => rfl⟩
  | readIndexWrite w => exact ⟨_, fun y => y.cPortWrite_move w, fun _ h => h.cPortWrite w, fun _ => rfl⟩
  | controllerWrite w => exact ⟨_, fun y => y.cPortWrite_move w, fun _ h => h.cPortWrite w, fun _ => rfl⟩
  | controllerRead w => exact ⟨_, fun y => y.cPortRead_move w, fun _ h => h.cPortRead w, fun _ => rfl⟩
  | headRead w => exact ⟨_, fun y => y.hPortRead_move w, fun _ h => h.hPortRead w, fun _ => rfl⟩
  | headWrite w => exact ⟨_, fun y => y.hPortWrite_move w, fun _ h => h.hPortWrite w, fun _ => rfl⟩
  | arbiterGrant => exact ⟨fun x => x.fillWriter.grant, fun y => y.fillWriter_move.trans (Chip.grant_move _),
      fun _ h => h.fillWriter.grant, fun _ => rfl⟩
  | memoryAnswer a => exact ⟨_, fun y => y.memoryAnswer_move a, fun _ h => h.memoryAnswer a, fun _ => rfl⟩
  | nop => exact ⟨_, fun y => y.cPortWrite_move _, fun _ h => h.cPortWrite _, fun _ => rfl⟩
  | configure a => exact ⟨fun x => x.command _, fun y => y.cPortWrite_move _, fun _ h => h.cPortWrite _, fun _ => rfl⟩
  | restart => exact ⟨fun x => x.command _, fun y => y.cPortWrite_move _, fun _ h => h.cPortWrite _, fun _ => rfl⟩
  | setChannel a => exact ⟨fun x => x.command _, fun y => y.cPortWrite_move _, fun _ h => h.cPortWrite _, fun _ => rfl⟩
  | setRoll a => exact ⟨fun x => x.command _, fun y => y.cPortWrite_move _, fun _ h => h.cPortWrite _, fun _ => rfl⟩
  | queueSheet a => exact ⟨fun x => x.command _, fun y => y.cPortWrite_move _, fun _ h => h.cPortWrite _, fun _ => rfl⟩
  | swathReady a => exact ⟨fun x => x.command _, fun y => y.cPortWrite_move _, fun _ h => h.cPortWrite _, fun _ => rfl⟩
  | cancelSheet a => exact ⟨fun x => x.command _, fun y => y.cPortWrite_move _, fun _ h => h.cPortWrite _, fun _ => rfl⟩
  | clearJam => exact ⟨fun x => x.command _, fun y => y.cPortWrite_move _, fun _ h => h.cPortWrite _, fun _ => rfl⟩
  | setNozzle a => exact ⟨fun x => x.command _, fun y => y.cPortWrite_move _, fun _ h => h.cPortWrite _, fun _ => rfl⟩
  | loadProgram a => exact ⟨fun x => x.command _, fun y => y.cPortWrite_move _, fun _ h => h.cPortWrite _, fun _ => rfl⟩
  | runProgram a => exact ⟨fun x => x.command _, fun y => y.cPortWrite_move _, fun _ h => h.cPortWrite _, fun _ => rfl⟩
  | unknownKind a => exact ⟨fun x => x.command _, fun y => y.cPortWrite_move _, fun _ h => h.cPortWrite _, fun _ => rfl⟩
  | holdTimerExpiry => exact ⟨_, fun y => (Acts.holdExpired (.refl y)).move, fun _ h => h.holdExpired, fun _ => rfl⟩
  | pollTimerExpiry k => exact ⟨_, fun y => (Acts.pollTag (.refl y) k).move, fun _ h => h.pollTag k, fun _ => rfl⟩
  | pumpStatusPoll k => exact ⟨_, fun y => (Acts.pollPump (.refl y) k).move, fun _ h => h.pollPump k, fun _ => rfl⟩
  | pumpDeadlineExpiry k => exact ⟨_, fun y => (Acts.pumpTimeout (.refl y) k).move, fun _ h => h.pumpTimeout k, fun _ => rfl⟩
  | stopDeadlineExpiry k => exact ⟨_, fun y => (Acts.stopTimeout (.refl y) k).move, fun _ h => h.stopTimeout k, fun _ => rfl⟩
  | stationStatusPoll => exact ⟨_, fun y => (Acts.pollStation (.refl y)).move, fun _ h => h.pollStation, fun _ => rfl⟩
  | stepDeadlineExpiry => exact ⟨_, fun y => (Acts.stepTimeout (.refl y)).move, fun _ h => h.stepTimeout, fun _ => rfl⟩
  | waitStepEnd => exact ⟨_, fun y => (Acts.waitElapsed (.refl y)).move, fun _ h => h.waitElapsed, fun _ => rfl⟩
  | reservationDeadlineExpiry => exact ⟨_, fun y => (Acts.reservationTimeout (.refl y)).move,
      fun _ h => h.reservationTimeout, fun _ => rfl⟩
  | idleTrigger p => exact ⟨_, fun y => (Acts.fireIdle (.refl y) p).move, fun _ h => h.fireIdle p, fun _ => rfl⟩
  | printTimeTrigger p => exact ⟨_, fun y => (Acts.firePrintTime (.refl y) p).move, fun _ h => h.firePrintTime p, fun _ => rfl⟩
  | feedStatusPoll => exact ⟨_, fun y => (Acts.pollFeed (.refl y)).move, fun _ h => h.pollFeed, fun _ => rfl⟩
  | orderDeadlineExpiry => exact ⟨_, fun y => (Acts.orderTimeout (.refl y)).move, fun _ h => h.orderTimeout, fun _ => rfl⟩
  | dryTimerExpiry => exact ⟨_, fun y => (Acts.dryTimeout (.refl y)).move, fun _ h => h.dryTimeout, fun _ => rfl⟩
  | lineCheckTimeout => exact ⟨_, fun y => y.lineCheckFailed_move, fun _ h => h.lineCheckFailed, fun _ => rfl⟩
  | busyTimeout => exact ⟨_, fun y => y.busyHoldFailed_move, fun _ h => h.busyHoldFailed, fun _ => rfl⟩
  | _ f => exact ⟨_, fun y => y.frameEnd_move _ f, fun _ h => h.frameEnd _ f, fun _ => rfl⟩

/-- Every command keeps the agreement of the lists. -/
theorem exec_books (c : Instr) {s t : State} (h : Books Good s.chip) (e : exec c s = .next t) : Books Good t.chip := by
  by_cases hc : c = .reset
  · subst hc; cases e; exact Books.assertReset
  · by_cases hr : ∃ straps, c = .resetRelease straps
    · obtain ⟨straps, rfl⟩ := hr; cases e; exact h.releaseReset straps
    · by_cases ht : c = .timeBaseTick
      · subst ht; cases e; exact h.tick
      · obtain ⟨f, _, hf, he⟩ := exec_event c hc (fun straps g => hr ⟨straps, g⟩) ht
        rw [he] at e
        cases e
        exact h.event f (hf _ h)

end Sys2Proof.Machine
end

