-- ==== Sys2Proof/Laws/Kept.lean ====
section
/-! SUPPORT. What the end of an event leaves as it was: `conclude` keeps everything that `Chip.kept` keeps. -/

namespace Sys2Proof.Machine

/-! ## Blocks -/

theorem Chip.kept_onPsw (x : Chip) (f : PortSwitch → PortSwitch) (h : ∀ p, (f p).kept = p.kept) :
    (x.onPsw f).kept = x.kept := by simp [Chip.kept, h]

theorem Chip.kept_onSgt (x : Chip) (f : Gate → Gate) (h : ∀ g, (f g).kept = g.kept) :
    (x.onSgt f).kept = x.kept := by simp [Chip.kept, h]

theorem Chip.kept_onSvc (x : Chip) (f : ServiceController → ServiceController) (h : ∀ v, (f v).kept = v.kept) :
    (x.onSvc f).kept = x.kept := by simp [Chip.kept, h]

theorem Chip.kept_onFdc (x : Chip) (f : FeedController → FeedController) (h : ∀ d, (f d).kept = d.kept) :
    (x.onFdc f).kept = x.kept := by simp [Chip.kept, h]

theorem Chip.kept_onRpw (x : Chip) (f : ReportWriter → ReportWriter) (h : ∀ w, (f w).kept = w.kept) :
    (x.onRpw f).kept = x.kept := by simp [Chip.kept, h]

@[simp] theorem Chip.kept_onFlm (x : Chip) (f : LinkMaster → LinkMaster) : (x.onFlm f).kept = x.kept := rfl

@[simp] theorem Chip.kept_emit (x : Chip) (e : Emission) : (x.emit e).kept = x.kept := rfl

@[simp] theorem Chip.kept_callArming (x : Chip) : x.callArming.kept = x.kept := rfl

@[simp] theorem Chip.kept_callAdmission (x : Chip) : x.callAdmission.kept = x.kept := rfl

@[simp] theorem Chip.kept_noticeInk (x : Chip) : x.noticeInk.kept = x.kept := rfl

theorem keptInk_get (v : Six InkChannel) (k : Channel) : (keptInk v).get k = (v.get k).kept := by
  match k with
  | 0 | 1 | 2 | 3 | 4 | 5 => rfl

theorem Chip.kept_onInk (x : Chip) (k : Channel) (f : InkChannel → InkChannel) (h : ∀ i, (f i).kept = i.kept) :
    (x.onInk k f).kept = x.kept := by
  have : keptInk (x.ink.set k (f (x.ink.get k))) = keptInk x.ink := by
    apply Six.ext_get
    intro j
    rw [keptInk_get, keptInk_get, Six.get_set]
    by_cases hj : j = k
    · subst hj; simp [h]
    · simp [hj]
  simp [Chip.kept, this]

theorem Chip.kept_onAccount (x : Chip) (k : Channel) (f : Account → Account) (h : ∀ a, (f a).kept = a.kept) :
    (x.onAccount k f).kept = x.kept := by
  apply Chip.kept_onInk; intro i; simp [InkChannel.kept, h]

@[simp] theorem Chip.kept_onRefill (x : Chip) (k : Channel) (f : Refill → Refill) : (x.onRefill k f).kept = x.kept := by
  apply Chip.kept_onInk; intro i; rfl

@[simp] theorem Chip.kept_onCycle (x : Chip) (f : Cycle → Cycle) : (x.onCycle f).kept = x.kept := rfl

@[simp] theorem Chip.kept_offer (x : Chip) (o : LinkOrder) : (x.offer o).kept = x.kept := rfl

@[simp] theorem ReportWriter.kept_mark (w : ReportWriter) (n : Fin 13) : (w.mark n).kept = w.kept := by
  simp only [ReportWriter.mark]; split <;> rfl

@[simp] theorem ReportWriter.kept_drop (w : ReportWriter) : w.drop.kept = w.kept :=
  ReportWriter.kept_mark _ _

@[simp] theorem Chip.kept_journal (x : Chip) (r : JournalRecord) : (x.journal r).kept = x.kept := by
  apply Chip.kept_onRpw; intro w; split <;> first | rfl | simp

@[simp] theorem Chip.kept_markStatus (x : Chip) (n : Fin 13) : (x.markStatus n).kept = x.kept :=
  Chip.kept_onRpw _ _ fun w => ReportWriter.kept_mark w n

/-- A fold of steps that each keep the view keeps it. -/
theorem Chip.kept_foldl {α : Type} (f : Chip → α → Chip) (h : ∀ x a, (f x a).kept = x.kept) (l : List α) (x : Chip) :
    (l.foldl f x).kept = x.kept := by
  induction l generalizing x with
  | nil => rfl
  | cons a l ih => simp [ih, h]

@[simp] theorem Chip.kept_refreshStatus (x old : Chip) : (x.refreshStatus old).kept = x.kept := by
  rw [Chip.refreshStatus_eq]
  apply Chip.kept_foldl; intro y n; split <;> simp

@[simp] theorem Chip.kept_showChange (x old : Chip) (n : Fin 13) : (x.showChange old n).kept = x.kept := by
  rw [Chip.showChange_eq]; split <;> simp

/-! ## The ink controller -/

@[simp] theorem Chip.kept_onLiveSwath (x : Chip) (f : Swath → Swath) (h : ∀ r, (f r).kept = r.kept) :
    (x.onLiveSwath f).kept = x.kept := by
  apply Chip.kept_onSgt; intro g
  simp only [Gate.kept, List.map_map]
  congr 1
  apply List.map_congr_left; intro r _
  simp only [Function.comp]; split <;> simp [h]

@[simp] theorem Chip.kept_setRemaining (x : Chip) (h : Holder) (k : Channel) (n : Nat) :
    (x.setRemaining h k n).kept = x.kept := by
  cases h with
  | none => rfl
  | swath => exact Chip.kept_onLiveSwath x _ fun _ => rfl
  | prime => rfl

@[simp] theorem Chip.kept_startRefill (x : Chip) (k : Channel) (m : Bool) : (x.startRefill k m).kept = x.kept := by
  simp only [Chip.startRefill]
  split
  · simp only [Chip.kept_markStatus, Chip.kept_offer, Chip.kept_onRefill]
    exact Chip.kept_onAccount _ _ _ fun _ => rfl
  · rfl

@[simp] theorem Chip.kept_reserve (x : Chip) (h : Holder) (a : Six Nat) : (x.reserve h a).kept = x.kept := by
  simp only [Chip.reserve, Chip.kept_noticeInk]
  apply Chip.kept_foldl
  intro y k
  split
  · rfl
  · rw [Chip.kept_markStatus]; exact Chip.kept_onAccount _ _ _ fun _ => rfl

@[simp] theorem Chip.kept_refuseReservation (x : Chip) (a : Six Nat) : (x.refuseReservation a).kept = x.kept := by
  apply Chip.kept_foldl; intro y k; split <;> simp

@[simp] theorem Chip.kept_releaseChannel (x : Chip) (h : Holder) (k : Channel) :
    (x.releaseChannel h k).kept = x.kept := by
  simp only [Chip.releaseChannel]
  split
  · simp only [Chip.kept_callAdmission, Chip.kept_noticeInk, Chip.kept_setRemaining, Chip.kept_markStatus]
    exact Chip.kept_onAccount _ _ _ fun _ => rfl
  · rfl

@[simp] theorem Chip.kept_release (x : Chip) (h : Holder) : (x.release h).kept = x.kept :=
  Chip.kept_foldl _ (fun y k => Chip.kept_releaseChannel y h k) _ _

/-! ## The gate -/

@[simp] theorem Chip.kept_setReadPhase (x : Chip) (p : Port) (id : Nat) (f : ReadPhase) :
    (x.setReadPhase p id f).kept = x.kept := by
  apply Chip.kept_onPsw; intro w; cases p <;> rfl

@[simp] theorem Chip.kept_withhold (x : Chip) (id : Nat) : (x.withhold id).kept = x.kept :=
  Chip.kept_setReadPhase _ _ _ _

@[simp] theorem Chip.kept_dropHeld (x : Chip) (p : HeldRead → Bool) : (x.dropHeld p).kept = x.kept := by
  simp only [Chip.dropHeld]
  refine (Chip.kept_onSgt _ _ (by intros; rfl)).trans ?_
  exact Chip.kept_foldl _ (fun y (r : HeldRead) => Chip.kept_withhold y r.id) _ _

@[simp] theorem Chip.kept_dropStaleHolds (x : Chip) : x.dropStaleHolds.kept = x.kept := by
  simp only [Chip.dropStaleHolds]; split <;> simp

@[simp] theorem Chip.kept_releaseRead (x : Chip) (id r : Nat) (a : Addr) (n : Nat) :
    (x.releaseRead id r a n).kept = x.kept := by
  simp only [Chip.releaseRead]
  refine (Chip.kept_onPsw _ _ (by intros; rfl)).trans ?_
  exact Chip.kept_onSgt _ _ (by intros; rfl)

@[simp] theorem Chip.kept_releaseHeld (x : Chip) : x.releaseHeld.kept = x.kept := by
  simp only [Chip.releaseHeld]
  refine (Chip.kept_onSgt _ _ (by intros; rfl)).trans ?_
  exact Chip.kept_foldl _ (fun y r => Chip.kept_releaseRead y _ _ _ _) _ _

theorem Chip.kept_onSwath (x : Chip) (id : Nat) (f : Swath → Swath) (h : ∀ r, (f r).kept = r.kept) :
    (x.onSwath id f).kept = x.kept := by
  apply Chip.kept_onSgt; intro g
  simp only [Gate.kept, List.map_map]
  congr 1
  apply List.map_congr_left; intro r _
  simp only [Function.comp]; split <;> simp [h]

@[simp] theorem Chip.kept_hold (x : Chip) : (x.onNmn fun n => { n with held := true }).kept = x.kept := rfl

@[simp] theorem Chip.kept_arm (x : Chip) (r : Swath) (s : Six (List Nat)) (a : Six Nat) :
    (x.arm r s a).kept = x.kept := by
  simp only [Chip.arm, Chip.kept_markStatus, Chip.kept_hold, Chip.kept_refreshStatus, Chip.kept_releaseHeld]
  refine (Chip.kept_onSwath _ _ _ (by intros; rfl)).trans ?_
  refine (Chip.kept_onSgt _ _ (by intros; rfl)).trans ?_
  rw [Chip.kept_reserve]

@[simp] theorem Chip.kept_askWake (x : Chip) (r : Swath) : (x.askWake r).kept = x.kept := by
  simp only [Chip.askWake]
  split
  · refine (Chip.kept_onSvc _ _ (by intros; rfl)).trans ?_
    exact Chip.kept_onSgt _ _ (by intros; rfl)
  · rfl

@[simp] theorem Chip.kept_armingTest (x : Chip) : x.armingTest.kept = x.kept := by
  simp only [Chip.armingTest]
  repeat' split
  all_goals simp

/-! ## The feed controller -/

theorem Sheet.kept_map (l : List Sheet) (p : Sheet → Bool) (f : Sheet → Sheet) (h : ∀ a, (f a).kept = a.kept) :
    (l.map fun a => if p a then f a else a).map Sheet.kept = l.map Sheet.kept := by
  rw [List.map_map]
  apply List.map_congr_left; intro a _
  simp only [Function.comp]; split <;> simp [h]

theorem Chip.kept_feedStage (x : Chip) (f : FeedController → FeedController) (h : ∀ d, (f d).kept = d.kept) :
    (x.feedStage f).kept = x.kept :=
  (Chip.kept_refreshStatus _ _).trans (Chip.kept_onFdc _ _ h)

theorem Chip.kept_onPlaten (x : Chip) (f : Sheet → Sheet) (h : ∀ a, (f a).kept = a.kept) :
    (x.onPlaten f).kept = x.kept := by
  apply Chip.kept_feedStage; intro d
  simp only [FeedController.kept]; congr 1
  exact Sheet.kept_map _ _ _ h

theorem Chip.kept_onSheet (x : Chip) (id : Nat) (f : Sheet → Sheet) (h : ∀ a, (f a).kept = a.kept) :
    (x.onSheet id f).kept = x.kept := by
  apply Chip.kept_feedStage; intro d
  simp only [FeedController.kept]; congr 1
  exact Sheet.kept_map _ _ _ h

@[simp] theorem Chip.kept_placeFeed (x : Chip) (op : FeedOp) (n : Nat) : (x.placeFeed op n).kept = x.kept := by
  simp only [Chip.placeFeed, Chip.kept_offer]
  exact Chip.kept_onFdc _ _ fun _ => rfl

@[simp] theorem Chip.kept_positionFor (x : Chip) (i : Nat) : (x.positionFor i).kept = x.kept := by
  simp only [Chip.positionFor, Chip.kept_callArming]
  exact Chip.kept_onFdc _ _ fun _ => rfl

@[simp] theorem Chip.kept_loadComplete (x : Chip) : x.loadComplete.kept = x.kept := by
  simp only [Chip.loadComplete, Chip.kept_positionFor]
  exact Chip.kept_onPlaten _ _ fun _ => rfl

@[simp] theorem Chip.kept_beginLoadStep (x : Chip) (s : Nat) (op : Option FeedOp) :
    (x.beginLoadStep s op).kept = x.kept := by
  simp only [Chip.beginLoadStep]
  have h : (x.onPlaten fun h => { h with loadStep := s }).kept = x.kept := Chip.kept_onPlaten _ _ fun _ => rfl
  split
  · rw [Chip.kept_placeFeed]
    refine (Chip.kept_onFdc _ _ (by intros; rfl)).trans ?_
    rw [h]
  · exact h

@[simp] theorem Chip.kept_runLoad (n : Nat) (x : Chip) : (x.runLoad n).kept = x.kept := by
  induction n generalizing x with
  | zero => exact Chip.kept_loadComplete x
  | succ n ih =>
    simp only [Chip.runLoad]
    repeat' split
    all_goals simp [ih]

@[simp] theorem Chip.kept_admitTo (x : Chip) (h : Sheet) (n : RollNo) : (x.admitTo h n).kept = x.kept := by
  simp only [Chip.admitTo, Chip.kept_runLoad, Chip.kept_callArming]
  refine (Chip.kept_onFdc _ _ (by intros; rfl)).trans ?_
  exact Chip.kept_onSheet _ _ _ (by intros; rfl)

@[simp] theorem Chip.kept_keepWaiting (x : Chip) (h : Sheet) (c : WaitingCause) (r : JournalRecord) :
    (x.keepWaiting h c r).kept = x.kept := by
  have e : (x.onSheet h.id fun a => { a with state := .waiting, waitingCause := some c }).kept = x.kept :=
    Chip.kept_onSheet _ _ _ fun _ => rfl
  simp only [Chip.keepWaiting]; split <;> simp [e]

@[simp] theorem Chip.kept_admissionTest (x : Chip) : x.admissionTest.kept = x.kept := by
  simp only [Chip.admissionTest]
  repeat' split
  all_goals simp

/-! ## The service controller -/

@[simp] theorem Chip.kept_onCounters (x : Chip) (f : Counters → Counters) : (x.onCounters f).kept = x.kept := rfl

@[simp] theorem Chip.kept_resetCounters (x : Chip) (p : Fin 8) : (x.resetCounters p).kept = x.kept := rfl

@[simp] theorem Chip.kept_orderStep (x : Chip) (o : StationOrder) : (x.orderStep o).kept = x.kept := by
  simp [Chip.orderStep, Chip.offerStation]

@[simp] theorem Chip.kept_askPrime (x : Chip) : x.askPrime.kept = x.kept := by
  simp only [Chip.askPrime]; split <;> simp

@[simp] theorem Chip.kept_retryPrime (x : Chip) : x.retryPrime.kept = x.kept := by
  simp only [Chip.retryPrime]; split <;> simp

@[simp] theorem Chip.kept_openStep (x : Chip) (s : ServiceStep) (m : BitVec 8) : (x.openStep s m).kept = x.kept := rfl

@[simp] theorem Chip.kept_actStep (x : Chip) (s : ServiceStep) : (x.actStep s).kept = x.kept := by
  simp only [Chip.actStep]; split <;> simp

@[simp] theorem Chip.kept_closeStep (x : Chip) : x.closeStep.kept = x.kept := by
  simp only [Chip.closeStep, Chip.kept_onCycle, Chip.kept_onFlm]; split <;> simp

@[simp] theorem Chip.kept_endCycle (x : Chip) (o : StepOutcome) (r : Recovery) : (x.endCycle o r).kept = x.kept := by
  simp only [Chip.endCycle]
  split
  · rfl
  · rw [Chip.kept_markStatus]
    refine (Chip.kept_onSvc _ _ (by intros; rfl)).trans ?_
    rw [Chip.kept_journal]

@[simp] theorem Chip.kept_freeClaim (x : Chip) : x.freeClaim.kept = x.kept := by
  simp only [Chip.freeClaim, Chip.kept_callArming]; exact Chip.kept_onSgt _ _ fun _ => rfl

@[simp] theorem Chip.kept_wakeEnded (x : Chip) : x.wakeEnded.kept = x.kept := by
  simp only [Chip.wakeEnded, Chip.kept_callArming]; exact Chip.kept_onSgt _ _ fun _ => rfl

@[simp] theorem Chip.kept_cycleSucceeds (x : Chip) : x.cycleSucceeds.kept = x.kept := by
  simp only [Chip.cycleSucceeds]; split <;> simp

@[simp] theorem Chip.kept_runSteps (l : List ServiceStep) (x : Chip) : (x.runSteps l).kept = x.kept := by
  induction l generalizing x with
  | nil => exact Chip.kept_cycleSucceeds x
  | cons s l ih => simp only [Chip.runSteps]; split <;> simp [ih]

@[simp] theorem Chip.kept_grantCycle (x : Chip) : x.grantCycle.kept = x.kept := by
  simp only [Chip.grantCycle]
  split
  · rfl
  · rw [Chip.kept_runSteps, Chip.kept_callArming, Chip.kept_markStatus]
    refine (Chip.kept_onSvc _ _ (by intros; rfl)).trans ?_
    exact Chip.kept_onSgt _ _ (by intros; rfl)

@[simp] theorem Chip.kept_startWake (x : Chip) : x.startWake.kept = x.kept := by
  simp only [Chip.startWake]
  rw [Chip.kept_runSteps]
  refine (Chip.kept_onSvc _ _ (by intros; rfl)).trans ?_
  exact Chip.kept_onSgt _ _ (by intros; rfl)

@[simp] theorem Chip.kept_clearWakeAsk (x : Chip) : x.clearWakeAsk.kept = x.kept := rfl

@[simp] theorem Chip.kept_takeWakeAsk (x : Chip) (id : Nat) : (x.takeWakeAsk id).kept = x.kept := by
  simp only [Chip.takeWakeAsk]
  repeat' split
  all_goals simp

theorem Chip.kept_serviceNext (x y : Chip) (h : x.serviceNext = some y) : y.kept = x.kept := by
  simp only [Chip.serviceNext] at h
  repeat' split at h
  all_goals first
    | (simp only [Option.some.injEq] at h; subst h; simp)
    | (simp only [Option.map_eq_some_iff] at h; obtain ⟨id, _, rfl⟩ := h; simp)
    | exact absurd h (by simp)

@[simp] theorem Chip.kept_serviceLoop (n : Nat) (x : Chip) : (x.serviceLoop n).kept = x.kept := by
  induction n generalizing x with
  | zero => rfl
  | succ n ih =>
    simp only [Chip.serviceLoop]
    split
    · rename_i y h; rw [ih, Chip.kept_refreshStatus, Chip.kept_serviceNext x y h]
    · rfl

@[simp] theorem Chip.kept_updateIdle (x : Chip) : x.updateIdle.kept = x.kept := by
  simp only [Chip.updateIdle]
  repeat' split
  all_goals first | rfl | (rw [Chip.kept_onCounters]; rfl)

/-! ## The end of an event -/

@[simp] theorem Chip.kept_settle (x : Chip) : x.settle.kept = x.kept := by
  simp only [Chip.settle]
  have h : ∀ y : Chip, ({ y with due := .nothing } : Chip).kept = y.kept := fun _ => rfl
  rw [h]
  simp only [Chip.kept_updateIdle, Chip.kept_serviceLoop]
  repeat' split
  all_goals simp

@[simp] theorem Chip.kept_releaseLink (x : Chip) : x.releaseLink.kept = x.kept := by
  simp only [Chip.releaseLink]; split <;> simp

@[simp] theorem Chip.kept_sendResponses (x : Chip) : x.sendResponses.kept = x.kept := by
  simp only [Chip.sendResponses]
  refine (Chip.kept_onPsw _ _ (by intros; rfl)).trans ?_
  refine (Chip.kept_foldl _ (by intros; rfl) _ _).trans ?_
  exact Chip.kept_foldl _ (by intros; rfl) _ _

@[simp] theorem Chip.kept_fillWriter (x : Chip) : x.fillWriter.kept = x.kept := by
  simp only [Chip.fillWriter]
  split
  · rfl
  · split
    · refine (Chip.kept_onPsw _ _ (by intros; rfl)).trans ?_
      exact Chip.kept_onRpw _ _ (by intros; rfl)
    · simp only [Chip.takeStatus]
      split
      · rfl
      · refine (Chip.kept_onPsw _ _ (by intros; rfl)).trans ?_
        exact Chip.kept_onRpw _ _ (by intros; rfl)

end Sys2Proof.Machine
end

