-- ==== Sys2Proof/Tests/Slice0.lean ====
section
/-! SUPPORT. The model's own tests: operands the check refuses, slots spelled out from section 12.4, one step of some commands on
small states, and for each statement with hypotheses a state and operands that meet them, clause by clause. -/

set_option maxRecDepth 20000

namespace Sys2Proof.Tests

open Sys2Proof Sys2Proof.Machine

/-! ## Small states -/

/-- The part RUNNING, after RESET with the straps at 0. -/
def running : Chip :=
  let x := Chip.reset 0#3
  { x with cmi := { x.cmi with partState := .running } }

def withTime (x : Chip) (t : Nat) : Chip := { x with rpw := { x.rpw with timeBase := t } }

def stateOf (x : Chip) : State := { chip := x, pending := [] }

/-- The part after one command. -/
def after (c : Instr) (x : Chip) : Chip :=
  match step { chip := x, pending := [c] } with
  | .next t => t.chip
  | .fault _ => x
  | .refused _ => x

def sheet (state : SheetState) : Sheet :=
  { id := 7, preference := .either, mediaType := 1, length := 300, topMargin := 5, swathCount := 2, swathAdvance := 20000,
    cutMode := .cut, dryTime := 0, estimate := none, state := state, waitingCause := none, assigned := some .one, done := 0,
    loadStep := 0, defect := false, cancel := false, cause := none }

/-- The part RUNNING with no status record pending. -/
def idleWriter : Chip := running.onRpw fun r => { r with statusSet := [] }

def withSheet (x : Chip) (h : Sheet) : Chip := { x with fdc := { x.fdc with sheets := [h] } }

def onRoll1 (x : Chip) : Chip := { x with fdc := { x.fdc with threaded := .roll .one } }

/-- Roll 1 threaded, with media of type 1. -/
def withPaper : Chip := onRoll1 (running.onFdc fun d =>
  { d with roll1 := { enabled := true, mediaType := 1, width := 600, remaining := 9000, fed := 0, out := false } })

def swath (state : SwathState) : Swath :=
  { id := 0, sheet := 7, index := 0, buffer := 0, columns := 40, state := state, projection := .all 0, spitSet := .all [],
    reservation := .all 0, delivered := .all 0, lost := 0, injected := 0, faulted := 0, late := 0 }

/-- Two buffers of 1,024 columns at address 0, the first one as given. -/
def withBuffers (x : Chip) (b : Buffer) : Chip :=
  { x with
    psw := { x.psw with swath := some { base := 0, count := 2, capacity := 1024 } }
    sgt := { x.sgt with buffers := [b, { bound := false, tally := .all 0, late := false }] } }

def freeBuffer : Buffer := { bound := false, tally := .all 0, late := false }
def boundBuffer : Buffer := { freeBuffer with bound := true }

def withSwath (x : Chip) (r : Swath) : Chip :=
  let y := withBuffers x boundBuffer
  { y with sgt := { y.sgt with swaths := [r] } }

/-- A used channel 0 with its level KNOWN. -/
def account : Account :=
  { inkType := 1, dropVolume := 4, tankCapacity := 10000000, floor := 1000000, refillMark := 5000000, lowMark := 3000000,
    level := 8000000, levelState := .known, levelReading := .idle, reserved := 0, holder := .none, remainder := 0,
    refillState := .idle, transferRequested := 0, shortfall := false }

def withAccount (x : Chip) (a : Account) : Chip := x.onAccount 0 fun _ => a

def carrying (x : Chip) (o : LinkOrder) : Chip := { x with flm := { x.flm with link := .carrying o 0 } }

def answered (reply : List Byte) : FrameEnd := { exchange := .answered reply, lowSlots := 0 }
def refusedFrame : FrameEnd := { exchange := .orderNak, lowSlots := 0 }
def absentFrame : FrameEnd := { exchange := .selectNak, lowSlots := 0 }

/-- A tag of ink type 1 and serial 9, holding 10,000 µL of which 5,000 remain; the bytes sum to 255 modulo 256. -/
def tagReply : List Byte := [13, 1, 0, 0, 0, 9, 0, 0, 0x27, 0x10, 0, 0, 0x13, 0x88, 22]

def write (addr : Nat) (n : Nat) : WriteRequest :=
  { tag := 0, addr := BitVec.ofNat 34 addr, bytes := List.replicate n (true, 1#8) }

def read (addr len : Nat) : ReadRequest := { tag := 0, addr := BitVec.ofNat 34 addr, len := len }

/-- The base of the control area with the straps at 0. -/
def control : Nat := 0x7FFF0000

def checkStep : ServiceStep := { kind := .check, mask := 1#8, parameter := 0 }

def program : Program := { trigger := .idle, parameter := 1, urgency := .midSheet, duration := 1000, steps := [checkStep] }

def withProgram (x : Chip) (g : Program) : Chip := { x with svc := { x.svc with programs := x.svc.programs.set 0 (some g) } }

def withCycle (x : Chip) (state : CycleState) (phase : StepPhase) : Chip :=
  { x with svc := { x.svc with
    cycle := { Cycle.idle with
      state := state, kind := some (.program 0), steps := [checkStep], stepReached := 1, current := checkStep, mask := 1#8
      phase := phase, stepDeadline := some 0, reservationDeadline := some 0, failure := some .timeout } } }

def feedOrder : FeedOrder := { op := .cut, serial := 0, deadline := 0, fed := 0, pollAt := some 0 }

def withOrder (x : Chip) : Chip := { x with fdc := { x.fdc with order := some feedOrder } }

def configureArgs : ConfigureArgs :=
  { base := 0, bufferCount := 2, spitColumns := 4, capacity := 1024, holdLimit := 100, journalCapacity := 64, budget := 500 }

def channelArgs (channel : BitVec 8) : SetChannelArgs :=
  { channel := channel, inkType := 1, dropVolume := 4, spitCount := 2, tankCapacity := 10000, floor := 1000, refillMark := 5000,
    lowMark := 3000, idleLimit := 200 }

def rollArgs (roll : BitVec 8) : SetRollArgs := { roll := roll, enabled := 1, mediaType := 1, width := 600, remaining := 9000 }

def sheetArgs : QueueSheetArgs :=
  { id := 7, rollPreference := 2, mediaType := 1, length := 300, topMargin := 5, swathCount := 2, cutMode := 0,
    estimateMarker := 0, swathAdvance := 20000, dryTime := 0, estimates := .all 0 }

def swathArgs (buffer : BitVec 8) : SwathReadyArgs := { sheet := 7, index := 0, buffer := buffer, columns := 40 }

def stepArgs : StepArgs := { kind := 3, mask := 1, parameter := 0 }

def programArgs (program : BitVec 8) : LoadProgramArgs :=
  { program := program, triggerKind := 0, urgency := 0, stepCount := 1, triggerParameter := 0
    steps := stepArgs :: List.replicate 9 { kind := 0, mask := 0, parameter := 0 }, duration := 1000 }

/-! ## Operands the check refuses -/

theorem test_refuses_unknown_kind_that_is_defined : (Instr.unknownKind 0x10#8).wellFormed = false := by decide
theorem test_refuses_program_without_ten_steps :
    (Instr.loadProgram { programArgs 0 with steps := [stepArgs] }).wellFormed = false := by decide
theorem test_refuses_long_reply :
    (Instr.levelOutcome (answered (List.replicate 258 0#8))).wellFormed = false := by
  decide
theorem test_refuses_too_many_acknowledged_bytes :
    (Instr.transferOutcome { exchange := .dataNak 5, lowSlots := 0 }).wellFormed = false := by decide
theorem test_refuses_short_answer : (Instr.memoryAnswer (.good [])).wellFormed = false := by decide
theorem test_refuses_uneven_answer : (Instr.memoryAnswer (.good (List.replicate 17 0#8))).wellFormed = false := by
  decide
theorem test_refuses_long_answer : (Instr.memoryAnswer (.good (List.replicate 1040 0#8))).wellFormed = false := by
  decide

/-! ## Slots written out from section 12.4

Kind, three reserved bytes, a reference, arguments from byte 8 on, the reply bytes, and the go word. -/

/-- A slot with these bytes from byte 8 on, zeros up to byte 59, and the go word 1. -/
def slot (kind : Byte) (arguments : List Byte) : List Byte :=
  [kind, 0xEE, 0xEE, 0xEE, 0x44, 0x33, 0x22, 0x11] ++ arguments ++ zeros (52 - arguments.length) ++ [1, 0, 0, 0]

theorem test_slot_configure :
    decodeSlot (slot 0x02 [0x00, 0x00, 0x01, 0x00, 0x02, 0, 0, 0, 0x03, 0x04, 0x00, 0x08, 0x88, 0x13, 0x80, 0x00, 0xF4, 0x01]) =
      .configure { base := 0x200010000, bufferCount := 3, spitColumns := 4, capacity := 2048, holdLimit := 5000
                   journalCapacity := 128, budget := 500 } := by decide

theorem test_slot_set_channel :
    decodeSlot (slot 0x10 [5, 15, 16, 32, 0xA0, 0x86, 0x01, 0, 1, 0, 0, 0, 2, 1, 0, 0, 3, 0, 1, 0, 0x60, 0xEA]) =
      .setChannel { channel := 5, inkType := 15, dropVolume := 16, spitCount := 32, tankCapacity := 100000, floor := 1
                    refillMark := 258, lowMark := 65539, idleLimit := 60000 } := by decide

theorem test_slot_set_roll :
    decodeSlot (slot 0x11 [2, 1, 15, 0xFF, 0x92, 0x03, 0xFF, 0xFF, 0x40, 0x0D, 0x03, 0x00]) =
      .setRoll { roll := 2, enabled := 1, mediaType := 15, width := 914, remaining := 200000 } := by decide

theorem test_slot_queue_sheet :
    decodeSlot (slot 0x12 [0x34, 0x12, 2, 3, 0x2C, 0x01, 5, 0, 2, 0, 1, 1, 0x20, 0x4E, 0, 0, 0x58, 0x02,
      0xEE, 0xEE, 1, 0, 0, 0, 2, 0, 0, 0, 3, 0, 0, 0, 4, 0, 0, 0, 5, 0, 0, 0, 6, 1, 0, 0]) =
      .queueSheet { id := 0x1234, rollPreference := 2, mediaType := 3, length := 300, topMargin := 5, swathCount := 2
                    cutMode := 1, estimateMarker := 1, swathAdvance := 20000, dryTime := 600
                    estimates := ⟨1, 2, 3, 4, 5, 262⟩ } := by decide

theorem test_slot_swath_ready :
    decodeSlot (slot 0x13 [0x34, 0x12, 0x01, 0x02, 7, 0xFF, 0xFF, 0xFF, 0x00, 0x60]) =
      .swathReady { sheet := 0x1234, index := 0x0201, buffer := 7, columns := 24576 } := by decide

theorem test_slot_short_ones :
    decodeSlot (slot 0x01 []) = .nop ∧ decodeSlot (slot 0x03 []) = .restart ∧
    decodeSlot (slot 0x14 [0x34, 0x12]) = .cancelSheet 0x1234 ∧ decodeSlot (slot 0x15 []) = .clearJam ∧
    decodeSlot (slot 0x16 [5, 2, 0xFF, 0x03]) = .setNozzle { channel := 5, action := 2, nozzle := 1023 } ∧
    decodeSlot (slot 0x18 [7]) = .runProgram 7 ∧ decodeSlot (slot 0x19 [7]) = .unknown 0x19 ∧
    decodeSlot (slot 0x00 []) = .unknown 0 := by decide

theorem test_slot_load_program :
    decodeSlot (slot 0x17 ([7, 4, 1, 1, 0x2C, 0x01, 0xFF, 0xFF, 2, 0x3F, 0x88, 0x13] ++ zeros 36 ++ [0xC0, 0x27, 0x09, 0x00])) =
      .loadProgram { program := 7, triggerKind := 4, urgency := 1, stepCount := 1, triggerParameter := 300
                     steps := { kind := 2, mask := 0x3F, parameter := 5000 } ::
                       List.replicate 9 { kind := 0, mask := 0, parameter := 0 }
                     duration := 600000 } := by decide

/-! ## One step of some commands -/

theorem test_reset_state : State.reset.chip.inReset = false ∧ State.reset.pending = [] := by decide

theorem test_nop_is_answered :
    (after .nop (Chip.reset 0#3)).rpw.ordered.map OrderedEntry.taken = [true] ∧
      (after .nop (Chip.reset 0#3)).cmi.nextSlot = 1 := by decide

theorem test_configure_runs :
    (after (.configure configureArgs) (Chip.reset 0#3)).cmi.partState = .running ∧
      (after (.configure configureArgs) (Chip.reset 0#3)).sgt.buffers.length = 2 := by decide

theorem test_set_roll_stores :
    (after (.setRoll (rollArgs 2)) running).fdc.roll2 =
      { enabled := true, mediaType := 1, width := 600, remaining := 9000, fed := 0, out := false } := by decide

theorem test_queue_sheet_is_admitted :
    (after (.queueSheet sheetArgs) withPaper).fdc.sheets.map Sheet.state = [.loading] ∧
      (after (.queueSheet sheetArgs) withPaper).fdc.order.map FeedOrder.op = some (.advance 5000) := by decide

theorem test_swath_ready_binds :
    (after (.swathReady (swathArgs 0)) (withSheet (withBuffers running freeBuffer) (sheet .queued))).sgt.swaths.length = 1 := by
  decide

theorem test_head_read_of_a_free_buffer_is_withheld :
    (after (.headRead (read 0 64)) (withBuffers running freeBuffer)).sent = [.response .hPort 0 .withheld []] := by
  decide

theorem test_grant_writes_the_header :
    ((after .arbiterGrant running).sent.map fun e => match e with
      | .memoryWrite addr bytes => (addr, bytes.length)
      | _ => (0, 0)) = [(0x7FFF0800, 128)] := by decide

theorem test_read_tag_inserts :
    ((after (.readTagOutcome (answered tagReply)) (carrying (withAccount running account) (.readTag 0))).cartridge 0).serial =
      9 := by
  decide

/-! ## Witnesses

For each statement with hypotheses, states and operands that meet them, clause by clause, at the ends of the ranges they name. -/

theorem test_witness_EveryCommandCompletes :
    running.inReset = false ∧ running.sgt.holdTimer = none ∧ (∀ k, (running.ink.get k).pollTimer = none) ∧
      (∀ k, (running.refill k).pollAt = none ∧ (running.refill k).pumpDeadline = none ∧
        (running.refill k).stopDeadline = none) ∧
      running.svc.cycle.phase = .none ∧ running.svc.cycle.stepDeadline = none ∧ running.fdc.order = none ∧
      running.fdc.dryTimer = none ∧ running.flm.link = .free ∧ running.psw.outstanding = [] := by decide

theorem test_witness_ResetHoldsThePart :
    { running with inReset := true }.inReset = true ∧ running.inReset = false ∧ Instr.nop ≠ .reset ∧
      Instr.nop ≠ .resetRelease 0#3 := by decide

theorem test_witness_TimeBaseCountsPeriods :
    running.inReset = false ∧ (withTime running (2 ^ 64 - 2)).rpw.timeBase + 1 < 2 ^ 64 ∧ running.rpw.hasRoom = true ∧
      Instr.nop ≠ .timeBaseTick ∧ running.psw.writer = none ∧ running.rpw.statusSet ≠ [] ∧
      running.fillWriter.psw.writer ≠ none ∧
      idleWriter.rpw.statusSet = [] ∧ ∀ e ∈ idleWriter.rpw.ordered, e.taken = true := by decide

theorem test_witness_SlotWritesPostSlots :
    running.inReset = false ∧ 0 < running.psw.cCredits ∧
      malformed (write (control + 0x3F0) 16).addr 16 = false ∧
      running.psw.inControl (write (control + 0x3F0) 16).addr.toNat = true ∧
      controlOffset (write (control + 0x3F0) 16).addr.toNat = 0x3F0 ∧
      0x3F0 + (write (control + 0x3F0) 16).bytes.length ≤ 0x400 ∧ 0 < (write (control + 0x3F0) 16).bytes.length ∧
      running.cmi.slots.get 15 ≠ .replyPending ∧
      ({ running.cmi with slots := running.cmi.slots.set 15 .replyPending } : Intake).slots.get 15 = .replyPending := by
  decide

/-- A journal record waiting, and no room in the ordered list. -/
def waitingRecord : OrderedEntry := { body := .journal (.inkShortfall 0 1) 0, fence := 0, taken := false }
def fullList : Chip := running.onRpw fun w => { w with ordered := List.replicate 32 waitingRecord }

/-- The next slot is POSTED. -/
def posted (x : Chip) : Chip := x.onCmi fun i => { i with slots := i.slots.set 0 .posted }

theorem test_witness_slots_are_taken :
    running.cmi.slots.get running.cmi.nextSlot ≠ .posted ∧
      (posted running).cmi.slots.get (posted running).cmi.nextSlot = .posted ∧
      (posted running).rpw.ordered.length + 0 < 32 ∧
      32 ≤ (posted fullList).rpw.ordered.length ∧
      ((posted running).carryOut (decodeSlot ((posted running).cmi.shadow 0))).2.detail < 256 := by decide

theorem test_witness_ReadIndexWriteMovesTheReadIndex :
    running.inReset = false ∧ 0 < running.psw.cCredits ∧ malformed (write (control + 0x400) 16).addr 16 = false ∧
      running.psw.inControl (write (control + 0x400) 16).addr.toNat = true ∧
      controlOffset (write (control + 0x400) 16).addr.toNat = 0x400 ∧
      firstWordEnabled (write (control + 0x400) 16) = true := by decide

theorem test_witness_ControllerWriteIsCounted :
    malformed (write 0 16).addr 16 = false ∧
      running.psw.window (write 0 16).addr.toNat = .plain ∧
      (withBuffers running freeBuffer).psw.window (write 0 16).addr.toNat = .swath ∧
      running.psw.inControl (write (control + 0x410) 16).addr.toNat = true ∧
      0x400 < controlOffset (write (control + 0x410) 16).addr.toNat ∧
      (withBuffers running freeBuffer).sgt.buffers[0]? = some freeBuffer ∧
      (withSwath running (swath .bound)).sgt.buffers[0]? = some boundBuffer ∧
      ((withSwath running (swath .bound)).sgt.swaths.find? fun a => a.buffer == 0) = some (swath .bound) ∧
      ((withBuffers running freeBuffer).psw.bufferAt (write 0 16).addr.toNat).1 = 0 := by decide

theorem test_witness_MalformedRequestsAreStopped :
    running.inReset = false ∧ 0 < running.psw.cCredits ∧ 0 < running.psw.hCredits ∧
      malformed (write 8 16).addr 16 = true ∧ malformed (read 0 0).addr 0 = true := by decide

theorem test_witness_RequestsNeedACredit :
    (running.onPsw fun p => { p with cCredits := 0, hCredits := 0 }).inReset = false ∧
      (running.onPsw fun p => { p with cCredits := 0, hCredits := 0 }).psw.cCredits = 0 ∧
      (running.onPsw fun p => { p with cCredits := 0, hCredits := 0 }).psw.hCredits = 0 ∧
      0 < running.psw.cCredits ∧ 0 < running.psw.hCredits ∧ malformed (read 0 64).addr 64 = false ∧
      malformed (write 0 16).addr 16 = false := by decide

theorem test_witness_HeadReadIsClassified :
    running.inReset = false ∧ 0 < running.psw.hCredits ∧ malformed (read 0 64).addr 64 = false ∧
      running.psw.window 0 ≠ .swath ∧ (withBuffers running freeBuffer).psw.window 0 = .swath ∧
      (withSwath running (swath .bound)).nextRecord = none ∧
      (withSheet (withSwath running (swath .bound)) (sheet .ready)).nextRecord = some (swath .bound) ∧
      (withSheet (withSwath running (swath .armed)) (sheet .ready)).nextRecord = some (swath .armed) := by decide

/-- Ports with one request in a forward queue. -/
def asking (head controller : List Forward) (w : Option WriterWrite) : Chip :=
  running.onPsw fun p => { p with hQueue := head, cQueue := controller, writer := w }

theorem test_witness_ArbiterChoosesByItsRules :
    (asking [.write (write 0 16)] [] none).psw.hReady = true ∧ (asking [] [.write (write 0 16)] none).psw.cReady = true ∧
      (asking [] [] (some { body := .status 0 [], fence := 0 })).psw.writerReady = true ∧
      (asking [] [] (some { body := .status 0 [], fence := 1 })).psw.writerReady = false ∧
      ((asking [.read 0 0#34 64] [] none).onPsw fun p =>
        { p with outstanding := List.replicate 31 { port := .cPort, id := 0 } }).psw.hReady = true ∧
      ((asking [.read 0 0#34 64] [] none).onPsw fun p =>
        { p with outstanding := List.replicate 32 { port := .cPort, id := 0 } }).psw.hReady = false := by decide

/-- What the arbiter chooses in the part's ports once the writer's queue is filled. -/
def chosen (x : Chip) : Option Source := x.fillWriter.psw.choose

theorem test_witness_ArbiterGrantForwardsOneRequest :
    running.inReset = false ∧ chosen idleWriter = none ∧
      chosen (asking [.write (write 0 16)] [] none) = some .head ∧
      chosen (asking [.read 0 0#34 64] [] none) = some .head ∧
      chosen (idleWriter.onPsw fun p => { p with cQueue := [.write (write 0 16)] }) = some .controller ∧
      chosen (idleWriter.onPsw fun p => { p with cQueue := [.read 0 0#34 64] }) = some .controller ∧
      chosen (asking [] [] (some { body := .status 12 [], fence := 0 })) = some .writer ∧
      chosen (asking [] [] (some { body := .ordered (.reply 15 []), fence := 0 })) = some .writer ∧
      chosen (asking [] [] (some { body := .ordered (.journal (.inkShortfall 0 1) 0), fence := 0 })) = some .writer := by
  decide

/-- One H-port read of 16 bytes issued, as the first of the outstanding list. -/
def issued (x : Chip) : Chip :=
  x.onPsw fun p => { p with
    outstanding := [{ port := .hPort, id := 0 }]
    hInFlight := [{ id := 0, tag := 0, addr := 0#34, len := 16, phase := .issued }] }

def noted (x : Chip) (offset : Nat) : Chip :=
  x.onSgt fun g => { g with notes := [{ id := 0, swath := 0, offset := offset, len := 16 }] }

/-- A full ordered list whose first record is at the memory port, and a SET ROLL of roll 1 waiting in the next slot. -/
def waitingTake : Chip :=
  let x := (posted idleWriter).onCmi fun i =>
    { i with shadows := i.shadows.set 0 (shadowOf (encodeSlot (.setRoll (rollArgs 1)))) }
  { x with
    psw := { x.psw with writer := some { body := .ordered waitingRecord.body, fence := 0 } }
    rpw := { x.rpw with ordered := { waitingRecord with taken := true } :: List.replicate 31 waitingRecord } }

/-- The forwarding of a journal record marks HEADER before the take of the freed place marks ROLL 1 (R161, R168, R170). -/
theorem test_header_is_marked_before_the_take : (after .arbiterGrant waitingTake).rpw.statusSet = [0, 7] := by decide

def data : List Byte := List.replicate 16 0xFF#8

theorem test_witness_MemoryAnswersAPlainRead :
    (issued running).inReset = false ∧ (issued running).psw.outstanding = [{ port := .hPort, id := 0 }] ∧
      (((issued running).psw.inFlight .hPort).find? fun e => e.id == 0) =
        some { id := 0, tag := 0, addr := 0#34, len := 16, phase := .issued } ∧
      answerFits (.good data) 16 = true ∧ answerFits .fault 16 = true ∧
      ((issued running).sgt.notes.find? fun n => n.id == 0) = none := by decide

theorem test_witness_MemoryAnswersASwathRead :
    (noted (issued (withSwath running (swath .firing))) 0).inReset = false ∧
      ((noted (issued running) 0).sgt.notes.find? fun m => m.id == 0) =
        some { id := 0, swath := 0, offset := 0, len := 16 } ∧
      ((withSwath running (swath .firing)).sgt.swaths.find? fun r => r.id == 0) = some (swath .firing) ∧
      (running.sgt.swaths.find? fun r => r.id == 0) = none ∧
      ¬ (0 ≤ 40 * 768 - 1 ∧ 40 * 768 - 1 < 0 + 16) ∧
      (40 * 768 - 16 ≤ 40 * 768 - 1 ∧ 40 * 768 - 1 < 40 * 768 - 16 + 16) := by decide

/-- The swath's last bytes are delivered: the swath is complete. -/
theorem test_last_read_completes :
    (after (.memoryAnswer (.good data)) (noted (issued (withSwath running (swath .firing))) (40 * 768 - 16))).sgt.swaths = [] := by
  decide

def outEntry : OutEntry := { channel := 0, nozzle := 1023, origin := .check, time := 0, coverage := .uncovered }
def withOut (x : Chip) : Chip := x.onNmn fun n => { n with outList := [outEntry] }

theorem test_witness_NoDeliveredMarkOnAnOutNozzle :
    0 < data.length ∧ 7 < 8 ∧ outEntry ∈ (withOut running).nmn.outList ∧ outEntry.channel = channelOf (127 + 0) ∧
      outEntry.nozzle = 8 * ((127 + 0) % 128) + 7 ∧ (outMask (withOut running).nmn.outList 0 127).getLsbD 7 = true ∧
      (outMask (withOut running).nmn.outList 0 127).getLsbD 6 = false := by decide

/-- The part idle, the platen sheet PRINTING its FIRING swath while the merge is held. -/
def firingHeld : Chip :=
  let x := withSheet (withSwath idleWriter (swath .firing)) { sheet .ready with state := .printing }
  x.onNmn fun n => { n with held := true }

/-- The swaths done rise before the hold ends: SHEETS is pending before NOZZLES (R38, R168). -/
theorem test_completion_marks_sheets_before_nozzles :
    ((firingHeld.complete 0).rpw.statusSet.filter fun n => n == 9 || n == 12) = [9, 12] := by decide

/-- A BOUNDARY entry in the list while the first swath of a READY sheet fires. -/
def boundaryWaits (h : Sheet) : Chip :=
  (withProgram (withSheet (withSwath idleWriter (swath .firing)) h) { program with urgency := .boundary }).onSvc fun v =>
    { v with requests := [{ program := 0, cause := .command, time := 0 }] }

/-- The sheet is PRINTING after its first completion, so the entry stays as it was and SERVICE is not pending; after its last it
is DRYING, the entry is eligible, and SERVICE is pending behind SHEETS (R104, R116, R117). -/
theorem test_completion_judges_eligibility_on_what_it_leaves :
    11 ∉ ((boundaryWaits (sheet .ready)).complete 0).rpw.statusSet ∧
      (((boundaryWaits { sheet .ready with swathCount := 1 }).complete 0).rpw.statusSet.filter fun n => n == 9 || n == 11) =
        [9, 11] := by decide

/-- A removal that fires a SHEETS trigger marks SHEETS, then SERVICE, then GATE, by its steps 3 to 5 (R124). -/
theorem test_removal_marks_in_the_order_of_its_steps :
    ((withProgram (withSheet idleWriter (sheet .queued)) { program with trigger := .sheets }).removeSheet (sheet .queued)
      .cancelled).rpw.statusSet = [9, 11, 10] := by decide

/-- RESTART's removals mark GATE as the gate finds the next swath, before the drop of a later sheet's record (R124, R125). -/
theorem test_restart_marks_gate_at_each_removal :
    let x := (withSheet idleWriter (sheet .queued)).onFdc fun d => { d with sheets := [sheet .queued, { sheet .queued with id := 8 }] }
    let y := x.onRpw fun w => { w with ordered := [], capacity := 1 }
    y.restartSheets.rpw.statusSet = [9, 10, 0] ∧ y.restartSheets.fdc.sheets = [] := by decide

/-- FLDA low through eight further slots and through all nine (R145). -/
theorem test_release_after_low_slots :
    releaseEvents 8 = [.recoverySlots 8, .releaseMark] ∧ releaseEvents 9 = [.recoverySlots 9, .releaseByUnit] := by decide

/-- The flag of the late write is set before its record is dropped: GATE is pending before HEADER (R6, R8, R171). -/
theorem test_late_write_marks_gate_before_header :
    (((withSwath idleWriter (swath .bound)).onRpw fun w => { w with capacity := 0 }).lateWrite 0 boundBuffer 0#34 [(0, 1#8)]
      ).rpw.statusSet = [10, 0] := by decide

/-- The pair 1,022 and 1,023 out: the removal of one reports both coverages (R81). -/
theorem test_removal_reports_both_coverages :
    let x := running.onNmn fun n => { n with outList := [{ outEntry with nozzle := 1022 }, outEntry] }
    (x.removeOut outEntry).rpw.ordered.map OrderedEntry.body =
      [.journal (.nozzle
        { reason := .removed, channel := 0, nozzle := some 1023, origin := some .check, coverage := some .uncovered
          partnerCoverage := some .substituted, entries := 1, mask := none, count := none, lowest := none
          timeAdded := some 0 }) 0] := by decide

theorem test_witness_NextSwathByTheTable :
    (withSwath running (swath .armed)).liveSwath = some (swath .armed) ∧ running.liveSwath = none ∧
      (withSheet running (sheet .ready)).platen = some (sheet .ready) ∧ running.platen = none := by decide

/-- A platen sheet POSITIONED for its first swath, which is bound. -/
def positioned (location : Location) : Chip :=
  let x := withSheet (withSwath running (swath .bound)) (sheet .ready)
  { x with
    fdc := { x.fdc with feed := .positioned, positioned := some 0 }
    svc := { x.svc with location := location } }

theorem test_witness_ArmingTestByItsConditions :
    (positioned .printSide).cmi.partState = .running ∧ (positioned .printSide).liveSwath = none ∧
      (positioned .printSide).nextRecord = some (swath .bound) ∧ (positioned .printSide).platen = some (sheet .ready) ∧
      (positioned .printSide).fdc.positioned = some 0 ∧ (positioned .printSide).sgt.claim = .free ∧
      (positioned .printSide).hasEligible = false ∧ (positioned .printSide).canReserve (.all 0) = true ∧
      (positioned .printSide).canReserve (.all 1) = false ∧ (positioned .capped).sgt.wakeAskedFor = none ∧
      ((positioned .station).onSgt fun g => { g with wakeAskedFor := some 0 }).sgt.wakeAskedFor = some 0 ∧
      (positioned .stranded).svc.location = .stranded := by decide

theorem test_witness_LevelStatusByTheTable :
    Account.reset.inkType = 0 ∧ account.inkType ≠ 0 ∧ account.levelState = .known ∧
      { account with level := account.floor }.level ≤ account.floor ∧
      account.floor < { account with level := account.floor + 1 }.level ∧
      { account with level := account.lowMark - 1 }.level < account.lowMark ∧
      account.lowMark ≤ { account with level := account.lowMark }.level ∧
      { account with levelState := .unknown }.levelState = .unknown := by decide

theorem test_witness_AvailableInkOfAChannel :
    account.inkType ≠ 0 ∧ account.levelState = .known ∧ account.available = 7000000 ∧
      { account with level := account.floor }.available = 0 ∧ Account.reset.inkType = 0 ∧
      account.available < 7000001 ∧ 7000001 ≠ 0 := by decide

theorem test_witness_ReservationsAreGrantedAndReturned :
    (withAccount running account).canReserve ⟨7000000, 0, 0, 0, 0, 0⟩ = true ∧
      (withAccount running account).canReserve ⟨7000001, 0, 0, 0, 0, 0⟩ = false ∧
      (⟨7000001, 0, 0, 0, 0, 0⟩ : Six Nat).get 0 ≠ 0 ∧
      ((withAccount running { account with reserved := 5, holder := .prime }).account 0).holder = .prime ∧
      (∀ k, (running.account k).holder ≠ .prime) := by decide

/-- A reservation released and granted again in the same amount, which leaves the account as it was, marks its CHANNEL record. -/
def regranted (x : Chip) : Chip := (x.release .prime).reserve .prime ⟨5, 0, 0, 0, 0, 0⟩

theorem test_equal_grant_marks_the_record :
    let x := idleWriter.onAccount 0 fun _ => { account with reserved := 5, holder := .prime }
    let held := x.setRemaining .prime 0 5
    (regranted held).account 0 = held.account 0 ∧ held.rpw.statusSet = [] ∧ (regranted held).rpw.statusSet = [channelStatus 0] := by
  decide

theorem test_witness_ConsumptionLowersTheLevel :
    (running.account 1).inkType = 0 ∧ ((withAccount running account).account 0).inkType ≠ 0 ∧ (1 : Channel) ≠ 0 ∧
      InkSource.swath.isHolder .swath = true ∧ InkSource.prime.isHolder .prime = true ∧
      InkSource.swath.isHolder .prime = false ∧
      ((withAccount running { account with level := 0 }).consume 0 1000 .swath).rpw.ordered.map OrderedEntry.body =
        [.journal (.inkShortfall 0 1) 0] ∧
      (account.remainder + 999) / 1000 = 0 := by
  decide

theorem test_witness_RollChoiceByTheTable :
    withPaper.fdc.threaded = .roll .one ∧ (sheet .queued).preference = .either ∧
      withPaper.fdc.roll1.enabled = true ∧ withPaper.fdc.roll1.out = false ∧
      withPaper.fdc.roll1.mediaType = (sheet .queued).mediaType ∧ (sheet .queued).length ≤ withPaper.fdc.roll1.remaining ∧
      withPaper.fdc.roll2.enabled = false ∧
      (withSheet running (sheet .queued)).admissionCandidate = some (sheet .queued) ∧
      running.fdc.chooseRoll (sheet .queued) = none := by decide

theorem test_witness_AdmissionTestOfTheOldestSheet :
    (withSheet withPaper (sheet .queued)).cmi.partState = .running ∧ (withSheet withPaper (sheet .queued)).platen = none ∧
      (withSheet withPaper (sheet .queued)).fdc.feed = .idle ∧
      (withSheet withPaper (sheet .queued)).fdc.sheets = [sheet .queued] ∧
      withPaper.fdc.chooseRoll (sheet .queued) = some .one ∧ running.fdc.chooseRoll (sheet .queued) = none ∧
      (sheet .queued).estimate = none ∧ (∀ k, (Six.all 0).get k * 1000 ≤ (withPaper.ink.get k).findable) ∧
      (withPaper.ink.get 5).findable < (⟨0, 0, 0, 0, 0, 1⟩ : Six Nat).get 5 * 1000 ∧
      (∀ j : Channel, j.val < 5 → (⟨0, 0, 0, 0, 0, 1⟩ : Six Nat).get j * 1000 ≤ (withPaper.ink.get j).findable) := by
  decide

/-- A loaded program asked for. -/
def withRequest (x : Chip) : Chip :=
  let y := withProgram x program
  { y with svc := { y.svc with requests := [{ program := 0, cause := .command, time := 0 }] } }

theorem test_witness_OldestEligibleEntryTakesTheClaim :
    (withRequest running).svc.cycle.state = .none ∧ (withRequest running).sgt.claim = .free ∧
      (withRequest running).eligible { program := 0, cause := .command, time := 0 } = true ∧
      (withRequest running).hasEligible = true ∧
      ((withRequest running).onSgt fun g => { g with claim := .swath }).hasEligible = true ∧
      (running.onCycle fun c => { c with state := .claiming }).hasEligible = false ∧
      (withCycle running .running .ordered).svc.cycle.state.busy = true := by decide

/-- An entry of each kind while a sheet prints, its budget at the program's duration and below it, and with no sheet in progress. -/
theorem test_eligibility :
    let entry : Request := { program := 0, cause := .command, time := 0 }
    let prints := withProgram (withSheet running (sheet .printing)) program
    (prints.onSvc fun v => { v with budget := 1000 }).eligible entry = true ∧
      (prints.onSvc fun v => { v with budget := 999 }).eligible entry = false ∧
      (boundaryWaits (sheet .ready)).eligible entry = false ∧
      (boundaryWaits (sheet .ready)).hasEligible = false ∧
      (withProgram running { program with urgency := .boundary }).eligible entry = true := by decide

theorem test_witness_OfferedOrdersJoinTheQueue :
    running.flm.queue.length ≤ 16 ∧ running.flm.link = .free ∧ (LinkOrder.readTag 0).isReadTag = true ∧
      (LinkOrder.stop 0).isReadTag = false ∧
      LinkOrder.readTag 0 ∈ { running.flm with queue := List.replicate 16 (.readTag 0) }.queue ∧
      { running.flm with queue := List.replicate 16 (.readTag 0) }.queue.length = 16 ∧
      (carrying running (.stop 0)).flm.link ≠ .free ∧ (LinkOrder.stop 0).class < (LinkOrder.readTag 0).class := by
  decide

/-- A full order queue, and the orders each block has had declined. -/
def fullLink (feed service ink : List LinkOrder) : LinkMaster :=
  let room := fun l : List LinkOrder => ({ waiting := !l.isEmpty, declined := l } : Room)
  { running.flm with
    queue := List.replicate 16 (.readTag 0), feedRoom := room feed, serviceRoom := room service, inkRoom := room ink }

/-- A freed place goes to the feed controller's order, then to the service controller's, then to the ink controller's. -/
theorem test_witness_places_granted :
    let feed : List LinkOrder := [.feed .cut 0, .feed .rewind 1]
    let service : List LinkOrder := [.station .cap 0]
    let ink : List LinkOrder := [.stop 5]
    (fullLink feed service ink).feedRoom.waiting = true ∧ (fullLink feed service ink).feedRoom.declined = feed ∧
      (fullLink feed service ink).grantPlace.feedRoom.waiting = true ∧
      (fullLink [] service ink).feedRoom.declined = [] ∧ (fullLink [] service ink).serviceRoom.declined = service ∧
      (fullLink [] [] ink).serviceRoom.waiting = false ∧ (fullLink [] [] ink).inkRoom.declined = ink ∧
      (fullLink [] [] []).inkRoom.waiting = false ∧ ((fullLink [] [] []).decline (.stop 5)).inkRoom.declined = ink := by
  decide

/-! Each statement about a command of the ring assumes that the next slot can be written and taken; ConfigureChecksAndEffects and
RestartClearsTheWork assume nothing more, QueueSheetChecksAndEffects and ClearJamByTheTable that the part is RUNNING. -/

theorem test_witness_ready_unconfigured : (Chip.reset 7#3).readyForCommand ∧ (Chip.reset 7#3).cmi.partState = .unconfigured := by
  unfold Chip.readyForCommand; decide

theorem test_witness_ready_running : running.readyForCommand ∧ running.cmi.partState = .running := by
  unfold Chip.readyForCommand; decide

/-- An ARMED swath and a read held for it; a cycle in each state that RESTART meets. -/
theorem test_witness_RestartClearsTheWork :
    (withSwath running (swath .armed)).readyForCommand ∧
      (after .restart (withSwath running (swath .armed))).sgt.swaths = [] ∧
      running.svc.cycle.state = .none ∧ (withCycle running .claiming .none).svc.cycle.state = .claiming ∧
      (withCycle running .running .ordered).svc.cycle.state = .running ∧
      (withCycle running .recovering .ordered).svc.cycle.state = .recovering ∧
      (withCycle running .abandoning .ordered).svc.cycle.state = .abandoning ∧
      (withCycle running .running .ordered).svc.nextStep = 0 := by unfold Chip.readyForCommand; decide

theorem test_witness_NopUnknownKindAndUnconfigured :
    definedKinds.contains 0x04#8 = false ∧ definedKinds.contains 0x0F#8 = false ∧ definedKinds.contains 0x19#8 = false ∧
      (programArgs 0).wellFormed = true := by decide

theorem test_witness_SetChannelChecksAndEffects :
    5 < (channelArgs 6#8).channel.toNat ∧ (channelArgs 5#8).channel.toNat = (5 : Channel).val ∧
      (after (.setChannel (channelArgs 5#8)) running).flm.link = .carrying (.level 5) 0 := by decide

theorem test_witness_SetRollChecksAndEffects :
    (rollArgs 0).roll.toNat ≠ 1 ∧ (rollArgs 3).roll.toNat ≠ 2 ∧ (rollArgs 1).roll.toNat = RollNo.one.number ∧
      (rollArgs 2).roll.toNat = RollNo.two.number ∧
      (withSheet running (sheet .ready)).platen = some (sheet .ready) := by decide

theorem test_witness_SwathReadyChecksAndEffects :
    (withBuffers running freeBuffer).readyForCommand ∧
    (withBuffers running freeBuffer).sgt.buffers.length ≤ (swathArgs 2).buffer.toNat ∧
      (withBuffers running boundBuffer).sgt.buffers[0]? = some boundBuffer ∧ boundBuffer.bound = true ∧
      (withBuffers running freeBuffer).sgt.buffers[(swathArgs 1).buffer.toNat]? = some freeBuffer ∧ freeBuffer.bound = false ∧
      (∀ h ∈ (withBuffers running freeBuffer).fdc.sheets, h.id ≠ (swathArgs 1).sheet.toNat) ∧
      ((withSheet (withBuffers running freeBuffer) (sheet .queued)).fdc.sheets.find? fun h =>
        h.id == (swathArgs 1).sheet.toNat) = some (sheet .queued) := by unfold Chip.readyForCommand; decide

theorem test_witness_CancelSheetByTheSheetState :
    (∀ h ∈ running.fdc.sheets, h.id ≠ (7#16).toNat) ∧
      (withSheet running (sheet .queued)).readyForCommand ∧
      (∀ a ∈ [SheetState.queued, .waiting, .loading, .ready, .printing, .drying, .cutting, .clearing, .halted],
        ((withSheet running (sheet a)).fdc.sheets.find? fun h => h.id == (7#16).toNat) = some (sheet a)) ∧
      ((withSheet running { sheet .loading with cancel := true }).fdc.sheets.find? fun h => h.id == (7#16).toNat) =
        some { sheet .loading with cancel := true } ∧
      (withSheet (withSwath running (swath .armed)) (sheet .printing)).sgt.swaths.map Swath.state = [.armed] ∧
      ((withSheet (withSwath running (swath .firing)) (sheet .printing)).sgt.swaths.find? fun r =>
        r.sheet == 7 && r.state == .firing) = some (swath .firing) := by unfold Chip.readyForCommand; decide

theorem test_witness_SetNozzleChecksAndEffects :
    5 < (6#8).toNat ∧ (5#8).toNat = (5 : Channel).val ∧
      (after (.setNozzle { channel := 5, action := 1, nozzle := 1023 }) running).nmn.outList.length = 1 ∧
      (withOut running).nmn.outList.Pairwise (fun a b => a.channel < b.channel ∨ a.channel = b.channel ∧ a.nozzle < b.nozzle) ∧
      (∀ a ∈ (withOut running).nmn.outList, a.channel ≠ outEntry.channel ∨ a.nozzle ≠ 1022) ∧
      (running.onNmn fun n => { n with held := true }).nmn.held = true ∧ running.nmn.held = false := by decide

/-- A report on channel 0: of two entries for nozzle 1,023 and two for a channel not in the mask, each counts once. -/
theorem test_witness_check_report :
    [(0, 1023)].map (fun e : Channel × Nat => (e.1.val, e.2)) =
      (distinctEntries [(0, 1023), (5, 0), (0, 1023), (5, 0)]).filter fun e =>
        decide (e.1 < 6 ∧ e.2 ≤ 1023 ∧ (1#8).getLsbD e.1 = true) := by decide

theorem test_witness_LoadAndRunProgram :
    (programArgs 7).wellFormed = true ∧ 7 < (programArgs 8).program.toNat ∧
      (programArgs 7).program.toNat = (7 : Fin 8).val ∧ 7 < (8#8).toNat ∧ (7#8).toNat = (7 : Fin 8).val ∧
      ((after (.loadProgram (programArgs 7)) running).program 7).isSome = true := by decide

/-- A read held for the bound swath of sheet 7, its hold timer run out. -/
def holding : Chip :=
  (positioned .printSide).onSgt fun g =>
    { g with holdTimer := some 0, holdQueue := [{ id := 0, tag := 0, addr := 0#34, len := 16, swath := 0 }] }

theorem test_witness_HoldTimerRunsOut :
    holding.inReset = false ∧ holding.sgt.holdTimer = some 0 ∧ 0 ≤ holding.rpw.timeBase ∧
      holding.sgt.holdQueue = [{ id := 0, tag := 0, addr := 0#34, len := 16, swath := 0 }] ∧
      (holding.sgt.swaths.find? fun a => a.id == 0) = some (swath .bound) ∧
      (∀ a ∈ [SheetState.queued, .waiting, .loading, .ready, .printing, .drying, .cutting, .clearing, .halted],
        ((withSheet running (sheet a)).fdc.sheets.find? fun h => h.id == 7) = some (sheet a)) ∧
      (after .holdTimerExpiry (onRoll1 holding)).fdc.feed = .clearing := by decide

/-- A refill of channel 0, all its times run out. -/
def refilling (state : RefillState) : Chip :=
  let x := withAccount running { account with refillState := state, transferRequested := 500 }
  (x.onRefill 0 fun _ =>
    { source := 9, pumpDeadline := some 0, moved := 100, stopCause := .none, stopDeadline := some 0, pollAt := some 0 }).onInk
    0 fun i => { i with pollTimer := some 0 }

theorem test_witness_PollsAreOfferedEachPeriod :
    running.inReset = false ∧ ((refilling .pumping).ink.get 0).pollTimer = some 0 ∧
      ((refilling .pumping).refill 0).pollAt = some 0 ∧
      (withCycle running .running (.polling 0)).svc.cycle.phase = .polling 0 ∧
      (withCycle running .running (.polling 0)).svc.cycle.state ≠ .abandoning ∧
      (withOrder running).fdc.order = some feedOrder ∧ feedOrder.pollAt = some 0 ∧ 0 ≤ running.rpw.timeBase := by decide

/-- A sheet drying, its time run out. -/
def drying (mode : CutMode) : Chip :=
  let x := withSheet running { sheet .drying with cutMode := mode }
  { x with fdc := { x.fdc with feed := .drying, dryTimer := some 0 } }

theorem test_witness_InkAndFeedTimersRunOut :
    ((refilling .pumping).account 0).refillState = .pumping ∧ ((refilling .pumping).refill 0).pumpDeadline = some 0 ∧
      ((refilling .stopping).account 0).refillState = .stopping ∧ ((refilling .stopping).refill 0).stopDeadline = some 0 ∧
      (withOrder running).fdc.order = some feedOrder ∧ feedOrder.deadline ≤ running.rpw.timeBase ∧
      (drying .cut).fdc.feed = .drying ∧ (drying .cut).fdc.dryTimer = some 0 ∧
      (drying .cut).platen = some (sheet .drying) ∧
      (drying .keepOn).platen = some { sheet .drying with cutMode := .keepOn } ∧
      (after .dryTimerExpiry (drying .keepOn)).fdc.sheets = [] := by decide

/-- An IDLE program whose time has come, and a PRINT TIME one. -/
def idleDue : Chip :=
  (withTime (withProgram running { program with parameter := 10 }) 10000000).onSvc fun v => { v with idleStretch := some 0 }
def printTimeDue : Chip :=
  (withTime (withProgram running { program with trigger := .printTime, parameter := 1 }) 60000000).onSvc fun v =>
    { v with firingPeriod := some 0 }

theorem test_witness_ServiceTimersRunOut :
    (withCycle running .recovering (.waiting 0)).svc.cycle.state = .recovering ∧
      (withCycle running .running (.waiting 0)).svc.cycle.stepDeadline = some 0 ∧
      (withCycle running .running (.waiting 0)).svc.cycle.phase = .waiting 0 ∧
      (withCycle running .running .reserving).svc.cycle.phase = .reserving ∧
      (withCycle running .running .reserving).svc.cycle.reservationDeadline = some 0 ∧
      idleDue.program 0 = some { program with parameter := 10 } ∧ idleDue.svc.idleStretch ≠ none ∧
      (idleDue.svc.counters.get 0).idleFired = false ∧
      (idleDue.svc.counters.get 0).idleMark + 10 * 1000000 ≤ idleDue.rpw.timeBase ∧
      idleDue.svc.requests = [] ∧ idleDue.svc.cycle.state.busy = false ∧
      printTimeDue.program 0 = some { program with trigger := .printTime, parameter := 1 } ∧
      printTimeDue.svc.firingPeriod = some 0 ∧
      1 * 60000000 ≤ (printTimeDue.svc.counters.get 0).firing + (printTimeDue.rpw.timeBase - 0) := by decide

theorem test_witness_FramesEndedByATimeout :
    (withTime (carrying running (.stop 0)) 20000).inReset = false ∧
      (withTime (carrying running (.stop 0)) 20000).flm.link = .carrying (.stop 0) 0 ∧
      0 + 20000 ≤ (withTime (carrying running (.stop 0)) 20000).rpw.timeBase := by decide

/-- However long the line check has waited, the busy hold has passed its limit 40,050 µs after the frame began. -/
theorem test_witness_busy_hold :
    0 + min (Config.heldAtLineCheck (withTime (carrying running (.stop 0)) 40050).flm.frames) 20000 + 50 + 20000 ≤
      (withTime (carrying running (.stop 0)) 40050).rpw.timeBase := by
  have h : (withTime (carrying running (.stop 0)) 40050).rpw.timeBase = 40050 := by decide
  rw [h]
  omega

/-! Replies whose bytes, length and check byte included, sum to 255 modulo 256. -/

def levelReply : List Byte := [4, 0, 0, 0x13, 0x88, 96]
def pumpReply (state : Byte) : List Byte := [6, state, 0, 0, 0, 0, 100, 149 - state]
def stationReply (state : Byte) : List Byte := [2, state, 3, 250 - state]
def feedReply (state : Byte) : List Byte := [6, state, 2, 0, 0, 0, 100, 147 - state]
def pageReply (more : Byte) : List Byte := [5, more, 1, 0, 0, 9, 240 - more]

theorem test_witness_FrameOutcomeByItsExchange :
    (LinkOrder.stop 0).hasReply = false ∧ (LinkOrder.level 0).hasReply = true ∧
      (3 < (LinkOrder.transfer 0 500).writeData.length) ∧
      (LinkOrder.level 0).lengthOk 3 = false ∧ (LinkOrder.level 0).lengthOk 4 = true ∧
      ((List.range 6).map fun i => (replyByte [4, 0, 0, 0, 0, 0] i).toNat).sum % 256 ≠ 255 ∧
      (tagReply.map BitVec.toNat).sum % 256 = 255 ∧ (levelReply.map BitVec.toNat).sum % 256 = 255 ∧
      ((pumpReply 2).map BitVec.toNat).sum % 256 = 255 ∧ ((stationReply 1).map BitVec.toNat).sum % 256 = 255 ∧
      ((feedReply 1).map BitVec.toNat).sum % 256 = 255 ∧ ((pageReply 1).map BitVec.toNat).sum % 256 = 255 ∧
      PumpState.ofCode 2 ≠ none ∧ UnitState.ofCode 1 ≠ none ∧
      ((pumpReply 4).map BitVec.toNat).sum % 256 = 255 ∧ ((stationReply 3).map BitVec.toNat).sum % 256 = 255 ∧
      ((feedReply 3).map BitVec.toNat).sum % 256 = 255 := by decide

/-- A TRANSFER of 500 µL in channel 2 that the unit refuses at its third data byte, FLDA low through two further slots. -/
theorem test_wire_of_a_refused_transfer :
    2 < (LinkOrder.transfer 2 500).writeData.length ∧
      (LinkOrder.transfer 2 500).wire { exchange := .dataNak 2, lowSlots := 2 } =
        [.startMark, .sent 0x20#8 true, .orderMark, .sent 0x12#8 true, .sent 2#8 true, .sent 0#8 true, .sent 0#8 false,
          .recoverySlots 2, .releaseMark] := by decide

/-- The first twelve bytes of a journal record, and ATTN with and without an unread record. -/
theorem test_record_opens_and_attn :
    ((JournalRecord.lateWrite 0x102 1 2 3).bytes 0x0A0B).take 12 =
        [5#8, 0#8, 0x02#8, 0x01#8, 0x0B#8, 0x0A#8, 0#8, 0#8, 0#8, 0#8, 0#8, 0#8] ∧
      running.attn = false ∧ (running.onRpw fun w => { w with writeIndex := 1#32 }).attn = true := by decide

/-- CHECK PAGE replies of no entry, of eight, and with a count that is not that of the entries. -/
theorem test_witness_check_pages :
    (([2, 0, 0, 253] : List Byte).map BitVec.toNat).sum % 256 = 255 ∧
      (([26, 1, 8] ++ (List.replicate 8 ((0#8, 0#8, 9#8))).flatMap (fun e => [e.1, e.2.1, e.2.2]) ++ [148] : List Byte).map
        BitVec.toNat).sum % 256 = 255 ∧
      (LinkOrder.checkPage 0 0).outcome (.answered [2, 0, 0, 253]) = .done (.page false []) ∧
      (LinkOrder.checkPage 0 0).outcome (.answered [2, 0, 1, 252]) = .checkError := by decide

theorem test_witness_ReadTagOutcomeIsTaken :
    (carrying running (.readTag 5)).inReset = false ∧ (carrying running (.readTag 5)).flm.link = .carrying (.readTag 5) 0 ∧
      (LinkOrder.readTag 5).outcome (.answered tagReply) = .done (.tag 1 9 10000 5000) ∧
      (running.cartridge 5).state = .noCartridge ∧
      ((after (.readTagOutcome (answered tagReply)) (carrying running (.readTag 5))).cartridge 5).state ≠ .noCartridge ∧
      ((after (.readTagOutcome (answered tagReply)) (carrying running (.readTag 5))).cartridge 5).serial = 9 ∧
      (running.onCartridge 5 fun c => { c with state := .active, serial := 10 }).cartridge 5 =
        { (running.cartridge 5) with state := .active, serial := 10 } ∧
      (LinkOrder.readTag 5).outcome .selectNak = .absent ∧ (LinkOrder.readTag 5).outcome .orderNak = .refused ∧
      (LinkOrder.readTag 5).outcome (.answered []) = .checkError := by decide

theorem test_witness_LevelAndDebitOutcomesAreTaken :
    (carrying running (.level 0)).flm.link = .carrying (.level 0) 0 ∧
      (LinkOrder.level 0).outcome (.answered levelReply) = .done (.sensed 5000) ∧
      (LinkOrder.level 0).outcome (.answered []) = .checkError ∧
      (carrying running (.debit 0 100 9)).flm.link = .carrying (.debit 0 100 9) 0 ∧
      (LinkOrder.debit 0 100 9).outcome (.answered levelReply) = .done (.remaining 5000) ∧
      (LinkOrder.debit 0 100 9).outcome .selectNak = .absent := by decide

theorem test_witness_RefillOutcomesAreTaken :
    (carrying (refilling .queued) (.transfer 0 500)).inReset = false ∧
      (carrying (refilling .queued) (.transfer 0 500)).flm.link = .carrying (.transfer 0 500) 0 ∧
      ((refilling .queued).account 0).refillState = .queued ∧ ((refilling .idle).account 0).refillState ≠ .queued ∧
      (LinkOrder.transfer 0 500).outcome (.answered []) = .done .none ∧
      (LinkOrder.transfer 0 500).outcome (.dataNak 3) = .refused ∧
      (carrying (refilling .stopping) (.stop 0)).flm.link = .carrying (.stop 0) 0 ∧
      (LinkOrder.stop 0).outcome (.answered []) = .done .none ∧ (LinkOrder.stop 0).outcome .selectNak = .absent ∧
      (carrying (refilling .pumping) (.pumpStatus 0)).flm.link = .carrying (.pumpStatus 0) 0 ∧
      (LinkOrder.pumpStatus 0).outcome (.answered (pumpReply 2)) = .done (.pump .done 0 100) ∧
      (LinkOrder.pumpStatus 0).outcome (.answered []) = .checkError := by decide

/-- A refill that has moved ink ends with its debt owed to the cartridge it came from. -/
theorem test_witness_MovedInkIsCreditedAndOwed :
    ((refilling .pumping).refill 0).moved ≠ 0 ∧ (refilling .pumping).owed 0 = none ∧
      ((refilling .pumping).creditMoved 0).owed 0 = some { serial := 9, amount := 100 } := by decide

/-- A debt of another serial is discarded with its record when ink of the source has moved. -/
theorem test_witness_debt_of_another_serial :
    let x := (refilling .pumping).onInk 0 fun i => { i with owed := some { serial := 8, amount := 3 } }
    x.owed 0 = some { serial := 8, amount := 3 } ∧ (x.creditMoved 0).owed 0 = some { serial := 9, amount := 100 } ∧
      (x.creditMoved 0).rpw.ordered.map OrderedEntry.body = [.journal (.inkUnposted 0 8 3) 0] := by decide

theorem test_witness_StationOutcomesAreTaken :
    (carrying (withCycle running .running .ordered) (.station (.check 1#8) 0)).inReset = false ∧
      (carrying (withCycle running .running .ordered) (.station (.check 1#8) 0)).flm.link =
        .carrying (.station (.check 1#8) 0) 0 ∧
      (withCycle running .running .ordered).svc.cycle.state.busy = true ∧
      (withCycle running .running .ordered).svc.nextStep = 0 ∧
      (withCycle running .abandoning .ordered).svc.cycle.state.busy = true ∧
      (LinkOrder.station (.check 1#8) 0).outcome (.answered []) = .done .none ∧
      (LinkOrder.station (.check 1#8) 0).outcome .orderNak = .refused ∧
      (carrying (withCycle running .running (.polling 0)) (.stationStatus 0)).flm.link = .carrying (.stationStatus 0) 0 ∧
      (withCycle running .running (.polling 0)).svc.cycle.phase = .polling 0 ∧
      (LinkOrder.stationStatus 0).outcome (.answered (stationReply 0)) = .done (.station .busy 3) ∧
      (LinkOrder.stationStatus 0).outcome (.answered (stationReply 1)) = .done (.station .done 3) ∧
      (LinkOrder.stationStatus 0).outcome (.answered (stationReply 2)) = .done (.station .fault 3) ∧
      (carrying (withCycle running .running (.paging 127)) (.checkPage 127 0)).flm.link = .carrying (.checkPage 127 0) 0 ∧
      (withCycle running .running (.paging 127)).svc.cycle.phase = .paging 127 ∧
      (LinkOrder.checkPage 127 0).outcome (.answered (pageReply 1)) = .done (.page true [(0, 9)]) ∧
      (LinkOrder.checkPage 127 0).outcome (.answered (pageReply 0)) = .done (.page false [(0, 9)]) ∧
      (LinkOrder.checkPage 127 0).outcome (.answered []) = .checkError := by decide

/-- The feed halted on a sheet, with the check of CLEAR JAM in progress. -/
def checking : Chip :=
  let x := withSheet running (sheet .halted)
  { x with fdc := { x.fdc with feed := .halted, check := some 0 } }

theorem test_witness_FeedOutcomesAreTaken :
    (carrying (withOrder running) (.feed .cut 0)).inReset = false ∧
      (carrying (withOrder running) (.feed .cut 0)).flm.link = .carrying (.feed .cut 0) 0 ∧
      (∀ p ∈ running.fdc.order, p.serial ≠ 0) ∧ (withOrder running).fdc.order = some feedOrder ∧ feedOrder.serial = 0 ∧
      (LinkOrder.feed .cut 0).outcome (.answered []) = .done .none ∧
      (LinkOrder.feed .cut 0).outcome .selectNak = .absent ∧ (LinkOrder.feed .cut 0).outcome .orderNak = .refused ∧
      (carrying (withOrder running) (.feedStatus 0)).flm.link = .carrying (.feedStatus 0) 0 ∧
      (LinkOrder.feedStatus 0).outcome (.answered (feedReply 0)) = .done (.feed .busy 2 100) ∧
      (LinkOrder.feedStatus 0).outcome (.answered (feedReply 1)) = .done (.feed .done 2 100) ∧
      (LinkOrder.feedStatus 0).outcome (.answered (feedReply 2)) = .done (.feed .fault 2 100) ∧
      (LinkOrder.feedStatus 0).outcome (.answered []) = .checkError ∧
      (carrying checking (.feedCheck 0)).flm.link = .carrying (.feedCheck 0) 0 ∧
      running.fdc.check ≠ some 0 ∧ checking.fdc.check = some 0 ∧ checking.platen = some (sheet .halted) ∧
      (LinkOrder.feedCheck 0).outcome (.answered (feedReply 2)) = .done (.feed .fault 2 100) ∧
      (LinkOrder.feedCheck 0).outcome (.answered (feedReply 1)) = .done (.feed .done 2 100) := by decide

theorem test_witness_EndOfAStep :
    (withCycle running .running .ordered).svc.cycle.state = .running ∧
      (withCycle running .running .ordered).closeStep.svc.cycle.kind = some (.program 0) ∧ StepOutcome.timeout ≠ .done ∧
      ((withCycle running .running .ordered).onCycle fun c => { c with kind := some .wake }).closeStep.svc.cycle.kind =
        some .wake ∧
      (withCycle running .recovering .ordered).svc.cycle.state = .recovering ∧
      (withCycle running .recovering .ordered).closeStep.svc.cycle.failure = some .timeout ∧
      (withCycle running .abandoning .ordered).svc.cycle.state = .abandoning ∧ checkStep.kind = .check ∧
      (Chip.reset 0#3).usedMask 1#8 = 0#8 ∧ (withAccount running account).usedMask 1#8 = 1#8 := by decide

/-- A wake asked for the bound swath of the sheet on the platen, and one for a swath that is not the next. -/
def wakeFor (l : Location) (id : Nat) : Chip := (positioned l).onSvc fun v => { v with wakeAsk := some id }

theorem test_witness_a_step_and_a_wake_begin :
    (withAccount running account).canReserve ⟨5000, 0, 0, 0, 0, 0⟩ = true ∧
      (withAccount running account).canReserve ⟨7000001, 0, 0, 0, 0, 0⟩ = false ∧
      (∀ l ∈ [Location.printSide, .station, .capped, .stranded],
        (wakeFor l 0).svc.cycle.state = .none ∧ (wakeFor l 0).hasEligible = false ∧ (wakeFor l 0).sgt.claim = .free ∧
          (wakeFor l 0).svc.wakeAsk = some 0 ∧ (wakeFor l 0).nextRecord.map Swath.id = some 0 ∧
          (wakeFor l 0).svc.location = l) ∧
      (wakeFor .capped 1).nextRecord.map Swath.id ≠ some 1 := by decide

theorem test_witness_CompletionAndRemovalInOrder :
    (withSwath running (swath .firing)).swathById 0 = some (swath .firing) ∧
      (swath .bound).state = .bound ∧ (swath .armed).state = .armed ∧
      ((withSwath running (swath .armed)).unbind (swath .armed)).sgt.swaths = [] ∧
      ((withSwath running (swath .armed)).unbind (swath .armed)).sgt.buffers[0]? = some freeBuffer ∧
      (withSheet running (sheet .printing)).platen = some (sheet .printing) ∧
      (withSheet running { sheet .printing with cancel := true }).platen = some { sheet .printing with cancel := true } ∧
      (sheet .printing).cancel = false ∧ 0 + 1 < (sheet .printing).swathCount ∧ (sheet .printing).swathCount ≤ 1 + 1 ∧
      0 < (sheet .printing).length * 1000 - (sheet .printing).topMargin * 1000 -
        (sheet .printing).swathCount * (sheet .printing).swathAdvance ∧
      { sheet .printing with length := 45 }.length * 1000 - 5 * 1000 - 2 * 20000 = 0 := by decide

theorem test_witness_FeedOrderResults :
    FeedResult.timeout ≠ .done ∧ FeedResult.timeout ≠ .rollEnd ∧
      ((withSheet running (sheet .printing)).onFdc fun d => { d with feed := .advancing }).fdc.feed = .advancing ∧
      (withSheet running (sheet .clearing)).platen = some (sheet .clearing) ∧ (sheet .printing).state ≠ .clearing ∧
      ((withSheet running (sheet .drying)).onFdc fun d => { d with purpose := some .tail }).fdc.purpose = some .tail ∧
      ((withSheet running (sheet .cutting)).onFdc fun d => { d with feed := .cutting }).fdc.feed = .cutting := by decide

def loading : Chip := (withSheet running (sheet .loading)).onFdc fun d => { d with feed := .loading }
def clearing : Chip := (withSheet running (sheet .clearing)).onFdc fun d => { d with feed := .clearing }

theorem test_witness_loading_and_clearing :
    loading.platen = some (sheet .loading) ∧ loading.fdc.feed = .loading ∧ (sheet .loading).assigned = some .one ∧
      clearing.platen = some (sheet .clearing) ∧ clearing.fdc.feed = .clearing ∧ (sheet .clearing).cause ≠ some .mediaOut ∧
      (onRoll1 clearing).fdc.threaded = .roll .one ∧ clearing.fdc.threaded = .unknown ∧
      (withSheet running { sheet .clearing with cause := some .mediaOut }).platen =
        some { sheet .clearing with cause := some .mediaOut } ∧
      running.fdc.feed = .idle ∧ (positioned .printSide).fdc.feed = .positioned ∧ 0 < 5 ∧ 4 < 5 := by decide

theorem test_witness_EndOfAnEvent : running.quiet := by
  unfold Chip.quiet; decide

/-- A read answered, and one that waits, on each port. -/
def responding : Chip :=
  let front : InFlight := { id := 0, tag := 0, addr := 0#34, len := 16, phase := .answered .good data }
  let rest : InFlight := { front with id := 1, phase := .issued }
  running.onPsw fun p => { p with cInFlight := [front] ++ [rest], hInFlight := [front] ++ [rest] }

theorem test_witness_acts_of_the_end_of_an_event :
    running.serviceNext.isNone = true ∧ (withRequest running).serviceNext.isSome = true ∧
      running.fdc.sheets = [] ∧ (running.onSvc fun v => { v with location := .printSide }).svc.location = .printSide ∧
      running.svc.idleStretch = none ∧ idleDue.svc.idleStretch ≠ none ∧
      running.sgt.holdQueue = [] ∧ holding.sgt.holdQueue ≠ [] ∧
      (running.onFlm fun m => { m with link := .ended }).flm.link = .ended ∧ running.flm.link ≠ .ended ∧
      responding.psw.cInFlight.map InFlight.isAnswered = [true, false] ∧
      responding.psw.hInFlight.map InFlight.isAnswered = [true, false] := by decide

theorem test_witness_ReportWriterByItsRules :
    running.rpw.ordered.length < 32 ∧ ¬ fullList.rpw.ordered.length < 32 ∧
      (running.rpw.writeIndex - running.rpw.readIndex).toNat + 0 < running.rpw.capacity ∧
      (running.onRpw fun w => { w with overflow := true }).rpw.overflow = true ∧ running.psw.writer = none ∧
      (asking [] [] (some { body := .status 0 [], fence := 0 })).psw.writer.isSome = true ∧
      fullList.rpw.ordered = [] ++ waitingRecord :: List.replicate 31 waitingRecord ∧
      (∀ a ∈ running.rpw.ordered, a.taken = true) ∧
      running.rpw.statusSet = 0 :: [1, 2, 3, 4, 5, 6, 7, 8, 9, 10, 11, 12] := by decide

theorem test_witness_SlotCodecReadsBack :
    (RingCommand.loadProgram (programArgs 0)).wellFormed = true ∧ RingCommand.nop.wellFormed = true := by decide

/-- The one buffer of `withBuffers` that is BOUND is that of record 0. -/
theorem test_bound_buffer_only (b : Nat) :
    b ∈ [0] ↔ ∃ e, ([boundBuffer, freeBuffer] : List Buffer)[b]? = some e ∧ e.bound = true := by
  match b with
  | 0 => decide
  | 1 => decide
  | n + 2 => simp

/-- A swath FIRING with a released read issued, a nozzle out and a program asked for. -/
def printing : Chip :=
  let x := withRequest (withOut (noted (issued (withSwath running (swath .firing))) 0))
  { x with
    psw := { x.psw with hCredits := 15, nextRead := 1 }
    sgt := { x.sgt with claim := .swath, nextSwathId := 1 }
    nmn := { x.nmn with held := true } }

/-- A read held for a bound swath, while a service cycle has the claim. -/
def servicing : Chip :=
  let x := withCycle (withSwath running (swath .bound)) .recovering .ordered
  { x with
    psw := { x.psw with
      hCredits := 15, nextRead := 1
      hInFlight := [{ id := 0, tag := 0, addr := 0#34, len := 16, phase := .waiting }] }
    sgt := { x.sgt with
      claim := .service, nextSwathId := 1, holdTimer := some 0
      holdQueue := [{ id := 0, tag := 0, addr := 0#34, len := 16, swath := 0 }] } }

theorem test_witness_limits_bounded :
    ∀ x ∈ [running, printing, servicing],
      x.portsWithinLimits ∧ x.betweenEvents ∧ x.orderedWithinLimit ∧ x.linkWithinLimit ∧ x.sheetsWithinLimit ∧
        x.remaindersWithinLimit ∧ x.creditsAgree ∧ x.holdsWithinLimit ∧ x.nozzlesWithinLimits ∧ x.requestsWithinLimits ∧
        x.claimAgrees ∧ x.notesAgree := by
  unfold Chip.portsWithinLimits Chip.betweenEvents Chip.orderedWithinLimit Chip.linkWithinLimit Chip.sheetsWithinLimit
    Chip.remaindersWithinLimit Chip.creditsAgree Chip.holdsWithinLimit Chip.nozzlesWithinLimits Chip.requestsWithinLimits
    Chip.claimAgrees Chip.notesAgree
  decide

theorem test_witness_limits_agree :
    ∀ x ∈ [running, printing, servicing], x.holdsAgree ∧ x.buffersAgree := by
  have reads : ∀ x ∈ [running, printing, servicing], x.psw.hQueue = [] ∧ (x.sgt.holdQueue.map HeldRead.id).Nodup ∧
      (∀ h ∈ x.sgt.holdQueue, h.id < x.psw.nextRead ∧ (∃ e ∈ x.psw.hInFlight, e.id = h.id ∧ e.phase = .waiting) ∧
        { port := .hPort, id := h.id : Outstanding } ∉ x.psw.outstanding) ∧
      (∀ o ∈ x.psw.outstanding, o.port = .hPort → o.id < x.psw.nextRead) ∧
      (x.sgt.swaths.map Swath.buffer).Nodup ∧ (x.sgt.swaths.map Swath.id).Nodup ∧
      (∀ r ∈ x.sgt.swaths, r.id < x.sgt.nextSwathId) ∧ (x.cmi.partState = .unconfigured → x.sgt.swaths = []) := by decide
  have bound : ∀ x ∈ [running, printing, servicing], ∀ b,
      b ∈ x.sgt.swaths.map Swath.buffer ↔ ∃ e, x.sgt.buffers[b]? = some e ∧ e.bound = true := by
    intro x hx b
    rcases List.mem_cons.mp hx with rfl | hx
    · exact ⟨fun h => (nomatch h), fun ⟨e, h, _⟩ => (nomatch h)⟩
    rcases List.mem_cons.mp hx with rfl | hx
    · exact test_bound_buffer_only b
    · rw [List.mem_singleton.mp hx]; exact test_bound_buffer_only b
  intro x hx
  obtain ⟨queue, once, held, issued, buffers, ids, fresh, none⟩ := reads x hx
  refine ⟨⟨once, fun h hh => ⟨(held h hh).1, (held h hh).2.1, ?_, (held h hh).2.2⟩, ?_, issued⟩, buffers, bound x hx, ids,
    fresh, none⟩
  · simp [queue]
  · simp [queue]

/-- The part RUNNING and idle, with a swath FIRING, and in a service cycle keeps the limits; with nothing waiting its step is
to idle. -/
theorem test_witness_StepsKeepTheLimits :
    ∀ x ∈ [running, printing, servicing], x.invariant ∧ step (stateOf x) = .next (stateOf x) := by
  intro x hx
  obtain ⟨ports, between, ordered, link, sheets, remainders, credits, holds, nozzles, requests, claim, notes⟩ :=
    test_witness_limits_bounded x hx
  obtain ⟨agree, buffers⟩ := test_witness_limits_agree x hx
  exact ⟨⟨ports, between, ordered, link, sheets, remainders, credits, agree, holds, nozzles, requests, buffers, claim, notes⟩,
    rfl⟩

end Sys2Proof.Tests
end

section
/-! PROOFS. Swath buffers and the swath table (chapter 1): controller writes, SWATH READY, CONFIGURE, the answers to released
reads, the completion and unbinding of swaths, the removal of sheets, and RESTART. -/

namespace Sys2Proof.Machine

/-! ## The next swath (R14) -/

theorem Sheet.keepsNext_iff (h : Sheet) : h.keepsNext = true ↔
    (h.state = .loading ∨ h.state = .ready ∨ h.state = .printing ∨ h.state = .halted) ∧ h.cancel = false ∧
      h.done < h.swathCount := by
  simp [Sheet.keepsNext, and_assoc, or_assoc]

/-- Settles O19: the table of R14 is the case split of its definition, on the live swath, the platen sheet and the queue. -/
theorem nextSwathByTheTable : Obligations.NextSwathByTheTable := by
  intro x
  refine ⟨fun r live => ?_, fun h live platen => ?_, fun live platen => ?_⟩
  · simp only [Chip.nextSwath, live]
  · simp only [Chip.nextSwath, live, platen, Sheet.keepsNext_iff]
  · cases queue : x.fdc.sheets with
    | nil => simp [Chip.nextSwath, live, platen, queue]
    | cons h rest => simp [Chip.nextSwath, live, platen, queue]

/-! ## Controller writes (R7, R8, R152 to R154) -/

/-- A well-formed write for which a credit is free is accepted, and then the blocks see it. -/
theorem Chip.cPortWrite_accepted (x : Chip) (w : WriteRequest) (credit : 0 < x.psw.cCredits)
    (form : malformed w.addr w.bytes.length = false) : x.cPortWrite w = (x.acceptWrite w).seen w := by
  unfold Chip.cPortWrite
  rw [if_neg (Nat.pos_iff_ne_zero.mp credit), form]
  rfl

theorem exec_controllerWrite_accepted (w : WriteRequest) (s : State) (out : s.chip.inReset = false)
    (credit : 0 < s.chip.psw.cCredits) (form : malformed w.addr w.bytes.length = false) :
    exec (.controllerWrite w) s = .next (s.after ((s.chip.acceptWrite w).seen w)) := by
  rw [← Chip.cPortWrite_accepted _ _ credit form]
  exact congrArg Host.Outcome.next (s.event_eq (fun x => x.cPortWrite w) out)

/-- Nobody sees a write outside both windows (R154). -/
theorem Chip.seen_plain (x : Chip) (w : WriteRequest) (h : x.psw.window w.addr.toNat = .plain) : x.seen w = x := by
  simp only [Chip.seen, h]

theorem Chip.seen_swath (x : Chip) (w : WriteRequest) (h : x.psw.window w.addr.toNat = .swath) :
    x.seen w = x.swathWritten w := by
  simp only [Chip.seen, h]

/-- Nobody sees a write of the control area behind the read index word (R154). -/
theorem Chip.seen_control_rest (x : Chip) (w : WriteRequest) (h : x.psw.inControl w.addr.toNat = true)
    (behind : 0x400 < controlOffset w.addr.toNat) : x.seen w = x := by
  have window : x.psw.window w.addr.toNat = .control := by simp [PortSwitch.window, h]
  have notRing : ¬ controlOffset w.addr.toNat < ringBytes := by unfold ringBytes; omega
  have notIndex : controlOffset w.addr.toNat ≠ readIndexOffset := by unfold readIndexOffset; omega
  simp [Chip.seen, window, notRing, notIndex]

theorem Chip.swathWritten_free (x : Chip) (w : WriteRequest) (b : Buffer)
    (found : x.sgt.buffers[(x.psw.bufferAt w.addr.toNat).1]? = some b) (free : b.bound = false) :
    x.swathWritten w = x.onSgt fun g =>
      { g with buffers := g.buffers.set (x.psw.bufferAt w.addr.toNat).1
                  { b with tally :=
                    addMarks b.tally (w.enabled.map fun e => ((x.psw.bufferAt w.addr.toNat).2 + e.1, e.2)) } } := by
  simp only [Chip.swathWritten, found, free]
  rfl

theorem Chip.swathWritten_bound (x : Chip) (w : WriteRequest) (b : Buffer)
    (found : x.sgt.buffers[(x.psw.bufferAt w.addr.toNat).1]? = some b) (bound : b.bound = true) :
    x.swathWritten w = x.lateWrite (x.psw.bufferAt w.addr.toNat).1 b w.addr
      (w.enabled.map fun e => ((x.psw.bufferAt w.addr.toNat).2 + e.1, e.2)) := by
  simp only [Chip.swathWritten, found, bound, if_true]

/-- Settles O8: the window of the address decides who sees the write, and in the swath area the state of the buffer. -/
theorem controllerWriteIsCounted : Obligations.ControllerWriteIsCounted := by
  refine ⟨fun w s out credit form place => ?_, fun w s b out credit form window found =>
    ⟨fun free => ?_, fun r bound record => ?_⟩⟩
  · rw [exec_controllerWrite_accepted w s out credit form]
    rcases place with plain | ⟨control, behind⟩
    · rw [Chip.seen_plain (s.chip.acceptWrite w) w plain]
    · rw [Chip.seen_control_rest (s.chip.acceptWrite w) w control behind]
  · rw [exec_controllerWrite_accepted w s out credit form, Chip.seen_swath (s.chip.acceptWrite w) w window,
      Chip.swathWritten_free (s.chip.acceptWrite w) w b found free]
    rfl
  · have record' : ((s.chip.acceptWrite w).sgt.swaths.find? fun r => r.buffer ==
        ((s.chip.acceptWrite w).psw.bufferAt w.addr.toNat).1) = some r := record
    rw [exec_controllerWrite_accepted w s out credit form, Chip.seen_swath (s.chip.acceptWrite w) w window,
      Chip.swathWritten_bound (s.chip.acceptWrite w) w b found bound, Chip.lateWrite, record']
    rfl

/-! ## Commands of the ring -/

/-- The answer by a checking table: the first row that holds refuses, else the command is accepted (R172). -/
def Chip.answerBy (x : Chip) (table : List (Bool × Answer)) (accepted : Chip × Answer) : Chip × Answer :=
  match firstRow table with
  | some r => (x, r)
  | none => accepted

theorem Chip.answerBy_nil (x : Chip) (accepted : Chip × Answer) : x.answerBy [] accepted = accepted := rfl

theorem Chip.answerBy_cons (x : Chip) (holds : Bool) (r : Answer) (rest : List (Bool × Answer))
    (accepted : Chip × Answer) :
    x.answerBy ((holds, r) :: rest) accepted = if holds = true then (x, r) else x.answerBy rest accepted := by
  cases holds <;> rfl

/-- A reply that depends on a condition is the reply of the case that holds. -/
theorem State.replied_ite (s : State) (c : RingCommand) (P : Prop) [Decidable P] (p q : Chip × Answer) :
    s.replied c (if P then p else q).1 (if P then p else q).2 =
      if P then s.replied c p.1 p.2 else s.replied c q.1 q.2 := by
  split <;> rfl

theorem outside_iff (lo hi v : Nat) : outside lo hi v = true ↔ v < lo ∨ hi < v := by simp [outside]

/-- A ring command in a ready part is answered as its owner answers it. -/
theorem State.command_owner (s : State) (c : RingCommand) (ready : s.chip.readyForCommand) (form : c.wellFormed = true)
    (spelled : decodeSlot (encodeSlot c) = c) {owner : Chip × Answer} (h : (s.chip.taking c).carryOut c = owner) :
    ({ s with chip := s.chip.event fun x => x.command c } : State) = s.replied c owner.1 owner.2 :=
  s.command_eq c ready form spelled h

theorem Chip.whenRunning_of_running (x : Chip) (f : Chip → Chip × Answer) (running : x.cmi.partState = .running) :
    x.whenRunning f = f x := by
  simp [Chip.whenRunning, Chip.isRunning, running]

/-! ### SWATH READY (R11, R12) -/

/-- SWATH READY in a RUNNING part is answered as the gate answers it. -/
theorem exec_swathReady (a : SwathReadyArgs) (s : State) (ready : s.chip.readyForCommand)
    (running : s.chip.cmi.partState = .running) {owner : Chip × Answer}
    (h : (s.chip.taking (.swathReady a)).doSwathReady a = owner) :
    exec (.swathReady a) s = .next (s.replied (.swathReady a) owner.1 owner.2) :=
  congrArg Host.Outcome.next (s.command_owner (.swathReady a) ready rfl (decodeSlot_swathReady a)
    ((Chip.whenRunning_of_running (s.chip.taking (.swathReady a)) (fun y => y.doSwathReady a) running).trans h))

theorem Sheet.refusesSwaths_iff (h : Sheet) : h.refusesSwaths = true ↔
    h.state = .drying ∨ h.state = .cutting ∨ h.state = .clearing ∨ h.state = .halted ∨ h.cancel = true := by
  simp [Sheet.refusesSwaths, or_assoc]

/-- SWATH READY for a FREE buffer and a queued sheet: the first row that holds refuses it, else it binds (R11, R12). -/
theorem Chip.doSwathReady_checked (x : Chip) (a : SwathReadyArgs) (b : Buffer) (h : Sheet)
    (buffer : x.sgt.buffers[a.buffer.toNat]? = some b) (free : b.bound = false)
    (sheet : x.sheet a.sheet.toNat = some h) :
    x.doSwathReady a =
      if h.state = .drying ∨ h.state = .cutting ∨ h.state = .clearing ∨ h.state = .halted ∨ h.cancel = true then
        (x, .state 4)
      else if a.index.toNat ≠ h.done + (x.boundList h.id).length then (x, .arg 5 0)
      else if x.psw.capacity < a.columns.toNat ∨ a.columns.toNat < x.sgt.spitColumns + 1 then (x, .arg 6 0)
      else if h.swathCount ≤ a.index.toNat then (x, .arg 7 0)
      else (x.bind a b, .done 0 a.index.toNat) := by
  have table : x.doSwathReady a = x.answerBy (x.swathChecks a h) (x.bind a b, .done 0 a.index.toNat) := by
    simp only [Chip.doSwathReady, buffer, free, sheet]
    rfl
  simp only [table, Chip.swathChecks, Chip.answerBy_cons, Chip.answerBy_nil, Sheet.refusesSwaths_iff, bne_iff_ne,
    Bool.or_eq_true, decide_eq_true_eq]

/-- A binding with its call for the arming test as a condition on the next swath record (R12). -/
theorem Chip.bind_eq (x : Chip) (a : SwathReadyArgs) (b : Buffer) :
    x.bind a b =
      let y := ((x.onSgt fun g =>
        { g with
          buffers := g.buffers.set a.buffer.toNat { b with bound := true }
          swaths := g.swaths ++ [a.record g.nextSwathId b.tally]
          nextSwathId := g.nextSwathId + 1 }).markStatus 10).markStatus 9
      if y.nextRecord.map Swath.id = some x.sgt.nextSwathId then y.callArming else y := by
  simp only [Chip.bind, beq_iff_eq]

/-- Settles O36: the three checks before the sheet is found, then the first row of the table that holds, or the binding. -/
theorem swathReadyChecksAndEffects : Obligations.SwathReadyChecksAndEffects := by
  intro a s ready running
  refine ⟨fun number => ?_, fun b buffer bound => ?_, fun b buffer free noSheet => ?_, fun b h buffer free sheet => ?_⟩
  · have buffer : (s.chip.taking (.swathReady a)).sgt.buffers[a.buffer.toNat]? = none := List.getElem?_eq_none number
    exact exec_swathReady a s ready running (owner := (s.chip.taking (.swathReady a), .arg 1 0)) (by
      simp only [Chip.doSwathReady, buffer])
  · have buffer' : (s.chip.taking (.swathReady a)).sgt.buffers[a.buffer.toNat]? = some b := buffer
    exact exec_swathReady a s ready running (owner := (s.chip.taking (.swathReady a), .state 2)) (by
      simp only [Chip.doSwathReady, buffer', bound, if_true])
  · have buffer' : (s.chip.taking (.swathReady a)).sgt.buffers[a.buffer.toNat]? = some b := buffer
    have sheet : (s.chip.taking (.swathReady a)).sheet a.sheet.toNat = none :=
      List.find?_eq_none.mpr fun h hh => by simpa using noSheet h hh
    exact exec_swathReady a s ready running (owner := (s.chip.taking (.swathReady a), .state 3)) (by
      simp [Chip.doSwathReady, buffer', free, sheet])
  · rw [exec_swathReady a s ready running (Chip.doSwathReady_checked _ a b h buffer free sheet)]
    simp only [State.replied_ite, Chip.bind_eq]
    rfl

/-! ### CONFIGURE (R164) -/

/-- CONFIGURE is answered as the command intake answers it, whatever the part state. -/
theorem exec_configure (a : ConfigureArgs) (s : State) (ready : s.chip.readyForCommand) :
    exec (.configure a) s = .next (s.replied (.configure a) ((s.chip.taking (.configure a)).doConfigure a).1
      ((s.chip.taking (.configure a)).doConfigure a).2) :=
  congrArg Host.Outcome.next (s.command_owner (.configure a) ready rfl (decodeSlot_configure a) rfl)

/-- The overlap of the swath area asked for with the control area, in the figures of R5 and R154. -/
theorem PortSwitch.overlaps_iff (p : PortSwitch) (a : ConfigureArgs) : p.overlaps a = true ↔
    a.base.toNat < p.controlBase + 65536 ∧
      p.controlBase < a.base.toNat + a.bufferCount.toNat * (a.capacity.toNat * 768) := by
  unfold PortSwitch.overlaps
  rw [Bool.and_eq_true, decide_eq_true_iff, decide_eq_true_iff]
  rfl

/-- CONFIGURE: the first row of R164's table that holds refuses it, else it takes effect. -/
theorem Chip.doConfigure_checked (x : Chip) (a : ConfigureArgs) :
    x.doConfigure a =
      if x.cmi.partState = .running ∧ x.fdc.sheets ≠ [] then (x, .state 1)
      else if x.cmi.partState = .running ∧ x.sgt.swaths ≠ [] then (x, .state 2)
      else if x.cmi.partState = .running ∧ x.svc.cycle.state ≠ .none then (x, .state 3)
      else if a.bufferCount.toNat < 2 ∨ 8 < a.bufferCount.toNat ∨ a.capacity.toNat < 1024 ∨ 24576 < a.capacity.toNat ∨
          a.capacity.toNat % 1024 ≠ 0 then (x, .arg 4 0)
      else if a.base.toNat % 1024 ≠ 0 ∨ 2 ^ 34 < a.base.toNat + a.bufferCount.toNat * (a.capacity.toNat * 768) ∨
          (a.base.toNat < x.psw.controlBase + 65536 ∧
            x.psw.controlBase < a.base.toNat + a.bufferCount.toNat * (a.capacity.toNat * 768)) then (x, .arg 5 0)
      else if 32 < a.spitColumns.toNat then (x, .arg 6 0)
      else if a.holdLimit.toNat < 10 ∨ 5000 < a.holdLimit.toNat then (x, .arg 7 0)
      else if a.journalCapacity.toNat ∉ [64, 128, 256, 512, 1024] then (x, .arg 8 0)
      else if 10000 < a.budget.toNat then (x, .arg 9 0)
      else (x.applyConfigure a, .done 0 0) := by
  have table : x.doConfigure a = x.answerBy (x.configureChecks a) (x.applyConfigure a, .done 0 0) := rfl
  have capacities : (!journalCapacities.contains a.journalCapacity.toNat) = true ↔
      a.journalCapacity.toNat ∉ [64, 128, 256, 512, 1024] := by
    simp only [journalCapacities, Bool.not_eq_true', ← Bool.not_eq_true, List.contains_iff_mem]
  have space : Config.addressSpace = 2 ^ 34 := rfl
  simp only [table, Chip.configureChecks, Chip.answerBy_cons, Chip.answerBy_nil, capacities, Chip.isRunning,
    Bool.and_eq_true, beq_iff_eq, bne_iff_ne, Bool.or_eq_true, outside_iff, PortSwitch.overlaps_iff, decide_eq_true_eq,
    Bool.not_eq_true', List.isEmpty_eq_false_iff, or_assoc, ConfigureArgs.areaBytes, Config.columnBytes, space]

/-- The part when a CONFIGURE has built the windows and stored its settings, before an overflow record is tried and the
polls start (R5, R6, R154, R164, R170). -/
def Chip.configured (x : Chip) (a : ConfigureArgs) : Chip :=
  { x with
    psw := { x.psw with
      swath := some { base := a.base.toNat, count := a.bufferCount.toNat, capacity := a.capacity.toNat } }
    sgt := { x.sgt with
      buffers := List.replicate a.bufferCount.toNat { bound := false, tally := .all 0, late := false }
      spitColumns := a.spitColumns.toNat
      holdLimit := a.holdLimit.toNat }
    svc := { x.svc with budget := a.budget.toNat }
    rpw :=
      if x.rpw.capacity = a.journalCapacity.toNat then x.rpw
      else { x.rpw with capacity := a.journalCapacity.toNat, writeIndex := 0#32, readIndex := 0#32 } }

/-- The time base does not move as the overflow record is made (R167). -/
theorem Chip.journalOverflow_timeBase (x : Chip) : x.journalOverflow.rpw.timeBase = x.rpw.timeBase :=
  congrArg Outer.timeBase (Acts.journalOverflow (.refl x)).outer

theorem Chip.configured_timeBase (x : Chip) (a : ConfigureArgs) : (x.configured a).rpw.timeBase = x.rpw.timeBase := by
  unfold Chip.configured
  dsimp only
  split <;> rfl

/-- The effects of an accepted CONFIGURE, one after the other (R60, R164). -/
theorem Chip.applyConfigure_eq (x : Chip) (a : ConfigureArgs) :
    x.applyConfigure a =
      let y0 := x.configured a
      let y1 := if x.rpw.capacity = a.journalCapacity.toNat then y0 else y0.journalOverflow
      let y2 : Chip :=
        if x.cmi.partState = .running then y1
        else { y1 with
          cmi := { y1.cmi with partState := .running }
          ink := .of fun k => { y1.ink.get k with pollTimer := some (x.rpw.timeBase + 500000) } }
      (y2.markStatus 0).markStatus 10 := by
  have time : (if x.rpw.capacity = a.journalCapacity.toNat then x.configured a
      else (x.configured a).journalOverflow).rpw.timeBase = x.rpw.timeBase := by
    split
    · exact x.configured_timeBase a
    · exact (Chip.journalOverflow_timeBase _).trans (x.configured_timeBase a)
  unfold Chip.applyConfigure
  simp only [bne_iff_ne, ne_eq, ite_not, Chip.isRunning, beq_iff_eq, ← time]
  rfl

/-- Settles O31: the table of R164 row by row, then the effects in their order. -/
theorem configureChecksAndEffects : Obligations.ConfigureChecksAndEffects := by
  intro a s ready
  rw [exec_configure a s ready, Chip.doConfigure_checked]
  simp only [State.replied_ite, Chip.applyConfigure_eq]
  rfl

/-! ## Memory's answer to a released swath read (R32 to R37) -/

/-- The range of a released read covers the last byte of the swath extent (R10, R37). -/
theorem Swath.lastCovered_iff (r : Swath) (offset len : Nat) : r.lastCovered offset len = true ↔
    offset ≤ r.columns * 768 - 1 ∧ r.columns * 768 - 1 < offset + len :=
  decide_eq_true_iff

theorem Chip.completeIfCovered_eq (x : Chip) (r : Swath) (n : ReadNote) :
    x.completeIfCovered r n =
      if n.offset ≤ r.columns * 768 - 1 ∧ r.columns * 768 - 1 < n.offset + n.len then x.complete r.id else x := by
  simp only [Chip.completeIfCovered, Swath.lastCovered_iff]

/-- An answer that fits goes to the gate where the gate has a note of the H-port read; the MEMORY FAULT record of a FAULT
comes first (R32, R155, R157). -/
theorem Chip.memoryAnswer_noted (x : Chip) (a : MemoryAnswer) (id : Nat) (rest : List Outstanding) (e : InFlight)
    (n : ReadNote) (oldest : x.psw.outstanding = { port := .hPort, id := id } :: rest)
    (entry : (x.psw.hInFlight.find? fun e => e.id == id) = some e) (fits : answerFits a e.len = true)
    (note : (x.sgt.notes.find? fun m => m.id == id) = some n) :
    x.memoryAnswer a =
      let y := x.onPsw fun p => { p with outstanding := rest }
      (if a = .fault then y.uncorrectable .hPort e else y).gateAnswer n a := by
  have entry' : ((x.psw.inFlight .hPort).find? fun e => e.id == id) = some e := entry
  have note' : ((if a = .fault then (x.onPsw fun p => { p with outstanding := rest }).uncorrectable .hPort e
      else x.onPsw fun p => { p with outstanding := rest }).sgt.notes.find? fun m => m.id == id) = some n := by
    split <;> exact note
  unfold Chip.memoryAnswer
  rw [oldest]
  simp only [entry', fits, if_true, beq_iff_eq, note']

/-- The gate takes its note of an answered read back (R28, R32). -/
def Chip.dropNote (x : Chip) (id : Nat) : Chip := x.onSgt fun g => { g with notes := g.notes.filter fun m => m.id != id }

/-- Good data for a live swath record is rewritten, answered and counted, and may complete the swath (R33 to R37). -/
theorem Chip.gateAnswer_good_live (x : Chip) (n : ReadNote) (data : List Byte) (r : Swath)
    (live : (x.sgt.swaths.find? fun r => r.id == n.swath) = some r) :
    x.gateAnswer n (.good data) =
      let w := (x.dropNote n.id).rewrite r n.offset data
      (((x.dropNote n.id).setReadPhase .hPort n.id (.answered .good w.data)).countDelivered r w).completeIfCovered r n := by
  have record : (x.dropNote n.id).swathById n.swath = some r := live
  unfold Chip.gateAnswer
  rw [Chip.dropNote] at record
  simp only [record, Chip.dropNote]

/-- Good data for a swath that is gone is withheld (R32). -/
theorem Chip.gateAnswer_good_gone (x : Chip) (n : ReadNote) (data : List Byte)
    (gone : (x.sgt.swaths.find? fun r => r.id == n.swath) = none) :
    x.gateAnswer n (.good data) = (x.dropNote n.id).setReadPhase .hPort n.id (.answered .withheld []) := by
  have record : (x.dropNote n.id).swathById n.swath = none := gone
  unfold Chip.gateAnswer
  rw [Chip.dropNote] at record
  simp only [record, Chip.dropNote, Chip.withhold]

/-- A FAULT for a live swath record is counted as a faulted read, and may complete the swath (R36, R37). -/
theorem Chip.gateAnswer_fault_live (x : Chip) (n : ReadNote) (r : Swath)
    (live : (x.sgt.swaths.find? fun r => r.id == n.swath) = some r) :
    x.gateAnswer n .fault =
      (((x.dropNote n.id).setReadPhase .hPort n.id (.answered .fault [])).onSwath r.id fun s =>
        { s with faulted := addCount s.faulted 1 }).completeIfCovered r n := by
  have record : (x.dropNote n.id).swathById n.swath = some r := live
  unfold Chip.gateAnswer
  rw [Chip.dropNote] at record
  simp only [record, Chip.dropNote]

/-- A FAULT for a swath that is gone goes back as it is (R32, R36). -/
theorem Chip.gateAnswer_fault_gone (x : Chip) (n : ReadNote)
    (gone : (x.sgt.swaths.find? fun r => r.id == n.swath) = none) :
    x.gateAnswer n .fault = (x.dropNote n.id).setReadPhase .hPort n.id (.answered .fault []) := by
  have record : (x.dropNote n.id).swathById n.swath = none := gone
  unfold Chip.gateAnswer
  rw [Chip.dropNote] at record
  simp only [record, Chip.dropNote]

theorem exec_memoryAnswer (a : MemoryAnswer) (s : State) (out : s.chip.inReset = false) :
    exec (.memoryAnswer a) s = .next (s.after (s.chip.memoryAnswer a)) :=
  congrArg Host.Outcome.next (s.event_eq (fun x => x.memoryAnswer a) out)

/-- The note that was found for a read is that read's. -/
theorem ReadNote.id_of_find {l : List ReadNote} {id : Nat} {n : ReadNote}
    (h : (l.find? fun m => m.id == id) = some n) : n.id = id := by
  simpa using List.find?_some h

/-! ### Counting and hand-offs (R35) -/

theorem Account.used_iff (a : Account) : a.used = true ↔ a.inkType ≠ 0 := by simp [Account.used]

/-- The counts of a delivered read in the swath record, each saturating (R6, R35). -/
theorem Swath.count_eq (r : Swath) (w : Rewrite) :
    r.count w = { r with
      delivered := .of fun k => min (r.delivered.get k + w.delivered.get k) 4294967295
      lost := min (r.lost + w.lost) 4294967295
      injected := min (r.injected + w.injected) 4294967295
      state := .firing } := rfl

theorem Chip.fireDelivered_eq (x : Chip) (e : Channel × Nat) :
    x.fireDelivered e =
      if (x.account e.1).inkType = 0 then x
      else x.onNmn fun n => { n with
        idle := n.idle.set e.1 ((n.idle.get e.1).setIfInBounds e.2 x.rpw.timeBase) } := by
  simp only [Chip.fireDelivered, Account.used_iff, ne_eq, ite_not]
  rfl

/-- The hand-offs of a delivered read, in the order of R35. -/
theorem Chip.countDelivered_eq (x : Chip) (r : Swath) (w : Rewrite) :
    x.countDelivered r w =
      let counted := x.onSwath r.id fun a => a.count w
      let consumed := channels.foldl (fun y k => y.consumeDelivered w k) counted
      let fired := w.fired.foldl Chip.fireDelivered consumed
      if r.state = .armed then (fired.markStatus 10).firingBegun else fired := by
  simp only [Chip.countDelivered, beq_iff_eq]

theorem Chip.onSwath_eq (x : Chip) (id : Nat) (f : Swath → Swath) :
    x.onSwath id f = x.onSgt fun g => { g with swaths := g.swaths.map fun r => if r.id = id then f r else r } := by
  simp only [Chip.onSwath, beq_iff_eq]

/-! ### The counts of the rewriting (R33 to R35) -/

/-- What holds of the empty list and goes on to one element more at the end holds of every list. -/
theorem list_snoc_induction {α : Type} {motive : List α → Prop} (nil : motive [])
    (append_singleton : ∀ l a, motive l → motive (l ++ [a])) (l : List α) : motive l := by
  suffices reversed : ∀ r : List α, motive r.reverse from l.reverse_reverse ▸ reversed l.reverse
  intro r
  induction r with
  | nil => exact nil
  | cons a r ih =>
    rw [List.reverse_cons]
    exact append_singleton r.reverse a ih

/-- The rewriting of one byte more. -/
theorem Chip.rewrite_append (x : Chip) (r : Swath) (offset : Nat) (data : List Byte) (b : Byte) :
    x.rewrite r offset (data ++ [b]) =
      x.rewriteByte r (x.rewrite r offset data) (offset + data.length) b := by
  simp [Chip.rewrite, List.zipIdx_append]

/-- The byte that the rewriting of one byte delivers (R33, R34). -/
def Chip.deliveredByte (x : Chip) (r : Swath) (o : Nat) (b : Byte) : Byte :=
  (x.rewriteByte r Rewrite.empty o b).data.headD 0#8

theorem Chip.rewriteByte_data (x : Chip) (r : Swath) (w : Rewrite) (o : Nat) (b : Byte) :
    (x.rewriteByte r w o b).data = w.data ++ [x.deliveredByte r o b] := rfl

theorem Chip.rewriteByte_delivered (x : Chip) (r : Swath) (w : Rewrite) (o : Nat) (b : Byte) (k : Channel) :
    (x.rewriteByte r w o b).delivered.get k =
      w.delivered.get k + if k = channelOf o then popCount (x.deliveredByte r o b) else 0 := by
  show (w.delivered.set (channelOf o) (w.delivered.get (channelOf o) + popCount (x.deliveredByte r o b))).get k = _
  rw [Six.get_set]
  split
  · rename_i e; rw [e]
  · rfl

/-- A group joins the fired ones where the byte delivered has a mark (R35). -/
theorem Chip.mem_rewriteByte_fired (x : Chip) (r : Swath) (w : Rewrite) (o : Nat) (b : Byte) (e : Channel × Nat) :
    e ∈ (x.rewriteByte r w o b).fired ↔
      e ∈ w.fired ∨ (x.deliveredByte r o b ≠ 0#8 ∧ e = (channelOf o, groupOf (sliceByteOf o))) := by
  show e ∈ (if x.deliveredByte r o b == 0#8 || w.fired.contains (channelOf o, groupOf (sliceByteOf o)) then w.fired
    else w.fired ++ [(channelOf o, groupOf (sliceByteOf o))]) ↔ _
  by_cases blank : x.deliveredByte r o b = 0#8
  · simp [blank]
  · by_cases listed : (channelOf o, groupOf (sliceByteOf o)) ∈ w.fired
    · simp only [List.contains_iff_mem.mpr listed, Bool.or_true, if_true]
      exact ⟨Or.inl, fun h => h.elim id fun h => h.2 ▸ listed⟩
    · simp [blank, listed]

theorem Chip.rewrite_data_length (x : Chip) (r : Swath) (offset : Nat) (data : List Byte) :
    (x.rewrite r offset data).data.length = data.length := by
  induction data using list_snoc_induction with
  | nil => rfl
  | append_singleton data b ih => simp [Chip.rewrite_append, Chip.rewriteByte_data, ih]

/-- The bytes delivered before the last one are those of the read without it. -/
theorem Chip.rewrite_append_getD_of_lt (x : Chip) (r : Swath) (offset : Nat) (data : List Byte) (b : Byte) {i : Nat}
    (h : i < data.length) :
    (x.rewrite r offset (data ++ [b])).data.getD i 0#8 = (x.rewrite r offset data).data.getD i 0#8 := by
  rw [Chip.rewrite_append, Chip.rewriteByte_data, List.getD_eq_getElem?_getD, List.getD_eq_getElem?_getD,
    List.getElem?_append_left (by rw [x.rewrite_data_length r offset data]; exact h)]

/-- The last byte delivered is the rewriting of the last byte read. -/
theorem Chip.rewrite_append_getD_last (x : Chip) (r : Swath) (offset : Nat) (data : List Byte) (b : Byte) :
    (x.rewrite r offset (data ++ [b])).data.getD data.length 0#8 = x.deliveredByte r (offset + data.length) b := by
  have len := x.rewrite_data_length r offset data
  rw [Chip.rewrite_append, Chip.rewriteByte_data, List.getD_eq_getElem?_getD,
    List.getElem?_append_right (Nat.le_of_eq len), len, Nat.sub_self, List.getElem?_cons_zero, Option.getD_some]

/-- A byte of a buffer offset belongs to a channel (R3). -/
theorem channelOf_eq_iff (o : Nat) (k : Channel) : k = channelOf o ↔ o % 768 / 128 = k.val := by
  rw [Fin.ext_iff]
  exact eq_comm

/-- The marks delivered in a channel are those of its bytes as delivered (R35). -/
theorem Chip.rewrite_delivered (x : Chip) (r : Swath) (offset : Nat) (data : List Byte) (k : Channel) :
    (x.rewrite r offset data).delivered.get k =
      ((List.range data.length).map fun i => if (offset + i) % 768 / 128 = k.val then
        popCount ((x.rewrite r offset data).data.getD i 0#8) else 0).sum := by
  induction data using list_snoc_induction with
  | nil => exact Six.get_all 0 k
  | append_singleton data b ih =>
    have before : ((List.range data.length).map fun i => if (offset + i) % 768 / 128 = k.val then
        popCount ((x.rewrite r offset (data ++ [b])).data.getD i 0#8) else 0) =
        (List.range data.length).map fun i => if (offset + i) % 768 / 128 = k.val then
          popCount ((x.rewrite r offset data).data.getD i 0#8) else 0 := by
      refine List.map_congr_left fun i hi => ?_
      rw [x.rewrite_append_getD_of_lt r offset data b (List.mem_range.mp hi)]
    rw [List.length_append, List.length_singleton, List.range_succ, List.map_append, List.sum_append, before, ← ih,
      List.map_singleton, List.sum_singleton, x.rewrite_append_getD_last r offset data b, Chip.rewrite_append,
      Chip.rewriteByte_delivered]
    simp only [channelOf_eq_iff]

/-- A group has fired exactly where a byte of it was delivered with a mark (R35). -/
theorem Chip.mem_rewrite_fired (x : Chip) (r : Swath) (offset : Nat) (data : List Byte) (k : Channel) (g : Nat) :
    (k, g) ∈ (x.rewrite r offset data).fired ↔
      ∃ i, i < data.length ∧ (offset + i) % 768 / 128 = k.val ∧ (offset + i) % 128 / 2 = g ∧
        (x.rewrite r offset data).data.getD i 0#8 ≠ 0#8 := by
  induction data using list_snoc_induction with
  | nil => simp [Chip.rewrite, Rewrite.empty]
  | append_singleton data b ih =>
    have joined : (k, g) ∈ (x.rewrite r offset (data ++ [b])).fired ↔ (k, g) ∈ (x.rewrite r offset data).fired ∨
        (x.deliveredByte r (offset + data.length) b ≠ 0#8 ∧
          (k, g) = (channelOf (offset + data.length), groupOf (sliceByteOf (offset + data.length)))) := by
      rw [Chip.rewrite_append]
      exact x.mem_rewriteByte_fired r _ _ b (k, g)
    rw [joined, ih, List.length_append, List.length_singleton, Nat.exists_lt_succ_right]
    refine or_congr (exists_congr fun i => and_congr_right fun hi => ?_) ?_
    · rw [x.rewrite_append_getD_of_lt r offset data b hi]
    · rw [x.rewrite_append_getD_last r offset data b, Prod.mk.injEq, channelOf_eq_iff, and_comm, and_assoc]
      exact and_congr_right fun _ => and_congr_left fun _ => eq_comm

/-- Settles O15: the two clauses about the answer, then what counting hands off, then what the counts of a rewriting are. -/
theorem memoryAnswersASwathRead : Obligations.MemoryAnswersASwathRead := by
  refine ⟨fun a s id rest e n out oldest entry fits note => ?_, fun x r w => ?_,
    fun x r offset data k => ⟨?_, fun g => ?_⟩⟩
  · obtain rfl := ReadNote.id_of_find note
    rw [exec_memoryAnswer a s out, Chip.memoryAnswer_noted s.chip a n.id rest e n oldest entry fits note]
    refine congrArg (Host.Outcome.next ∘ s.after) ?_
    dsimp only
    cases a with
    | good data =>
      rw [if_neg (by simp)]
      cases record : s.chip.sgt.swaths.find? fun r => r.id == n.swath with
      | none => exact Chip.gateAnswer_good_gone _ n data record
      | some r =>
        exact (Chip.gateAnswer_good_live (s.chip.onPsw fun p => { p with outstanding := rest }) n data r record).trans
          (Chip.completeIfCovered_eq _ r n)
    | fault =>
      rw [if_pos rfl]
      cases record : s.chip.sgt.swaths.find? fun r => r.id == n.swath with
      | none => exact Chip.gateAnswer_fault_gone _ n record
      | some r =>
        exact (Chip.gateAnswer_fault_live ((s.chip.onPsw fun p =>
          { p with outstanding := rest }).uncorrectable .hPort e) n r record).trans (Chip.completeIfCovered_eq _ r n)
  · simp only [Chip.countDelivered_eq, Chip.onSwath_eq, Swath.count_eq, funext fun y => funext (Chip.fireDelivered_eq y)]
    rfl
  · exact x.rewrite_delivered r offset data k
  · exact x.mem_rewrite_fired r offset data k g

/-! ## Completion, unbinding and removal (R14 to R16, R38, R116, R117, R124, R133, R134) -/

theorem Swath.live_iff (r : Swath) : r.live = true ↔ r.state = .armed ∨ r.state = .firing := by
  unfold Swath.live
  cases r.state <;> simp

/-- A BOUND swath has no claim and no reservation to give back (R15). -/
theorem Chip.unbind_bound (x : Chip) (r : Swath) (h : r.state = .bound) : x.unbind r = x.removeSwath r := by
  simp [Chip.unbind, Swath.live, h]

/-- An ARMED or FIRING swath returns its reservation first, then its claim (R16). -/
theorem Chip.unbind_live (x : Chip) (r : Swath) (h : r.state = .armed ∨ r.state = .firing) :
    x.unbind r = ((((x.release .swath).removeSwath r).showChange x 11).onSgt fun g =>
      { g with claim := .free }).swathGone.callArming := by
  simp only [Chip.unbind, r.live_iff.mpr h, if_true]

theorem Chip.onSheet_eq (x : Chip) (id : Nat) (f : Sheet → Sheet) :
    x.onSheet id f = (x.onFdc fun d => { d with
      sheets := d.sheets.map fun h => if h.id = id then f h else h }).refreshStatus x := by
  simp only [Chip.onSheet, Chip.feedStage, beq_iff_eq]

/-- The completion of a live swath, effect after effect (R38). -/
theorem Chip.complete_eq (x : Chip) (id : Nat) (r : Swath) (live : x.swathById id = some r) :
    x.complete id =
      let returned := (x.release .swath).journal r.doneRecord
      let unbound := ((returned.markDefect r).removeSwath r).onSheet r.sheet fun h => { h with done := h.done + 1 }
      let gone := (unbound.onSgt fun g => { g with claim := .free }).swathGone
      let told := if r.state = .firing then gone.firingEnded else gone
      (told.swathComplete x r.index).callArming := by
  simp only [Chip.complete, live, beq_iff_eq]

/-! ### What the feed controller does with a completed swath (R116, R117, R121, R133, R134) -/

theorem Chip.swathComplete_marked (x before : Chip) (h : Sheet) (k : Nat) (platen : x.platen = some h)
    (marked : h.cancel = true) : x.swathComplete before k = (x.showChange before 11).enterClearing := by
  simp only [Chip.swathComplete, platen, marked, if_true]

theorem Chip.swathComplete_more (x before : Chip) (h : Sheet) (k : Nat) (platen : x.platen = some h)
    (unmarked : h.cancel = false) (more : k + 1 < h.swathCount) :
    x.swathComplete before k =
      (x.onPlatenShown fun h => { h with state := .printing }).beginAdvance h.swathAdvance .swath := by
  simp [Chip.swathComplete, platen, unmarked, more]

theorem Chip.swathComplete_last (x before : Chip) (h : Sheet) (k : Nat) (platen : x.platen = some h)
    (unmarked : h.cancel = false) (last : h.swathCount ≤ k + 1) :
    x.swathComplete before k =
      let y := ((x.onPlaten fun h => { h with state := .drying }).showChange before 11).callArming
      if h.tail = 0 then y.beginDrying else y.beginAdvance h.tail .tail := by
  simp [Chip.swathComplete, platen, unmarked, Nat.not_lt.mpr last]

/-! ### The removal of a sheet (R124) -/

theorem Chip.noticeNext_eq (x old : Chip) :
    x.noticeNext old = if x.nextSwath = old.nextSwath then x else x.callArming := by
  simp only [Chip.noticeNext, beq_iff_eq]

/-- Settles O54: each operation is the chain of effects that its rule tells, case by case of the state that decides. -/
theorem completionAndRemovalInOrder : Obligations.CompletionAndRemovalInOrder := by
  refine ⟨fun x r => ⟨rfl, x.unbind_bound r, x.unbind_live r⟩, fun x id f => ⟨x.onSheet_eq id f, rfl⟩, fun x id => rfl,
    fun x r live => ?_, fun x before h k platen => ⟨?_, ?_, fun unmarked last some => ?_, fun unmarked last none => ?_⟩,
    fun x h outcome => ?_⟩
  · exact x.complete_eq r.id r live
  · exact x.swathComplete_marked before h k platen
  · exact x.swathComplete_more before h k platen
  · exact (x.swathComplete_last before h k platen unmarked last).trans (if_neg (Nat.pos_iff_ne_zero.mp some))
  · exact (x.swathComplete_last before h k platen unmarked last).trans (if_pos none)
  · dsimp only
    rw [Chip.removeSheet, Chip.noticeNext_eq]
    rfl

/-! ## RESTART at the link master (R150) -/

/-- A room without marks and orders has none to offer. -/
theorem Room.offerOldest_reset : Room.reset.offerOldest = none := rfl

/-- A freed place goes to the ink controller's oldest declined order where the other blocks have none (R148). -/
theorem LinkMaster.grantPlace_some (m : LinkMaster) (feed : m.feedRoom = .reset) (service : m.serviceRoom = .reset)
    {o : LinkOrder} {r : Room} (offer : m.inkRoom.offerOldest = some (o, r)) :
    m.grantPlace = { m with queue := m.queue ++ [o], inkRoom := r } := by
  simp only [LinkMaster.grantPlace, feed, service, Room.offerOldest_reset, offer]

/-- A freed place that no block takes leaves every room without marks (R148). -/
theorem LinkMaster.grantPlace_none (m : LinkMaster) (feed : m.feedRoom = .reset) (service : m.serviceRoom = .reset)
    (offer : m.inkRoom.offerOldest = none) : m.grantPlace = { m with inkRoom := .reset } := by
  simp only [LinkMaster.grantPlace, feed, service, Room.offerOldest_reset, offer]

/-- What is left of a room when so many places have been granted to its block (R148, R150). -/
def Room.granted (r : Room) (free : Nat) : Room :=
  if free = 0 then r
  else if r.waiting = true then { waiting := decide (free < r.declined.length), declined := r.declined.drop free }
  else { waiting := false, declined := [] }

/-- The declined orders to which so many places are granted, oldest first (R148, R150). -/
def Room.grantedOrders (r : Room) (free : Nat) : List LinkOrder := if r.waiting = true then r.declined.take free else []

/-- A place granted to a room whose block has a declined order takes the oldest one. -/
theorem Room.granted_some {r s : Room} {o : LinkOrder} (h : r.offerOldest = some (o, s)) (n : Nat) :
    r.granted (n + 1) = s.granted n ∧ r.grantedOrders (n + 1) = o :: s.grantedOrders n := by
  obtain ⟨waiting, declined⟩ := r
  cases waiting with
  | false => simp [Room.offerOldest] at h
  | true =>
    cases declined with
    | nil => simp [Room.offerOldest] at h
    | cons a rest =>
      simp only [Room.offerOldest, if_true, Option.some.injEq, Prod.mk.injEq] at h
      obtain ⟨rfl, rfl⟩ := h
      cases rest <;> cases n <;> simp [Room.granted, Room.grantedOrders]

/-- A place granted to a room without a declined order clears its mark. -/
theorem Room.granted_none {r : Room} (h : r.offerOldest = none) (n : Nat) :
    r.granted (n + 1) = .reset ∧ r.grantedOrders (n + 1) = [] := by
  obtain ⟨waiting, declined⟩ := r
  cases waiting with
  | false => exact ⟨rfl, rfl⟩
  | true =>
    cases declined with
    | nil => exact ⟨rfl, rfl⟩
    | cons a rest => simp [Room.offerOldest] at h

theorem Room.granted_zero (r : Room) : r.granted 0 = r ∧ r.grantedOrders 0 = [] := by
  simp [Room.granted, Room.grantedOrders]

/-- With no order declined the freed places stay free. -/
theorem LinkMaster.grantFreed_reset (n : Nat) (m : LinkMaster) (feed : m.feedRoom = .reset)
    (service : m.serviceRoom = .reset) (ink : m.inkRoom = .reset) : m.grantFreed n = m := by
  have same : m.grantPlace = m := by
    rw [m.grantPlace_none feed service (by rw [ink, Room.offerOldest_reset]), ← ink]
  induction n with
  | zero => rfl
  | succ n ih => rw [LinkMaster.grantFreed, same, ih, ite_self]

/-- The places are granted one by one, to the oldest declined order each. -/
theorem LinkMaster.grantFreed_eq (n : Nat) (m : LinkMaster) (feed : m.feedRoom = .reset)
    (service : m.serviceRoom = .reset) (enough : 16 - m.queue.length ≤ n) :
    m.grantFreed n = { m with
      queue := m.queue ++ m.inkRoom.grantedOrders (16 - m.queue.length)
      inkRoom := m.inkRoom.granted (16 - m.queue.length) } := by
  have places : Config.linkPlaces = 16 := rfl
  induction n generalizing m with
  | zero => simp [LinkMaster.grantFreed, Nat.le_zero.mp enough, Room.granted_zero]
  | succ n ih =>
    unfold LinkMaster.grantFreed
    by_cases free : m.queue.length < 16
    · have left : 16 - m.queue.length = (16 - (m.queue.length + 1)) + 1 := by omega
      rw [places, if_pos free, left]
      cases offer : m.inkRoom.offerOldest with
      | none =>
        have room := Room.granted_none offer (16 - (m.queue.length + 1))
        have stays := LinkMaster.grantFreed_reset n { m with inkRoom := .reset } feed service rfl
        simp only [m.grantPlace_none feed service offer, stays, room, List.append_nil]
      | some p =>
        obtain ⟨o, r⟩ := p
        have room := Room.granted_some offer (16 - (m.queue.length + 1))
        have rest := ih { m with queue := m.queue ++ [o], inkRoom := r } feed service (by
          simp only [List.length_append, List.length_singleton]; omega)
        simp only [m.grantPlace_some feed service offer, rest, room, List.length_append, List.length_singleton,
          List.append_assoc, List.singleton_append]
    · have full : 16 - m.queue.length = 0 := by omega
      rw [places, if_neg free, full]
      simp [Room.granted_zero]

/-- RESTART at the link master: the orders of the ink controller stay, and the places freed go to its declined orders. -/
theorem LinkMaster.restart_eq (m : LinkMaster) :
    let kept := m.queue.filter fun o => o.block == .ink
    m.restart = { m with
      queue := kept ++ m.inkRoom.grantedOrders (16 - kept.length)
      feedRoom := .reset
      serviceRoom := .reset
      inkRoom := m.inkRoom.granted (16 - kept.length) } :=
  LinkMaster.grantFreed_eq 16 _ rfl rfl (Nat.sub_le ..)

/-! ## What the steps of RESTART leave alone (R165) -/

/-- What the steps of RESTART before the feed controller's leave alone: the window, the slots, the time base and the
journal's indices, the books of the ink, the gate but for the reservations of its records, the sheets and rolls, the ink
controller's orders, and where the carriage and its cycle stand. -/
structure Steady where
  window : Option SwathWindow
  intake : Intake
  gate : Gate
  records : List Nat
  feed : FeedController
  queue : List LinkOrder
  link : LinkState
  inkRoom : Room
  location : Location
  cycle : CycleState
  timeBase : Nat
  writeIndex : BitVec 32
  readIndex : BitVec 32
  updateCounts : Vector Nat 13
  books : Channel → Nat × Nat × Cartridge × Option Owed

def Chip.steady (x : Chip) : Steady :=
  { window := x.psw.swath, intake := x.cmi, gate := { x.sgt with swaths := [] }, records := x.sgt.swaths.map Swath.id
    feed := x.fdc, queue := x.flm.queue, link := x.flm.link, inkRoom := x.flm.inkRoom
    location := x.svc.location, cycle := x.svc.cycle.state
    timeBase := x.rpw.timeBase, writeIndex := x.rpw.writeIndex, readIndex := x.rpw.readIndex
    updateCounts := x.rpw.updateCounts
    books := fun k => ((x.account k).level, (x.account k).remainder, x.cartridge k, x.owed k) }

/-- What the service controller has been asked for: its request list, its wake ask and the open firing period. -/
def Chip.asked (x : Chip) : List Request × Option Nat × Option Nat :=
  (x.svc.requests, x.svc.wakeAsk, x.svc.firingPeriod)

/-- A view that every step of a fold leaves alone is left alone by the fold. -/
theorem foldl_view {α β γ : Type} (view : β → γ) (f : β → α → β) (h : ∀ y a, view (f y a) = view y)
    (l : List α) (y : β) : view (l.foldl f y) = view y := by
  induction l generalizing y with
  | nil => rfl
  | cons a l ih => rw [List.foldl_cons, ih, h]

/-! ### The updates of one block -/

@[simp] theorem Chip.steady_onNmn (x : Chip) (f : NozzleMonitor → NozzleMonitor) : (x.onNmn f).steady = x.steady := rfl
@[simp] theorem Chip.steady_callArming (x : Chip) : x.callArming.steady = x.steady := rfl
@[simp] theorem Chip.steady_callAdmission (x : Chip) : x.callAdmission.steady = x.steady := rfl
@[simp] theorem Chip.steady_noticeInk (x : Chip) : x.noticeInk.steady = x.steady := rfl

theorem Chip.steady_onSvc (x : Chip) (f : ServiceController → ServiceController) :
    (x.onSvc f).steady = { x.steady with location := (f x.svc).location, cycle := (f x.svc).cycle.state } := rfl

theorem Chip.steady_onCycle (x : Chip) (f : Cycle → Cycle) :
    (x.onCycle f).steady = { x.steady with cycle := (f x.svc.cycle).state } := rfl

@[simp] theorem Chip.steady_onCounters (x : Chip) (f : Counters → Counters) : (x.onCounters f).steady = x.steady := rfl

/-- A change of an account's reservation leaves the books of the ink alone. -/
theorem Chip.steady_onAccount (x : Chip) (k : Channel) (f : Account → Account)
    (level : ∀ a, (f a).level = a.level) (remainder : ∀ a, (f a).remainder = a.remainder) :
    (x.onAccount k f).steady = x.steady := by
  have books : (x.onAccount k f).steady.books = x.steady.books := by
    funext j
    by_cases same : j = k
    · subst same
      simp [Chip.steady, Chip.account, Chip.cartridge, Chip.owed, Chip.onAccount, level, remainder]
    · simp [Chip.steady, Chip.account, Chip.cartridge, Chip.owed, Chip.onAccount, Six.get_set_other, same]
  calc (x.onAccount k f).steady = { x.steady with books := (x.onAccount k f).steady.books } := rfl
    _ = x.steady := by rw [books]

@[simp] theorem Chip.steady_journal (x : Chip) (r : JournalRecord) : (x.journal r).steady = x.steady := by
  obtain ⟨st, ord, ov, dr, fd, e⟩ := x.journal_rpw r
  rw [e]
  rfl

@[simp] theorem Chip.steady_markStatus (x : Chip) (n : Fin 13) : (x.markStatus n).steady = x.steady := by
  unfold Chip.markStatus
  simp only [Chip.onRpw, ReportWriter.mark_eq]
  rfl

@[simp] theorem Chip.steady_showChange (x old : Chip) (n : Fin 13) : (x.showChange old n).steady = x.steady := by
  rw [Chip.showChange_eq]
  split <;> simp

@[simp] theorem Chip.steady_refreshStatus (x old : Chip) : (x.refreshStatus old).steady = x.steady := by
  obtain ⟨l, e⟩ := x.refreshStatus_rpw old
  rw [e]
  rfl

/-! ### Reservations returned (R56) -/

@[simp] theorem Chip.steady_setRemaining (x : Chip) (h : Holder) (k : Channel) (amount : Nat) :
    (x.setRemaining h k amount).steady = x.steady := by
  cases h with
  | none => rfl
  | prime => rfl
  | swath =>
    have ids : ((x.sgt.swaths.map fun r =>
        if r.live then { r with reservation := r.reservation.set k amount } else r).map Swath.id) =
        x.sgt.swaths.map Swath.id := by
      rw [List.map_map]
      exact List.map_congr_left fun r _ => by dsimp only [Function.comp]; split <;> rfl
    exact congrArg (fun l => { x.steady with records := l }) ids

@[simp] theorem Chip.steady_releaseChannel (x : Chip) (h : Holder) (k : Channel) :
    (x.releaseChannel h k).steady = x.steady := by
  unfold Chip.releaseChannel
  split
  · simp [Chip.steady_onAccount]
  · rfl

@[simp] theorem Chip.steady_release (x : Chip) (h : Holder) : (x.release h).steady = x.steady :=
  foldl_view Chip.steady _ (fun y k => y.steady_releaseChannel h k) _ _

theorem Chip.asked_setRemaining (x : Chip) (h : Holder) (k : Channel) (amount : Nat) :
    (x.setRemaining h k amount).asked = x.asked := by
  cases h <;> rfl

theorem Chip.asked_releaseChannel (x : Chip) (h : Holder) (k : Channel) : (x.releaseChannel h k).asked = x.asked := by
  unfold Chip.releaseChannel
  split
  · exact Chip.asked_setRemaining _ h k 0
  · rfl

@[simp] theorem Chip.asked_release (x : Chip) (h : Holder) : (x.release h).asked = x.asked :=
  foldl_view Chip.asked _ (fun y k => y.asked_releaseChannel h k) _ _

/-! ### The nozzle-out list let go (R82, R84, R86, R91) -/

@[simp] theorem Chip.steady_listProgram (x : Chip) (p : Fin 8) (cause : RequestCause) :
    (x.listProgram p cause).steady = x.steady := by
  unfold Chip.listProgram
  split
  · rfl
  · rw [Chip.steady_callArming, Chip.steady_markStatus, Chip.steady_onSvc]
    rfl

@[simp] theorem Chip.steady_fireTriggers (x : Chip) (met : Program → Counters → Bool) :
    (x.fireTriggers met).steady = x.steady := by
  refine foldl_view Chip.steady _ (fun y p => ?_) _ _
  repeat' split
  all_goals simp

@[simp] theorem Chip.steady_additionNotice (x : Chip) : x.additionNotice.steady = x.steady := by
  simp [Chip.additionNotice]

@[simp] theorem Chip.steady_uncoveredNotice (x : Chip) : x.uncoveredNotice.steady = x.steady := by
  simp [Chip.uncoveredNotice]

@[simp] theorem Chip.steady_addOut (x : Chip) (k : Channel) (n : Nat) (origin : Origin) :
    (x.addOut k n origin).steady = x.steady := by
  unfold Chip.addOut
  dsimp only
  split <;> simp

@[simp] theorem Chip.steady_removeOut (x : Chip) (e : OutEntry) : (x.removeOut e).steady = x.steady := by
  simp [Chip.removeOut]

@[simp] theorem Chip.steady_commandOut (x : Chip) (e : OutEntry) : (x.commandOut e).steady = x.steady := by
  simp [Chip.commandOut]

@[simp] theorem Chip.steady_applyPending (x : Chip) (c : NozzleChange) : (x.applyPending c).steady = x.steady := by
  unfold Chip.applyPending Chip.applyNozzle
  repeat' split
  all_goals simp

@[simp] theorem Chip.steady_swathGone (x : Chip) : x.swathGone.steady = x.steady := by
  refine (foldl_view Chip.steady _ Chip.steady_applyPending _ _).trans ?_
  simp

/-! ### The service controller's part (R101, R109) -/

theorem Chip.steady_setLocation (x : Chip) (l : Location) :
    (x.setLocation l).steady = { x.steady with location := l } := by
  unfold Chip.setLocation
  split
  · rename_i same
    rw [← eq_of_beq same]
    rfl
  · rw [Chip.steady_callArming, Chip.steady_markStatus, Chip.steady_onSvc]
    rfl

theorem Chip.asked_setLocation (x : Chip) (l : Location) : (x.setLocation l).asked = x.asked := by
  unfold Chip.setLocation
  split <;> rfl

/-- The firing period is closed, and the firing times of the programs are all else that changes (R101). -/
theorem Chip.firingEnded_view (x : Chip) : x.firingEnded.steady = x.steady ∧
    x.firingEnded.asked = (x.svc.requests, x.svc.wakeAsk, none) := by
  unfold Chip.firingEnded
  split
  · refine ⟨(foldl_view Chip.steady _ (fun y p => ?_) _ _).trans rfl,
      (foldl_view Chip.asked _ (fun y p => ?_) _ _).trans rfl⟩
    all_goals dsimp only; split <;> rfl
  · rename_i closed
    exact ⟨rfl, by rw [Chip.asked, closed]⟩

/-- The end of a step, but for the reservation of a PRIME step (R98, R99). -/
def Chip.leaveStep (x : Chip) : Chip :=
  (x.onFlm fun m => { m with serviceRoom := m.serviceRoom.discard fun _ => true }).onCycle fun c =>
    { c with phase := .none, stepDeadline := none, reservationDeadline := none, granted := false,
             primeRemaining := .all 0, report := [], pages := 0 }

theorem Chip.leaveStep_view (x : Chip) : x.leaveStep.steady = x.steady ∧ x.leaveStep.asked = x.asked := ⟨rfl, rfl⟩

theorem Chip.closeStep_eq (x : Chip) :
    x.closeStep = (if x.svc.cycle.granted = true then x.release .prime else x).leaveStep := rfl

theorem Chip.closeStep_view (x : Chip) : x.closeStep.steady = x.steady ∧ x.closeStep.asked = x.asked := by
  obtain ⟨steady, asked⟩ := (if x.svc.cycle.granted = true then x.release .prime else x).leaveStep_view
  rw [x.closeStep_eq, steady, asked]
  split
  · exact ⟨x.steady_release .prime, x.asked_release .prime⟩
  · exact ⟨rfl, rfl⟩

theorem Chip.endCycle_view (x : Chip) (outcome : StepOutcome) (recovery : Recovery) :
    (x.endCycle outcome recovery).steady = { x.steady with cycle := .none } ∧
      (x.endCycle outcome recovery).asked = x.asked := by
  unfold Chip.endCycle
  split
  · exact ⟨rfl, rfl⟩
  · dsimp only
    refine ⟨?_, rfl⟩
    rw [Chip.steady_markStatus, Chip.steady_onSvc, Chip.steady_journal]
    rfl

/-- The step of an abandoning cycle ends, and with it the cycle (R109). -/
theorem Chip.endStep_abandoning (x : Chip) (outcome : StepOutcome) (h : x.svc.cycle.state = .abandoning) :
    x.endStep outcome = x.closeStep.endCycle .abandoned .none := by
  simp only [Chip.endStep, h]

/-! ### The abandonment of a cycle (R109) -/

/-- The part with its cycle ABANDONING and the carriage STRANDED, before the step's end (R109). -/
def Chip.stranded (x : Chip) : Chip :=
  ((x.setLocation .stranded).onCycle fun c => { c with state := .abandoning }).showChange x 11

theorem Chip.setLocation_eq (x : Chip) (l : Location) :
    x.setLocation l = if x.svc.location = l then x
      else ((x.onSvc fun v => { v with location := l }).markStatus 11).callArming := by
  simp only [Chip.setLocation, beq_iff_eq]

theorem Chip.stranded_flm (x : Chip) : x.stranded.flm = x.flm := by
  unfold Chip.stranded Chip.setLocation
  split <;> rfl

theorem Chip.stranded_nextStep (x : Chip) : x.stranded.svc.nextStep = x.svc.nextStep := by
  unfold Chip.stranded Chip.setLocation
  split <;> rfl

theorem Chip.stranded_view (x : Chip) :
    x.stranded.steady = { x.steady with location := .stranded, cycle := .abandoning } ∧ x.stranded.asked = x.asked := by
  refine ⟨?_, (x.asked_setLocation .stranded)⟩
  unfold Chip.stranded
  rw [Chip.steady_showChange, Chip.steady_onCycle, Chip.steady_setLocation]

/-- A cycle in progress is abandoned; its step ends at once unless an order of it is on the link (R109). -/
theorem Chip.abandonCycle_busy (x : Chip) (busy : x.svc.cycle.state.busy = true) :
    x.abandonCycle = if x.flm.onLink (LinkOrder.isOfStep x.svc.nextStep) = true then x.stranded
      else x.stranded.endStep .abandoned := by
  rw [← x.stranded_flm, ← x.stranded_nextStep]
  unfold Chip.abandonCycle
  cases state : x.svc.cycle.state with
  | none => simp [state, CycleState.busy] at busy
  | claiming => simp [state, CycleState.busy] at busy
  | running => rfl
  | recovering => rfl
  | abandoning => rfl

theorem Chip.abandonCycle_none (x : Chip) (h : x.svc.cycle.state = .none) : x.abandonCycle = x := by
  simp only [Chip.abandonCycle, h]

theorem Chip.abandonCycle_claiming (x : Chip) (h : x.svc.cycle.state = .claiming) :
    x.abandonCycle = x.onCycle fun _ => .idle := by
  simp only [Chip.abandonCycle, h]

/-- What the abandonment leaves: no cycle or one ABANDONING, and the carriage STRANDED where a cycle was in progress. -/
theorem Chip.abandonCycle_view (x : Chip) :
    (∃ c, (c = CycleState.none ∨ c = .abandoning) ∧ x.abandonCycle.steady = { x.steady with
      cycle := c, location := if x.svc.cycle.state.busy = true then .stranded else x.svc.location }) ∧
    x.abandonCycle.asked = x.asked := by
  by_cases busy : x.svc.cycle.state.busy = true
  · obtain ⟨steady, asked⟩ := x.stranded_view
    rw [x.abandonCycle_busy busy, if_pos busy]
    split
    · exact ⟨⟨.abandoning, .inr rfl, steady⟩, asked⟩
    · have state : x.stranded.svc.cycle.state = .abandoning := congrArg Steady.cycle steady
      obtain ⟨closed, closedAsked⟩ := x.stranded.closeStep_view
      obtain ⟨ended, endedAsked⟩ := x.stranded.closeStep.endCycle_view .abandoned .none
      rw [x.stranded.endStep_abandoning _ state]
      refine ⟨⟨.none, .inl rfl, ?_⟩, endedAsked.trans (closedAsked.trans asked)⟩
      rw [ended, closed, steady]
  · rw [if_neg busy]
    cases state : x.svc.cycle.state with
    | none =>
      rw [x.abandonCycle_none state]
      exact ⟨⟨.none, .inl rfl, by simp [Chip.steady, state]⟩, rfl⟩
    | claiming =>
      rw [x.abandonCycle_claiming state]
      exact ⟨⟨.none, .inl rfl, rfl⟩, rfl⟩
    | running => exact absurd (by rw [state]; rfl) busy
    | recovering => exact absurd (by rw [state]; rfl) busy
    | abandoning => exact absurd (by rw [state]; rfl) busy

/-! ## RESTART (R40, R109, R125, R140, R150, R165) -/

/-! ### The gate's part (R17, R40) -/

/-- The entries of so many head reads are answered WITHHELD (R26). -/
def withheldEntries (l : List InFlight) (held : List HeldRead) : List InFlight :=
  l.map fun e => if ∃ h ∈ held, h.id = e.id then { e with phase := .answered .withheld [] } else e

theorem withheldEntries_cons (l : List InFlight) (a : HeldRead) (held : List HeldRead) :
    withheldEntries (setPhase l a.id (.answered .withheld [])) held = withheldEntries l (a :: held) := by
  unfold withheldEntries setPhase
  rw [List.map_map]
  refine List.map_congr_left fun e _ => ?_
  simp only [Function.comp, beq_iff_eq, List.mem_cons, or_and_right, exists_or, exists_eq_left]
  by_cases same : e.id = a.id
  · simp [same]
  · simp [same, Ne.symm same]

theorem foldl_withhold (held : List HeldRead) (x : Chip) :
    held.foldl (fun y h => y.withhold h.id) x =
      x.onPsw fun p => { p with hInFlight := withheldEntries p.hInFlight held } := by
  induction held generalizing x with
  | nil => simp [withheldEntries, Chip.onPsw]
  | cons a held ih =>
    rw [List.foldl_cons, ih]
    simp only [Chip.withhold, Chip.setReadPhase, Chip.onPsw, withheldEntries_cons]

/-- The part with every held read answered WITHHELD (R40). -/
def Chip.holdsWithheld (x : Chip) : Chip :=
  { x with
    psw := { x.psw with hInFlight := withheldEntries x.psw.hInFlight x.sgt.holdQueue }
    sgt := { x.sgt with holdQueue := [], holdTimer := none } }

theorem Chip.dropHeld_all (x : Chip) : (x.dropHeld fun _ => true) = x.holdsWithheld := by
  have all : (x.sgt.holdQueue.filter fun _ => true) = x.sgt.holdQueue := List.filter_eq_self.mpr fun _ _ => rfl
  have left : (x.sgt.holdQueue.filter fun _ => !true) = [] := List.filter_eq_nil_iff.mpr fun _ _ h => nomatch h
  unfold Chip.dropHeld
  rw [all, foldl_withhold]
  simp only [Chip.onPsw, Chip.onSgt, left, List.isEmpty_nil, if_true, Chip.holdsWithheld]

theorem Chip.liveSwath_isSome (x : Chip) :
    x.liveSwath.isSome = x.sgt.swaths.any fun w => w.state == .armed || w.state == .firing := by
  unfold Chip.liveSwath
  rw [List.isSome_find?]
  congr 1
  funext w
  cases state : w.state <;> simp [Swath.live, state]

/-- The part with the held reads answered and the reservation of a live swath returned (R40). -/
def Chip.reservationReturned (x : Chip) : Chip :=
  let answered := x.holdsWithheld.showChange x 10
  if (x.sgt.swaths.any fun w => w.state == .armed || w.state == .firing) = true then answered.release .swath
  else answered

/-- The gate with no read held, no swath bound and its claim FREE (R40, R165). -/
def Gate.restarted (g : Gate) : Gate :=
  { g with
    swaths := [], holdQueue := [], holdTimer := none, claim := .free, wakeAskedFor := none
    buffers := g.buffers.map fun _ => Buffer.cleared }

/-- Every swath is unbound (R17, R40); where one was bound the GATE record is rewritten (R15). -/
def Chip.swathsUnbound (x : Chip) : Chip :=
  let cleared : Chip := { x.reservationReturned with sgt := { x.reservationReturned.sgt with
    swaths := [], claim := .free, wakeAskedFor := none, buffers := x.sgt.buffers.map fun _ => Buffer.cleared } }
  (if x.sgt.swaths = [] then cleared else cleared.markStatus 10).refreshStatus x.reservationReturned

theorem Chip.reservationReturned_steady (x : Chip) : x.reservationReturned.steady = x.holdsWithheld.steady := by
  unfold Chip.reservationReturned
  dsimp only
  split
  · rw [Chip.steady_release, Chip.steady_showChange]
  · rw [Chip.steady_showChange]

theorem Chip.swathsUnbound_steady (x : Chip) :
    x.swathsUnbound.steady = { x.steady with gate := x.sgt.restarted, records := [] } := by
  have returned := x.reservationReturned_steady
  have gate : { x.reservationReturned.sgt with swaths := [] } = { x.holdsWithheld.sgt with swaths := [] } :=
    congrArg Steady.gate returned
  have cleared : ({ x.reservationReturned.steady with
      gate := { ({ x.reservationReturned.sgt with swaths := [] } : Gate) with
        claim := .free, wakeAskedFor := none, buffers := x.sgt.buffers.map fun _ => Buffer.cleared }
      records := [] } : Steady) = { x.steady with gate := x.sgt.restarted, records := [] } := by
    rw [returned, gate]
    rfl
  unfold Chip.swathsUnbound
  rw [Chip.steady_refreshStatus, apply_ite Chip.steady, Chip.steady_markStatus, ite_self]
  exact cleared

/-- The gate's part of RESTART, its conditions read off the swath table. -/
theorem Chip.restartGate_eq (x : Chip) :
    x.restartGate =
      if (x.sgt.swaths.any fun w => w.state == .armed || w.state == .firing) = true then x.swathsUnbound.swathGone
      else x.swathsUnbound := by
  have buffers : x.reservationReturned.sgt.buffers = x.sgt.buffers :=
    congrArg (fun v : Steady => v.gate.buffers) x.reservationReturned_steady
  unfold Chip.swathsUnbound
  rw [← buffers]
  unfold Chip.restartGate Chip.reservationReturned
  simp only [Chip.dropHeld_all, Chip.liveSwath_isSome, Bool.not_eq_true', List.isEmpty_eq_false_iff, ne_eq, ite_not]
  rfl

theorem Chip.restartGate_steady (x : Chip) :
    x.restartGate.steady = { x.steady with gate := x.sgt.restarted, records := [] } := by
  rw [x.restartGate_eq, apply_ite Chip.steady, Chip.steady_swathGone, ite_self, x.swathsUnbound_steady]

/-! ### The service controller's part (R101, R109) -/

/-- The request list is emptied, with the wake ask and the idle stretch (R109). -/
def Chip.requestsEmptied (x : Chip) : Chip :=
  { x with svc := { x.svc with requests := [], wakeAsk := none, idleStretch := none } }

theorem Chip.restartService_eq (x : Chip) :
    x.restartService = (x.requestsEmptied.showChange x 11).firingEnded.abandonCycle := rfl

theorem Chip.restartService_view (x : Chip) :
    (∃ c, (c = CycleState.none ∨ c = .abandoning) ∧ x.restartService.steady = { x.steady with
      cycle := c, location := if x.svc.cycle.state.busy = true then .stranded else x.svc.location }) ∧
    x.restartService.asked = ([], none, none) := by
  obtain ⟨closed, closedAsked⟩ := (x.requestsEmptied.showChange x 11).firingEnded_view
  obtain ⟨⟨c, ended, abandoned⟩, abandonedAsked⟩ := (x.requestsEmptied.showChange x 11).firingEnded.abandonCycle_view
  have before : (x.requestsEmptied.showChange x 11).firingEnded.steady = x.steady := by
    rw [closed, Chip.steady_showChange]
    rfl
  have cycle : (x.requestsEmptied.showChange x 11).firingEnded.svc.cycle.state = x.svc.cycle.state :=
    congrArg Steady.cycle before
  have location : (x.requestsEmptied.showChange x 11).firingEnded.svc.location = x.svc.location :=
    congrArg Steady.location before
  rw [x.restartService_eq]
  refine ⟨⟨c, ended, ?_⟩, abandonedAsked.trans closedAsked⟩
  rw [abandoned, before, cycle, location]

/-! ### The part after RESTART (R125, R140, R150) -/

/-- The part after the gate's and the service controller's steps. -/
def Chip.restartServed (x : Chip) : Chip := x.restartGate.restartService

theorem Chip.restartServed_view (x : Chip) :
    (∃ c, (c = CycleState.none ∨ c = .abandoning) ∧ x.restartServed.steady = { x.steady with
      gate := x.sgt.restarted, records := [], cycle := c
      location := if x.svc.cycle.state.busy = true then .stranded else x.svc.location }) ∧
    x.restartServed.asked = ([], none, none) := by
  have gate := x.restartGate_steady
  have cycle : x.restartGate.svc.cycle.state = x.svc.cycle.state := congrArg Steady.cycle gate
  have location : x.restartGate.svc.location = x.svc.location := congrArg Steady.location gate
  obtain ⟨⟨c, ended, steady⟩, asked⟩ := x.restartGate.restartService_view
  refine ⟨⟨c, ended, ?_⟩, asked⟩
  rw [Chip.restartServed, steady, gate, cycle, location]

/-- The feed controller after RESTART: no sheet and no movement left, the threaded roll UNKNOWN (R125, R140). -/
def FeedController.restarted (d : FeedController) (onPlaten : Bool) : FeedController :=
  { d.rest with threaded := .unknown, uncutTail := d.uncutTail || onPlaten }

/-- The removal of the sheets empties their queue and leaves what the service controller has been asked for alone. -/
theorem Chip.restartSheets_view (x : Chip) :
    x.restartSheets.steady = { x.steady with feed := { x.fdc with sheets := [] } } ∧
      x.restartSheets.asked = x.asked ∧ x.restartSheets.flm = x.flm := by
  obtain ⟨st, ord, ov, dr, fd, e⟩ := x.restartSheets_eq
  rw [e]
  exact ⟨rfl, rfl, rfl⟩

theorem Chip.restart_eq (x : Chip) : x.restart = { x.restartServed.restartSheets with
    fdc := x.restartServed.restartSheets.fdc.restarted x.platen.isSome
    flm := x.restartServed.restartSheets.flm.restart } := by
  obtain ⟨⟨_, _, steady⟩, _⟩ := x.restartServed_view
  have feed : x.restartServed.fdc = x.fdc := congrArg Steady.feed steady
  have platen : x.restartServed.platen = x.platen := by rw [Chip.platen, Chip.platen, feed]
  rw [← platen]
  rfl

/-- What the link master has queued after RESTART does not depend on the other blocks' rooms. -/
theorem LinkMaster.restart_congr {m n : LinkMaster} (queue : m.queue = n.queue) (room : m.inkRoom = n.inkRoom) :
    m.restart.queue = n.restart.queue ∧ m.restart.inkRoom = n.restart.inkRoom := by
  simp only [LinkMaster.restart_eq, queue, room, and_self]

theorem Chip.steady_feedAndLink (x : Chip) (d : FeedController) (m : LinkMaster) :
    ({ x with fdc := d, flm := m } : Chip).steady =
      { x.steady with feed := d, queue := m.queue, link := m.link, inkRoom := m.inkRoom } := rfl

/-- What RESTART does to what its steps before the feed controller's leave alone. -/
theorem Chip.restart_view (x : Chip) :
    (∃ c, (c = CycleState.none ∨ c = .abandoning) ∧ x.restart.steady = { x.steady with
      gate := x.sgt.restarted, records := [], cycle := c
      location := if x.svc.cycle.state.busy = true then .stranded else x.svc.location
      feed := FeedController.restarted { x.fdc with sheets := [] } x.platen.isSome
      queue := x.flm.restart.queue, link := x.flm.link, inkRoom := x.flm.restart.inkRoom }) ∧
    x.restart.asked = ([], none, none) ∧ x.restart.flm.feedRoom = .reset ∧ x.restart.flm.serviceRoom = .reset := by
  obtain ⟨⟨c, ended, served⟩, asked⟩ := x.restartServed_view
  obtain ⟨steady, askedSheets, flm⟩ := x.restartServed.restartSheets_view
  have feed : x.restartServed.fdc = x.fdc := congrArg Steady.feed served
  have queue : x.restartServed.flm.queue = x.flm.queue := congrArg Steady.queue served
  have link : x.restartServed.flm.link = x.flm.link := congrArg Steady.link served
  have room : x.restartServed.flm.inkRoom = x.flm.inkRoom := congrArg Steady.inkRoom served
  obtain ⟨sameQueue, sameRoom⟩ := LinkMaster.restart_congr queue room
  have left : x.restartServed.restartSheets.fdc = { x.fdc with sheets := [] } := by
    rw [← feed]
    exact congrArg Steady.feed steady
  have linkKept : x.restartServed.flm.restart.link = x.flm.link := by rw [LinkMaster.restart_eq, ← link]
  rw [x.restart_eq, flm, left]
  refine ⟨⟨c, ended, ?_⟩, askedSheets.trans asked, ?_, ?_⟩
  · rw [Chip.steady_feedAndLink, steady, served, sameQueue, sameRoom, linkKept]
  · rw [LinkMaster.restart_eq]
  · rw [LinkMaster.restart_eq]

/-! ### What RESTART leaves (R165) -/

/-- The orders after RESTART are the ink controller's: queued before, or declined before and now granted a place. -/
theorem LinkMaster.mem_restart_queue (m : LinkMaster) (o : LinkOrder) (h : o ∈ m.restart.queue) :
    (o ∈ m.queue ∧ o.block = .ink) ∨ o ∈ m.inkRoom.declined := by
  rw [LinkMaster.restart_eq] at h
  rcases List.mem_append.mp h with kept | granted
  · obtain ⟨queued, ink⟩ := List.mem_filter.mp kept
    exact .inl ⟨queued, eq_of_beq ink⟩
  · unfold Room.grantedOrders at granted
    split at granted
    · exact .inr (List.mem_of_mem_take granted)
    · cases granted

/-- The gate has no read held, no swath bound and a FREE claim. -/
theorem Chip.restart_gate (x : Chip) :
    x.restart.sgt.holdQueue = [] ∧ x.restart.sgt.holdTimer = none ∧ x.restart.sgt.swaths = [] ∧
      x.restart.sgt.claim = .free ∧ x.restart.sgt.buffers = x.sgt.buffers.map fun _ => Buffer.cleared := by
  obtain ⟨⟨_, _, steady⟩, _⟩ := x.restart_view
  have gate : ({ x.restart.sgt with swaths := [] } : Gate) = x.sgt.restarted := congrArg Steady.gate steady
  have records : x.restart.sgt.swaths.map Swath.id = [] := congrArg Steady.records steady
  exact ⟨congrArg Gate.holdQueue gate, congrArg Gate.holdTimer gate, List.map_eq_nil_iff.mp records,
    congrArg Gate.claim gate, congrArg Gate.buffers gate⟩

/-- The feed is idle with no sheet and the threaded roll UNKNOWN; the rolls are as before. -/
theorem Chip.restart_feed (x : Chip) :
    x.restart.fdc.sheets = [] ∧ x.restart.fdc.feed = .idle ∧ x.restart.fdc.positioned = none ∧
      x.restart.fdc.order = none ∧ x.restart.fdc.check = none ∧ x.restart.fdc.dryTimer = none ∧
      x.restart.fdc.threaded = .unknown ∧ x.restart.fdc.uncutTail = (x.fdc.uncutTail || x.platen.isSome) ∧
      x.restart.fdc.roll1 = x.fdc.roll1 ∧ x.restart.fdc.roll2 = x.fdc.roll2 := by
  obtain ⟨⟨_, _, steady⟩, _⟩ := x.restart_view
  have feed : x.restart.fdc = FeedController.restarted { x.fdc with sheets := [] } x.platen.isSome :=
    congrArg Steady.feed steady
  rw [feed]
  exact ⟨rfl, rfl, rfl, rfl, rfl, rfl, rfl, rfl, rfl, rfl⟩

/-- Nothing is asked of the service controller, and no cycle is left but one ABANDONING. -/
theorem Chip.restart_service (x : Chip) :
    x.restart.svc.requests = [] ∧ x.restart.svc.wakeAsk = none ∧ x.restart.svc.firingPeriod = none ∧
      (x.restart.svc.cycle.state = .none ∨ x.restart.svc.cycle.state = .abandoning) ∧
      x.restart.svc.location = if x.svc.cycle.state.busy = true then .stranded else x.svc.location := by
  obtain ⟨⟨c, ended, steady⟩, asked, _⟩ := x.restart_view
  have cycle : x.restart.svc.cycle.state = c := congrArg Steady.cycle steady
  have emptied : (x.restart.svc.requests, x.restart.svc.wakeAsk, x.restart.svc.firingPeriod) = ([], none, none) := asked
  obtain ⟨requests, wakeAsk, firing⟩ : _ ∧ _ ∧ _ := by simpa using emptied
  exact ⟨requests, wakeAsk, firing, cycle ▸ ended, congrArg Steady.location steady⟩

/-- Only orders of the ink controller are queued, and the frame on the link goes on. -/
theorem Chip.restart_link (x : Chip) :
    x.restart.flm.feedRoom = .reset ∧ x.restart.flm.serviceRoom = .reset ∧ x.restart.flm.link = x.flm.link ∧
      ∀ o ∈ x.restart.flm.queue, (o ∈ x.flm.queue ∧ o.block = .ink) ∨ o ∈ x.flm.inkRoom.declined := by
  obtain ⟨⟨_, _, steady⟩, _, feedRoom, serviceRoom⟩ := x.restart_view
  have queue : x.restart.flm.queue = x.flm.restart.queue := congrArg Steady.queue steady
  refine ⟨feedRoom, serviceRoom, congrArg Steady.link steady, fun o queued => ?_⟩
  exact x.flm.mem_restart_queue o (queue ▸ queued)

/-- The windows, the slots, the time base, the journal's indices and the books of the ink are not acted on. -/
theorem Chip.restart_kept (x : Chip) :
    x.restart.psw.swath = x.psw.swath ∧ x.restart.cmi = x.cmi ∧ x.restart.rpw.timeBase = x.rpw.timeBase ∧
      x.restart.rpw.writeIndex = x.rpw.writeIndex ∧ x.restart.rpw.readIndex = x.rpw.readIndex ∧
      x.restart.rpw.updateCounts = x.rpw.updateCounts ∧
      ∀ k, (x.restart.account k).level = (x.account k).level ∧
        (x.restart.account k).remainder = (x.account k).remainder ∧
        x.restart.cartridge k = x.cartridge k ∧ x.restart.owed k = x.owed k := by
  obtain ⟨⟨_, _, steady⟩, _⟩ := x.restart_view
  refine ⟨congrArg Steady.window steady, congrArg Steady.intake steady, congrArg Steady.timeBase steady,
    congrArg Steady.writeIndex steady, congrArg Steady.readIndex steady, congrArg Steady.updateCounts steady, fun k => ?_⟩
  have books : x.restart.steady.books k = x.steady.books k := congrFun (congrArg Steady.books steady) k
  simpa [Chip.steady] using books

/-- RESTART is answered DONE, in either part state (R163, R165). -/
theorem exec_restart (s : State) (ready : s.chip.readyForCommand) :
    exec .restart s = .next (s.replied .restart (s.chip.taking .restart).restart
      { status := .done, detail := 0, value := 0 }) :=
  congrArg Host.Outcome.next (s.command_owner .restart ready rfl decodeSlot_restart
    (owner := ((s.chip.taking .restart).restart, .done 0 0)) rfl)

/-- The link master's RESTART with the places granted as a condition on the ink controller's room (R150). -/
theorem LinkMaster.restart_cases (m : LinkMaster) :
    let kept := m.queue.filter fun o => o.block == .ink
    let free := 16 - kept.length
    m.restart = { m with
      queue := if m.inkRoom.waiting = true then kept ++ m.inkRoom.declined.take free else kept
      feedRoom := .reset
      serviceRoom := .reset
      inkRoom :=
        if free = 0 then m.inkRoom
        else if m.inkRoom.waiting = true then
          { waiting := decide (free < m.inkRoom.declined.length), declined := m.inkRoom.declined.drop free }
        else .reset } := by
  intro kept free
  have queue : kept ++ m.inkRoom.grantedOrders free =
      if m.inkRoom.waiting = true then kept ++ m.inkRoom.declined.take free else kept := by
    unfold Room.grantedOrders
    split
    · rfl
    · exact List.append_nil kept
  rw [← queue]
  exact m.restart_eq

/-- Settles O32: the steps of RESTART in their order are its definition block by block, and what they leave is read off the
views of the steps. -/
theorem restartClearsTheWork : Obligations.RestartClearsTheWork := by
  refine ⟨LinkMaster.restart_cases, fun s ready => ?_⟩
  intro x live withheld answered returned cleared marked gate emptied unlisted served cancelled
  have gateStep : gate = x.restartGate := x.restartGate_eq.symm
  have servedStep : served = x.restartServed := by
    rw [Chip.restartServed, Chip.restartService_eq, ← gateStep]
    rfl
  have cancelledStep : cancelled = x.restartServed.restartSheets := by
    rw [← servedStep]
    rfl
  refine ⟨fun z serial => ?_, x.restart, ?_, exec_restart s ready, x.restart_gate, x.restart_feed, x.restart_service,
    x.restart_link, x.restart_kept⟩
  · intro moved stranded
    have strandedStep : stranded = z.stranded := by
      rw [Chip.stranded, Chip.setLocation_eq]
      rfl
    refine ⟨z.abandonCycle_none, z.abandonCycle_claiming, fun busy step => ?_⟩
    have inProgress : z.svc.cycle.state.busy = true := by
      rcases busy with h | h | h <;> rw [h] <;> rfl
    rw [z.abandonCycle_busy inProgress, step, strandedStep]
  · rw [cancelledStep]
    exact x.restart_eq

end Sys2Proof.Machine
end

section
/-! PROOFS. Cartridges and refill (chapter 4): the polls, the deadlines of a refill and of the feed, the frames of the field
link that end, and the outcomes of a refill's orders. -/

namespace Sys2Proof.Machine

/-- Outside RESET an event whose own effect is known ends with that effect concluded. -/
theorem State.event_next (s : State) (f : Chip → Chip) {y : Chip} (out : s.chip.inReset = false) (effect : f s.chip = y) :
    (.next { s with chip := s.chip.event f } : Host.Outcome State Fault Refusal) = .next (s.after y) :=
  congrArg Host.Outcome.next ((s.event_eq f out).trans (congrArg s.after effect))

/-- A journal record does not move the time base (R167). -/
theorem Chip.journal_now (x : Chip) (r : JournalRecord) : (x.journal r).now = x.now :=
  congrArg Outer.timeBase (Acts.journal (.refl x) r).outer

theorem Chip.ranOut_of_due (x : Chip) {timer : Option Nat} {t : Nat} (set : timer = some t) (due : t ≤ x.now) :
    x.ranOut timer = true := by
  rw [set]
  exact decide_eq_true due

/-! ## Polls (R60, R71, R74, R97, R130, R148, R149) -/

/-- An order is under way where it is on the link, in the queue, or declined and waiting (R148, R149). -/
theorem LinkMaster.underWay_iff (m : LinkMaster) (p : LinkOrder → Bool) :
    m.underWay p = true ↔ ∃ o ∈ m.orders, p o = true := by
  cases link : m.link <;>
    simp [LinkMaster.underWay, LinkMaster.orders, LinkMaster.onLink, link, or_and_right, exists_or, or_assoc]

theorem isReadTagOf_eq (k : Channel) : isReadTagOf k = fun o => o == .readTag k := by
  funext o
  rw [Bool.eq_iff_iff, beq_iff_eq]
  cases o <;> simp [isReadTagOf]

theorem isPumpStatusOf_iff (k : Channel) (o : LinkOrder) : isPumpStatusOf k o = true ↔ o = .pumpStatus k := by
  cases o <;> simp [isPumpStatusOf]

theorem LinkMaster.pumpStatus_underWay_iff (m : LinkMaster) (k : Channel) :
    m.underWay (isPumpStatusOf k) = true ↔ .pumpStatus k ∈ m.orders := by
  simp [LinkMaster.underWay_iff, isPumpStatusOf_iff]

/-- A presence poll that is due (R60). -/
theorem Chip.pollTag_due (x : Chip) (k : Channel) {t : Nat} (set : (x.ink.get k).pollTimer = some t) (due : t ≤ x.now) :
    x.pollTag k =
      let y := x.onInk k fun i => { i with pollTimer := some (t + 500000) }
      if x.flm.onLink (fun o => o == .readTag k) = true then y else y.offer (.readTag k) := by
  simp only [Chip.pollTag, set, if_pos due, isReadTagOf_eq]
  rfl

/-- A pump poll that is due (R71, R74). -/
theorem Chip.pollPump_due (x : Chip) (k : Channel) {t : Nat} (set : (x.refill k).pollAt = some t) (due : t ≤ x.now) :
    x.pollPump k =
      let y := x.onRefill k fun f => { f with pollAt := some (t + 50000) }
      if .pumpStatus k ∈ x.flm.orders then y else y.offer (.pumpStatus k) := by
  simp only [Chip.pollPump, set, if_pos due, LinkMaster.pumpStatus_underWay_iff]
  rfl

/-- A station poll that is due, in a cycle that is not abandoning (R97, R109). -/
theorem Chip.pollStation_due (x : Chip) {t : Nat} (set : x.svc.cycle.phase = .polling t) (due : t ≤ x.now)
    (wanted : x.svc.cycle.state ≠ .abandoning) :
    x.pollStation =
      let y := x.onCycle fun c => { c with phase := .polling (t + 50000) }
      if ∃ o ∈ x.flm.orders, isStationStatus o = true then y else y.offer (.stationStatus x.svc.nextStep) := by
  have polls : (decide (t ≤ x.now) && x.svc.cycle.state != .abandoning) = true := by simp [due, wanted]
  simp only [Chip.pollStation, set, if_pos polls, LinkMaster.underWay_iff]
  rfl

/-- A feed poll that is due (R130). -/
theorem Chip.pollFeed_due (x : Chip) {o : FeedOrder} {t : Nat} (order : x.fdc.order = some o) (set : o.pollAt = some t)
    (due : t ≤ x.now) :
    x.pollFeed =
      let y := x.onFdc fun d => { d with order := some { o with pollAt := some (t + 50000) } }
      if ∃ o ∈ x.flm.orders, isFeedStatus o = true then y else y.offer (.feedStatus o.serial) := by
  simp only [Chip.pollFeed, order, set, if_pos due, LinkMaster.underWay_iff]
  rfl

/-- Settles O42: each poll that is due is set again and offers its order, by the lemma of that poll. -/
theorem pollsAreOfferedEachPeriod : Obligations.PollsAreOfferedEachPeriod := by
  intro s out
  refine ⟨fun k t set due => ?_, fun k t set due => ?_, fun t set due wanted => ?_, fun o t order set due => ?_⟩
  · exact s.event_next (fun x => x.pollTag k) out (s.chip.pollTag_due k set due)
  · exact s.event_next (fun x => x.pollPump k) out (s.chip.pollPump_due k set due)
  · exact s.event_next (fun x => x.pollStation) out (s.chip.pollStation_due set due wanted)
  · exact s.event_next (fun x => x.pollFeed) out (s.chip.pollFeed_due order set due)

/-! ## Deadlines and the dry timer (R72, R74, R130, R134) -/

/-- A refill enters STOPPING with its two times counted from now (R74). -/
theorem Chip.enterStopping_eq (x : Chip) (k : Channel) (cause : StopCause) {now : Nat} (time : x.now = now) :
    x.enterStopping k cause =
      ((x.onAccount k fun a => { a with refillState := .stopping }).onRefill k fun f =>
        { f with pumpDeadline := none, stopCause := cause, stopDeadline := some (now + 10000000),
                 pollAt := some (now + 50000) }).offer (.stop k) := by
  rw [← time]
  rfl

/-- The pump deadline that has run out while PUMPING (R72). -/
theorem Chip.pumpTimeout_due (x : Chip) (k : Channel) {t : Nat} (pumping : (x.account k).refillState = .pumping)
    (set : (x.refill k).pumpDeadline = some t) (due : t ≤ x.now) :
    x.pumpTimeout k =
      (x.journal (.inkPumpTimeout k (x.account k).transferRequested (x.refill k).moved)).enterStopping k .timeout := by
  simp [Chip.pumpTimeout, pumping, x.ranOut_of_due set due]

/-- The stop deadline that has run out while STOPPING (R74). -/
theorem Chip.stopTimeout_due (x : Chip) (k : Channel) {t : Nat} (stopping : (x.account k).refillState = .stopping)
    (set : (x.refill k).stopDeadline = some t) (due : t ≤ x.now) :
    x.stopTimeout k = (x.journal (.inkStopLost k (x.refill k).moved)).endStop k := by
  simp [Chip.stopTimeout, stopping, x.ranOut_of_due set due]

theorem Chip.orderTimeout_due (x : Chip) {o : FeedOrder} (order : x.fdc.order = some o) (due : o.deadline ≤ x.now) :
    x.orderTimeout = x.endFeedOrder o .timeout o.fed := by
  simp only [Chip.orderTimeout, order, if_pos due]

/-- The dry timer that has run out begins what the cut mode of the platen sheet asks for (R134). -/
theorem Chip.dryTimeout_due (x : Chip) {t : Nat} {h : Sheet} (drying : x.fdc.feed = .drying)
    (set : x.fdc.dryTimer = some t) (due : t ≤ x.now) (platen : x.platen = some h) :
    x.dryTimeout =
      let y := x.feedStage fun d => { d with dryTimer := none }
      match h.cutMode with
      | .cut => ((y.onPlaten fun h => { h with state := .cutting }).onFdc fun d => { d with feed := .cutting }).placeFeed
          .cut 10000000
      | .keepOn => (y.feedStage fun d => { d with uncutTail := true }).removeSheet h h.printedOutcome := by
  have stays : (x.feedStage fun d => { d with dryTimer := none }).platen = some h := platen
  have keeps : ((x.feedStage fun d => { d with dryTimer := none }).feedStage fun d => { d with uncutTail := true }).platen =
      some h := platen
  have expired : x.dryTimeout = x.dryExpired := by simp [Chip.dryTimeout, drying, x.ranOut_of_due set due]
  rw [expired, Chip.dryExpired]
  cases mode : h.cutMode with
  | cut =>
    simp only [stays, mode]
    rfl
  | keepOn => simp only [stays, mode, Chip.removePlaten, keeps]

/-- Settles O43: each timer that has run out has its effect, by the lemma of that timer. -/
theorem inkAndFeedTimersRunOut : Obligations.InkAndFeedTimersRunOut := by
  intro s out
  refine ⟨fun k t pumping set due => ?_, fun k t stopping set due => ?_, fun o order due => ?_,
    fun t h drying set due platen => ?_⟩
  · exact s.event_next (fun x => x.pumpTimeout k) out ((s.chip.pumpTimeout_due k pumping set due).trans
      (Chip.enterStopping_eq _ k .timeout (s.chip.journal_now _)))
  · exact s.event_next (fun x => x.stopTimeout k) out (s.chip.stopTimeout_due k stopping set due)
  · exact s.event_next (fun x => x.orderTimeout) out (s.chip.orderTimeout_due order due)
  · refine s.event_next (fun x => x.dryTimeout) out ((s.chip.dryTimeout_due drying set due platen).trans ?_)
    cases h.cutMode <;> rfl

/-! ## The end of a frame (R142, R143, R145) -/

/-- The command that ends the frame of an order by what the unit acknowledges and drives. -/
def LinkOrder.ending (f : FrameEnd) : LinkOrder → Instr
  | .readTag _ => .readTagOutcome f
  | .debit _ _ _ => .debitOutcome f
  | .level _ => .levelOutcome f
  | .transfer _ _ => .transferOutcome f
  | .stop _ => .stopOutcome f
  | .pumpStatus _ => .pumpStatusOutcome f
  | .station _ _ => .stationOrderOutcome f
  | .stationStatus _ => .stationStatusOutcome f
  | .checkPage _ _ => .checkPageOutcome f
  | .feed _ _ => .feedOrderOutcome f
  | .feedStatus _ => .feedStatusOutcome f
  | .feedCheck _ => .clearJamCheckOutcome f

/-- The frame on the link ends where the command is of its order's kind: its outcome goes to the block that placed it
(R145). -/
theorem Chip.frameEnd_carried (x : Chip) (kind : LinkOrder → Bool) (f : FrameEnd) {o : LinkOrder} {since : Nat}
    (link : x.flm.link = .carrying o since) (own : kind o = true) :
    x.frameEnd kind f = (x.frameOver (o.wire f)).deliver o (o.outcome f.exchange) := by
  simp only [Chip.frameEnd, link, if_pos own]
  rfl

theorem exec_ending (s : State) (f : FrameEnd) {o : LinkOrder} {since : Nat} (out : s.chip.inReset = false)
    (link : s.chip.flm.link = .carrying o since) :
    exec (o.ending f) s = .next (s.after ((s.chip.frameOver (o.wire f)).deliver o (o.outcome f.exchange))) := by
  cases o <;> exact s.event_next (fun x => x.frameEnd _ f) out (s.chip.frameEnd_carried _ f link rfl)

/-- The event that ends a frame, where it is known what the block that placed the order makes of the outcome. -/
theorem exec_ending_of_taken (s : State) (f : FrameEnd) {o : LinkOrder} {since : Nat} {outcome : FrameOutcome} {y : Chip}
    (out : s.chip.inReset = false) (link : s.chip.flm.link = .carrying o since) (ends : o.outcome f.exchange = outcome)
    (taken : (s.chip.frameOver (o.wire f)).deliver o outcome = y) : exec (o.ending f) s = .next (s.after y) := by
  rw [exec_ending s f out link, ends, taken]

/-- A line check that fails: ABSENT with nothing on the wires (R142). -/
theorem Chip.lineCheckFailed_due (x : Chip) {o : LinkOrder} {since : Nat} (link : x.flm.link = .carrying o since)
    (due : since + 20000 ≤ x.now) : x.lineCheckFailed = (x.frameOver []).deliver o .absent := by
  have elapsed : since + Config.linkWait ≤ x.now := due
  simp only [Chip.lineCheckFailed, link, if_pos elapsed]
  rfl

/-- A busy hold past its limit: BUSY TIMEOUT after the opening of the frame (R143). -/
theorem Chip.busyHoldFailed_due (x : Chip) {o : LinkOrder} {since : Nat} (link : x.flm.link = .carrying o since)
    (due : since + min (Config.heldAtLineCheck x.flm.frames) 20000 + 50 + 20000 ≤ x.now) :
    x.busyHoldFailed = (x.frameOver (o.opening ++ [.releaseByUnit])).deliver o .busyTimeout := by
  have elapsed : orderAcknowledged x.flm.frames since + Config.linkWait ≤ x.now := due
  simp only [Chip.busyHoldFailed, link, if_pos elapsed]
  rfl

/-! ## The orders of a refill (R70, R71, R74) -/

/-- A TRANSFER that has been taken by the pump, or may have been: pumping while the source is present, else a STOP (R70). -/
def Chip.transferTaken (x : Chip) (k : Channel) : Chip :=
  if (x.ink.get k).sourcePresent = true then x.enterPumping k else x.enterStopping k .removed

theorem Chip.transferTaken_eq (x : Chip) (k : Channel) :
    x.transferTaken k =
      let now := x.rpw.timeBase
      if (x.ink.get k).sourcePresent = true then
        (x.onAccount k fun a => { a with refillState := .pumping }).onRefill k fun r =>
          { r with pumpDeadline := some (now + 120000000), pollAt := some (now + 50000) }
      else ((x.onAccount k fun a => { a with refillState := .stopping }).onRefill k fun r =>
        { r with pumpDeadline := none, stopCause := .removed, stopDeadline := some (now + 10000000)
                 pollAt := some (now + 50000) }).offer (.stop k) := rfl

/-- Outside QUEUED a TRANSFER outcome is discarded. -/
theorem Chip.takeTransfer_unqueued (x : Chip) (k : Channel) (volume : Nat) (outcome : FrameOutcome)
    (other : (x.account k).refillState ≠ .queued) : x.takeTransfer k volume outcome = x := by
  simp [Chip.takeTransfer, other]

theorem Chip.takeTransfer_done (x : Chip) (k : Channel) (volume : Nat) (r : Reply)
    (queued : (x.account k).refillState = .queued) : x.takeTransfer k volume (.done r) = x.transferTaken k := by
  simp only [Chip.takeTransfer, queued, beq_self_eq_true, if_true, Chip.transferTaken]

/-- BUSY TIMEOUT counts as a TRANSFER taken (R70). -/
theorem Chip.takeTransfer_busyTimeout (x : Chip) (k : Channel) (volume : Nat) :
    x.takeTransfer k volume .busyTimeout = if (x.account k).refillState ≠ .queued then x else x.transferTaken k := by
  simp only [Chip.takeTransfer, beq_iff_eq, ne_eq, ite_not, Chip.transferTaken]

/-- A TRANSFER that the pump has not taken: a FIELD FAULT record, then IDLE (R70, log entry 52). -/
theorem Chip.takeTransfer_failed (x : Chip) (k : Channel) (volume : Nat) {outcome : FrameOutcome}
    (queued : (x.account k).refillState = .queued) (failed : outcome = .absent ∨ outcome = .refused) :
    x.takeTransfer k volume outcome =
      (x.journal (.fieldFault 0x20 0x12 outcome.kind k none)).refillIdle k := by
  rcases failed with rfl | rfl <;> simp only [Chip.takeTransfer, queued, beq_self_eq_true, if_true] <;> rfl

/-- An outcome that reports a failure is not DONE. -/
theorem FrameOutcome.ne_done {outcome : FrameOutcome}
    (failed : outcome = .absent ∨ outcome = .refused ∨ outcome = .checkError) (r : Reply) : outcome ≠ .done r := by
  rcases failed with rfl | rfl | rfl <;> nofun

/-- A STOP that has failed makes its record (R74). -/
theorem Chip.takeStop_failed (x : Chip) (k : Channel) {outcome : FrameOutcome} (failed : ∀ r, outcome ≠ .done r) :
    x.takeStop k outcome = x.journal (.fieldFault 0x20 0x13 outcome.kind k none) := by
  cases outcome with
  | done r => exact absurd rfl (failed r)
  | absent | refused | busyTimeout | checkError => rfl

/-- A pump STATUS that has failed changes nothing (R71). -/
theorem Chip.takePumpStatus_failed (x : Chip) (k : Channel) {outcome : FrameOutcome} (failed : ∀ r, outcome ≠ .done r) :
    x.takePumpStatus k outcome = x := by
  cases outcome with
  | done r => exact absurd rfl (failed r)
  | absent | refused | busyTimeout | checkError => rfl

/-- A reply while PUMPING is stored and shown before the pump's state is acted on (R71). -/
theorem Chip.takePumpStatus_pumping (x : Chip) (k : Channel) (pump : PumpState) (code moved : Nat)
    (pumping : (x.account k).refillState = .pumping) :
    x.takePumpStatus k (.done (.pump pump code moved)) =
      ((x.onRefill k fun r => { r with moved := moved }).showChange x (channelStatus k)).pumpingReply k pump code moved := by
  simp only [Chip.takePumpStatus, pumping]

/-- A reply while STOPPING is stored, and ends the stop once the pump runs no more (R74). -/
theorem Chip.takePumpStatus_stopping (x : Chip) (k : Channel) (pump : PumpState) (code moved : Nat)
    (stopping : (x.account k).refillState = .stopping) :
    x.takePumpStatus k (.done (.pump pump code moved)) =
      let stored := x.onRefill k fun r => { r with moved := moved }
      if pump = .running then stored else stored.endStop k := by
  simp only [Chip.takePumpStatus, stopping, beq_iff_eq]

/-- Any other reply changes nothing (log entry 39). -/
theorem Chip.takePumpStatus_unused (x : Chip) (k : Channel) (pump : PumpState) (code moved : Nat)
    (unused : (x.account k).refillState = .idle ∨ (x.account k).refillState = .queued ∨
      (x.account k).refillState = .debiting) : x.takePumpStatus k (.done (.pump pump code moved)) = x := by
  rcases unused with state | state | state <;> simp only [Chip.takePumpStatus, state]

/-- Settles O49: the end of the order's frame, then the outcome taken by the lemma for it and for the refill's state. -/
theorem refillOutcomesAreTaken : Obligations.RefillOutcomesAreTaken := by
  intro s k since f out
  refine ⟨fun volume link => ?_, fun link => ?_, fun link => ?_⟩
  · refine ⟨fun other => ?_, fun queued done => ?_, fun queued failed => ?_⟩
    · exact exec_ending_of_taken s f out link rfl (Chip.takeTransfer_unqueued _ k volume _ other)
    · exact exec_ending_of_taken s f out link done
        ((Chip.takeTransfer_done (s.chip.frameOver _) k volume .none queued).trans (Chip.transferTaken_eq _ k))
    · exact exec_ending_of_taken s f out link rfl (Chip.takeTransfer_failed _ k volume queued failed)
  · refine ⟨fun done => ?_, fun failed => ?_⟩
    · exact exec_ending_of_taken s f out link done rfl
    · exact exec_ending_of_taken s f out link rfl
        (Chip.takeStop_failed _ k (FrameOutcome.ne_done (failed.imp_right Or.inl)))
  · refine ⟨fun failed => ?_, fun pump code moved done => ⟨fun pumping => ?_, fun stopping => ?_, fun unused => ?_⟩⟩
    · exact exec_ending_of_taken s f out link rfl (Chip.takePumpStatus_failed _ k (FrameOutcome.ne_done failed))
    · refine exec_ending_of_taken s f out link done
        ((Chip.takePumpStatus_pumping (s.chip.frameOver _) k pump code moved pumping).trans ?_)
      cases pump <;> rfl
    · exact exec_ending_of_taken s f out link done (Chip.takePumpStatus_stopping _ k pump code moved stopping)
    · exact exec_ending_of_taken s f out link done (Chip.takePumpStatus_unused _ k pump code moved unused)

/-! ## BUSY TIMEOUT of the other orders (R46, R65, R68, R97, R99, R109, R130, R139) -/

/-- A tag whose poll goes unanswered has its fault reported once (R65). -/
theorem Chip.takeReadTag_busyTimeout (x : Chip) (k : Channel) :
    x.takeReadTag k .busyTimeout =
      if (x.cartridge k).pollFault = true then x
      else ((x.onCartridge k fun c => { c with pollFault := true }).markStatus (channelStatus k)).journal
        (.fieldFault (0x10 + k.val) 0x01 .busyTimeout k none) := rfl

/-- A LEVEL that has failed leaves the level as it was, the reading over (R46). -/
theorem Chip.takeLevel_busyTimeout (x : Chip) (k : Channel) :
    x.takeLevel k .busyTimeout =
      ((x.onAccount k fun a => { a with levelReading := .idle }).showChange x (channelStatus k)).journal
        (.fieldFault 0x20 0x11 .busyTimeout k none) := rfl

/-- A refill in DEBITING does not outlast a DEBIT that has failed, whether or not a debt is left (R75). -/
theorem Chip.debitingNext_failed (x : Chip) (k : Channel) :
    x.debitingNext k false = if (x.account k).refillState = .debiting then x.refillIdle k else x := by
  simp only [Chip.debitingNext, beq_iff_eq, Bool.false_and, Bool.false_eq_true, if_false, ite_self]

/-- A DEBIT that has failed: its record, and a refill in DEBITING ends (R68, R75). -/
theorem Chip.takeDebit_failed (x : Chip) (k : Channel) (amount serial : Nat) {outcome : FrameOutcome}
    (failed : ∀ r, outcome ≠ .done r) :
    x.takeDebit k amount serial outcome =
      let y := x.journal (.fieldFault (0x10 + k.val) 0x02 outcome.kind k (some amount))
      if (y.account k).refillState = .debiting then y.refillIdle k else y := by
  cases outcome with
  | done r => exact absurd rfl (failed r)
  | absent | refused | busyTimeout | checkError => exact Chip.debitingNext_failed _ k

theorem Chip.isCurrentStep_iff (x : Chip) (step : Nat) :
    x.isCurrentStep step = true ↔ x.svc.cycle.state.busy = true ∧ x.svc.nextStep = step := by
  simp [Chip.isCurrentStep]

/-- The order of a step counts as taken by the station: polling begins, or the abandoned step ends (R97, R109). -/
theorem Chip.takeStation_busyTimeout (x : Chip) (step : Nat) :
    x.takeStation step .busyTimeout =
      if ¬ ((x.svc.cycle.state.busy = true ∧ x.svc.nextStep = step) ∧ x.svc.cycle.phase = .ordered) then x
      else if x.svc.cycle.state = .abandoning then x.endStep .abandoned
      else x.onCycle fun c => { c with phase := .polling (x.rpw.timeBase + 50000) } := by
  simp only [Chip.takeStation, Bool.and_eq_true, Chip.isCurrentStep_iff, beq_iff_eq, ite_not, Chip.beginPolling]
  rfl

theorem Chip.takeStationStatus_busyTimeout (x : Chip) (step : Nat) :
    x.takeStationStatus step .busyTimeout =
      if (x.svc.cycle.state.busy = true ∧ x.svc.nextStep = step) ∧ x.svc.cycle.phase.isPolling = true ∧
        x.svc.cycle.state = .abandoning then x.endStep .abandoned else x := by
  simp only [Chip.takeStationStatus, Bool.and_eq_true, Chip.isCurrentStep_iff, Chip.endIfAbandoning, beq_iff_eq,
    ← and_assoc]
  by_cases polling : (x.svc.cycle.state.busy = true ∧ x.svc.nextStep = step) ∧ x.svc.cycle.phase.isPolling = true
  · by_cases abandoning : x.svc.cycle.state = .abandoning
    · rw [if_pos polling, if_pos abandoning, if_pos ⟨polling, abandoning⟩]
    · rw [if_pos polling, if_neg abandoning, if_neg fun both => abandoning both.2]
  · rw [if_neg polling, if_neg fun both => polling both.1]

theorem Chip.takeCheckPage_busyTimeout (x : Chip) (page step : Nat) :
    x.takeCheckPage page step .busyTimeout =
      if (x.svc.cycle.state.busy = true ∧ x.svc.nextStep = step) ∧ x.svc.cycle.phase = .paging page then
        x.endStep (.link .busyTimeout) else x := by
  simp only [Chip.takeCheckPage, Bool.and_eq_true, Chip.isCurrentStep_iff, beq_iff_eq]
  rfl

/-- A feed order in progress counts as taken by the feed unit: polling begins (R130). -/
theorem Chip.takeFeedFrame_busyTimeout (x : Chip) (serial : Nat) :
    x.takeFeedFrame serial .busyTimeout =
      match x.fdc.order with
      | some p =>
        if p.serial = serial then
          x.onFdc fun d => { d with order := some { p with pollAt := some (x.rpw.timeBase + 50000) } }
        else x
      | none => x := by
  cases order : x.fdc.order with
  | none => simp only [Chip.takeFeedFrame, Chip.feedOrder, order]
  | some p =>
    by_cases own : p.serial = serial
    · simp only [Chip.takeFeedFrame, Chip.feedOrder, order, if_pos own]
      rfl
    · simp only [Chip.takeFeedFrame, Chip.feedOrder, order, if_neg own]

theorem Chip.takeFeedStatus_busyTimeout (x : Chip) (serial : Nat) : x.takeFeedStatus serial .busyTimeout = x := by
  cases order : x.feedOrder serial <;> simp only [Chip.takeFeedStatus, order]

/-- A check of CLEAR JAM whose STATUS has failed is a failed check (R139). -/
theorem Chip.takeFeedCheck_busyTimeout (x : Chip) (serial : Nat) :
    x.takeFeedCheck serial .busyTimeout =
      if x.fdc.check ≠ some serial then x
      else (x.onFdc fun d => { d with check := none }).clearFailed LinkOutcome.busyTimeout.code := by
  simp only [Chip.takeFeedCheck, ne_eq, ite_not]
  rfl

/-- Settles O45: a frame cut short by one of the two waits, a frame that ran its course, and what each block makes of BUSY
TIMEOUT, order by order. -/
theorem framesEndedByATimeout : Obligations.FramesEndedByATimeout := by
  refine ⟨fun s o since out link => ⟨fun due => ?_, fun due => ?_, fun f => ?_⟩,
    fun x k amount serial volume step page so op => ⟨?_, ?_, ?_, ?_, ?_, ?_, ?_, ?_, ?_, ?_, ?_, ?_⟩⟩
  · exact s.event_next (fun x => x.lineCheckFailed) out (s.chip.lineCheckFailed_due link due)
  · exact s.event_next (fun x => x.busyHoldFailed) out (s.chip.busyHoldFailed_due link due)
  · have ended := exec_ending s f out link
    cases o <;> exact ended
  · exact x.takeReadTag_busyTimeout k
  · exact x.takeDebit_failed k amount serial (outcome := .busyTimeout) nofun
  · exact x.takeLevel_busyTimeout k
  · exact (x.takeTransfer_busyTimeout k volume).trans (congrArg (ite _ x) (x.transferTaken_eq k))
  · exact x.takeStop_failed k (outcome := .busyTimeout) nofun
  · exact x.takePumpStatus_failed k (outcome := .busyTimeout) nofun
  · exact x.takeStation_busyTimeout step
  · exact x.takeStationStatus_busyTimeout step
  · exact x.takeCheckPage_busyTimeout page step
  · exact x.takeFeedFrame_busyTimeout serial
  · exact x.takeFeedStatus_busyTimeout serial
  · exact x.takeFeedCheck_busyTimeout serial

end Sys2Proof.Machine
end

section
/-! PROOFS. The nozzle monitor (chapter 5): spit sets, SET NOZZLE, the nozzle-out list, its hold and pending changes, and check
reports. -/

namespace Sys2Proof.Machine

/-! ## The spit set (R79) -/

theorem Chip.spitSetOf_sublist (x : Chip) (k : Channel) : (x.spitSetOf k).Sublist (List.range 64) := by
  unfold Chip.spitSetOf
  dsimp only
  split
  · exact List.filter_sublist
  · exact List.nil_sublist _

theorem Chip.mem_spitSetOf (x : Chip) (k : Channel) (g : Fin 64) :
    g.val ∈ x.spitSetOf k ↔
      (x.account k).inkType ≠ 0 ∧ 0 < (x.nmn.spit.get k).idleLimit ∧
        (x.nmn.idle.get k).get g + (x.nmn.spit.get k).idleLimit * 1000 ≤ x.rpw.timeBase := by
  have entry : (x.nmn.idle.get k).getD g.val 0 = (x.nmn.idle.get k).get g := by
    simp [Vector.getD, Vector.get]
  have spits : ((x.account k).used && (x.nmn.spit.get k).idleLimit != 0) = true ↔
      (x.account k).inkType ≠ 0 ∧ 0 < (x.nmn.spit.get k).idleLimit := by
    rw [Bool.and_eq_true, Account.used_iff, bne_iff_ne, Nat.pos_iff_ne_zero]
  simp only [Chip.spitSetOf, spits, ← and_assoc]
  split
  · rename_i both
    simp [both, entry, Chip.now]
  · rename_i idle
    simp [idle]

/-- Settles O18: membership is the condition of the definition's filter, read with a subtraction; the numbers ascend and stay
below 64 because the set is taken from the range of the groups. -/
theorem spitSetHoldsTheIdleGroups : Obligations.SpitSetHoldsTheIdleGroups := by
  intro x k
  refine ⟨fun g => ?_, List.pairwise_lt_range.sublist (x.spitSetOf_sublist k),
    fun g member => List.mem_range.mp ((x.spitSetOf_sublist k).subset member)⟩
  rw [x.mem_spitSetOf k g]
  refine and_congr_right fun _ => and_congr_right fun limit => ?_
  omega

/-! ## Entries of the nozzle-out list (R2, R80, R81) -/

theorem partner_ne (n : Nat) : partner n ≠ n := by
  unfold partner
  split <;> omega

theorem isOut_iff (l : List OutEntry) (k : Channel) (n : Nat) :
    isOut l k n = true ↔ ∃ a ∈ l, a.channel = k ∧ a.nozzle = n := by
  simp [isOut, outEntry]

theorem isOut_false_iff (l : List OutEntry) (k : Channel) (n : Nat) : isOut l k n = false ↔ outEntry l k n = none := by
  rw [isOut, Option.isSome_eq_false_iff, Option.isNone_iff_eq_none]

theorem setCoverage_eq (l : List OutEntry) (k : Channel) (n : Nat) (c : Coverage) :
    setCoverage l k n c = l.map fun a => if a.channel = k ∧ a.nozzle = n then { a with coverage := c } else a := by
  simp only [setCoverage, Bool.and_eq_true, beq_iff_eq]

/-- An entry put on the list does not change which entry another nozzle has. -/
theorem outEntry_insertOut (e : OutEntry) (l : List OutEntry) (k : Channel) (n : Nat) (other : e.nozzle ≠ n) :
    outEntry (insertOut e l) k n = outEntry l k n := by
  unfold outEntry
  induction l with
  | nil => simp [insertOut, other]
  | cons a l ih =>
    unfold insertOut
    split
    · simp [List.find?_cons, other]
    · simp only [List.find?_cons, ih]

/-- Taking a nozzle off the list does not change which entry another nozzle has. -/
theorem outEntry_filter (l : List OutEntry) (k : Channel) {n m : Nat} (other : m ≠ n) :
    outEntry (l.filter fun a => !(a.channel == k && a.nozzle == n)) k m = outEntry l k m := by
  unfold outEntry
  rw [List.find?_filter]
  congr 1
  funext a
  rw [Bool.eq_iff_iff, decide_eq_true_iff]
  refine ⟨And.right, fun found => ⟨?_, found⟩⟩
  obtain ⟨_, nozzle⟩ := (Bool.and_eq_true _ _).mp found
  have kept : (a.nozzle == n) = false := beq_false_of_ne fun same => other ((beq_iff_eq.mp nozzle).symm.trans same)
  rw [kept, Bool.and_false, Bool.not_false]

/-- A change of entries that keeps their nozzles changes the entry that a nozzle has, and no more. -/
theorem outEntry_map (f : OutEntry → OutEntry) (nozzle : ∀ e, (f e).channel = e.channel ∧ (f e).nozzle = e.nozzle)
    (l : List OutEntry) (k : Channel) (n : Nat) : outEntry (l.map f) k n = (outEntry l k n).map f := by
  unfold outEntry
  rw [List.find?_map]
  congr 2
  funext a
  simp only [Function.comp, nozzle a]

theorem outEntry_nozzle {l : List OutEntry} {k : Channel} {n : Nat} {e : OutEntry} (found : outEntry l k n = some e) :
    e.channel = k ∧ e.nozzle = n := by
  simpa using List.find?_some found

/-- The coverage of a nozzle's entry after it has been set: the new value where the nozzle has an entry (R81). -/
theorem coverage_setCoverage (l : List OutEntry) (k : Channel) (n : Nat) (c : Coverage) :
    (outEntry (setCoverage l k n c) k n).map OutEntry.coverage = if isOut l k n = true then some c else none := by
  rw [setCoverage, outEntry_map _ (fun e => by split <;> exact ⟨rfl, rfl⟩), isOut]
  cases found : outEntry l k n with
  | none => rfl
  | some e => simp [outEntry_nozzle found]

theorem setCoverage_length (l : List OutEntry) (k : Channel) (n : Nat) (c : Coverage) :
    (setCoverage l k n c).length = l.length := List.length_map ..

theorem OutEntry.before_iff_channel (a b : OutEntry) :
    a.before b = true ↔ a.channel < b.channel ∨ a.channel = b.channel ∧ a.nozzle < b.nozzle := by
  rw [OutEntry.before_iff, Fin.lt_def, Fin.ext_iff]

/-! ## Changes of the nozzle-out list (R80, R81, R84, R90, R91) -/

/-- The NOZZLE record of a change to one nozzle (R90). -/
def changeRecord (reason : NozzleReason) (k : Channel) (n : Nat) (origin : Origin)
    (coverage partnerCoverage : Option Coverage) (entries time : Nat) : JournalRecord :=
  .nozzle
    { reason := reason, channel := k.val, nozzle := some n, origin := some origin, coverage := coverage
      partnerCoverage := partnerCoverage, entries := entries, mask := none, count := none, lowest := none
      timeAdded := some time }

theorem Chip.nozzleRecord_eq (x : Chip) (reason : NozzleReason) (e : OutEntry) (coverage : Option Coverage) :
    x.nozzleRecord reason e coverage = changeRecord reason e.channel e.nozzle e.origin coverage
      ((outEntry x.nmn.outList e.channel (partner e.nozzle)).map OutEntry.coverage) x.nmn.outList.length e.time := rfl

/-- An addition: the pair's coverage, the NOZZLES record, the ADDED record with both coverages, and the notices. -/
theorem Chip.addOut_eq (x : Chip) (k : Channel) (n : Nat) (origin : Origin) :
    x.addOut k n origin =
      let paired := isOut x.nmn.outList k (partner n) = true
      let coverage := if paired then Coverage.uncovered else .substituted
      let e : OutEntry := { channel := k, nozzle := n, origin := origin, time := x.rpw.timeBase, coverage := coverage }
      let entered := (x.onNmn fun m =>
        { m with outList := insertOut e (setCoverage m.outList k (partner n) .uncovered) }).markStatus 12
      let noticed := (entered.journal (changeRecord .added k n origin (some coverage)
        (if paired then some .uncovered else none) (x.nmn.outList.length + 1) x.rpw.timeBase)).additionNotice
      if paired then noticed.uncoveredNotice else noticed := by
  have other : n ≠ partner n := (partner_ne n).symm
  simp only [Chip.addOut, Chip.nozzleRecord_eq, Chip.onNmn_nmn, outEntry_insertOut, ne_eq, other, not_false_eq_true,
    coverage_setCoverage, insertOut_length, setCoverage_length, Chip.now]

/-- A removal: the partner's entry SUBSTITUTED, the NOZZLES record, and the REMOVED record with the coverages of the pair where
the partner stays on the list, and with none elsewhere (log entry 18). -/
theorem Chip.removeOut_eq (x : Chip) (e : OutEntry) :
    x.removeOut e =
      let others := x.nmn.outList.filter fun a => !(a.channel == e.channel && a.nozzle == e.nozzle)
      let paired := isOut x.nmn.outList e.channel (partner e.nozzle) = true
      ((x.onNmn fun m =>
        { m with outList := setCoverage others e.channel (partner e.nozzle) .substituted }).markStatus 12).journal
        (changeRecord .removed e.channel e.nozzle e.origin (if paired then some .uncovered else none)
          (if paired then some .substituted else none) others.length e.time) := by
  unfold Chip.removeOut
  have paired : isOut (x.nmn.outList.filter fun a => !(a.channel == e.channel && a.nozzle == e.nozzle)) e.channel
      (partner e.nozzle) = isOut x.nmn.outList e.channel (partner e.nozzle) := by
    rw [isOut, outEntry_filter _ _ (partner_ne e.nozzle), isOut]
  simp only [Chip.nozzleRecord_eq, Chip.onNmn_nmn, coverage_setCoverage, setCoverage_length, paired]
  rfl

/-- An entry after the origin of the entry of `e`'s nozzle has become COMMAND (R84). -/
def OutEntry.commanded (e a : OutEntry) : OutEntry :=
  if a.channel = e.channel ∧ a.nozzle = e.nozzle then { a with origin := .command } else a

theorem OutEntry.commanded_nozzle (e a : OutEntry) :
    (e.commanded a).channel = a.channel ∧ (e.commanded a).nozzle = a.nozzle := by
  unfold OutEntry.commanded
  split <;> exact ⟨rfl, rfl⟩

theorem OutEntry.commanded_coverage (e : OutEntry) : OutEntry.coverage ∘ e.commanded = OutEntry.coverage := by
  funext a
  unfold Function.comp OutEntry.commanded
  split <;> rfl

/-- A change of origin: the entry's origin COMMAND, and the ORIGIN record. -/
theorem Chip.commandOut_eq (x : Chip) (e : OutEntry) :
    x.commandOut e =
      (x.onNmn fun m => { m with outList := m.outList.map e.commanded }).journal
        (changeRecord .origin e.channel e.nozzle .command (some e.coverage)
          ((outEntry x.nmn.outList e.channel (partner e.nozzle)).map OutEntry.coverage) x.nmn.outList.length e.time) := by
  have same : (outEntry (x.nmn.outList.map e.commanded) e.channel (partner e.nozzle)).map OutEntry.coverage =
      (outEntry x.nmn.outList e.channel (partner e.nozzle)).map OutEntry.coverage := by
    rw [outEntry_map _ e.commanded_nozzle, Option.map_map, e.commanded_coverage]
  have marked : x.commandOut e = (x.onNmn fun m => { m with outList := m.outList.map e.commanded }).journal
      ((x.onNmn fun m => { m with outList := m.outList.map e.commanded }).nozzleRecord .origin
        { e with origin := .command } (some e.coverage)) := by
    simp only [Chip.commandOut, Bool.and_eq_true, beq_iff_eq]
    rfl
  rw [marked]
  simp only [Chip.nozzleRecord_eq, Chip.onNmn_nmn, same, List.length_map]

/-- A pending change by the entry of its nozzle (R86). -/
theorem Chip.applyPending_eq (x : Chip) (c : NozzleChange) :
    x.applyPending c =
      match outEntry x.nmn.outList c.channel c.nozzle with
      | none =>
        if c.out = false then x
        else if x.nmn.outList.length < 96 then x.addOut c.channel c.nozzle .command
        else x.journal (.nozzle
          { reason := .pendingDropped, channel := c.channel.val, nozzle := some c.nozzle, origin := none, coverage := none
            partnerCoverage := (outEntry x.nmn.outList c.channel (partner c.nozzle)).map OutEntry.coverage
            entries := x.nmn.outList.length, mask := none, count := none, lowest := none, timeAdded := none })
      | some e =>
        if c.out = false then x.removeOut e else if e.origin = .check then x.commandOut e else x := by
  have places : Config.outPlaces = 96 := rfl
  cases entry : outEntry x.nmn.outList c.channel c.nozzle with
  | none =>
    cases out : c.out with
    | false => simp [Chip.applyPending, Chip.applyNozzle, entry, out]
    | true =>
      by_cases room : x.nmn.outList.length < 96
      · have notFull : ¬ 96 ≤ x.nmn.outList.length := Nat.not_le_of_lt room
        simp [Chip.applyPending, Chip.applyNozzle, isOut, entry, out, places, room, notFull]
      · have full : 96 ≤ x.nmn.outList.length := Nat.le_of_not_lt room
        simp [Chip.applyPending, isOut, entry, out, places, room, full]
  | some e => cases out : c.out <;> simp [Chip.applyPending, Chip.applyNozzle, isOut, entry, out]

/-- The settings kept aside come into effect channel by channel, and none is left aside (R77). -/
theorem NozzleMonitor.takeKeptAside_eq : NozzleMonitor.takeKeptAside = fun m => { m with
    keptAside := .all none
    spit := .of fun k => match m.keptAside.get k with
      | some given => given
      | none => m.spit.get k } := by
  funext m
  refine congrArg (fun spit => { m with keptAside := Six.all none, spit := Six.of spit }) (funext fun k => ?_)
  cases m.keptAside.get k <;> rfl

/-! ## SET NOZZLE (R83 to R85) -/

/-- SET NOZZLE in a RUNNING part is answered as the nozzle monitor answers it. -/
theorem exec_setNozzle (a : SetNozzleArgs) (s : State) (ready : s.chip.readyForCommand)
    (running : s.chip.cmi.partState = .running) {owner : Chip × Answer}
    (h : (s.chip.taking (.setNozzle a)).doSetNozzle a = owner) :
    exec (.setNozzle a) s = .next (s.replied (.setNozzle a) owner.1 owner.2) :=
  congrArg Host.Outcome.next (s.command_owner (.setNozzle a) ready rfl (decodeSlot_setNozzle a)
    ((Chip.whenRunning_of_running (s.chip.taking (.setNozzle a)) (fun y => y.doSetNozzle a) running).trans h))

theorem Chip.doSetNozzle_badChannel (x : Chip) (a : SetNozzleArgs) (bad : 5 < a.channel.toNat) :
    x.doSetNozzle a = (x, .arg 1 0) :=
  dif_neg (by omega)

/-- What SET NOZZLE does with a change that no row of R83 refuses: it waits while the list is held, else it takes effect. -/
def Chip.nozzleAccepted (x : Chip) (c : NozzleChange) : Chip × Answer :=
  if x.nmn.held = true then
    ((x.onNmn fun m => { m with pending := m.pending ++ [c] }).markStatus 12, .done 6 (x.nmn.pending.length + 1))
  else (x.applyNozzle c, .done (x.nozzleEffect c).detail (x.applyNozzle c).nmn.outList.length)

/-- SET NOZZLE for one of the channels: the first row of R83's table that holds refuses it, else the change is accepted. -/
theorem Chip.doSetNozzle_checked (x : Chip) (a : SetNozzleArgs) (k : Channel) (channel : a.channel.toNat = k.val) :
    x.doSetNozzle a =
      if 1023 < a.nozzle.toNat then (x, .arg 2 0)
      else if a.action.toNat ≠ 1 ∧ a.action.toNat ≠ 2 then (x, .arg 3 0)
      else if x.nmn.held = true ∧ 16 ≤ x.nmn.pending.length then (x, .full 4)
      else if x.nmn.held = false ∧ a.action.toNat = 1 ∧ outEntry x.nmn.outList k a.nozzle.toNat = none ∧
          96 ≤ x.nmn.outList.length then (x, .full 5)
      else x.nozzleAccepted { channel := k, nozzle := a.nozzle.toNat, out := a.action.toNat == 1 } := by
  have actionOut : (a.action == nozzleActionOut) = (a.action.toNat == 1) := by
    rw [Bool.eq_iff_iff, beq_iff_eq, beq_iff_eq, ← BitVec.toNat_inj]
    rfl
  have actionIn : (a.action == nozzleActionIn) = (a.action.toNat == 2) := by
    rw [Bool.eq_iff_iff, beq_iff_eq, beq_iff_eq, ← BitVec.toNat_inj]
    rfl
  have number : (⟨a.channel.toNat, channel ▸ k.isLt⟩ : Channel) = k := Fin.ext channel
  have table : x.doSetNozzle a = x.answerBy (x.nozzleChecks a k)
      (x.nozzleAccepted { channel := k, nozzle := a.nozzle.toNat, out := a.action == nozzleActionOut }) := by
    rw [← number, Chip.doSetNozzle, dif_pos (channel ▸ k.isLt), Chip.answerBy]
    dsimp only
    cases firstRow (x.nozzleChecks a ⟨a.channel.toNat, channel ▸ k.isLt⟩) with
    | some r => rfl
    | none => cases held : x.nmn.held <;> simp [Chip.nozzleAccepted, held]
  have pendingPlaces : Config.pendingPlaces = 16 := rfl
  have outPlaces : Config.outPlaces = 96 := rfl
  rw [table]
  simp only [Chip.nozzleChecks, Chip.answerBy_cons, Chip.answerBy_nil, bne, actionOut, actionIn, Bool.and_eq_true,
    Bool.not_eq_true', isOut_false_iff, decide_eq_true_eq, beq_eq_false_iff_ne, beq_iff_eq, pendingPlaces, outPlaces,
    and_assoc]

/-- An accepted change on a free list by the table of R84, with the answer of its row. -/
theorem Chip.nozzleAccepted_free (x : Chip) (c : NozzleChange) (free : x.nmn.held = false) :
    x.nozzleAccepted c =
      let taken := fun (y : Chip) (detail : Nat) => (y, Answer.done detail y.nmn.outList.length)
      match outEntry x.nmn.outList c.channel c.nozzle with
      | none => if c.out = true then taken (x.addOut c.channel c.nozzle .command) 1 else taken x 5
      | some e =>
        if c.out = true then (if e.origin = .check then taken (x.commandOut e) 2 else taken x 3)
        else taken (x.removeOut e) 4 := by
  unfold Chip.nozzleAccepted Chip.applyNozzle Chip.nozzleEffect
  rw [free]
  cases outEntry x.nmn.outList c.channel c.nozzle with
  | none => cases c.out <;> rfl
  | some e =>
    cases c.out with
    | false => rfl
    | true => by_cases check : e.origin = .check <;> simp [check, NozzleEffect.detail]

/-- The reply to an accepted change: the entry of its nozzle decides it while the list is free (R84, R85). -/
theorem State.replied_nozzleAccepted (s : State) (r : RingCommand) (x : Chip) (c : NozzleChange) :
    s.replied r (x.nozzleAccepted c).1 (x.nozzleAccepted c).2 =
      let taken := fun (y : Chip) (detail : Nat) => s.replied r y (.done detail y.nmn.outList.length)
      if x.nmn.held = true then
        s.replied r ((x.onNmn fun m => { m with pending := m.pending ++ [c] }).markStatus 12)
          (.done 6 (x.nmn.pending.length + 1))
      else match outEntry x.nmn.outList c.channel c.nozzle with
        | none => if c.out = true then taken (x.addOut c.channel c.nozzle .command) 1 else taken x 5
        | some e =>
          if c.out = true then (if e.origin = .check then taken (x.commandOut e) 2 else taken x 3)
          else taken (x.removeOut e) 4 := by
  cases held : x.nmn.held with
  | true => simp only [Chip.nozzleAccepted, held, if_true]
  | false =>
    rw [x.nozzleAccepted_free c held]
    cases outEntry x.nmn.outList c.channel c.nozzle with
    | none => exact s.replied_ite r _ _ _
    | some e => exact (s.replied_ite r _ _ _).trans (congrArg (ite _ · _) (s.replied_ite r _ _ _))

/-! ## Check reports (R87 to R89) -/

/-- A returned entry is kept unless it has been kept before. -/
theorem distinctEntries_append (l : List (Nat × Nat)) (e : Nat × Nat) :
    distinctEntries (l ++ [e]) =
      if e ∈ distinctEntries l then distinctEntries l else distinctEntries l ++ [e] := by
  simp [distinctEntries, List.foldl_append]

theorem distinctEntries_nodup (entries : List (Nat × Nat)) : (distinctEntries entries).Nodup := by
  induction entries using list_snoc_induction with
  | nil => exact List.nodup_nil
  | append_singleton l e ih =>
    rw [distinctEntries_append]
    split
    · exact ih
    · rename_i fresh
      exact List.nodup_append.mpr ⟨ih, List.pairwise_singleton _ e, fun a member b same equal =>
        fresh (List.mem_singleton.mp same ▸ equal ▸ member)⟩

theorem mem_distinctEntries (entries : List (Nat × Nat)) (a : Nat × Nat) :
    a ∈ distinctEntries entries ↔ a ∈ entries := by
  induction entries using list_snoc_induction with
  | nil => rfl
  | append_singleton l e ih =>
    rw [distinctEntries_append, List.mem_append, List.mem_singleton, ← ih]
    split
    · rename_i kept
      exact ⟨.inl, fun h => h.elim id fun same => same ▸ kept⟩
    · rw [List.mem_append, List.mem_singleton]

/-- The nozzles of the entries that a report's mask lets through are those entries (R87). -/
theorem reportedNozzles_eq_filter (mask : BitVec 8) (l : List (Nat × Nat)) :
    (l.filterMap (reportedNozzle mask)).map (fun e => (e.1.val, e.2)) =
      l.filter fun e => decide (e.1 < 6 ∧ e.2 ≤ 1023 ∧ mask.getLsbD e.1 = true) := by
  induction l with
  | nil => rfl
  | cons e l ih =>
    rw [List.filterMap_cons, List.filter_cons, ← ih]
    by_cases channel : e.1 < 6
    · by_cases rest : e.2 ≤ 1023 ∧ mask.getLsbD e.1 = true
      · simp [reportedNozzle, inMask, channel, rest]
      · simp only [reportedNozzle, inMask, channel, dif_pos, true_and, rest, if_false, decide_false, Bool.false_eq_true]
    · simp [reportedNozzle, channel]

theorem mem_insertAscending (n m : Nat) (l : List Nat) : m ∈ insertAscending n l ↔ m = n ∨ m ∈ l := by
  induction l with
  | nil => simp [insertAscending]
  | cons a l ih =>
    unfold insertAscending
    split
    · rw [List.mem_cons]
    · split
      · rename_i same
        simp [same]
      · rw [List.mem_cons, ih, List.mem_cons, or_left_comm]

theorem insertAscending_pairwise (n : Nat) {l : List Nat} (ascending : l.Pairwise (· < ·)) :
    (insertAscending n l).Pairwise (· < ·) := by
  induction l with
  | nil => exact List.pairwise_singleton ..
  | cons a l ih =>
    obtain ⟨above, rest⟩ := List.pairwise_cons.mp ascending
    unfold insertAscending
    split
    · rename_i below
      refine List.pairwise_cons.mpr ⟨fun b member => ?_, ascending⟩
      rcases List.mem_cons.mp member with rfl | member
      · exact below
      · exact Nat.lt_trans below (above b member)
    · split
      · exact ascending
      · refine List.pairwise_cons.mpr ⟨fun b member => ?_, ih rest⟩
        rcases (mem_insertAscending n b l).mp member with rfl | member
        · omega
        · exact above b member

theorem foldr_insertAscending (l : List Nat) :
    (l.foldr insertAscending []).Pairwise (· < ·) ∧ ∀ n, n ∈ l.foldr insertAscending [] ↔ n ∈ l := by
  induction l with
  | nil => exact ⟨List.Pairwise.nil, fun n => Iff.rfl⟩
  | cons a l ih =>
    obtain ⟨ascending, members⟩ := ih
    exact ⟨insertAscending_pairwise a ascending, fun n => by
      rw [List.foldr_cons, mem_insertAscending, members, List.mem_cons]⟩

/-- The reported nozzles of a channel, each once, in ascending order (R87, R88). -/
theorem reportedOf_ascending (reported : List (Channel × Nat)) (k : Channel) :
    (reportedOf reported k).Pairwise (· < ·) ∧ ∀ n, n ∈ reportedOf reported k ↔ (k, n) ∈ reported := by
  obtain ⟨ascending, members⟩ := foldr_insertAscending ((reported.filter fun e => e.1 == k).map Prod.snd)
  refine ⟨ascending, fun n => (members n).trans ?_⟩
  simp

/-- The channel that a whole report's record names: the lowest of its mask, or none (R90). -/
theorem optCode_lowestInMask (mask : BitVec 8) :
    optCode noneWord ((lowestInMask mask).map Fin.val) =
      ((List.range 6).find? fun k => mask.getLsbD k).getD 0xFFFF := by
  have numbers : List.range 6 = channels.map Fin.val := rfl
  have lowest : (List.range 6).find? (fun k => mask.getLsbD k) = (lowestInMask mask).map Fin.val := by
    rw [numbers, List.find?_map]
    rfl
  rw [lowest]
  cases lowestInMask mask <;> rfl

/-- The NOZZLE record of a whole report (R90). -/
theorem Chip.reportRecord_eq (x : Chip) (reason : NozzleReason) (mask : BitVec 8) (count : Option Nat)
    (lowest : Option (Nat × Nat)) :
    x.reportRecord reason mask count lowest = .nozzle
      { reason := reason, channel := ((List.range 6).find? fun k => mask.getLsbD k).getD 0xFFFF, nozzle := none
        origin := none, coverage := none, partnerCoverage := none, entries := x.nmn.outList.length
        mask := some mask.toNat, count := count, lowest := lowest, timeAdded := none } := by
  rw [← optCode_lowestInMask]
  rfl

theorem Chip.takeReport_held (x : Chip) (mask : BitVec 8) (entries : List (Nat × Nat)) (held : x.nmn.held = true) :
    x.takeReport mask entries = x.journal (x.reportRecord .mergeRefused mask none none) :=
  if_pos held

/-- A report on a free list: one record for the entries set aside, then the merge of the others (R87). -/
theorem Chip.takeReport_free (x : Chip) (mask : BitVec 8) (entries : List (Nat × Nat))
    (reported : List (Channel × Nat)) (free : x.nmn.held = false)
    (good : reported.map (fun e => (e.1.val, e.2)) =
      (distinctEntries entries).filter fun e => decide (e.1 < 6 ∧ e.2 ≤ 1023 ∧ mask.getLsbD e.1 = true)) :
    x.takeReport mask entries =
      let bad := (distinctEntries entries).length - reported.length
      (if bad = 0 then x else x.journal (x.reportRecord .badEntry mask (some bad) none)).merge mask reported := by
  have injective (e f : Channel × Nat) (same : (e.1.val, e.2) = (f.1.val, f.2)) : e = f := by
    obtain ⟨channel, nozzle⟩ := Prod.mk.inj same
    exact Prod.ext (Fin.ext channel) nozzle
  have nozzles : (distinctEntries entries).filterMap (reportedNozzle mask) = reported :=
    (List.map_inj_right injective).mp ((reportedNozzles_eq_filter mask _).trans good.symm)
  simp only [Chip.takeReport, free, Bool.false_eq_true, if_false, nozzles]

/-- One nozzle more to add: nothing where it is on the list, else an addition while there is room (R88). -/
theorem Chip.mergeAdditions_append (x : Chip) (wanted : List (Channel × Nat)) (k : Channel) (n : Nat) :
    x.mergeAdditions (wanted ++ [(k, n)]) =
      let (z, left) := x.mergeAdditions wanted
      if ∃ e ∈ z.nmn.outList, e.channel = k ∧ e.nozzle = n then (z, left)
      else if z.nmn.outList.length < 96 then (z.addOut k n .check, left)
      else (z, left ++ [(k, n)]) := by
  simp only [Chip.mergeAdditions, List.foldl_append, List.foldl_cons, List.foldl_nil, isOut_iff]
  rfl

/-- The overflow flag after a merge, and the record telling how many nozzles were left and which came first (R89). -/
theorem Chip.mergeOverflow_eq (x : Chip) (mask : BitVec 8) (left : List (Channel × Nat)) :
    x.mergeOverflow mask left =
      let flagged := fun b : Bool => x.onNmn fun m => { m with overflow := b }
      match left with
      | [] => flagged false
      | (k, n) :: rest => ((flagged true).markStatus 12).journal
          (x.reportRecord .listOverflow mask (some (rest.length + 1)) (some (k.val, n))) := by
  cases left <;> rfl

/-- A merge: its removals, its additions, and what it tells of the nozzles left (R88, R89). -/
theorem Chip.merge_eq (x : Chip) (mask : BitVec 8) (reported : List (Channel × Nat)) :
    x.merge mask reported =
      let removed := (x.nmn.outList.filter fun e =>
        mask.getLsbD e.channel.val && e.origin == .check && !reported.contains (e.channel, e.nozzle)).foldl Chip.removeOut x
      let merged := removed.mergeAdditions (channels.flatMap fun k => (reportedOf reported k).map fun n => (k, n))
      (merged.1.mergeOverflow mask merged.2).markStatus 12 := rfl

/-! ## The statement about SET NOZZLE, the nozzle-out list and check reports -/

/-- Settles O39: the answer to SET NOZZLE by its checking table; the order of the list; the changes and the end of the hold,
each by the equation of its operation; and a report by what it sets aside, removes, adds and leaves. -/
theorem setNozzleChecksAndEffects : Obligations.SetNozzleChecksAndEffects := by
  refine ⟨fun a s ready running => ⟨fun bad => ?_, fun k channel => ?_⟩,
    fun e l => ⟨fun a => mem_insertOut e a l, fun order absent => ?_⟩,
    fun y k n => ⟨fun origin => ?_, fun e own nozzle => ⟨?_, ?_⟩⟩, fun y => ?_, fun y c => y.applyPending_eq c,
    fun y mask entries reported => ⟨⟨distinctEntries_nodup entries, mem_distinctEntries entries⟩, fun held => ?_,
      fun free good => ?_, reportedOf_ascending reported, ?_, rfl, y.mergeAdditions_append⟩⟩
  · exact exec_setNozzle a s ready running (owner := (s.chip.taking (.setNozzle a), .arg 1 0))
      ((s.chip.taking (.setNozzle a)).doSetNozzle_badChannel a bad)
  · have answered := exec_setNozzle a s ready running ((s.chip.taking (.setNozzle a)).doSetNozzle_checked a k channel)
    simp only [State.replied_ite, State.replied_nozzleAccepted, beq_iff_eq] at answered
    exact answered
  · simp only [← OutEntry.before_iff_channel] at order ⊢
    exact insertOut_order e l order fun a member channel => (absent a member).resolve_left (not_not_intro channel)
  · simp only [Chip.addOut_eq, setCoverage_eq, isOut_iff]
    rfl
  · subst own nozzle
    simp only [Chip.removeOut_eq, setCoverage_eq, isOut_iff]
    rfl
  · subst own nozzle
    exact y.commandOut_eq e
  · simp only [Chip.swathGone, NozzleMonitor.takeKeptAside_eq] <;> rfl
  · rw [y.takeReport_held mask entries held, y.reportRecord_eq]
  · rw [y.takeReport_free mask entries reported free good, ← good, List.length_map]
    simp only [y.reportRecord_eq]
  · rw [y.merge_eq]
    simp only [Chip.mergeOverflow_eq, Chip.reportRecord_eq] <;> rfl

end Sys2Proof.Machine
end

section
/-! PROOFS. The sheet queue (chapters 7 and 8): the roll choice, QUEUE SHEET, CANCEL SHEET, and the feed orders that load, print
and clear the platen sheet. -/

namespace Sys2Proof

open Machine

/-! ## The fields of QUEUE SHEET (R110 to R112) -/

theorem Machine.RollPreference.ofCode_isNone_iff (n : Nat) : (RollPreference.ofCode n).isNone = true ↔ 2 < n := by
  match n with
  | 0 | 1 | 2 => decide
  | n + 3 => simp [RollPreference.ofCode]

theorem Machine.CutMode.ofCode_isNone_iff (n : Nat) : (CutMode.ofCode n).isNone = true ↔ 1 < n := by
  match n with
  | 0 | 1 => decide
  | n + 2 => simp [CutMode.ofCode]

theorem QueueSheetArgs.marked_iff (a : QueueSheetArgs) : (a.estimateMarker == 1#8) = true ↔ a.estimateMarker.toNat = 1 := by
  rw [beq_iff_eq, ← BitVec.toNat_inj]; rfl

theorem QueueSheetArgs.badEstimate_iff (a : QueueSheetArgs) (k : Channel) : a.badEstimate k = true ↔
    a.estimateMarker.toNat = 1 ∧ 1000000 < (a.estimates.get k).toNat := by
  rw [QueueSheetArgs.badEstimate, Bool.and_eq_true, a.marked_iff, decide_eq_true_iff]

theorem QueueSheetArgs.tooLong_iff (a : QueueSheetArgs) : a.tooLong = true ↔
    a.length.toNat * 1000 < a.topMargin.toNat * 1000 + a.swathCount.toNat * a.swathAdvance.toNat :=
  decide_eq_true_iff

/-- The record of a sheet whose cut mode is a code of 12.4, field by field (R112). -/
theorem QueueSheetArgs.sheet_eq (a : QueueSheetArgs) (coded : ¬ 1 < a.cutMode.toNat) : a.sheet =
    { id := a.id.toNat
      preference := if a.rollPreference.toNat = 0 then .roll1 else if a.rollPreference.toNat = 1 then .roll2 else .either
      mediaType := a.mediaType.toNat, length := a.length.toNat, topMargin := a.topMargin.toNat
      swathCount := a.swathCount.toNat, swathAdvance := a.swathAdvance.toNat
      cutMode := if a.cutMode.toNat = 0 then .cut else .keepOn
      dryTime := a.dryTime.toNat
      estimate := if a.estimateMarker.toNat = 1 then some (.of fun k => (a.estimates.get k).toNat) else none
      state := .queued, waitingCause := none, assigned := none, done := 0, loadStep := 0, defect := false
      cancel := false, cause := none } := by
  have preference : (RollPreference.ofCode a.rollPreference.toNat).getD .either =
      if a.rollPreference.toNat = 0 then .roll1 else if a.rollPreference.toNat = 1 then .roll2 else .either := by
    generalize a.rollPreference.toNat = n
    match n with
    | 0 | 1 | 2 => rfl
    | n + 3 => simp [RollPreference.ofCode]
  have cutMode : (CutMode.ofCode a.cutMode.toNat).getD .cut = if a.cutMode.toNat = 0 then .cut else .keepOn := by
    generalize a.cutMode.toNat = n at coded
    match n, coded with
    | 0, _ | 1, _ => rfl
    | n + 2, coded => exact absurd (by omega) coded
  simp only [QueueSheetArgs.sheet, preference, cutMode, a.marked_iff]

end Sys2Proof

namespace Sys2Proof.Machine

/-! ## Roll choice (R114) -/

theorem Roll.qualifies_iff (r : Roll) (h : Sheet) : r.qualifies h = true ↔
    r.enabled = true ∧ r.out = false ∧ r.mediaType = h.mediaType ∧ h.length ≤ r.remaining := by
  simp [Roll.qualifies, and_assoc]

/-- A sheet that asks for roll 1 is given that roll or none. -/
theorem FeedController.chooseRoll_roll1 (d : FeedController) (h : Sheet) (asked : h.preference = .roll1) :
    d.chooseRoll h = if (d.rollOf .one).qualifies h = true then some .one else none := by
  simp only [FeedController.chooseRoll, asked]

theorem FeedController.chooseRoll_roll2 (d : FeedController) (h : Sheet) (asked : h.preference = .roll2) :
    d.chooseRoll h = if (d.rollOf .two).qualifies h = true then some .two else none := by
  simp only [FeedController.chooseRoll, asked]

/-- Under EITHER the two rolls are tried in turn, the threaded one first. -/
theorem FeedController.chooseRoll_either (d : FeedController) (h : Sheet) (asked : h.preference = .either)
    {first second : RollNo} (turn : d.threaded.firstRoll = first) (next : first.other = second) :
    d.chooseRoll h =
      if (d.rollOf first).qualifies h = true then some first
      else if (d.rollOf second).qualifies h = true then some second
      else none := by
  simp only [FeedController.chooseRoll, asked, turn, next]

/-- Settles O26: the choice by the sheet's preference, each roll tried by what qualifies it, and the test that ends with none. -/
theorem rollChoiceByTheTable : Obligations.RollChoiceByTheTable := by
  refine ⟨fun d h => ?_, fun x h candidate unserved => ?_⟩
  · simp only [← Roll.qualifies_iff]
    have inTurn : ∀ {first second : RollNo}, h.preference = .either → d.threaded.firstRoll = first →
        first.other = second →
        ((d.rollOf first).qualifies h = true → d.chooseRoll h = some first) ∧
        (¬ (d.rollOf first).qualifies h = true → (d.rollOf second).qualifies h = true → d.chooseRoll h = some second) ∧
        (¬ (d.rollOf first).qualifies h = true → ¬ (d.rollOf second).qualifies h = true → d.chooseRoll h = none) := by
      intro first second asked turn next
      rw [d.chooseRoll_either h asked turn next]
      exact ⟨fun fits => if_pos fits, fun unfit fits => (if_neg unfit).trans (if_pos fits),
        fun unfit unfit' => (if_neg unfit).trans (if_neg unfit')⟩
    refine ⟨fun asked => ?_, fun asked => ?_, fun asked threaded => ?_, fun asked threaded => ?_, fun asked threaded => ?_⟩
    · rw [d.chooseRoll_roll1 h asked]
      exact ⟨fun fits => if_pos fits, fun unfit => if_neg unfit⟩
    · rw [d.chooseRoll_roll2 h asked]
      exact ⟨fun fits => if_pos fits, fun unfit => if_neg unfit⟩
    · exact inTurn asked (by rw [threaded]; rfl) rfl
    · exact inTurn asked (by rw [threaded]; rfl) rfl
    · exact inTurn asked (by rcases threaded with e | e <;> rw [e] <;> rfl) rfl
  · simp only [Chip.admissionTest, candidate, unserved]

/-! ## QUEUE SHEET (R110 to R112) -/

/-- QUEUE SHEET in a RUNNING part is answered as the feed controller answers it. -/
theorem exec_queueSheet (a : QueueSheetArgs) (s : State) (ready : s.chip.readyForCommand)
    (running : s.chip.cmi.partState = .running) {owner : Chip × Answer}
    (h : (s.chip.taking (.queueSheet a)).doQueueSheet a = owner) :
    exec (.queueSheet a) s = .next (s.replied (.queueSheet a) owner.1 owner.2) :=
  congrArg Host.Outcome.next (s.command_owner (.queueSheet a) ready rfl (decodeSlot_queueSheet a)
    ((Chip.whenRunning_of_running (s.chip.taking (.queueSheet a)) (fun y => y.doQueueSheet a) running).trans h))

theorem Chip.sheet_isSome_iff (x : Chip) (id : Nat) : (x.sheet id).isSome = true ↔ ∃ h ∈ x.fdc.sheets, h.id = id := by
  simp [Chip.sheet, List.find?_isSome]

/-- One row that answers the first field at fault is the row of each field in turn (R111). -/
theorem Chip.answerBy_firstFault (x : Chip) (faults : List (Bool × Nat)) {first : Option Nat}
    (fault : first = (faults.find? fun f => f.1).map Prod.snd) (detail : Nat) (rest : List (Bool × Answer))
    (accepted : Chip × Answer) :
    x.answerBy ((first.isSome, .arg detail (first.getD 0)) :: rest) accepted =
      x.answerBy (faults.map (fun f => (f.1, .arg detail f.2)) ++ rest) accepted := by
  subst fault
  induction faults with
  | nil => rfl
  | cons f faults ih =>
    obtain ⟨bad, byte⟩ := f
    cases bad with
    | true => rfl
    | false => exact ih

/-- The part when a QUEUE SHEET has been accepted (R112). -/
def Chip.queued (x : Chip) (h : Sheet) : Chip :=
  let y := x.onFdc fun d => { d with sheets := d.sheets ++ [h] }
  ((if y.nextSwath = x.nextSwath then y else y.callArming).markStatus 9).callAdmission

/-- QUEUE SHEET: the first row that holds refuses it, the fields in the order of their slot bytes, else the sheet joins the
queue (R111, R112). -/
theorem Chip.doQueueSheet_checked (x : Chip) (a : QueueSheetArgs) :
    x.doQueueSheet a =
      if 8 ≤ x.fdc.sheets.length then (x, .full 1)
      else if ∃ h ∈ x.fdc.sheets, h.id = a.id.toNat then (x, .arg 2 0)
      else if 2 < a.rollPreference.toNat then (x, .arg 3 10)
      else if 15 < a.mediaType.toNat then (x, .arg 3 11)
      else if a.length.toNat < 210 ∨ 30000 < a.length.toNat then (x, .arg 3 12)
      else if 500 < a.topMargin.toNat then (x, .arg 3 14)
      else if a.swathCount.toNat < 1 ∨ 4096 < a.swathCount.toNat then (x, .arg 3 16)
      else if 1 < a.cutMode.toNat then (x, .arg 3 18)
      else if 1 < a.estimateMarker.toNat then (x, .arg 3 19)
      else if a.swathAdvance.toNat < 500 ∨ 60000 < a.swathAdvance.toNat then (x, .arg 3 20)
      else if 600 < a.dryTime.toNat then (x, .arg 3 24)
      else if a.estimateMarker.toNat = 1 ∧ 1000000 < (a.estimates.get 0).toNat then (x, .arg 3 28)
      else if a.estimateMarker.toNat = 1 ∧ 1000000 < (a.estimates.get 1).toNat then (x, .arg 3 32)
      else if a.estimateMarker.toNat = 1 ∧ 1000000 < (a.estimates.get 2).toNat then (x, .arg 3 36)
      else if a.estimateMarker.toNat = 1 ∧ 1000000 < (a.estimates.get 3).toNat then (x, .arg 3 40)
      else if a.estimateMarker.toNat = 1 ∧ 1000000 < (a.estimates.get 4).toNat then (x, .arg 3 44)
      else if a.estimateMarker.toNat = 1 ∧ 1000000 < (a.estimates.get 5).toNat then (x, .arg 3 48)
      else if a.length.toNat * 1000 < a.topMargin.toNat * 1000 + a.swathCount.toNat * a.swathAdvance.toNat then
        (x, .arg 4 0)
      else (x.queued a.sheet, .done 0 (x.fdc.sheets.length + 1)) := by
  have accepted : x.queued a.sheet =
      (((x.onFdc fun d => { d with sheets := d.sheets ++ [a.sheet] }).noticeNext x).markStatus 9).callAdmission := by
    rw [Chip.noticeNext_eq]; rfl
  have table : x.doQueueSheet a =
      x.answerBy (x.queueChecks a) (x.queued a.sheet, .done 0 (x.fdc.sheets ++ [a.sheet]).length) := by
    rw [accepted]; rfl
  rw [table, Chip.queueChecks, Chip.answerBy_cons, Chip.answerBy_cons,
    x.answerBy_firstFault a.fieldFaults (first := a.firstFault) rfl]
  simp only [QueueSheetArgs.fieldFaults, List.map_cons, List.map_nil, List.cons_append, List.nil_append,
    Chip.answerBy_cons, Chip.answerBy_nil, x.sheet_isSome_iff, RollPreference.ofCode_isNone_iff,
    CutMode.ofCode_isNone_iff, outside_iff, a.badEstimate_iff, a.tooLong_iff, decide_eq_true_eq, List.length_append,
    List.length_singleton]
  rfl

/-- Settles O35: the table of R111 row by row; a cut mode that is no code is refused before the sheet's record is made. -/
theorem queueSheetChecksAndEffects : Obligations.QueueSheetChecksAndEffects := by
  intro a s ready running
  dsimp only
  rw [exec_queueSheet a s ready running (Chip.doQueueSheet_checked _ a)]
  simp only [State.replied_ite]
  by_cases coded : 1 < a.cutMode.toNat
  · simp only [coded, if_true]
    rfl
  · rw [a.sheet_eq coded]
    rfl

/-! ## CANCEL SHEET (R119 to R121) -/

/-- CANCEL SHEET is answered in a RUNNING part as the feed controller answers it, and refused in an UNCONFIGURED one (R163). -/
theorem exec_cancelSheet (id : BitVec 16) (s : State) (ready : s.chip.readyForCommand) {y : Chip} {a : Answer}
    (h : (s.chip.taking (.cancelSheet id)).whenRunning (fun y => y.doCancelSheet id.toNat) = (y, a)) :
    exec (.cancelSheet id) s = .next (s.replied (.cancelSheet id) y a) :=
  congrArg Host.Outcome.next (s.command_eq (.cancelSheet id) ready rfl (decodeSlot_cancelSheet id) h)

theorem exec_cancelSheet_running (id : BitVec 16) (s : State) (ready : s.chip.readyForCommand)
    (running : s.chip.cmi.partState = .running) {y : Chip} {a : Answer}
    (h : (s.chip.taking (.cancelSheet id)).doCancelSheet id.toNat = (y, a)) :
    exec (.cancelSheet id) s = .next (s.replied (.cancelSheet id) y a) :=
  exec_cancelSheet id s ready ((Chip.whenRunning_of_running (s.chip.taking (.cancelSheet id))
    (fun y => y.doCancelSheet id.toNat) running).trans h)

theorem Chip.whenRunning_of_unconfigured (x : Chip) (f : Chip → Chip × Answer) (unconfigured : x.cmi.partState = .unconfigured) :
    x.whenRunning f = (x, .unconfigured) := by
  simp [Chip.whenRunning, Chip.isRunning, unconfigured]

section
variable (x : Chip) (id : Nat) (h : Sheet)

theorem Chip.doCancelSheet_absent (absent : x.sheet id = none) : x.doCancelSheet id = (x, .state 1) := by
  simp only [Chip.doCancelSheet, absent]

/-- A sheet past its printing is not cancelled (R119). -/
theorem Chip.doCancelSheet_late (found : x.sheet id = some h)
    (late : h.state = .drying ∨ h.state = .cutting ∨ h.state = .clearing ∨ h.state = .halted) :
    x.doCancelSheet id = (x, .state 2) := by
  rcases late with state | state | state | state <;> simp only [Chip.doCancelSheet, found, state]

/-- A sheet not yet on the platen leaves the queue (R119). -/
theorem Chip.doCancelSheet_early (found : x.sheet id = some h) (early : h.state = .queued ∨ h.state = .waiting) :
    x.doCancelSheet id = (x.removeSheet h .cancelled, .done 4 h.done) := by
  rcases early with state | state <;> simp only [Chip.doCancelSheet, found, state]

theorem Chip.doCancelSheet_marked (found : x.sheet id = some h)
    (state : h.state = .loading ∨ h.state = .ready ∨ h.state = .printing) (marked : h.cancel = true) :
    x.doCancelSheet id = (x, .done 3 0) := by
  rcases state with state | state | state <;> simp only [Chip.doCancelSheet, found, state, marked, if_true]

/-- A LOADING sheet is marked and loses its bound swaths; the load step in progress ends first (R120). -/
theorem Chip.doCancelSheet_loading (found : x.sheet id = some h) (state : h.state = .loading) (unmarked : h.cancel = false) :
    x.doCancelSheet id =
      (((x.onSheet id fun a => { a with cancel := true }).unbindSheet id).callArming, .done 5 h.done) := by
  simp [Chip.doCancelSheet, found, state, unmarked]

/-- A READY or PRINTING sheet is cancelled by the state of its swath (R121). -/
theorem Chip.doCancelSheet_printing (found : x.sheet id = some h) (state : h.state = .ready ∨ h.state = .printing)
    (unmarked : h.cancel = false) : x.doCancelSheet id = x.cancelPrinting h := by
  rcases state with state | state <;> simp [Chip.doCancelSheet, found, state, unmarked]

end

/-- With no swath FIRING the clearing begins at once (R121). -/
theorem Chip.cancelPrinting_idle (x : Chip) (h : Sheet)
    (idle : ∀ r ∈ x.sgt.swaths.filter (fun r => r.sheet == h.id), r.state ≠ .firing) :
    x.cancelPrinting h = (x.enterClearing, .done 6 h.done) := by
  have none : (x.sgt.swaths.find? fun r => r.sheet == h.id && r.state == .firing) = none :=
    List.find?_eq_none.mpr fun r member => by
      have := idle r
      simp only [List.mem_filter] at this
      simpa [member] using this
  simp only [Chip.cancelPrinting, none]

/-- With a swath FIRING the sheet is marked, and its other swaths are unbound (R121). -/
theorem Chip.cancelPrinting_firing (x : Chip) (h : Sheet) (f : Swath)
    (firing : (x.sgt.swaths.find? fun r => r.sheet == h.id && r.state == .firing) = some f) :
    x.cancelPrinting h =
      let marked := x.onSheet h.id fun a => { a with cancel := true }
      ((((marked.boundList h.id).filter fun r => r.id != f.id).foldl Chip.unbind marked).callArming, .done 5 h.done) := by
  simp only [Chip.cancelPrinting, firing]

/-- The mark on one sheet, as a condition on its number. -/
theorem Chip.markCancel_eq (x : Chip) (id : Nat) : (x.onSheet id fun a => { a with cancel := true }) =
    x.feedStage fun d => { d with sheets := d.sheets.map fun a => if a.id = id then { a with cancel := true } else a } :=
  x.onSheet_eq id _

/-- Settles O37: the case split of R119 on the sheet's state, then on its cancel mark and on a FIRING swath (R120, R121). -/
theorem cancelSheetByTheSheetState : Obligations.CancelSheetByTheSheetState := by
  intro id s ready
  refine ⟨fun unconfigured => ?_, fun running absent => ?_, fun h running found => ?_⟩
  · exact exec_cancelSheet id s ready (Chip.whenRunning_of_unconfigured _ _ unconfigured)
  · have unknown : (s.chip.taking (.cancelSheet id)).sheet id.toNat = none :=
      List.find?_eq_none.mpr fun h member => by simpa using absent h member
    exact exec_cancelSheet_running id s ready running (Chip.doCancelSheet_absent _ _ unknown)
  have found : (s.chip.taking (.cancelSheet id)).sheet id.toNat = some h := found
  have own : h.id = id.toNat := by simpa using List.find?_some found
  have answer {y : Chip} {a : Answer} := exec_cancelSheet_running id s ready running (y := y) (a := a)
  refine ⟨fun late => ?_, fun early => ?_, fun state marked => ?_, fun state unmarked => ?_,
    fun state unmarked idle => ?_, fun f state unmarked firing => ?_⟩
  · exact answer (Chip.doCancelSheet_late _ _ h found late)
  · exact answer (Chip.doCancelSheet_early _ _ h found early)
  · exact answer (Chip.doCancelSheet_marked _ _ h found state marked)
  · rw [answer (Chip.doCancelSheet_loading _ _ h found state unmarked), Chip.markCancel_eq, own]
    rfl
  · exact answer ((Chip.doCancelSheet_printing _ _ h found state unmarked).trans (Chip.cancelPrinting_idle _ h idle))
  · rw [answer ((Chip.doCancelSheet_printing _ _ h found state unmarked).trans
      (Chip.cancelPrinting_firing _ h f firing)), Chip.markCancel_eq]
    rfl

/-! ## The platen sheet (R110, R113) -/

/-- A change of the feed controller that leaves the queue alone leaves the platen sheet. -/
theorem Chip.platen_feedStage (x : Chip) {f : FeedController → FeedController} {h : Sheet}
    (kept : (f x.fdc).sheets = x.fdc.sheets) (platen : x.platen = some h) : (x.feedStage f).platen = some h := by
  rw [← platen]
  exact congrArg (List.find? fun a => a.state.onPlaten) kept

/-- A change of the platen sheet that leaves it on the platen is found there. -/
theorem Chip.platen_onPlaten (x : Chip) {f : Sheet → Sheet} {h : Sheet} (stays : ∀ a, (f a).state = a.state)
    (platen : x.platen = some h) : (x.onPlaten f).platen = some (f h) := by
  have same : ((fun a : Sheet => a.state.onPlaten) ∘ fun a => if a.state.onPlaten = true then f a else a) =
      fun a => a.state.onPlaten := by
    funext a
    simp only [Function.comp]
    split
    · rw [stays]
    · rfl
  have on : h.state.onPlaten = true := List.find?_some (p := fun a : Sheet => a.state.onPlaten) platen
  have found : x.fdc.sheets.find? (fun a => a.state.onPlaten) = some h := platen
  show (x.fdc.sheets.map fun a => if a.state.onPlaten = true then f a else a).find? (fun a => a.state.onPlaten) = _
  rw [List.find?_map, same, found, Option.map_some, if_pos on]

theorem Chip.removePlaten_eq (x : Chip) {h : Sheet} (platen : x.platen = some h) (outcome : Sheet → SheetOutcome) :
    x.removePlaten outcome = x.removeSheet h (outcome h) := by
  simp only [Chip.removePlaten, platen]

/-! ## The rule of the feed state (R130) -/

section
variable (x : Chip) (op : FeedOp) (r : FeedResult)

theorem Chip.feedResult_loading (loading : x.fdc.feed = .loading) : x.feedResult op r = x.loadResult op r := by
  simp only [Chip.feedResult, loading]

theorem Chip.feedResult_advancing (advancing : x.fdc.feed = .advancing) : x.feedResult op r = x.advanceResult op r := by
  simp only [Chip.feedResult, advancing]

theorem Chip.feedResult_cutting (cutting : x.fdc.feed = .cutting) : x.feedResult op r = x.cuttingResult op r := by
  simp only [Chip.feedResult, cutting]

theorem Chip.feedResult_clearing (clearing : x.fdc.feed = .clearing) : x.feedResult op r = x.clearingResult op r := by
  simp only [Chip.feedResult, clearing]

/-- A feed state that places no orders takes no results. -/
theorem Chip.feedResult_resting
    (resting : x.fdc.feed = .idle ∨ x.fdc.feed = .positioned ∨ x.fdc.feed = .drying ∨ x.fdc.feed = .halted) :
    x.feedResult op r = x := by
  rcases resting with feed | feed | feed | feed <;> simp only [Chip.feedResult, feed]

end

/-! ## The end of a feed order (R128, R130) -/

/-- The fed length of an ADVANCE leaves the threaded roll, where one is threaded (R128). -/
theorem Chip.fedOnto_eq (x : Chip) (op : FeedOp) (fed : Nat) :
    (if op.isAdvance = true then x.fedOnto fed else x) =
      match op, x.fdc.threaded with
      | .advance _, .roll n => x.feedStage fun d => d.onRoll n fun a =>
          { a with remaining := a.remaining - (a.fed + fed) / 1000, fed := (a.fed + fed) % 1000 }
      | _, _ => x := by
  cases op with
  | advance um =>
    simp only [FeedOp.isAdvance, Chip.fedOnto, if_true]
    cases x.fdc.threaded <;> rfl
  | selectRoll _ | rewind | thread | align | cut => rfl

/-- The roll that a roll end makes OUT, by what is threaded (R128). -/
theorem Chip.rollAtEnd_eq (x : Chip) :
    x.rollAtEnd = match x.fdc.threaded with
      | .roll n => some n
      | .none => x.platen.bind fun h =>
        if x.fdc.feed = .loading ∧ (h.loadStep = 2 ∨ h.loadStep = 3) then h.assigned else none
      | .unknown => none := by
  cases threaded : x.fdc.threaded <;> cases platen : x.platen <;> simp [Chip.rollAtEnd, threaded, platen]

/-- A roll end tells of the platen sheet, which it does not change (R128). -/
theorem Chip.rollEnd_eq (x : Chip) (op : FeedOp) :
    let ended := x.feedStage fun d => { (match x.rollAtEnd with
      | some n => d.onRoll n fun a => { a with out := true, remaining := 0, fed := 0 }
      | none => d) with threaded := .none }
    x.rollEnd op = match x.platen with
      | some h => ended.journal (.sheetRollEnd h.id x.rollAtEnd op)
      | none => ended := by
  unfold Chip.rollEnd
  cases x.rollAtEnd with
  | none => rfl
  | some n => cases n <;> rfl

/-! ## Halts (R138) -/

theorem FeedResult.failure_cases {r : FeedResult} (ended : r ≠ .done ∧ r ≠ .rollEnd) :
    (∃ code, r = .fault code) ∨ (∃ o, r = .link o) ∨ r = .timeout := by
  cases r with
  | done => exact absurd rfl ended.1
  | rollEnd => exact absurd rfl ended.2
  | fault code => exact .inl ⟨code, rfl⟩
  | link o => exact .inr (.inl ⟨o, rfl⟩)
  | timeout => exact .inr (.inr rfl)

/-- A fault, a failed frame or a timeout halts in every feed state that places orders (R138). -/
theorem Chip.feedResult_failure (x : Chip) (op : FeedOp) {r : FeedResult} (ended : r ≠ .done ∧ r ≠ .rollEnd)
    (placing : x.fdc.feed = .loading ∨ x.fdc.feed = .advancing ∨ x.fdc.feed = .cutting ∨ x.fdc.feed = .clearing) :
    x.feedResult op r = x.haltBy op r := by
  rcases placing with feed | feed | feed | feed
  · rw [x.feedResult_loading op r feed]
    rcases FeedResult.failure_cases ended with ⟨code, rfl⟩ | ⟨o, rfl⟩ | rfl <;> cases op <;> rfl
  · rw [x.feedResult_advancing op r feed]
    rcases FeedResult.failure_cases ended with ⟨code, rfl⟩ | ⟨o, rfl⟩ | rfl <;> simp only [Chip.advanceResult]
  · rw [x.feedResult_cutting op r feed]
    rcases FeedResult.failure_cases ended with ⟨code, rfl⟩ | ⟨o, rfl⟩ | rfl <;> rfl
  · rw [x.feedResult_clearing op r feed]
    rcases FeedResult.failure_cases ended with ⟨code, rfl⟩ | ⟨o, rfl⟩ | rfl <;> cases op <;> rfl

/-- The roll's end halts a load step that needs the roll (R132). -/
theorem Chip.feedResult_loading_rollEnd (x : Chip) (op : FeedOp) (loading : x.fdc.feed = .loading)
    (needed : op = .thread ∨ op = .align ∨ ∃ n, op = .selectRoll n) : x.feedResult op .rollEnd = x.haltBy op .rollEnd := by
  rw [x.feedResult_loading op _ loading]
  rcases needed with rfl | rfl | ⟨n, rfl⟩ <;> rfl

/-- The failure cause that a result halts with; DONE halts nothing (R138). -/
def FeedResult.cause (op : FeedOp) : FeedResult → FailureCause
  | .fault code => if code = 1 then .jam else if code = 3 then .skew else .feedFault code
  | .link o => .link o
  | .timeout => .timeout op
  | .done => .rollEnd
  | .rollEnd => .rollEnd

theorem FeedResult.haltCause_eq (op : FeedOp) {r : FeedResult} (failed : r ≠ .done) :
    r.haltCause op = some (r.cause op) := by
  cases r with
  | done => exact absurd rfl failed
  | fault code =>
    simp only [FeedResult.haltCause, FeedResult.cause, apply_ite some]
    rfl
  | rollEnd | link _ | timeout => rfl

theorem Chip.haltBy_eq (x : Chip) (op : FeedOp) {r : FeedResult} {cause : FailureCause}
    (halts : r.haltCause op = some cause) : x.haltBy op r = x.halt op cause := by
  simp only [Chip.haltBy, halts]

/-! ## Advances and the cut of a printed sheet (R133 to R135, R137) -/

theorem Chip.advanceResult_done (x : Chip) {h : Sheet} (op : FeedOp) (platen : x.platen = some h) :
    x.advanceResult op .done =
      if h.state = .clearing then x.startClearing false
      else if x.fdc.purpose = some .tail then x.beginDrying
      else x.positionFor h.done := by
  simp only [Chip.advanceResult, platen, beq_iff_eq]

theorem Chip.advanceResult_rollEnd (x : Chip) (op : FeedOp) : x.advanceResult op .rollEnd = x.platenRollEnd := by
  simp only [Chip.advanceResult]

theorem Sheet.withMediaOut_eq (h : Sheet) :
    h.withMediaOut = { h with cause := if h.cause = some .spoiled then h.cause else some .mediaOut } := by
  simp only [Sheet.withMediaOut, beq_iff_eq]
  split <;> rfl

/-- A roll end in a platen advance leaves the cut only to do (R137). -/
theorem Chip.platenRollEnd_eq (x : Chip) {h : Sheet} (platen : x.platen = some h) :
    x.platenRollEnd = (((x.onPlaten fun a =>
      { a with cause := if a.cause = some .spoiled then a.cause else some .mediaOut, state := .clearing }).unbindSheet
        h.id).callArming).startClearing true := by
  simp only [Chip.platenRollEnd, platen, Sheet.withMediaOut_eq]

theorem Chip.platen_clearUncut (x : Chip) {h : Sheet} (platen : x.platen = some h) : x.clearUncut.platen = some h :=
  x.platen_feedStage rfl platen

/-! ## Loading (R120, R123, R131, R132) -/

theorem Chip.loadStepDone_eq (x : Chip) {h : Sheet} (platen : x.platen = some h) :
    x.loadStepDone =
      if h.cancel = true ∨ h.cause = some .spoiled then x.enterClearing else x.runLoad (5 - h.loadStep) := by
  simp only [Chip.loadStepDone, platen, Bool.or_eq_true, beq_iff_eq]

/-- A CUT of the uncut tail is followed by the REWIND of a roll still threaded (R131). -/
theorem Chip.loadResult_cut (x : Chip) : x.loadResult .cut .done =
    if x.fdc.threaded = .none then x.clearUncut.loadStepDone else x.clearUncut.placeFeed .rewind 30000000 := by
  simp only [Chip.loadResult, beq_iff_eq]
  rfl

theorem Chip.loadResult_thread (x : Chip) {h : Sheet} {n : RollNo} (platen : x.platen = some h)
    (assigned : h.assigned = some n) :
    x.loadResult .thread .done = (x.feedStage fun d => { d with threaded := .roll n }).loadStepDone := by
  simp only [Chip.loadResult, platen, Option.bind_some, assigned]

/-- The first orders of the five load steps (R131). -/
theorem Chip.loadOrder_eq (x : Chip) (h : Sheet) {n : Nat} (step : n < 5) :
    x.loadOrder h (5 - n) =
      if 5 - n = 1 then
        (if x.fdc.uncutTail = true then some .cut else if x.fdc.threaded = .none then none else some .rewind)
      else if 5 - n = 2 then h.assigned.map FeedOp.selectRoll
      else if 5 - n = 3 then some .thread
      else if 5 - n = 4 then some .align
      else if h.topMargin = 0 then none else some (.advance (h.topMargin * 1000)) := by
  match n, step with
  | 0, _ | 1, _ | 2, _ | 3, _ => rfl
  | 4, _ => simp [Chip.loadOrder]

/-- A load step that has an order waits for it; an empty one ends DONE as it begins (R131). -/
theorem Chip.runLoad_succ (x : Chip) {h : Sheet} (platen : x.platen = some h) (n : Nat) :
    let begun := x.onPlaten fun a => { a with loadStep := 5 - n }
    x.runLoad (n + 1) = match x.loadOrder h (5 - n) with
      | none => begun.runLoad n
      | some o => (begun.onFdc fun d =>
        { d with purpose := if 5 - n = 5 then some .margin else none }).placeFeed o 30000000 := by
  simp only [Chip.runLoad, platen]
  cases x.loadOrder h (5 - n) <;> rfl

/-! ## Clearing (R118, R136) -/

theorem Sheet.clearedOutcome_eq (h : Sheet) : h.clearedOutcome =
    if h.cause = some .mediaOut then .mediaOut else if h.cause = some .spoiled then .spoiled else .cancelled := by
  unfold Sheet.clearedOutcome
  rcases h.cause with _ | cause
  · rfl
  · cases cause <;> rfl

theorem Sheet.withMediaOutIfNone_eq (h : Sheet) :
    h.withMediaOutIfNone = { h with cause := if h.cause = none then some .mediaOut else h.cause } := by
  match h with
  | { cause := none, .. } | { cause := some _, .. } => rfl

/-- The feed as a clearing begins: CLEARING, the platen positioned for no swath (R136). -/
def Chip.clearingBegun (x : Chip) : Chip :=
  x.feedStage fun d => { d with feed := .clearing, positioned := none, purpose := none }

/-- The clearing sequence by the sheet's cause and by what is threaded (R136). -/
theorem Chip.startClearing_eq (x : Chip) {h : Sheet} (platen : x.platen = some h) (cutOnly : Bool) :
    x.startClearing cutOnly =
      if cutOnly = true ∨ h.cause = some .mediaOut then x.clearingBegun.placeFeed .cut 10000000
      else match x.fdc.threaded with
        | .roll _ => (x.clearingBegun.onFdc fun d => { d with purpose := some .clear }).placeFeed (.advance 300000) 10000000
        | .none => x.clearingBegun.removeSheet h h.clearedOutcome
        | .unknown => x.clearingBegun.removeSheet h h.clearedOutcome := by
  have begun : x.clearingBegun.platen = some h := x.platen_feedStage rfl platen
  have start : x.startClearing cutOnly =
      match x.clearingBegun.platen with
      | none => x.clearingBegun
      | some h =>
        if (cutOnly || h.cause == some .mediaOut) = true then x.clearingBegun.placeFeed .cut 10000000
        else match x.fdc.threaded with
          | .roll _ => (x.clearingBegun.onFdc fun d => { d with purpose := some .clear }).placeFeed (.advance 300000) 10000000
          | .none => x.clearingBegun.removePlaten Sheet.clearedOutcome
          | .unknown => x.clearingBegun.removePlaten Sheet.clearedOutcome := rfl
  simp only [start, begun, Bool.or_eq_true, beq_iff_eq, x.clearingBegun.removePlaten_eq begun]

theorem Chip.enterClearing_eq (x : Chip) {h : Sheet} (platen : x.platen = some h) :
    let cleared := ((x.onPlaten fun a => { a with state := .clearing }).unbindSheet h.id).callArming
    x.enterClearing = if cleared.fdc.order = none then cleared.startClearing false else cleared := by
  simp only [Chip.enterClearing, platen, Option.isNone_iff_eq_none]

theorem Chip.clearingResult_advance_rollEnd (x : Chip) (um : Nat) :
    x.clearingResult (.advance um) .rollEnd =
      ((x.onPlaten Sheet.withMediaOutIfNone).onFdc fun d => { d with purpose := none }).placeFeed .cut 10000000 := rfl

theorem Chip.clearingResult_cut_done (x : Chip) {h : Sheet} (platen : x.platen = some h) :
    x.clearingResult .cut .done = x.clearUncut.removeSheet h h.clearedOutcome :=
  x.clearUncut.removePlaten_eq (x.platen_clearUncut platen) _

/-- The cut that meets the roll's end clears the sheet all the same, as MEDIA OUT where it had no cause (R136). -/
theorem Chip.clearingResult_cut_rollEnd (x : Chip) {h : Sheet} (platen : x.platen = some h) :
    x.clearingResult .cut .rollEnd =
      (x.clearUncut.onPlaten Sheet.withMediaOutIfNone).removeSheet h.withMediaOutIfNone h.withMediaOutIfNone.clearedOutcome :=
  Chip.removePlaten_eq _ (x.clearUncut.platen_onPlaten (fun a => by rw [Sheet.withMediaOutIfNone_eq])
    (x.platen_clearUncut platen)) _

/-! ## Drying (R134) -/

/-- The end of drying: the cut, or the removal of a sheet that stays uncut (R134). -/
theorem Chip.dryExpired_eq (x : Chip) {h : Sheet} (platen : x.platen = some h) :
    let stopped := x.feedStage fun d => { d with dryTimer := none }
    x.dryExpired = match h.cutMode with
      | .cut => ((stopped.onPlaten fun a => { a with state := .cutting }).onFdc fun d =>
        { d with feed := .cutting }).placeFeed .cut 10000000
      | .keepOn => (stopped.feedStage fun d => { d with uncutTail := true }).removeSheet h h.printedOutcome := by
  intro stopped
  have still : stopped.platen = some h := x.platen_feedStage rfl platen
  have uncut := (stopped.feedStage fun d => { d with uncutTail := true }).removePlaten_eq
    (stopped.platen_feedStage rfl still) Sheet.printedOutcome
  rw [← uncut]
  show (match stopped.platen with | none => _ | some h => _) = _
  rw [still]
  rfl

theorem Chip.beginDrying_eq (x : Chip) {h : Sheet} (platen : x.platen = some h) :
    let begun := x.onFdc fun d => { d with
      feed := .drying, positioned := none, purpose := none
      dryTimer := some (x.rpw.timeBase + h.dryTime * 1000000) }
    x.beginDrying = if h.dryTime = 0 then begun.dryExpired else begun := by
  simp only [Chip.beginDrying, platen]
  rfl

/-! ## The results of feed orders -/

/-- Settles O55: the end of an order and of a roll, then the result by the rule of the feed state, each case by the equation of
its operation. -/
theorem feedOrderResults : Obligations.FeedOrderResults := by
  refine ⟨fun x o r fed => ?_, fun x op r halts placing => ?_, fun x h platen => ⟨fun um advancing => ?_, fun cutting => ?_⟩,
    fun x op r resting => x.feedResult_resting op r resting, fun x op limit => rfl, fun x op => ?_,
    fun x h platen loading => ?_, fun x h platen => ⟨rfl, fun n step => ?_⟩,
    fun x h platen => ⟨fun cutOnly only => ?_, fun n other threaded => ?_, fun other threaded => ?_,
      x.enterClearing_eq platen, fun clearing => ?_⟩,
    fun x h platen => ⟨x.beginDrying_eq platen, x.dryExpired_eq platen⟩⟩
  · simp only [Chip.endFeedOrder, Chip.fedOnto_eq, beq_iff_eq]
    rfl
  · have failed : r ≠ .done := by
      rcases halts with ended | ⟨rfl, -, -⟩
      · exact ended.1
      · simp
    have halted : x.feedResult op r = x.haltBy op r := by
      rcases halts with ended | ⟨rfl, loading, needed⟩
      · exact x.feedResult_failure op ended placing
      · exact x.feedResult_loading_rollEnd op loading needed
    rw [halted, x.haltBy_eq op (FeedResult.haltCause_eq op failed)]
    rfl
  · simp only [x.feedResult_advancing _ _ advancing, x.advanceResult_done _ platen, x.advanceResult_rollEnd]
    exact ⟨fun clearing => if_pos clearing, fun other tail => (if_neg other).trans (if_pos tail),
      fun other swath => (if_neg other).trans (if_neg swath), x.platenRollEnd_eq platen⟩
  · simp only [x.feedResult_cutting _ _ cutting]
    have removed := x.clearUncut.removePlaten_eq (x.platen_clearUncut platen) Sheet.printedOutcome
    exact ⟨removed, removed⟩
  · have ends := x.rollEnd_eq op
    rw [x.rollAtEnd_eq] at ends
    exact ends
  · have stepDone : ∀ {f : FeedController → FeedController}, (f x.fdc).sheets = x.fdc.sheets →
        (x.feedStage f).loadStepDone = if h.cancel = true ∨ h.cause = some .spoiled then (x.feedStage f).enterClearing
          else (x.feedStage f).runLoad (5 - h.loadStep) :=
      fun kept => Chip.loadStepDone_eq _ (x.platen_feedStage kept platen)
    have sameStep := x.loadStepDone_eq platen
    simp only [x.feedResult_loading _ _ loading]
    refine ⟨?_, stepDone rfl, stepDone rfl, sameStep, fun n => sameStep, fun n assigned => ?_, sameStep,
      fun um => ⟨sameStep, x.platenRollEnd_eq platen⟩⟩
    · rw [x.loadResult_cut, x.clearUncut.loadStepDone_eq (x.platen_clearUncut platen)]
      rfl
    · rw [x.loadResult_thread platen assigned]
      exact stepDone rfl
  · have runs := x.runLoad_succ platen n
    rw [x.loadOrder_eq h step] at runs
    exact runs
  · exact (x.startClearing_eq platen cutOnly).trans (if_pos only)
  · rw [x.startClearing_eq platen, if_neg (by simpa using other), threaded]
    rfl
  · rw [x.startClearing_eq platen, if_neg (by simpa using other), h.clearedOutcome_eq]
    rcases threaded with threaded | threaded <;> rw [threaded] <;> rfl
  · simp only [x.feedResult_clearing _ _ clearing]
    refine ⟨fun um => ⟨rfl, ?_⟩, ?_, ?_⟩
    · rw [x.clearingResult_advance_rollEnd, funext Sheet.withMediaOutIfNone_eq]
    · rw [x.clearingResult_cut_done platen, h.clearedOutcome_eq]
      rfl
    · rw [x.clearingResult_cut_rollEnd platen, Sheet.clearedOutcome_eq, funext Sheet.withMediaOutIfNone_eq]
      rfl

end Sys2Proof.Machine
end

section
/-! PROOFS. Media handling (chapter 8): SET ROLL, CLEAR JAM, and the outcomes of the feed controller's orders. -/

namespace Sys2Proof

open Machine

/-! ## SET ROLL (R127) -/

/-- The ranges of R127's second check. -/
theorem SetRollArgs.outOfRange_iff (a : SetRollArgs) : a.outOfRange = true ↔
    1 < a.enabled.toNat ∨ 15 < a.mediaType.toNat ∨ a.width.toNat < 210 ∨ 914 < a.width.toNat ∨
      200000 < a.remaining.toNat := by
  simp only [SetRollArgs.outOfRange, Bool.or_eq_true, decide_eq_true_eq, outside_iff, or_assoc]

theorem SetRollArgs.stored_eq (a : SetRollArgs) : a.stored =
    { enabled := a.enabled.toNat == 1, mediaType := a.mediaType.toNat, width := a.width.toNat
      remaining := a.remaining.toNat, fed := 0, out := a.remaining.toNat == 0 } := by
  have byValue {w : Nat} (u v : BitVec w) : (u == v) = (u.toNat == v.toNat) := by
    rw [Bool.eq_iff_iff, beq_iff_eq, beq_iff_eq, BitVec.toNat_inj]
  rw [SetRollArgs.stored, byValue, byValue]
  rfl

end Sys2Proof

namespace Sys2Proof.Machine

/-- SET ROLL is answered in a RUNNING part as the feed controller answers it, and refused in an UNCONFIGURED one (R163). -/
theorem exec_setRoll (a : SetRollArgs) (s : State) (ready : s.chip.readyForCommand) {owner : Chip × Answer}
    (h : (s.chip.taking (.setRoll a)).whenRunning (fun y => y.doSetRoll a) = owner) :
    exec (.setRoll a) s = .next (s.replied (.setRoll a) owner.1 owner.2) :=
  congrArg Host.Outcome.next (s.command_owner (.setRoll a) ready rfl (decodeSlot_setRoll a) h)

theorem exec_setRoll_running (a : SetRollArgs) (s : State) (ready : s.chip.readyForCommand)
    (running : s.chip.cmi.partState = .running) {owner : Chip × Answer}
    (h : (s.chip.taking (.setRoll a)).doSetRoll a = owner) :
    exec (.setRoll a) s = .next (s.replied (.setRoll a) owner.1 owner.2) :=
  exec_setRoll a s ready
    ((Chip.whenRunning_of_running (s.chip.taking (.setRoll a)) (fun y => y.doSetRoll a) running).trans h)

theorem RollNo.ofNumber_number (n : RollNo) : RollNo.ofNumber n.number = some n := by
  cases n <;> rfl

theorem RollNo.ofNumber_eq_none {v : Nat} (not1 : v ≠ 1) (not2 : v ≠ 2) : RollNo.ofNumber v = none := by
  match v with
  | 0 | _ + 3 => rfl
  | 1 => exact absurd rfl not1
  | 2 => exact absurd rfl not2

/-- A roll is in use while a sheet that is not HALTED is on the platen and the roll is threaded or assigned to it (R127). -/
theorem Chip.rollInUse_iff (x : Chip) (n : RollNo) : x.rollInUse n = true ↔
    ∃ h ∈ x.platen, h.state ≠ .halted ∧ (x.fdc.threaded = .roll n ∨ h.assigned = some n) := by
  cases platen : x.platen with
  | none => simp [Chip.rollInUse, platen]
  | some h => simp [Chip.rollInUse, platen]

/-- The part when a SET ROLL has been accepted (R127). -/
def Chip.rollSet (x : Chip) (n : RollNo) (r : Roll) : Chip :=
  ((x.onFdc fun d => d.onRoll n fun _ => r).markStatus n.status).callAdmission

theorem Chip.rollSet_eq (x : Chip) (n : RollNo) (r : Roll) : x.rollSet n r =
    (({ x with
      fdc := match n with
        | .one => { x.fdc with roll1 := r }
        | .two => { x.fdc with roll2 := r } } : Chip).markStatus (match n with
          | .one => 7
          | .two => 8)).callAdmission := by
  cases n <;> rfl

theorem Chip.doSetRoll_badRoll (x : Chip) (a : SetRollArgs) (bad : RollNo.ofNumber a.roll.toNat = none) :
    x.doSetRoll a = (x, .arg 1 0) := by
  simp only [Chip.doSetRoll, bad]

/-- SET ROLL for one of the rolls: the first row that holds refuses it, else the roll is stored (R127). -/
theorem Chip.doSetRoll_checked (x : Chip) (a : SetRollArgs) {n : RollNo} (roll : a.roll.toNat = n.number) :
    x.doSetRoll a =
      if 1 < a.enabled.toNat ∨ 15 < a.mediaType.toNat ∨ a.width.toNat < 210 ∨ 914 < a.width.toNat ∨
          200000 < a.remaining.toNat then (x, .arg 2 0)
      else if ∃ h ∈ x.platen, h.state ≠ .halted ∧ (x.fdc.threaded = .roll n ∨ h.assigned = some n) then (x, .state 3)
      else (x.rollSet n a.stored, .done 0 n.number) := by
  have table : x.doSetRoll a = x.answerBy [(a.outOfRange, .arg 2 0), (x.rollInUse n, .state 3)]
      (x.rollSet n a.stored, .done 0 n.number) := by
    simp only [Chip.doSetRoll, roll, RollNo.ofNumber_number]
    rfl
  simp only [table, Chip.answerBy_cons, Chip.answerBy_nil, a.outOfRange_iff, x.rollInUse_iff]

/-- Settles O34: the part state, the roll number, then the two rows of R127 and the roll stored. -/
theorem setRollChecksAndEffects : Obligations.SetRollChecksAndEffects := by
  intro a s ready
  refine ⟨fun unconfigured => ?_, fun running => ⟨fun not1 not2 => ?_, fun n roll => ?_⟩⟩
  · have refused := exec_setRoll a s ready (Chip.whenRunning_of_unconfigured _ _ unconfigured)
    exact refused
  · have refused := exec_setRoll_running a s ready running
      (Chip.doSetRoll_badRoll _ a (RollNo.ofNumber_eq_none not1 not2))
    exact refused
  · rw [exec_setRoll_running a s ready running (Chip.doSetRoll_checked _ a roll), a.stored_eq]
    simp only [State.replied_ite, Chip.rollSet_eq]
    rfl

/-! ## CLEAR JAM (R139) -/

/-- CLEAR JAM in a RUNNING part is answered as the feed controller answers it. -/
theorem exec_clearJam (s : State) (ready : s.chip.readyForCommand) (running : s.chip.cmi.partState = .running)
    {owner : Chip × Answer} (h : (s.chip.taking .clearJam).doClearJam = owner) :
    exec .clearJam s = .next (s.replied .clearJam owner.1 owner.2) :=
  congrArg Host.Outcome.next (s.command_owner .clearJam ready rfl decodeSlot_clearJam
    ((Chip.whenRunning_of_running (s.chip.taking .clearJam) Chip.doClearJam running).trans h))

/-- A check of CLEAR JAM begins: its STATUS order is placed with the feed unit (R139). -/
def Chip.checkBegun (x : Chip) : Chip :=
  (x.onFdc fun d => { d with check := some x.fdc.nextOrder, nextOrder := x.fdc.nextOrder + 1 }).offer
    (.feedCheck x.fdc.nextOrder)

/-- CLEAR JAM by the table of R139. -/
theorem Chip.doClearJam_eq (x : Chip) :
    x.doClearJam =
      if x.fdc.feed ≠ .halted then (x, .state 1)
      else if x.fdc.check ≠ none then (x, .state 2)
      else (x.checkBegun, .done 3 0) := by
  simp only [Chip.doClearJam, bne_iff_ne, Option.isSome_iff_ne_none, Chip.checkBegun]

/-- Settles O38: the rows of R139's table, each with its reply. -/
theorem clearJamByTheTable : Obligations.ClearJamByTheTable := by
  intro s ready running
  rw [exec_clearJam s ready running (Chip.doClearJam_eq _)]
  simp only [State.replied_ite]
  rfl

/-! ## The outcome of a feed order and of its STATUS (R128, R130) -/

section
variable (x : Chip) {serial : Nat} {p : FeedOrder}

theorem Chip.feedOrder_own (order : x.fdc.order = some p) (own : p.serial = serial) : x.feedOrder serial = some p := by
  simp only [Chip.feedOrder, order, if_pos own]

theorem Chip.feedOrder_ended (ended : ∀ p ∈ x.fdc.order, p.serial ≠ serial) : x.feedOrder serial = none := by
  cases order : x.fdc.order with
  | none => simp only [Chip.feedOrder, order]
  | some p => simp only [Chip.feedOrder, order, if_neg (ended p order)]

/-- The frame of an order that has ended is discarded (R130, R140). -/
theorem Chip.takeFeedFrame_ended (outcome : FrameOutcome) (ended : x.feedOrder serial = none) :
    x.takeFeedFrame serial outcome = x := by
  simp only [Chip.takeFeedFrame, ended]

/-- An order that the feed unit has taken is polled from 50 ms on (R130). -/
theorem Chip.takeFeedFrame_done (r : Reply) (current : x.feedOrder serial = some p) :
    x.takeFeedFrame serial (.done r) =
      x.onFdc fun d => { d with order := some { p with pollAt := some (x.rpw.timeBase + 50000) } } := by
  simp only [Chip.takeFeedFrame, current]
  rfl

/-- An order that the feed unit has not taken ends LINK with the fed length it had (R130). -/
theorem Chip.takeFeedFrame_failed {outcome : FrameOutcome} (current : x.feedOrder serial = some p)
    (failed : outcome = .absent ∨ outcome = .refused ∨ outcome = .checkError) :
    x.takeFeedFrame serial outcome = x.endFeedOrder p (.link outcome.kind) p.fed := by
  rcases failed with rfl | rfl | rfl <;> simp only [Chip.takeFeedFrame, current] <;> rfl

/-- The STATUS of an order that has ended is discarded (R130, R140). -/
theorem Chip.takeFeedStatus_ended (outcome : FrameOutcome) (ended : x.feedOrder serial = none) :
    x.takeFeedStatus serial outcome = x := by
  simp only [Chip.takeFeedStatus, ended]

/-- A STATUS that has failed changes nothing (R130). -/
theorem Chip.takeFeedStatus_failed {outcome : FrameOutcome} (failed : ∀ r, outcome ≠ .done r) :
    x.takeFeedStatus serial outcome = x := by
  cases outcome with
  | done r => exact absurd rfl (failed r)
  | absent | refused | busyTimeout | checkError =>
    cases order : x.feedOrder serial <;> simp only [Chip.takeFeedStatus, order]

/-- A STATUS reply by the state of the feed unit: the fed length is stored, or the order ends (R128, R130). -/
theorem Chip.takeFeedStatus_reply (state : UnitState) (code fed : Nat) (current : x.feedOrder serial = some p) :
    x.takeFeedStatus serial (.done (.feed state code fed)) =
      match state with
      | .busy => x.onFdc fun d => { d with order := some { p with fed := fed } }
      | .done => x.endFeedOrder p .done fed
      | .fault => x.endFeedOrder p (if code = 2 then .rollEnd else .fault code) fed := by
  simp only [Chip.takeFeedStatus, current]
  cases state with
  | busy | done => rfl
  | fault => exact (apply_ite (fun r => x.endFeedOrder p r fed) _ _ _).symm

end

/-! ## The check of CLEAR JAM (R139) -/

section
variable (x : Chip) {serial : Nat} {h : Sheet}

/-- The STATUS of a check that is gone is discarded (R139, R140). -/
theorem Chip.takeFeedCheck_gone (outcome : FrameOutcome) (gone : x.fdc.check ≠ some serial) :
    x.takeFeedCheck serial outcome = x :=
  if_neg gone

/-- The feed unit reports no fault: the path is clear (R139). -/
theorem Chip.takeFeedCheck_clear {state : UnitState} (code fed : Nat) (awaited : x.fdc.check = some serial)
    (clear : state ≠ .fault) :
    x.takeFeedCheck serial (.done (.feed state code fed)) = (x.onFdc fun d => { d with check := none }).jamCleared := by
  rw [Chip.takeFeedCheck, if_pos awaited]
  cases state with
  | busy | done => rfl
  | fault => exact absurd rfl clear

theorem Chip.takeFeedCheck_fault (code fed : Nat) (awaited : x.fdc.check = some serial) :
    x.takeFeedCheck serial (.done (.feed .fault code fed)) = (x.onFdc fun d => { d with check := none }).clearFailed code :=
  if_pos awaited

theorem Chip.takeFeedCheck_failed {outcome : FrameOutcome} (awaited : x.fdc.check = some serial)
    (failed : ∀ r, outcome ≠ .done r) :
    x.takeFeedCheck serial outcome = (x.onFdc fun d => { d with check := none }).clearFailed outcome.kind.code := by
  cases outcome with
  | done r => exact absurd rfl (failed r)
  | absent | refused | busyTimeout | checkError => exact if_pos awaited

/-- A clear path removes the platen sheet JAMMED (R139). -/
theorem Chip.jamCleared_eq (platen : x.platen = some h) :
    x.jamCleared = (x.feedStage fun d => { d with threaded := .unknown, uncutTail := false }).removeSheet h .jammed :=
  Chip.removePlaten_eq _ (x.platen_feedStage rfl platen) _

/-- A check that has failed leaves the platen sheet with a CLEAR FAILED record (R139). -/
theorem Chip.clearFailed_eq (code : Nat) (platen : x.platen = some h) :
    x.clearFailed code = x.journal (.sheetClearFailed h.id code) := by
  simp only [Chip.clearFailed, platen]

end

/-- Settles O52: the end of the order's frame, then the outcome by whether the order, or the check, is still in progress. -/
theorem feedOutcomesAreTaken : Obligations.FeedOutcomesAreTaken := by
  intro s since serial f out
  refine ⟨fun op link => ⟨fun ended => ?_, fun p order own => ?_⟩,
    fun link => ⟨fun ended => ?_, fun failed => ?_, fun p code fed order own => ?_⟩,
    fun link => ⟨fun gone => ?_, fun h awaited platen => ?_⟩⟩
  · exact exec_ending_of_taken s f out link rfl (Chip.takeFeedFrame_ended _ _ (Chip.feedOrder_ended _ ended))
  · have current := (s.chip.frameOver ((LinkOrder.feed op serial).wire f)).feedOrder_own order own
    refine ⟨fun done => ?_, fun absent => ?_, fun refused => ?_⟩
    · exact exec_ending_of_taken s f out link done (Chip.takeFeedFrame_done _ .none current)
    · exact exec_ending_of_taken s f out link absent (Chip.takeFeedFrame_failed _ current (.inl rfl))
    · exact exec_ending_of_taken s f out link refused (Chip.takeFeedFrame_failed _ current (.inr (.inl rfl)))
  · exact exec_ending_of_taken s f out link rfl (Chip.takeFeedStatus_ended _ _ (Chip.feedOrder_ended _ ended))
  · exact exec_ending_of_taken s f out link rfl (Chip.takeFeedStatus_failed _ (FrameOutcome.ne_done failed))
  · have current := (s.chip.frameOver ((LinkOrder.feedStatus serial).wire f)).feedOrder_own order own
    have reply (state : UnitState) := Chip.takeFeedStatus_reply _ state code fed current
    exact ⟨fun done => exec_ending_of_taken s f out link done (reply .busy),
      fun done => exec_ending_of_taken s f out link done (reply .done),
      fun done => exec_ending_of_taken s f out link done (reply .fault)⟩
  · exact exec_ending_of_taken s f out link rfl (Chip.takeFeedCheck_gone _ _ gone)
  · refine ⟨fun state code fed done clear => ?_, fun code fed done => ?_, fun failed => ?_⟩
    · exact exec_ending_of_taken s f out link done
        ((Chip.takeFeedCheck_clear (s.chip.frameOver _) code fed awaited clear).trans (Chip.jamCleared_eq _ platen))
    · exact exec_ending_of_taken s f out link done
        ((Chip.takeFeedCheck_fault (s.chip.frameOver _) code fed awaited).trans (Chip.clearFailed_eq _ code platen))
    · exact exec_ending_of_taken s f out link rfl
        ((Chip.takeFeedCheck_failed (s.chip.frameOver _) awaited (FrameOutcome.ne_done failed)).trans
          (Chip.clearFailed_eq _ _ platen))

end Sys2Proof.Machine
end

section
/-! PROOFS. The field link (chapter 9): the order queue with its classes and places, and a frame: what the part drives for an
order, the marks and bytes on the wires, and the outcome of a reply. -/

namespace Sys2Proof.Machine

/-! ## The order queue (R147) -/

/-- The first entry that meets a test is taken out, and the others keep their order. -/
theorem takeFirst_append {α : Type} {p : α → Bool} {before : List α} {a : α} (rest : List α)
    (skipped : ∀ b ∈ before, p b = false) (found : p a = true) :
    takeFirst p (before ++ a :: rest) = some (a, before ++ rest) := by
  induction before with
  | nil => simp [takeFirst, found]
  | cons b bs ih =>
    obtain ⟨head, tail⟩ := List.forall_mem_cons.mp skipped
    simp [takeFirst, head, ih tail]

theorem LinkOrder.class_le (o : LinkOrder) : o.class ≤ 4 := by
  simp only [LinkOrder.class]
  repeat' split
  all_goals omega

theorem le_foldl_class_iff (c start : Nat) (q : List LinkOrder) :
    c ≤ q.foldl (fun n o => min n o.class) start ↔ c ≤ start ∧ ∀ o ∈ q, c ≤ o.class := by
  induction q generalizing start with
  | nil => simp
  | cons o q ih => rw [List.foldl_cons, ih, List.forall_mem_cons, Nat.le_min, and_assoc]

/-- The lowest class present is the greatest lower bound of the classes, none of which is above 4. -/
theorem le_lowestClass_iff (c : Nat) (q : List LinkOrder) : c ≤ lowestClass q ↔ c ≤ 4 ∧ ∀ o ∈ q, c ≤ o.class :=
  le_foldl_class_iff c 4 q

theorem lowestClass_eq {q : List LinkOrder} {a : LinkOrder} (mem : a ∈ q) (least : ∀ b ∈ q, a.class ≤ b.class) :
    lowestClass q = a.class :=
  Nat.le_antisymm (((le_lowestClass_iff _ q).mp (Nat.le_refl _)).2 a mem) ((le_lowestClass_iff _ q).mpr ⟨a.class_le, least⟩)

/-- The entry taken is the oldest of the lowest class: all before it are of a higher class, and none after it of a lower. -/
theorem pickOrder_append {before rest : List LinkOrder} {a : LinkOrder} (higher : ∀ b ∈ before, a.class < b.class)
    (least : ∀ b ∈ rest, a.class ≤ b.class) : pickOrder (before ++ a :: rest) = some (a, before ++ rest) := by
  have lowest : lowestClass (before ++ a :: rest) = a.class := by
    refine lowestClass_eq (by simp) fun b mem => ?_
    rcases List.mem_append.mp mem with old | new
    · exact Nat.le_of_lt (higher b old)
    · rcases List.mem_cons.mp new with rfl | young
      · exact Nat.le_refl _
      · exact least b young
  rw [pickOrder, lowest]
  exact takeFirst_append rest (fun b mem => beq_eq_false_iff_ne.mpr (Nat.ne_of_gt (higher b mem))) (beq_self_eq_true _)

section
variable (m : LinkMaster) (o : LinkOrder) (now : Nat)

/-! ## Offers and the beginning of a frame (R147, R148) -/

theorem LinkMaster.offer_passed_over (tag : o.isReadTag = true) (known : o ∈ m.queue ∨ m.queue.length = 16) :
    m.offer o now = m := by
  refine if_pos ?_
  rcases known with queued | full
  · simp [tag, queued]
  · simp [tag, full, Config.linkPlaces]

theorem LinkMaster.offer_declined (order : o.isReadTag = false) (full : m.queue.length = 16) :
    m.offer o now = m.decline o := by
  simp [LinkMaster.offer, order, full, Config.linkPlaces]

theorem LinkMaster.offer_joins (fresh : ¬ (o.isReadTag = true ∧ o ∈ m.queue)) (room : m.queue.length < 16) :
    m.offer o now = { m with queue := m.queue ++ [o] }.begin now := by
  have places : ¬ Config.linkPlaces ≤ m.queue.length := Nat.not_le.mpr room
  have taken : ¬ (o.isReadTag && (m.queue.contains o || decide (Config.linkPlaces ≤ m.queue.length))) = true := by
    simpa [places] using fresh
  rw [LinkMaster.offer, if_neg taken, if_neg places]

/-- A link that is not FREE takes no order. -/
theorem LinkMaster.begin_busy (busy : m.link ≠ .free) : m.begin now = m := by
  unfold LinkMaster.begin
  cases link : m.link with
  | free => exact absurd link busy
  | carrying _ _ => rfl
  | ended => rfl

theorem LinkMaster.begin_empty (empty : m.queue = []) : m.begin now = m := by
  unfold LinkMaster.begin
  rw [empty]
  cases m.link <;> rfl

theorem LinkMaster.begin_free {a : LinkOrder} {rest : List LinkOrder} (free : m.link = .free)
    (pick : pickOrder m.queue = some (a, rest)) :
    m.begin now =
      let taken := { m with queue := rest, link := .carrying a now, frames := m.frames + 1 }
      if m.queue.length = 16 then taken.grantPlace else taken := by
  simp only [LinkMaster.begin, free, pick]
  rfl

/-! ## The grant of a freed place (R148) -/

/-- A block that waits with an order left offers the oldest, and waits on while it has another. -/
theorem Room.offerOldest_some {r : Room} {a : LinkOrder} {rest : List LinkOrder} (waits : r.waiting = true)
    (orders : r.declined = a :: rest) :
    r.offerOldest = some (a, { waiting := !rest.isEmpty, declined := rest }) := by
  simp only [Room.offerOldest, waits, orders, if_true]

theorem Room.offerOldest_none {r : Room} (idle : r.waiting = false ∨ r.declined = []) : r.offerOldest = none := by
  unfold Room.offerOldest
  rcases idle with unmarked | empty
  · simp [unmarked]
  · simp [empty]

variable {m o} {r : Room}

theorem LinkMaster.grantPlace_feed (feed : m.feedRoom.offerOldest = some (o, r)) :
    m.grantPlace = { m with queue := m.queue ++ [o], feedRoom := r } := by
  simp only [LinkMaster.grantPlace, feed]

theorem LinkMaster.grantPlace_service (feed : m.feedRoom.offerOldest = none)
    (service : m.serviceRoom.offerOldest = some (o, r)) :
    m.grantPlace = { m with queue := m.queue ++ [o], feedRoom := .reset, serviceRoom := r } := by
  simp only [LinkMaster.grantPlace, feed, service]

theorem LinkMaster.grantPlace_ink (feed : m.feedRoom.offerOldest = none) (service : m.serviceRoom.offerOldest = none)
    (ink : m.inkRoom.offerOldest = some (o, r)) :
    m.grantPlace = { m with queue := m.queue ++ [o], feedRoom := .reset, serviceRoom := .reset, inkRoom := r } := by
  simp only [LinkMaster.grantPlace, feed, service, ink]

/-- A place that no block takes stays free, and no block is marked any more. -/
theorem LinkMaster.grantPlace_untaken (feed : m.feedRoom.offerOldest = none)
    (service : m.serviceRoom.offerOldest = none) (ink : m.inkRoom.offerOldest = none) :
    m.grantPlace = { m with feedRoom := .reset, serviceRoom := .reset, inkRoom := .reset } := by
  simp only [LinkMaster.grantPlace, feed, service, ink]

end

/-- Settles O29: the cases of an offer, the beginning of a frame with the entry that is picked, and the grant of a freed
place by what each room offers. -/
theorem offeredOrdersJoinTheQueue : Obligations.OfferedOrdersJoinTheQueue := by
  intro m o now _
  refine ⟨m.offer_passed_over o now, m.offer_declined o now, m.offer_joins o now, m.begin_busy now, m.begin_empty now,
    fun a before rest free queue higher least => ?_, ?_,
    fun a rest waits orders => ?_, fun a rest feed waits orders => ?_, fun a rest feed service waits orders => ?_,
    fun feed service ink => ?_⟩
  · exact m.begin_free now free (queue ▸ pickOrder_append higher least)
  · unfold LinkMaster.decline
    cases o.block <;> rfl
  · exact LinkMaster.grantPlace_feed (Room.offerOldest_some waits orders)
  · exact LinkMaster.grantPlace_service (Room.offerOldest_none feed) (Room.offerOldest_some waits orders)
  · exact LinkMaster.grantPlace_ink (Room.offerOldest_none feed) (Room.offerOldest_none service)
      (Room.offerOldest_some waits orders)
  · exact LinkMaster.grantPlace_untaken (Room.offerOldest_none feed) (Room.offerOldest_none service)
      (Room.offerOldest_none ink)

/-! ## What the part drives for an order (R146, 12.7) -/

theorem linkBytes_one (v : Nat) : linkBytes 1 v = [BitVec.ofNat 8 (min v 0xFF)] := by
  simp [linkBytes, List.range_succ]

theorem linkBytes_two (v : Nat) :
    let n := min v 0xFFFF
    linkBytes 2 v = [BitVec.ofNat 8 (n / 0x100), BitVec.ofNat 8 n] := by
  simp [linkBytes, List.range_succ]

theorem linkBytes_four (v : Nat) :
    let n := min v 0xFFFFFFFF
    linkBytes 4 v =
      [BitVec.ofNat 8 (n / 0x1000000), BitVec.ofNat 8 (n / 0x10000), BitVec.ofNat 8 (n / 0x100), BitVec.ofNat 8 n] := by
  simp [linkBytes, List.range_succ]

/-! ## The frame on the wires (R142 to R145) -/

section
variable (o : LinkOrder)

/-- Up to a byte that the unit does not acknowledge, the write data are acknowledged. -/
theorem LinkOrder.dataEvents_of_lt {n : Nat} (within : n < o.writeData.length) :
    o.dataEvents n =
      (o.writeData.take n).map (fun b => .sent b true) ++ [.sent (o.writeData.getD n 0#8) false] := by
  have next : o.writeData.getD n 0#8 = o.writeData[n] := by
    rw [List.getD_eq_getElem?_getD, List.getElem?_eq_getElem within, Option.getD_some]
  rw [LinkOrder.dataEvents, List.drop_eq_getElem_cons within, next]
  rfl

theorem LinkOrder.dataEvents_all : o.dataEvents o.writeData.length = o.writeData.map fun b => .sent b true := by
  simp [LinkOrder.dataEvents]

theorem LinkOrder.wire_dataNak {n : Nat} (low : Nat) (within : n < o.writeData.length) :
    o.wire { exchange := .dataNak n, lowSlots := low } =
      o.opening ++ (o.writeData.take n).map (fun b => .sent b true) ++ [.sent (o.writeData.getD n 0#8) false] ++
        releaseEvents low := by
  simp only [LinkOrder.wire, o.dataEvents_of_lt within, if_pos within, List.append_nil, List.append_assoc]

theorem LinkOrder.wire_answered (reply : List Byte) (low : Nat) :
    o.wire { exchange := .answered reply, lowSlots := low } =
      o.opening ++ o.writeData.map (fun b => .sent b true) ++ o.replyEvents reply ++ releaseEvents low := by
  simp only [LinkOrder.wire, o.dataEvents_all]

theorem replySlice_zero (bs : List Byte) (n : Nat) : replySlice bs 0 n = (List.range n).map (replyByte bs) := by
  simp [replySlice]

/-- The part acknowledges each byte of a reply but for a length byte at fault, after which it clocks in no more. -/
theorem LinkOrder.replyEvents_eq (reply : List Byte) :
    let len := (replyByte reply 0).toNat
    o.replyEvents reply =
      if o.hasReply = false then []
      else if o.lengthOk len = true then (List.range (len + 2)).map fun i => .received (replyByte reply i) true
      else [.received (replyByte reply 0) false] := by
  simp [LinkOrder.replyEvents, replySlice_zero, Function.comp_def]

/-! ## The outcome of a frame (R142, R144, R145) -/

/-- A CHECK PAGE reply holds whole entries of 3 bytes, 0 to 8, past its 2 bytes of head (12.7). -/
theorem LinkOrder.checkPage_lengthOk_iff (page step n : Nat) :
    (LinkOrder.checkPage page step).lengthOk n = true ↔ ∃ entries, entries ≤ 8 ∧ n = 2 + 3 * entries := by
  simp only [LinkOrder.lengthOk, decide_eq_true_eq]
  constructor
  · rintro ⟨least, most, whole⟩
    exact ⟨(n - 2) / 3, by omega, by omega⟩
  · rintro ⟨entries, most, rfl⟩
    omega

theorem checkSumOk_iff (bs : List Byte) (len : Nat) :
    checkSumOk bs len = true ↔ ((List.range (len + 2)).map fun i => (replyByte bs i).toNat).sum % 256 = 255 := by
  rw [checkSumOk, replySlice_zero, beq_iff_eq, List.foldl_map, List.sum_eq_foldl, List.foldl_map]

theorem LinkOrder.outcome_dataNak {n : Nat} (within : n < o.writeData.length) : o.outcome (.dataNak n) = .refused :=
  if_pos within

theorem LinkOrder.outcome_without_reply (reply : List Byte) (silent : o.hasReply = false) :
    o.outcome (.answered reply) = .done .none := by
  simp [LinkOrder.outcome, LinkOrder.readReply, silent]

/-- A reply whose length byte or check sum fails. -/
theorem LinkOrder.outcome_bad_form (reply : List Byte) (answers : o.hasReply = true)
    (fault : o.lengthOk (replyByte reply 0).toNat = false ∨ checkSumOk reply (replyByte reply 0).toNat = false) :
    o.outcome (.answered reply) = .checkError := by
  rcases fault with length | sum
  · simp [LinkOrder.outcome, LinkOrder.readReply, answers, length]
  · simp [LinkOrder.outcome, LinkOrder.readReply, answers, sum]

/-- A unit that drives exactly the bytes of a reply is read as it drives them. -/
theorem map_replyByte_range (bs : List Byte) : (List.range bs.length).map (replyByte bs) = bs := by
  refine List.ext_getElem (by simp) fun i _ within => ?_
  simp [replyByte, List.getElem?_eq_getElem within]

/-- A reply of the right form has the outcome of its content: CHECK ERROR where a coded field has an undefined value. -/
theorem LinkOrder.outcome_whole_reply (bs : List Byte) (answers : o.hasReply = true)
    (length : o.lengthOk (replyByte bs 0).toNat = true) (whole : bs.length = (replyByte bs 0).toNat + 2)
    (sum : (bs.map BitVec.toNat).sum % 256 = 255) :
    o.outcome (.answered bs) = (o.replyContent bs).elim .checkError .done := by
  have bytes : (List.range bs.length).map (fun i => (replyByte bs i).toNat) = bs.map BitVec.toNat :=
    ((congrArg (List.map BitVec.toNat) (map_replyByte_range bs)).symm.trans List.map_map).symm
  have check : checkSumOk bs (replyByte bs 0).toNat = true := by
    rw [checkSumOk_iff, ← whole, bytes, sum]
  simp only [LinkOrder.outcome, LinkOrder.readReply, answers, length, check, Bool.not_true, Bool.and_self, if_true]
  cases o.replyContent bs <;> rfl

end

/-! ## The content of a reply (R144, R146, 12.7) -/

theorem linkValue_one (a : Byte) : linkValue [a] = a.toNat := by
  simp [linkValue]

theorem linkValue_two (a b : Byte) : linkValue [a, b] = a.toNat * 256 + b.toNat := by
  simp [linkValue]

theorem linkValue_four (a b c d : Byte) :
    linkValue [a, b, c, d] = ((a.toNat * 256 + b.toNat) * 256 + c.toNat) * 256 + d.toNat := by
  simp [linkValue]

theorem PumpState.outcome_of_code (n : Nat) (content : PumpState → Reply) :
    ((PumpState.ofCode n).map content).elim FrameOutcome.checkError .done =
      if 3 < n then .checkError
      else .done (content (if n = 0 then .idle else if n = 1 then .running else if n = 2 then .done else .fault)) :=
  match n with
  | 0 | 1 | 2 | 3 => rfl
  | _ + 4 => (if_pos (by omega)).symm

theorem UnitState.outcome_of_code (n : Nat) (content : UnitState → Reply) :
    ((UnitState.ofCode n).map content).elim FrameOutcome.checkError .done =
      if 2 < n then .checkError
      else .done (content (if n = 0 then .busy else if n = 1 then .done else .fault)) :=
  match n with
  | 0 | 1 | 2 => rfl
  | _ + 3 => (if_pos (by omega)).symm

section
variable (k : Channel) (serial step : Nat) (a b c d e f g h i j l m n check : Byte)

theorem LinkOrder.readTag_content :
    (LinkOrder.readTag k).replyContent [13, a, b, c, d, e, f, g, h, i, j, l, m, n, check] =
      some (.tag (linkValue [a]) (linkValue [b, c, d, e]) (linkValue [f, g, h, i]) (linkValue [j, l, m, n])) := rfl

theorem LinkOrder.debit_content (amount : Nat) :
    (LinkOrder.debit k amount serial).replyContent [4, a, b, c, d, check] =
      some (.remaining (linkValue [a, b, c, d])) := rfl

theorem LinkOrder.level_content :
    (LinkOrder.level k).replyContent [4, a, b, c, d, check] = some (.sensed (linkValue [a, b, c, d])) := rfl

theorem LinkOrder.pumpStatus_content :
    (LinkOrder.pumpStatus k).replyContent [6, a, b, c, d, e, f, check] =
      (PumpState.ofCode (linkValue [a])).map fun st => .pump st (linkValue [b]) (linkValue [c, d, e, f]) := rfl

theorem LinkOrder.feedStatus_content :
    (LinkOrder.feedStatus serial).replyContent [6, a, b, c, d, e, f, check] =
      (UnitState.ofCode (linkValue [a])).map fun st => .feed st (linkValue [b]) (linkValue [c, d, e, f]) := rfl

theorem LinkOrder.feedCheck_content :
    (LinkOrder.feedCheck serial).replyContent [6, a, b, c, d, e, f, check] =
      (UnitState.ofCode (linkValue [a])).map fun st => .feed st (linkValue [b]) (linkValue [c, d, e, f]) := rfl

theorem LinkOrder.stationStatus_content :
    (LinkOrder.stationStatus step).replyContent [2, a, b, check] =
      (UnitState.ofCode (linkValue [a])).map fun st => .station st (linkValue [b]) := rfl

end

/-! ### CHECK PAGE (R99, 12.7) -/

/-- The bytes of one entry of a check report: a channel, and a nozzle in two bytes. -/
def pageEntryBytes (entry : Byte × Byte × Byte) : List Byte := [entry.1, entry.2.1, entry.2.2]

/-- The channel and the nozzle that the bytes of an entry give. -/
def pageEntryValue (entry : Byte × Byte × Byte) : Nat × Nat := (entry.1.toNat, entry.2.1.toNat * 256 + entry.2.2.toNat)

/-- The bytes of a CHECK PAGE reply with these entries. -/
def pageReplyBytes (more count : Byte) (entries : List (Byte × Byte × Byte)) (check : Byte) : List Byte :=
  [BitVec.ofNat 8 (2 + 3 * entries.length), more, count] ++ entries.flatMap pageEntryBytes ++ [check]

theorem length_flatMap_pageEntryBytes (entries : List (Byte × Byte × Byte)) :
    (entries.flatMap pageEntryBytes).length = 3 * entries.length := by
  induction entries with
  | nil => rfl
  | cons entry entries ih =>
    have three : (pageEntryBytes entry).length = 3 := rfl
    rw [List.flatMap_cons, List.length_append, three, ih, List.length_cons]
    omega

theorem length_pageReplyBytes (more count check : Byte) (entries : List (Byte × Byte × Byte)) :
    (pageReplyBytes more count entries check).length = 2 + 3 * entries.length + 2 := by
  simp only [pageReplyBytes, List.length_append, List.length_cons, List.length_nil, length_flatMap_pageEntryBytes]
  omega

/-- The length byte holds the length of the entries, of which there are at most 8. -/
theorem replyByte_pageReplyBytes_zero (more count check : Byte) {entries : List (Byte × Byte × Byte)}
    (most : entries.length ≤ 8) :
    (replyByte (pageReplyBytes more count entries check) 0).toNat = 2 + 3 * entries.length :=
  Nat.mod_eq_of_lt (by omega)

theorem replyByte_append (front rest : List Byte) (i : Nat) :
    replyByte (front ++ rest) (front.length + i) = replyByte rest i := by
  simp [replyByte, List.getElem?_append_right]

/-- An entry is read where its bytes stand. -/
theorem pageEntry_append (front rest : List Byte) (entry : Byte × Byte × Byte) (i : Nat)
    (place : front.length = 3 + 3 * i) :
    pageEntry (front ++ (pageEntryBytes entry ++ rest)) i = pageEntryValue entry := by
  have byte (j : Nat) := replyByte_append front (pageEntryBytes entry ++ rest) j
  have slice : replySlice (front ++ (pageEntryBytes entry ++ rest)) (front.length + 1) 2 = [entry.2.1, entry.2.2] :=
    congr (congrArg (fun x y : Byte => [x, y]) (byte 1)) (byte 2)
  have next : 4 + 3 * i = front.length + 1 := by omega
  rw [pageEntry, next, ← place, slice, linkValue_two, ← Nat.add_zero front.length, byte 0]
  rfl

/-- The entries stand one after the other past the three bytes of the reply's head. -/
theorem pageEntry_flatMap {front : List Byte} (tail : List Byte) {entries : List (Byte × Byte × Byte)} {i : Nat}
    (head : front.length = 3) (within : i < entries.length) :
    pageEntry (front ++ entries.flatMap pageEntryBytes ++ tail) i = pageEntryValue entries[i] := by
  have cut : entries.flatMap pageEntryBytes = (entries.take i).flatMap pageEntryBytes ++
      (pageEntryBytes entries[i] ++ (entries.drop (i + 1)).flatMap pageEntryBytes) := by
    rw [← List.flatMap_cons, ← List.flatMap_append, List.getElem_cons_drop, List.take_append_drop]
  have place : (front ++ (entries.take i).flatMap pageEntryBytes).length = 3 + 3 * i := by
    rw [List.length_append, length_flatMap_pageEntryBytes, List.length_take_of_le (Nat.le_of_lt within), head]
  rw [cut, ← pageEntry_append _ ((entries.drop (i + 1)).flatMap pageEntryBytes ++ tail) entries[i] i place]
  simp only [List.append_assoc]

/-- The entries of a CHECK PAGE reply are read back, each from its place. -/
theorem map_pageEntry_pageReplyBytes (more count check : Byte) (entries : List (Byte × Byte × Byte)) :
    (List.range entries.length).map (pageEntry (pageReplyBytes more count entries check)) = entries.map pageEntryValue := by
  refine List.ext_getElem (by simp) fun i _ within => ?_
  rw [List.length_map] at within
  simp only [List.getElem_map, List.getElem_range, pageReplyBytes]
  exact pageEntry_flatMap [check] rfl within

theorem LinkOrder.checkPage_content (page step : Nat) (more count check : Byte) {entries : List (Byte × Byte × Byte)}
    (most : entries.length ≤ 8) :
    (LinkOrder.checkPage page step).replyContent (pageReplyBytes more count entries check) =
      if more.toNat ≤ 1 ∧ count.toNat = entries.length then
        some (.page (more.toNat == 1) (entries.map pageEntryValue))
      else none := by
  have length : linkValue (replySlice (pageReplyBytes more count entries check) 0 1) = 2 + 3 * entries.length :=
    (linkValue_one _).trans (replyByte_pageReplyBytes_zero more count check most)
  have mark : linkValue (replySlice (pageReplyBytes more count entries check) 1 1) = more.toNat := linkValue_one more
  have number : linkValue (replySlice (pageReplyBytes more count entries check) 2 1) = count.toNat := linkValue_one count
  have held : (2 + 3 * entries.length - 2) / 3 = entries.length := by omega
  simp only [LinkOrder.replyContent, length, mark, number, held, map_pageEntry_pageReplyBytes]

/-- A CHECK PAGE reply whose check sum holds is DONE where its mark is 0 or 1 and its count is that of its entries. -/
theorem LinkOrder.checkPage_outcome (page step : Nat) (more count check : Byte) {entries : List (Byte × Byte × Byte)}
    (most : entries.length ≤ 8)
    (sum : ((pageReplyBytes more count entries check).map BitVec.toNat).sum % 256 = 255) :
    (LinkOrder.checkPage page step).outcome (.answered (pageReplyBytes more count entries check)) =
      if more.toNat ≤ 1 ∧ count.toNat = entries.length then
        .done (.page (more.toNat == 1) (entries.map pageEntryValue))
      else .checkError := by
  have length := replyByte_pageReplyBytes_zero more count check most
  have fits : (LinkOrder.checkPage page step).lengthOk
      (replyByte (pageReplyBytes more count entries check) 0).toNat = true :=
    (LinkOrder.checkPage_lengthOk_iff page step _).mpr ⟨entries.length, most, length⟩
  have whole := (length_pageReplyBytes more count check entries).trans (congrArg (· + 2) length.symm)
  rw [LinkOrder.outcome_whole_reply _ _ rfl fits whole sum, LinkOrder.checkPage_content page step more count check most]
  split <;> rfl

/-- Settles O46: the write data by `linkBytes`, the frame by its events, and each outcome by the form of its reply. -/
theorem frameOutcomeByItsExchange : Obligations.FrameOutcomeByItsExchange := by
  refine ⟨fun o => ?_, fun o reply n low => ?_, fun b given => ?_, fun o n => ?_, fun o => ?_,
    fun k serial amount step a b c d e f g h i j l m n check => ?_, fun page step more count check entries most sum => ?_⟩
  · match o with
    | .debit _ amount _ => exact ⟨rfl, rfl, linkBytes_four amount⟩
    | .level k | .stop k | .pumpStatus k => exact ⟨rfl, rfl, linkBytes_one k.val⟩
    | .transfer k ul => exact ⟨rfl, rfl, congr (congrArg (· ++ ·) (linkBytes_one k.val)) (linkBytes_four ul)⟩
    | .station (.prime mask ul) _ => exact ⟨rfl, rfl, congrArg (mask :: ·) (linkBytes_two ul)⟩
    | .checkPage page _ => exact ⟨rfl, rfl, linkBytes_one page⟩
    | .feed (.selectRoll .one) _ | .feed (.selectRoll .two) _ => exact ⟨rfl, rfl, rfl⟩
    | .feed (.advance um) _ => exact ⟨rfl, rfl, linkBytes_four um⟩
    | .readTag _ | .station .park _ | .station .wipe _ | .station (.check _) _ | .station .cap _ | .station .uncap _
    | .station .carriageReturn _ | .stationStatus _ | .feed .rewind _ | .feed .thread _ | .feed .align _ | .feed .cut _
    | .feedStatus _ | .feedCheck _ => exact ⟨rfl, rfl, rfl⟩
  · refine ⟨rfl, rfl, o.wire_dataNak low, ?_⟩
    rw [o.wire_answered, o.replyEvents_eq]
    rfl
  · exact ⟨rfl, rfl, rfl, rfl, rfl, rfl, fun _ => rfl⟩
  · match o with
    | .readTag _ | .debit _ _ _ | .level _ | .pumpStatus _ | .stationStatus _ | .feedStatus _ | .feedCheck _ =>
      exact ⟨rfl, beq_iff_eq⟩
    | .checkPage page step => exact ⟨rfl, LinkOrder.checkPage_lengthOk_iff page step n⟩
    | .transfer _ _ | .stop _ | .station _ _ | .feed _ _ => rfl
  · refine ⟨rfl, rfl, fun n => o.outcome_dataNak, fun reply => o.outcome_without_reply reply,
      fun reply answers fault => o.outcome_bad_form reply answers (fault.imp_right fun sum => ?_)⟩
    exact Bool.eq_false_iff.mpr fun holds => sum ((checkSumOk_iff ..).mp holds)
  · refine ⟨fun sum => ?_, fun sum => ⟨?_, ?_⟩, fun sum => ⟨?_, ?_, ?_⟩, fun sum => ?_⟩
    all_goals refine (LinkOrder.outcome_whole_reply _ _ rfl rfl rfl sum).trans ?_
    · simp only [LinkOrder.readTag_content, linkValue_one, linkValue_four, Option.elim]
    · simp only [LinkOrder.debit_content, linkValue_four, Option.elim]
    · simp only [LinkOrder.level_content, linkValue_four, Option.elim]
    · simp only [LinkOrder.pumpStatus_content, PumpState.outcome_of_code, linkValue_one, linkValue_four]
    · simp only [LinkOrder.feedStatus_content, UnitState.outcome_of_code, linkValue_one, linkValue_four]
    · simp only [LinkOrder.feedCheck_content, UnitState.outcome_of_code, linkValue_one, linkValue_four]
    · simp only [LinkOrder.stationStatus_content, UnitState.outcome_of_code, linkValue_one]
  · exact LinkOrder.checkPage_outcome page step more count check most sum

end Sys2Proof.Machine
end

section
/-! PROOFS. The memory ports (chapter 10): requests at acceptance, the command ring and the take of its slots, the read index
word, the arbiter, and the answers to plain reads. -/

namespace Sys2Proof.Machine

/-! ## Requests at acceptance (R152 to R155) -/

/-- Every C-port write is the same event, whatever its address (log entry 3). -/
theorem exec_cPortWrite (w : WriteRequest) (s : State) (out : s.chip.inReset = false) (i : Instr)
    (write : i = .slotWrite w ∨ i = .readIndexWrite w ∨ i = .controllerWrite w) :
    exec i s = .next (s.after (s.chip.cPortWrite w)) := by
  rcases write with rfl | rfl | rfl <;> exact s.event_next (fun x => x.cPortWrite w) out rfl

theorem exec_controllerRead (r : ReadRequest) (s : State) (out : s.chip.inReset = false) :
    exec (.controllerRead r) s = .next (s.after (s.chip.cPortRead r)) :=
  s.event_next (fun x => x.cPortRead r) out rfl

theorem exec_headRead (r : ReadRequest) (s : State) (out : s.chip.inReset = false) :
    exec (.headRead r) s = .next (s.after (s.chip.hPortRead r)) :=
  s.event_next (fun x => x.hPortRead r) out rfl

theorem exec_headWrite (w : WriteRequest) (s : State) (out : s.chip.inReset = false) :
    exec (.headWrite w) s = .next (s.after (s.chip.hPortWrite w)) :=
  s.event_next (fun x => x.hPortWrite w) out rfl

section
variable {x : Chip} {w : WriteRequest} {r : ReadRequest}

theorem Chip.cPort_without_credit (spent : x.psw.cCredits = 0) : x.cPortWrite w = x ∧ x.cPortRead r = x :=
  ⟨if_pos spent, if_pos spent⟩

theorem Chip.hPort_without_credit (spent : x.psw.hCredits = 0) : x.hPortWrite w = x ∧ x.hPortRead r = x :=
  ⟨if_pos spent, if_pos spent⟩

theorem Chip.cPortWrite_malformed (credit : 0 < x.psw.cCredits) (form : malformed w.addr w.bytes.length = true) :
    x.cPortWrite w = x.journal (.memoryFault .cPort true true w.tag.val w.bytes.length w.addr.toNat) :=
  (if_neg (Nat.ne_of_gt credit)).trans (if_pos form)

theorem Chip.hPortWrite_malformed (credit : 0 < x.psw.hCredits) (form : malformed w.addr w.bytes.length = true) :
    x.hPortWrite w = x.journal (.memoryFault .hPort true true w.tag.val w.bytes.length w.addr.toNat) :=
  (if_neg (Nat.ne_of_gt credit)).trans (if_pos form)

theorem Chip.cPortRead_malformed (credit : 0 < x.psw.cCredits) (form : malformed r.addr r.len = true) :
    x.cPortRead r = (x.enterCRead r (.answered .fault [])).journal
      (.memoryFault .cPort true false r.tag.val r.len r.addr.toNat) :=
  (if_neg (Nat.ne_of_gt credit)).trans (if_pos form)

theorem Chip.hPortRead_malformed (credit : 0 < x.psw.hCredits) (form : malformed r.addr r.len = true) :
    x.hPortRead r = (x.enterHRead r (.answered .fault [])).journal
      (.memoryFault .hPort true false r.tag.val r.len r.addr.toNat) :=
  (if_neg (Nat.ne_of_gt credit)).trans (if_pos form)

theorem Chip.cPortRead_accepted (credit : 0 < x.psw.cCredits) (form : malformed r.addr r.len = false) :
    x.cPortRead r = (x.enterCRead r .waiting).onPsw fun p =>
      { p with cQueue := p.cQueue ++ [.read x.psw.nextRead r.addr r.len] } :=
  (if_neg (Nat.ne_of_gt credit)).trans (if_neg (Bool.eq_false_iff.mp form))

theorem Chip.hPortWrite_accepted (credit : 0 < x.psw.hCredits) (form : malformed w.addr w.bytes.length = false) :
    x.hPortWrite w = x.onPsw fun p => { p with hCredits := p.hCredits - 1, hQueue := p.hQueue ++ [.write w] } :=
  (if_neg (Nat.ne_of_gt credit)).trans (if_neg (Bool.eq_false_iff.mp form))

end

/-- Settles O9: each port's four requests, by the branch for a malformed one. -/
theorem malformedRequestsAreStopped : Obligations.MalformedRequestsAreStopped := by
  refine ⟨fun w s out credit form => ?_, fun w s out credit form => ?_, fun r s out credit form => ?_,
    fun r s out credit form => ?_⟩
  · have stopped : ∀ i, _ → exec i s = _ := fun i write =>
      (exec_cPortWrite w s out i write).trans (by rw [Chip.cPortWrite_malformed credit form])
    exact ⟨stopped _ (.inl rfl), stopped _ (.inr (.inl rfl)), stopped _ (.inr (.inr rfl))⟩
  · rw [exec_headWrite w s out, Chip.hPortWrite_malformed credit form]
  · rw [exec_controllerRead r s out, Chip.cPortRead_malformed credit form]
  · rw [exec_headRead r s out, Chip.hPortRead_malformed credit form]

/-- Settles O10: without a credit each request leaves the part as it was; with one the plain requests join their queues. -/
theorem requestsNeedACredit : Obligations.RequestsNeedACredit := by
  refine ⟨fun w r s out spent => ?_, fun w r s out spent => ?_, fun r s out credit form => ?_, fun w s out credit form => ?_⟩
  · obtain ⟨noWrite, noRead⟩ := Chip.cPort_without_credit (w := w) (r := r) spent
    have waits : ∀ i, _ → exec i s = _ := fun i write => (exec_cPortWrite w s out i write).trans (by rw [noWrite])
    exact ⟨waits _ (.inl rfl), waits _ (.inr (.inl rfl)), waits _ (.inr (.inr rfl)),
      (exec_controllerRead r s out).trans (by rw [noRead])⟩
  · obtain ⟨noWrite, noRead⟩ := Chip.hPort_without_credit (w := w) (r := r) spent
    exact ⟨(exec_headWrite w s out).trans (by rw [noWrite]), (exec_headRead r s out).trans (by rw [noRead])⟩
  · rw [exec_controllerRead r s out, Chip.cPortRead_accepted credit form]
  · rw [exec_headWrite w s out, Chip.hPortWrite_accepted credit form]

/-! ## The command ring (R159 to R162) -/

/-- One byte copied into the shadows at its ring offset (R160). -/
def setRingByte (s : Vector (Vector Byte 64) 16) (e : Nat × Byte) : Vector (Vector Byte 64) 16 :=
  s.setIfInBounds (e.1 / 64) ((s.getD (e.1 / 64) (Vector.replicate 64 0#8)).setIfInBounds (e.1 % 64) e.2)

theorem copyBytes_cons (s : Vector (Vector Byte 64) 16) (e : Nat × Byte) (l : List (Nat × Byte)) :
    copyBytes s (e :: l) = copyBytes (setRingByte s e) l := rfl

theorem setRingByte_getElem (s : Vector (Vector Byte 64) 16) (e : Nat × Byte) {n b : Nat} (slot : n < 16) (byte : b < 64) :
    (setRingByte s e)[n][b] = if 64 * n + b = e.1 then e.2 else s[n][b] := by
  unfold setRingByte
  by_cases own : e.1 / 64 = n
  · subst own
    have place : 64 * (e.1 / 64) + b = e.1 ↔ e.1 % 64 = b := by omega
    have shadow : s.getD (e.1 / 64) (Vector.replicate 64 0#8) = s[e.1 / 64] := by simp [Vector.getD, slot]
    simp only [Vector.getElem_setIfInBounds_self, Vector.getElem_setIfInBounds, shadow, place]
  · have place : ¬ 64 * n + b = e.1 := by omega
    simp only [Vector.getElem_setIfInBounds_ne _ own, if_neg place]

/-- The bytes of a request that are enabled, numbered from an offset. -/
def enabledFrom (offset : Nat) (bytes : List (Bool × Byte)) : List (Nat × Byte) :=
  ((bytes.zipIdx offset).filter fun e => e.1.1).map fun e => (e.2, e.1.2)

theorem enabled_eq_enabledFrom (w : WriteRequest) (offset : Nat) :
    w.enabled.map (fun e => (offset + e.1, e.2)) = enabledFrom offset w.bytes := by
  unfold WriteRequest.enabled enabledFrom
  rw [List.zipIdx_eq_map_add (i := offset), List.filter_map, List.map_map, List.map_map]
  rfl

theorem enabledFrom_cons (offset : Nat) (c : Bool × Byte) (bytes : List (Bool × Byte)) :
    enabledFrom offset (c :: bytes) =
      if c.1 = true then (offset, c.2) :: enabledFrom (offset + 1) bytes else enabledFrom (offset + 1) bytes := by
  simp only [enabledFrom, List.zipIdx_cons, List.filter_cons]
  split <;> rfl

/-- The copy sets exactly the enabled bytes (R160). -/
theorem copyBytes_enabledFrom {n b : Nat} (slot : n < 16) (byte : b < 64) (bytes : List (Bool × Byte))
    (s : Vector (Vector Byte 64) 16) (offset : Nat) :
    (copyBytes s (enabledFrom offset bytes))[n][b] =
      if offset ≤ 64 * n + b ∧ 64 * n + b < offset + bytes.length ∧
          (bytes.getD (64 * n + b - offset) (false, 0#8)).1 = true
      then (bytes.getD (64 * n + b - offset) (false, 0#8)).2 else s[n][b] := by
  induction bytes generalizing s offset with
  | nil => simp [enabledFrom, copyBytes]
  | cons c bytes ih =>
    have first : (copyBytes s (enabledFrom offset (c :: bytes)))[n][b] =
        (copyBytes (if c.1 = true then setRingByte s (offset, c.2) else s) (enabledFrom (offset + 1) bytes))[n][b] := by
      rw [enabledFrom_cons]
      split
      · simp only [copyBytes_cons]
      · rfl
    have copied : (if c.1 = true then setRingByte s (offset, c.2) else s)[n][b] =
        if 64 * n + b = offset ∧ c.1 = true then c.2 else s[n][b] := by
      cases c.1 <;> simp [setRingByte_getElem s _ slot byte]
    rw [first, ih, copied, List.length_cons]
    rcases Nat.lt_trichotomy (64 * n + b) offset with before | equal | behind
    · rw [if_neg (by omega), if_neg (by omega), if_neg (by omega)]
    · rw [if_neg (by omega), ← equal, Nat.sub_self, List.getD_cons_zero]
      exact ite_congr (propext (by simp)) (fun _ => rfl) fun _ => rfl
    · rw [show 64 * n + b - offset = (64 * n + b - (offset + 1)) + 1 by omega, List.getD_cons_succ,
        if_neg (c := _ ∧ c.1 = true) (by omega)]
      exact ite_congr (propext (and_congr (by omega) (and_congr (by omega) Iff.rfl))) (fun _ => rfl) fun _ => rfl

/-! ### The slots that a write spans (R160) -/

theorem mem_slotsSpanned (offset len : Nat) (n : Fin 16) :
    n ∈ slotsSpanned offset len ↔ offset / 64 ≤ n.val ∧ n.val ≤ (offset + len - 1) / 64 := by
  have all : ∀ m, m ∈ slotNumbers := by decide
  simp [slotsSpanned, all n]

theorem slotsSpanned_nodup (offset len : Nat) : (slotsSpanned offset len).Nodup :=
  List.Pairwise.filter _ (show slotNumbers.Nodup by decide)

/-- Posting touches the states of the slots only. -/
theorem Intake.foldl_postSlot_rest (l : List (Fin 16)) (i : Intake) :
    (l.foldl Intake.postSlot i).shadows = i.shadows ∧ (l.foldl Intake.postSlot i).nextSlot = i.nextSlot := by
  induction l generalizing i with
  | nil => exact ⟨rfl, rfl⟩
  | cons m l ih => exact ih (i.postSlot m)

theorem Intake.foldl_postSlot_shadow (l : List (Fin 16)) (i : Intake) (n : Fin 16) :
    (l.foldl Intake.postSlot i).shadow n = i.shadow n := by
  rw [Intake.shadow, (Intake.foldl_postSlot_rest l i).1, Intake.shadow]

theorem Intake.foldl_postSlot_slots {l : List (Fin 16)} (once : l.Nodup) (i : Intake) (n : Fin 16) :
    (l.foldl Intake.postSlot i).slots.get n =
      if n ∈ l then (i.slots.get n).afterCopy (goSet (i.shadow n)) else i.slots.get n := by
  induction l generalizing i with
  | nil => simp
  | cons m l ih =>
    obtain ⟨fresh, once⟩ := List.nodup_cons.mp once
    rw [List.foldl_cons, ih once]
    have shadow : (i.postSlot m).shadow n = i.shadow n := rfl
    by_cases own : m = n
    · subst own
      rw [if_neg fresh, if_pos List.mem_cons_self]
      exact slotTable_get_set_same ..
    · have kept : (i.postSlot m).slots.get n = i.slots.get n := slotTable_get_set_other _ _ _ _ own
      simp only [kept, shadow, List.mem_cons, Ne.symm own, false_or]

theorem SlotState.afterCopy_eq {st : SlotState} (go : Bool) (free : st ≠ .replyPending) :
    st.afterCopy go = if go = true then .posted else .idle := by
  cases st with
  | idle => rfl
  | posted => rfl
  | replyPending => exact absurd rfl free

theorem byteAt_toList (v : Vector Byte 64) {b : Nat} (byte : b < 64) : byteAt v.toList b = v[b] := by
  simp [byteAt, List.getD_eq_getElem?_getD, byte]

/-- The shadows after a write into the ring: exactly its enabled bytes are set (R160). -/
theorem Intake.handOver_shadow (i : Intake) (w : WriteRequest) (offset : Nat) (n : Fin 16) {b : Nat} (byte : b < 64) :
    byteAt ((i.handOver offset w.bytes.length w.enabled).shadow n) b =
      if offset ≤ 64 * n.val + b ∧ 64 * n.val + b < offset + w.bytes.length ∧
          (w.bytes.getD (64 * n.val + b - offset) (false, 0#8)).1 = true
      then (w.bytes.getD (64 * n.val + b - offset) (false, 0#8)).2 else byteAt (i.shadow n) b := by
  rw [Intake.handOver, Intake.foldl_postSlot_shadow, enabled_eq_enabledFrom, Intake.shadow, Intake.shadow,
    byteAt_toList _ byte, byteAt_toList _ byte]
  exact copyBytes_enabledFrom n.isLt byte w.bytes i.shadows offset

/-- The slots after a write into the ring: each that it spans is treated by its own state and the go word of its shadow (R160). -/
theorem Intake.handOver_slots (i : Intake) (offset len : Nat) (bytes : List (Nat × Byte)) (n : Fin 16) :
    (i.handOver offset len bytes).slots.get n =
      if offset / 64 ≤ n.val ∧ n.val ≤ (offset + len - 1) / 64 then
        (i.slots.get n).afterCopy (goSet ((i.handOver offset len bytes).shadow n))
      else i.slots.get n := by
  rw [Intake.handOver, Intake.foldl_postSlot_shadow, Intake.foldl_postSlot_slots (slotsSpanned_nodup offset len)]
  exact ite_congr (propext (mem_slotsSpanned offset len n)) (fun _ => rfl) fun _ => rfl

theorem Intake.handOver_nextSlot (i : Intake) (offset len : Nat) (bytes : List (Nat × Byte)) :
    (i.handOver offset len bytes).nextSlot = i.nextSlot :=
  (Intake.foldl_postSlot_rest _ _).2

/-! ### The take (R161, R162) -/

theorem Chip.canTake_iff (x : Chip) : x.canTake = true ↔
    x.cmi.slots.get x.cmi.nextSlot = .posted ∧
      ¬ 32 ≤ x.rpw.ordered.length + (if x.rpw.replyReserved = true then 1 else 0) := by
  have room : x.rpw.placesTaken < Config.orderedPlaces ↔
      ¬ 32 ≤ x.rpw.ordered.length + (if x.rpw.replyReserved = true then 1 else 0) := Nat.not_le.symm
  rw [Chip.canTake, Bool.and_eq_true, beq_iff_eq, decide_eq_true_iff, room]

/-- A take leaves the slot REPLY PENDING and touches no other slot: neither the command nor what it calls for does (R161). -/
theorem Chip.takeSlot_slots (x : Chip) : x.takeSlot.cmi.slots = x.cmi.slots.set x.cmi.nextSlot .replyPending := by
  have outer := fun y c => ((Chip.settle_cmi _).trans (Acts.refreshStatus (.refl (Chip.carryOut y c).1) x).outer).trans
    (Chip.outer_carryOut y c)
  exact congrArg Outer.slots (outer _ _)

theorem count_posted_pos {v : Vector SlotState 16} {n : Fin 16} (posted : v.get n = .posted) : 0 < v.count .posted :=
  Vector.count_pos_iff.mpr (posted ▸ Vector.getElem_mem n.isLt)

/-- One slot fewer is POSTED after a take (R161). -/
theorem Chip.takeSlot_count_posted (x : Chip) (can : x.canTake = true) :
    x.takeSlot.cmi.slots.count .posted + 1 = x.cmi.slots.count .posted := by
  obtain ⟨posted, -⟩ := x.canTake_iff.mp can
  have some := count_posted_pos posted
  rw [vector_get] at posted
  have pending : (SlotState.replyPending == .posted) = false := rfl
  rw [Chip.takeSlot_slots, Vector.count_set, posted, pending, beq_self_eq_true, if_pos rfl, if_neg Bool.false_ne_true]
  omega

theorem Chip.takeLoop_step (n : Nat) (x : Chip) :
    x.takeLoop (n + 1) = if x.canTake = true then x.takeSlot.takeLoop n else x := rfl

/-- As many takes as slots are POSTED are all there can be (R161). -/
theorem Chip.takeLoop_succ (n : Nat) (x : Chip) (few : x.cmi.slots.count .posted ≤ n) : x.takeLoop (n + 1) = x.takeLoop n := by
  induction n generalizing x with
  | zero =>
    have idle : x.cmi.slots.get x.cmi.nextSlot ≠ .posted := fun posted =>
      Nat.not_le_of_lt (count_posted_pos posted) few
    rw [Chip.takeLoop_stop _ _ idle, Chip.takeLoop_stop _ _ idle]
  | succ n ih =>
    rw [Chip.takeLoop_step (n + 1) x, Chip.takeLoop_step n x]
    split
    case isTrue can =>
      have fewer := x.takeSlot_count_posted can
      exact ih x.takeSlot (by omega)
    case isFalse => rfl

/-- One take, and the takes that may follow it (R161). -/
theorem Chip.takeSlots_eq (x : Chip) (can : x.canTake = true) : x.takeSlots = x.takeSlot.takeSlots := by
  have all : x.cmi.slots.count .posted ≤ 16 := Vector.count_le_size
  have fewer := x.takeSlot_count_posted can
  calc x.takeSlots = x.takeSlot.takeLoop 15 := by rw [Chip.takeSlots, Chip.takeLoop_step, if_pos can]
    _ = x.takeSlot.takeSlots := (Chip.takeLoop_succ 15 _ (by omega)).symm

theorem Chip.takeSlots_waits (x : Chip) (waits : ¬ x.canTake = true) : x.takeSlots = x := by
  rw [Chip.takeSlots, Chip.takeLoop_step, if_neg waits]

theorem length_replyBytes (shadow : List Byte) (a : Answer) : (replyBytes shadow a).length = 16 := rfl

theorem byte1_eq {v : Nat} (fits : v < 256) : byte1 v = [BitVec.ofNat 8 v] := by
  have within : min v 255 = v := by omega
  simp [byte1, leBytes, within]

theorem ReplyStatus.code_lt (s : ReplyStatus) : s.code < 256 := by
  cases s <;> decide

theorem replyBytes_eq (shadow : List Byte) (a : Answer) (fits : a.detail < 256) :
    replyBytes shadow a = (List.range 8).map (fun i => byteAt shadow (48 + i)) ++
      [BitVec.ofNat 8 a.status.code, BitVec.ofNat 8 a.detail] ++ leBytes 2 a.value ++ List.replicate 4 0#8 := by
  simp only [replyBytes, byte1_eq fits, byte1_eq a.status.code_lt, List.append_assoc, List.singleton_append, zeros]

/-! ### Writes into the ring (R152 to R155, R160) -/

theorem Chip.seen_ring (x : Chip) (w : WriteRequest) (h : x.psw.inControl w.addr.toNat = true)
    (ring : controlOffset w.addr.toNat < 0x400) :
    x.seen w = (x.onCmi fun i => i.handOver (controlOffset w.addr.toNat) w.bytes.length w.enabled).takeSlots := by
  have window : x.psw.window w.addr.toNat = .control := if_pos h
  simp only [Chip.seen, window]
  exact if_pos ring

/-- A command of the ring is the write of its slot, whatever the state of the part (log entry 2). -/
theorem exec_slotWriteOf (c : RingCommand) (s : State) :
    exec (.slotWrite (s.chip.slotWriteOf c)) s = .next { s with chip := s.chip.event fun x => x.command c } := by
  have write : (s.chip.event fun x => x.cPortWrite (s.chip.slotWriteOf c)) = s.chip.event fun x => x.command c := by
    simp only [Chip.event, Chip.command]
  rw [← write]
  rfl

/-- Settles O6: the write into the ring, its copy and posting, one take and its reply, and the commands as such writes. -/
theorem slotWritesPostSlots : Obligations.SlotWritesPostSlots := by
  refine ⟨fun w s out credit form control ring => ?_, fun i w offset n _ _ => ?_, fun x => ?_, fun s => ?_⟩
  · rw [exec_cPortWrite w s out _ (.inl rfl), Chip.cPortWrite_accepted _ _ credit form,
      Chip.seen_ring (s.chip.acceptWrite w) w control ring]
  · have slots := i.handOver_slots offset w.bytes.length w.enabled n
    refine ⟨fun b byte => i.handOver_shadow w offset n byte, fun untouched => slots.trans (if_neg untouched),
      fun touched pending => ?_, fun touched free => ?_, i.handOver_nextSlot .., i.handOver_partState ..⟩
    · rw [slots, if_pos touched, pending]
      rfl
    · rw [slots, if_pos touched, SlotState.afterCopy_eq _ free]
  · intro slot shadow posted full taken owner y bytes
    refine ⟨fun waits => x.takeSlots_waits fun can => ?_, fun ready room => ?_, length_replyBytes shadow owner.2,
      replyBytes_eq shadow owner.2⟩
    · obtain ⟨ready, room⟩ := x.canTake_iff.mp can
      exact waits.elim (· ready) room
    · rw [x.takeSlots_eq (x.canTake_iff.mpr ⟨ready, room⟩)]
      exact congrArg Chip.takeSlots rfl
  · simp only [exec_slotWriteOf]
    exact ⟨rfl, fun _ => rfl, rfl, fun _ => rfl, fun _ => rfl, fun _ => rfl, fun _ => rfl, fun _ => rfl, rfl,
      fun _ => rfl, fun _ => rfl, fun _ => rfl, fun _ => rfl⟩

/-! ## The read index word (R154, R170, R171) -/

/-- A write at the read index word hands the word over where all its bytes are enabled, and nothing else (R154, R170). -/
theorem Chip.seen_readIndex (x : Chip) (w : WriteRequest) (h : x.psw.inControl w.addr.toNat = true)
    (word : controlOffset w.addr.toNat = 0x400) :
    x.seen w = if firstWordEnabled w = true then x.readIndexWritten (firstWordValue w) else x := by
  have window : x.psw.window w.addr.toNat = .control := if_pos h
  simp [Chip.seen, window, word, ringBytes, readIndexOffset]

/-- Settles O7: the write is accepted, and its word is what the report writer sees of it. -/
theorem readIndexWriteMovesTheReadIndex : Obligations.ReadIndexWriteMovesTheReadIndex := by
  intro w s out credit form control word
  rw [exec_cPortWrite w s out _ (.inr (.inl rfl)), Chip.cPortWrite_accepted _ _ credit form,
    Chip.seen_readIndex (s.chip.acceptWrite w) w control word]
  rfl

/-! ## The arbiter (R155, R156) -/

theorem queueReady_iff (q : List Forward) (outstanding : Nat) :
    queueReady q outstanding = true ↔ ∃ f rest, q = f :: rest ∧
      (match f with
        | .write _ => True
        | .read _ _ _ => outstanding < 32) := by
  match q with
  | [] => simp [queueReady]
  | .write w :: rest => simp [queueReady, Forward.issuable]
  | .read id addr len :: rest =>
    have place : (Forward.read id addr len).issuable outstanding = true ↔ outstanding < 32 := decide_eq_true_iff
    simp [queueReady, place]

theorem PortSwitch.writerReady_iff (p : PortSwitch) :
    p.writerReady = true ↔ ∃ w, p.writer = some w ∧ w.fence ≤ p.cForwarded := by
  unfold PortSwitch.writerReady
  cases p.writer <;> simp

theorem Preference.source_eq (f : Preference) : f.source = if f = .cPort then .controller else .writer := by
  cases f <;> rfl

theorem Preference.other_eq (f : Preference) : f.other = if f = .cPort then .writer else .cPort := by
  cases f <;> rfl

/-- The choice of R156 with its conditions as propositions. -/
theorem PortSwitch.choose_eq (p : PortSwitch) :
    p.choose =
      if p.hReady = true ∧ (p.headRun < 8 ∨ p.cReady = false ∧ p.writerReady = false) then some .head
      else if p.cReady = true ∧ p.writerReady = true then
        some (if p.preference = .cPort then .controller else .writer)
      else if p.cReady = true then some .controller
      else if p.writerReady = true then some .writer
      else none := by
  have short : decide (p.headRun < Config.headRunLimit) = true ↔ p.headRun < 8 := decide_eq_true_iff
  simp only [PortSwitch.choose, Preference.source_eq, Bool.and_eq_true, Bool.or_eq_true, short, Bool.not_eq_true']

theorem PortSwitch.noteGrant_head (p : PortSwitch) :
    p.noteGrant .head =
      { p with headRun := if p.cReady = true ∨ p.writerReady = true then p.headRun + 1 else 0 } := by
  simp only [PortSwitch.noteGrant, Bool.or_eq_true]

theorem PortSwitch.noteGrant_other (p : PortSwitch) {s : Source} (other : s ≠ .head) :
    p.noteGrant s =
      { p with
        headRun := 0
        preference :=
          if p.cReady = true ∧ p.writerReady = true then (if p.preference = .cPort then .writer else .cPort)
          else p.preference } := by
  cases s with
  | head => exact absurd rfl other
  | controller => simp only [PortSwitch.noteGrant, Preference.other_eq, Bool.and_eq_true]
  | writer => simp only [PortSwitch.noteGrant, Preference.other_eq, Bool.and_eq_true]

theorem Chip.fence_eq (x : Chip) :
    x.fence = x.psw.cForwarded + (x.psw.cQueue.filter fun f => match f with
      | .write _ => true
      | .read _ _ _ => false).length := by
  have isWrite : Forward.isWrite = fun f => match f with
      | .write _ => true
      | .read _ _ _ => false := by
    funext f
    cases f <;> rfl
  exact congrArg (fun p => x.psw.cForwarded + (x.psw.cQueue.filter p).length) isWrite

/-- Settles O12: readiness of each source, the fence, and the three points of R156. -/
theorem arbiterChoosesByItsRules : Obligations.ArbiterChoosesByItsRules := by
  refine ⟨fun p => ⟨?_, ?_, p.writerReady_iff⟩, fun x => ?_, fun p =>
    ⟨p.choose_eq, p.noteGrant_head, fun s other => p.noteGrant_other other⟩⟩
  · exact queueReady_iff p.hQueue p.outstanding.length
  · exact queueReady_iff p.cQueue p.outstanding.length
  · exact x.fence_eq

/-! ## A grant (R153, R155, R156, R161, R162, R168 to R171) -/

theorem exec_arbiterGrant (s : State) (out : s.chip.inReset = false) {y : Chip} (granted : s.chip.fillWriter.grant = y) :
    exec .arbiterGrant s = .next (s.after y) :=
  s.event_next (fun x => x.fillWriter.grant) out granted

/-- The write of an entry of the ordered list is forwarded (R162, R170). -/
def Chip.forwardOrdered (x : Chip) : OrderedBody → Chip
  | .reply slot bytes => x.forwardReply slot bytes
  | .journal r time => x.forwardJournal r time

section
variable {x : Chip} {rest : List Forward}

theorem Chip.grant_none (idle : x.psw.choose = none) : x.grant = x := by
  simp only [Chip.grant, idle]

theorem Chip.grant_head (chosen : x.psw.choose = some .head) :
    x.grant = (x.onPsw fun p => p.noteGrant .head).grantHead := by
  simp only [Chip.grant, chosen]

theorem Chip.grant_controller (chosen : x.psw.choose = some .controller) :
    x.grant = (x.onPsw fun p => p.noteGrant .controller).grantController := by
  simp only [Chip.grant, chosen]

theorem Chip.grant_writer (chosen : x.psw.choose = some .writer) :
    x.grant = (x.onPsw fun p => p.noteGrant .writer).grantWriter := by
  simp only [Chip.grant, chosen]

theorem Chip.grant_head_write {w : WriteRequest} (chosen : x.psw.choose = some .head)
    (head : x.psw.hQueue = .write w :: rest) :
    x.grant = (x.onPsw fun p => { p.noteGrant .head with hQueue := rest, hCredits := p.hCredits + 1 }).emit
      (.memoryWrite w.addr.toNat w.bytes) := by
  have queue : (x.onPsw fun p => p.noteGrant .head).psw.hQueue = .write w :: rest := head
  rw [Chip.grant_head chosen, Chip.grantHead, queue]
  rfl

theorem Chip.grant_head_read {id : Nat} {addr : Addr} {len : Nat} (chosen : x.psw.choose = some .head)
    (head : x.psw.hQueue = .read id addr len :: rest) :
    x.grant = (x.onPsw fun p =>
      { p.noteGrant .head with
        hQueue := rest
        outstanding := p.outstanding ++ [{ port := .hPort, id := id }]
        hInFlight := setPhase p.hInFlight id .issued }).emit (.memoryRead addr.toNat len) := by
  have queue : (x.onPsw fun p => p.noteGrant .head).psw.hQueue = .read id addr len :: rest := head
  rw [Chip.grant_head chosen, Chip.grantHead, queue]
  rfl

theorem Chip.grant_controller_write {w : WriteRequest} (chosen : x.psw.choose = some .controller)
    (head : x.psw.cQueue = .write w :: rest) :
    x.grant = (x.onPsw fun p =>
      { p.noteGrant .controller with
        cQueue := rest, cCredits := p.cCredits + 1, cForwarded := p.cForwarded + 1 }).emit
      (.memoryWrite w.addr.toNat w.bytes) := by
  have queue : (x.onPsw fun p => p.noteGrant .controller).psw.cQueue = .write w :: rest := head
  rw [Chip.grant_controller chosen, Chip.grantController, queue]
  rfl

theorem Chip.grant_controller_read {id : Nat} {addr : Addr} {len : Nat} (chosen : x.psw.choose = some .controller)
    (head : x.psw.cQueue = .read id addr len :: rest) :
    x.grant = (x.onPsw fun p =>
      { p.noteGrant .controller with
        cQueue := rest
        outstanding := p.outstanding ++ [{ port := .cPort, id := id }]
        cInFlight := setPhase p.cInFlight id .issued }).emit (.memoryRead addr.toNat len) := by
  have queue : (x.onPsw fun p => p.noteGrant .controller).psw.cQueue = .read id addr len :: rest := head
  rw [Chip.grant_controller chosen, Chip.grantController, queue]
  rfl

theorem Chip.grant_writer_status {n : Fin 13} {bytes : List Byte} {fence : Nat} (chosen : x.psw.choose = some .writer)
    (write : x.psw.writer = some { body := .status n bytes, fence := fence }) :
    x.grant = (x.onPsw fun p => { p.noteGrant .writer with writer := none }).emit
      (.memoryWrite (x.psw.controlBase + 0x0800 + 128 * n.val) (allEnabled bytes)) := by
  have waiting : (x.onPsw fun p => p.noteGrant .writer).psw.writer = some { body := .status n bytes, fence := fence } := write
  rw [Chip.grant_writer chosen, Chip.grantWriter, waiting]
  rfl

/-- A grant to the writer with an entry of the ordered list forwards that entry and frees its place (R162, R168 to R170). -/
theorem Chip.grant_writer_ordered {body : OrderedBody} {fence : Nat} (chosen : x.psw.choose = some .writer)
    (write : x.psw.writer = some { body := .ordered body, fence := fence }) :
    x.grant = ((x.onPsw fun p => { p.noteGrant .writer with writer := none }).forwardOrdered body).placeFreed := by
  have waiting : (x.onPsw fun p => p.noteGrant .writer).psw.writer = some { body := .ordered body, fence := fence } := write
  rw [Chip.grant_writer chosen, Chip.grantWriter, waiting]
  cases body <;> rfl

/-- A status record becomes pending where it is not among the pending ones (R168). -/
theorem ReportWriter.mark_by_mem (w : ReportWriter) (n : Fin 13) :
    w.mark n = { w with statusSet := if n ∈ w.statusSet then w.statusSet else w.statusSet ++ [n] } := by
  simp only [ReportWriter.mark_eq, List.contains_iff_mem]

/-- The slot IDLE, its shadow in agreement with memory, and the place freed (R162, R169). -/
theorem Chip.forwardReply_placeFreed (x : Chip) (slot : Fin 16) (bytes : List Byte) :
    (x.forwardReply slot bytes).placeFreed =
      (((x.emit (.memoryWrite (x.psw.controlBase + 64 * slot.val + 48) (allEnabled bytes))).onCmi fun i =>
        { i with
          slots := i.slots.set slot .idle
          shadows := i.shadows.set slot (writeReply (i.shadows.get slot) bytes) }).onRpw fun w =>
            { w with ordered := w.ordered.drop 1 }).journalOverflow.takeSlots := by
  rw [Chip.placeFreed, Chip.forwardReply]

/-- The HEADER record marked for the write index and the place freed, as one change of the report writer (R168, R170). -/
theorem Chip.forwardJournal_placeFreed (x : Chip) (r : JournalRecord) (time : Nat) :
    (x.forwardJournal r time).placeFreed =
      ((x.emit (.memoryWrite (x.psw.controlBase + 0x1000 + 32 * (x.rpw.writeIndex.toNat % x.rpw.capacity))
        (allEnabled (r.bytes time)))).onRpw fun w =>
          { w with
            writeIndex := w.writeIndex + 1#32, ordered := w.ordered.drop 1
            statusSet := if 0 ∈ w.statusSet then w.statusSet else w.statusSet ++ [0] }).journalOverflow.takeSlots := by
  simp only [Chip.placeFreed, Chip.forwardJournal, Chip.markStatus, Chip.onRpw, ReportWriter.mark_by_mem]
  rfl

end

/-- Settles O13: the source that is chosen, then the request at the head of its forward queue. -/
theorem arbiterGrantForwardsOneRequest : Obligations.ArbiterGrantForwardsOneRequest := by
  intro s out
  refine ⟨fun idle => ?_, fun w rest chosen head => ?_, fun id addr len rest chosen head => ?_, fun w rest chosen head => ?_,
    fun id addr len rest chosen head => ?_, fun n bytes fence chosen write => ?_, fun slot bytes fence chosen write => ?_,
    fun r time fence chosen write => ?_⟩
  all_goals refine exec_arbiterGrant s out ?_
  · exact Chip.grant_none idle
  · exact Chip.grant_head_write chosen head
  · exact Chip.grant_head_read chosen head
  · exact Chip.grant_controller_write chosen head
  · exact Chip.grant_controller_read chosen head
  · exact Chip.grant_writer_status chosen write
  · exact (Chip.grant_writer_ordered chosen write).trans (Chip.forwardReply_placeFreed _ slot bytes)
  · exact (Chip.grant_writer_ordered chosen write).trans (Chip.forwardJournal_placeFreed _ r time)

/-! ## Answers to plain reads (R155, R157) -/

/-- An answer that fits goes back unmodified where the gate has no note of the read; the MEMORY FAULT record of a FAULT comes
first. -/
theorem Chip.memoryAnswer_plain (x : Chip) (a : MemoryAnswer) {o : Outstanding} {rest : List Outstanding} {e : InFlight}
    (oldest : x.psw.outstanding = o :: rest) (entry : ((x.psw.inFlight o.port).find? fun e => e.id == o.id) = some e)
    (fits : answerFits a e.len = true) (plain : (x.sgt.notes.find? fun n => n.id == o.id) = none) :
    x.memoryAnswer a =
      let y := x.onPsw fun p => { p with outstanding := rest }
      (if a = .fault then y.uncorrectable o.port e else y).plainAnswer o.port o.id a := by
  have plain' : ((if a = .fault then (x.onPsw fun p => { p with outstanding := rest }).uncorrectable o.port e
      else x.onPsw fun p => { p with outstanding := rest }).sgt.notes.find? fun n => n.id == o.id) = none := by
    split <;> exact plain
  unfold Chip.memoryAnswer
  rw [oldest]
  simp only [entry, fits, if_true, beq_iff_eq, plain']

/-- Settles O14: the two answers that memory can give. -/
theorem memoryAnswersAPlainRead : Obligations.MemoryAnswersAPlainRead := by
  intro a s o rest e out oldest entry fits plain
  rw [exec_memoryAnswer a s out, Chip.memoryAnswer_plain s.chip a oldest entry fits plain]
  cases a with
  | good data => rfl
  | fault => rfl

end Sys2Proof.Machine
end

section
/-! PROOFS. The command ring (chapter 11): the kinds that change nothing, and the refusals of an UNCONFIGURED part. -/

namespace Sys2Proof

/-- A slot reads back as the command it was written for (12.4). -/
theorem decodeSlot_encodeSlot (c : RingCommand) (form : c.wellFormed = true) : decodeSlot (encodeSlot c) = c := by
  cases c with
  | nop => exact decodeSlot_nop
  | configure a => exact decodeSlot_configure a
  | restart => exact decodeSlot_restart
  | setChannel a => exact decodeSlot_setChannel a
  | setRoll a => exact decodeSlot_setRoll a
  | queueSheet a => exact decodeSlot_queueSheet a
  | swathReady a => exact decodeSlot_swathReady a
  | cancelSheet id => exact decodeSlot_cancelSheet id
  | clearJam => exact decodeSlot_clearJam
  | setNozzle a => exact decodeSlot_setNozzle a
  | loadProgram a => exact decodeSlot_loadProgram a form
  | runProgram p => exact decodeSlot_runProgram p
  | unknown kind => exact decodeSlot_unknown kind ((Bool.not_eq_true' _).mp form)

/-- The commands that an UNCONFIGURED part refuses: every defined kind but NOP, CONFIGURE and RESTART (R163). -/
def RingCommand.needsRunning : RingCommand → Bool
  | .nop | .configure _ | .restart | .unknown _ => false
  | .setChannel _ | .setRoll _ | .queueSheet _ | .swathReady _ | .cancelSheet _ | .clearJam | .setNozzle _
  | .loadProgram _ | .runProgram _ => true

end Sys2Proof

namespace Sys2Proof.Machine

/-- An UNCONFIGURED part refuses such a command before its owner sees it (R163). -/
theorem Chip.carryOut_of_unconfigured (x : Chip) (c : RingCommand) (needs : c.needsRunning = true)
    (unconfigured : x.cmi.partState = .unconfigured) : x.carryOut c = (x, .unconfigured) := by
  cases c with
  | nop | configure | restart | unknown => cases needs
  | setChannel | setRoll | queueSheet | swathReady | cancelSheet | clearJam | setNozzle | loadProgram | runProgram =>
    rw [Chip.carryOut, x.whenRunning_of_unconfigured _ unconfigured]

/-- A command that a ready part does not act on is answered, with the part as the take found it. -/
theorem State.command_answered (s : State) (c : RingCommand) (ready : s.chip.readyForCommand)
    (form : c.wellFormed = true) {a : Answer} (idle : (s.chip.taking c).carryOut c = (s.chip.taking c, a)) :
    ({ s with chip := s.chip.event fun x => x.command c } : State) = s.replied c (s.chip.taking c) a :=
  s.command_eq c ready form (decodeSlot_encodeSlot c form) idle

/-- An UNCONFIGURED part answers a command that needs it RUNNING with REFUSED STATE and the detail UNCONFIGURED
(R163, R172). -/
theorem State.command_unconfigured (s : State) (c : RingCommand) (ready : s.chip.readyForCommand)
    (unconfigured : s.chip.cmi.partState = .unconfigured) (form : c.wellFormed = true) (needs : c.needsRunning = true) :
    ({ s with chip := s.chip.event fun x => x.command c } : State) =
      s.replied c (s.chip.taking c) { status := .refusedState, detail := 0xFF, value := 0 } :=
  s.command_answered c ready form ((s.chip.taking c).carryOut_of_unconfigured c needs unconfigured)

/-- Settles O30: NOP and an undefined kind are answered and no more; the other nine are refused by the part state. -/
theorem nopUnknownKindAndUnconfigured : Obligations.NopUnknownKindAndUnconfigured := by
  intro s ready
  refine ⟨congrArg Host.Outcome.next (s.command_answered .nop ready rfl rfl), fun kind undefined => ?_,
    fun unconfigured => ?_⟩
  · have form : (RingCommand.unknown kind).wellFormed = true := (Bool.not_eq_true' _).mpr undefined
    exact congrArg Host.Outcome.next (s.command_answered (.unknown kind) ready form rfl)
  have refused (c : RingCommand) (form : c.wellFormed = true) (needs : c.needsRunning = true) :=
    congrArg (Host.Outcome.next (φ := Fault) (ρ := Refusal)) (s.command_unconfigured c ready unconfigured form needs)
  exact ⟨fun a => refused (.setChannel a) rfl rfl, fun a => refused (.setRoll a) rfl rfl,
    fun a => refused (.queueSheet a) rfl rfl, fun a => refused (.swathReady a) rfl rfl,
    fun id => refused (.cancelSheet id) rfl rfl, refused .clearJam rfl rfl, fun a => refused (.setNozzle a) rfl rfl,
    fun a form => refused (.loadProgram a) form rfl, fun p => refused (.runProgram p) rfl rfl⟩

end Sys2Proof.Machine
end

section
/-! PROOFS. Status, journal and memory formats (chapter 12): the journal's room and its drops, the filling of the report writer's
forward queue, the periods of the time base, and the bytes of a journal record. -/

namespace Sys2Proof.Machine

/-! ## The journal (R169 to R171) -/

theorem ReportWriter.hasRoom_iff (w : ReportWriter) :
    w.hasRoom = true ↔ w.placesTaken < 32 ∧ w.unread + w.journalsInList < w.capacity := decide_eq_true_iff

theorem Chip.journal_of_room (x : Chip) (r : JournalRecord) (room : x.rpw.hasRoom = true) :
    x.journal r = x.onRpw fun w => w.enter r x.fence := by
  simp only [Chip.journal, Chip.onRpw, room, if_true]

theorem ReportWriter.drop_by_mem (w : ReportWriter) : w.drop =
    { w with
      overflow := true, dropped := min (w.dropped + 1) 0xFFFFFFFF
      firstDrop := if w.overflow = true then w.firstDrop else w.timeBase
      statusSet := if 0 ∈ w.statusSet then w.statusSet else w.statusSet ++ [0] } := by
  simp only [ReportWriter.drop, ReportWriter.mark_by_mem, addCount, Config.countMax]

theorem Chip.journal_of_no_room (x : Chip) (r : JournalRecord) (full : ¬ x.rpw.hasRoom = true) :
    x.journal r = x.onRpw ReportWriter.drop := by
  simp only [Chip.journal, Chip.onRpw, if_neg full]

theorem Chip.journalOverflow_of_room (x : Chip) (flag : x.rpw.overflow = true) (room : x.rpw.hasRoom = true) :
    x.journalOverflow = x.onRpw fun w =>
      { w.enter (.journalOverflow w.dropped w.firstDrop) x.fence with
        overflow := false, dropped := 0
        statusSet := if 0 ∈ w.statusSet then w.statusSet else w.statusSet ++ [0] } := by
  simp only [Chip.journalOverflow, Chip.onRpw, flag, room, Bool.and_self, if_true, ReportWriter.mark_by_mem]
  rfl

theorem Chip.journalOverflow_waits (x : Chip) (waits : ¬ (x.rpw.overflow = true ∧ x.rpw.hasRoom = true)) :
    x.journalOverflow = x := by
  rw [← Bool.and_eq_true] at waits
  simp only [Chip.journalOverflow, Chip.onRpw, if_neg waits]

theorem Chip.attn_iff (x : Chip) : x.attn = true ↔ x.rpw.writeIndex ≠ x.rpw.readIndex := bne_iff_ne

/-! ## The writer's forward queue (R168) -/

theorem takeEntry_of_all_taken {l : List OrderedEntry} (taken : ∀ e ∈ l, e.taken = true) : takeEntry l = none := by
  induction l with
  | nil => rfl
  | cons e l ih =>
    obtain ⟨front, rest⟩ := List.forall_mem_cons.mp taken
    simp only [takeEntry, front, if_true, ih rest]

/-- The oldest entry not yet taken is found behind those that are. -/
theorem takeEntry_of_oldest {before : List OrderedEntry} (e : OrderedEntry) (rest : List OrderedEntry)
    (taken : ∀ a ∈ before, a.taken = true) (waiting : e.taken = false) :
    takeEntry (before ++ e :: rest) = some (e, before ++ { e with taken := true } :: rest) := by
  induction before with
  | nil => simp [takeEntry, waiting]
  | cons a before ih =>
    obtain ⟨front, others⟩ := List.forall_mem_cons.mp taken
    simp only [List.cons_append, takeEntry, front, if_true, ih others]

theorem Chip.fillWriter_of_write (x : Chip) (write : x.psw.writer ≠ none) : x.fillWriter = x := by
  obtain ⟨w, some_w⟩ := Option.ne_none_iff_exists'.mp write
  simp only [Chip.fillWriter, some_w]

/-- The ordered list goes before the status set. -/
theorem Chip.fillWriter_of_entry (x : Chip) {e : OrderedEntry} {ordered : List OrderedEntry} (empty : x.psw.writer = none)
    (oldest : takeEntry x.rpw.ordered = some (e, ordered)) :
    x.fillWriter = { x with
      psw := { x.psw with writer := some { body := .ordered e.body, fence := e.fence } }
      rpw := { x.rpw with ordered := ordered } } := by
  simp only [Chip.fillWriter, empty, oldest, Chip.onRpw, Chip.onPsw]

theorem Chip.fillWriter_of_all_taken (x : Chip) (empty : x.psw.writer = none)
    (taken : ∀ e ∈ x.rpw.ordered, e.taken = true) : x.fillWriter = x.takeStatus := by
  simp only [Chip.fillWriter, empty, takeEntry_of_all_taken taken]

theorem Chip.takeStatus_of_pending (x : Chip) {n : Fin 13} {rest : List (Fin 13)} (pending : x.rpw.statusSet = n :: rest) :
    x.takeStatus = { x with
      psw := { x.psw with
        writer := some { body := .status n (statusBytes x n (x.rpw.updateCounts.get n + 1)), fence := x.fence } }
      rpw := { x.rpw with
        statusSet := rest, updateCounts := x.rpw.updateCounts.set n (x.rpw.updateCounts.get n + 1) } } := by
  simp only [Chip.takeStatus, pending, Chip.onRpw, Chip.onPsw]

theorem Chip.takeStatus_of_none_pending (x : Chip) (idle : x.rpw.statusSet = []) : x.takeStatus = x := by
  simp only [Chip.takeStatus, idle]

/-- A write that waits, or nothing to take, leaves the forward queue as it is. -/
theorem Chip.fillWriter_idle (x : Chip)
    (idle : x.psw.writer ≠ none ∨ x.rpw.statusSet = [] ∧ ∀ e ∈ x.rpw.ordered, e.taken = true) : x.fillWriter = x := by
  by_cases write : x.psw.writer = none
  · obtain ⟨none_pending, taken⟩ := idle.resolve_left (not_not_intro write)
    rw [x.fillWriter_of_all_taken write taken, x.takeStatus_of_none_pending none_pending]
  · exact x.fillWriter_of_write write

/-! ## The time base (R167) -/

theorem nextTime_of_lt {t : Nat} (below : t + 1 < 2 ^ 64) : nextTime t = t + 1 := Nat.mod_eq_of_lt below

theorem Chip.tick_eq (x : Chip) (out : x.inReset = false) (below : x.rpw.timeBase + 1 < 2 ^ 64) :
    x.tick = x.fillWriter.onRpw fun w => { w with timeBase := x.rpw.timeBase + 1 } := by
  have same : x.fillWriter.rpw.timeBase = x.rpw.timeBase := x.fillWriter_move.time
  rw [Chip.tick, out, if_neg Bool.false_ne_true]
  simp only [Chip.onRpw, same, nextTime_of_lt below]

theorem Chip.event_timeBase (x : Chip) {f : Chip → Chip} (move : Move x (f x)) :
    (x.event f).rpw.timeBase = x.rpw.timeBase := by
  unfold Chip.event
  split
  · rfl
  · exact move.conclude.time

/-- Settles O5: the tick and what it fills, the events by `exec_event`, the journal's entry and the layout of a status record. -/
theorem timeBaseCountsPeriods : Obligations.TimeBaseCountsPeriods := by
  refine ⟨fun s out below => ⟨?_, s.chip.fillWriter_idle⟩, fun c s t reset release tick run => ?_, fun x r room => ?_,
    fun x n count => rfl⟩
  · exact congrArg (fun y => Host.Outcome.next { s with chip := y }) (s.chip.tick_eq out below)
  · obtain ⟨f, move, _, event⟩ := exec_event c reset release tick
    cases (event s).symm.trans run
    exact s.chip.event_timeBase (move s.chip)
  · rw [x.journal_of_room r room]
    rfl

/-! ## The bytes of a journal record (12.5, R172) -/

theorem length_leBytes (width v : Nat) : (leBytes width v).length = width := by
  simp [leBytes]

theorem length_padTo {n : Nat} {bs : List Byte} (fits : bs.length ≤ n) : (padTo n bs).length = n := by
  simp only [padTo, List.length_append, zeros_length]
  omega

theorem leBytes_two (v : Nat) :
    leBytes 2 v = [BitVec.ofNat 8 (min v 0xFFFF), BitVec.ofNat 8 (min v 0xFFFF / 256)] := by
  simp [leBytes, List.range_succ]

theorem leBytes_eight (v : Nat) :
    leBytes 8 v = (List.range 8).map fun i => BitVec.ofNat 8 (min v 0xFFFFFFFFFFFFFFFF / 256 ^ i) := rfl

theorem NozzleReason.code_lt (r : NozzleReason) : r.code < 256 := by
  cases r <;> decide

theorem StepOutcome.code_lt (o : StepOutcome) : o.code < 256 := by
  cases o <;> exact Nat.le_of_ble_eq_true rfl

theorem LinkOutcome.code_lt (o : LinkOutcome) : o.code < 256 := by
  cases o <;> decide

theorem JournalRecord.layout_kind_lt (r : JournalRecord) : r.layout.kind < 256 := by
  cases r <;> exact Nat.le_of_ble_eq_true rfl

/-- The reasons of most kinds are fixed; the others are a saturated count, a choice of two, or a code. -/
theorem JournalRecord.layout_reason_lt (r : JournalRecord) : r.layout.reason < 256 := by
  cases r with
  | swathDone _ _ _ _ _ faulted _ => exact Nat.lt_succ_of_le (Nat.min_le_right faulted 255)
  | swathOrder _ notNext _ _ => cases notNext <;> exact Nat.le_of_ble_eq_true rfl
  | nozzle n => exact n.reason.code_lt
  | service _ outcome _ _ _ _ _ => exact outcome.code_lt
  | fieldFault _ _ outcome _ _ => exact outcome.code_lt
  | memoryFault _ malformed _ _ _ _ => cases malformed <;> exact Nat.le_of_ble_eq_true rfl
  | _ => exact Nat.le_of_ble_eq_true rfl

theorem JournalRecord.length_layout_fields (r : JournalRecord) : r.layout.fields.length ≤ 20 := by
  cases r <;> exact Nat.le_of_ble_eq_true rfl

theorem JournalRecord.length_bytes (r : JournalRecord) (time : Nat) : (r.bytes time).length = 32 := by
  simp only [JournalRecord.bytes, byte1, List.length_append, length_leBytes, length_padTo r.length_layout_fields]

/-- The first twelve bytes: the kind, the reason, the subject and the time. -/
theorem JournalRecord.take_bytes (r : JournalRecord) (time : Nat) :
    (r.bytes time).take 12 =
      [BitVec.ofNat 8 r.layout.kind, BitVec.ofNat 8 r.layout.reason, BitVec.ofNat 8 (min r.layout.subject 0xFFFF),
        BitVec.ofNat 8 (min r.layout.subject 0xFFFF / 256)] ++
        (List.range 8).map fun i => BitVec.ofNat 8 (min time 0xFFFFFFFFFFFFFFFF / 256 ^ i) := by
  rw [JournalRecord.bytes, byte1_eq r.layout_kind_lt, byte1_eq r.layout_reason_lt, leBytes_two, leBytes_eight]
  exact List.take_left' rfl

/-- Settles O57: the journal's entry, drop and overflow record, ATTN, the opening of each kind of record by its layout, and the
writer's next write. -/
theorem reportWriterByItsRules : Obligations.ReportWriterByItsRules := by
  intro x
  refine ⟨fun r room => ?_, fun r full => ?_, fun flag room => ?_, fun waits => ?_, x.attn_iff, fun r time => ?_,
    fun write => ?_, fun e before rest empty list taken waiting => ?_, fun n rest empty taken pending => ?_⟩
  · exact x.journal_of_room r (x.rpw.hasRoom_iff.mpr room)
  · rw [x.journal_of_no_room r (mt x.rpw.hasRoom_iff.mp full), Chip.onRpw, ReportWriter.drop_by_mem]
  · exact x.journalOverflow_of_room flag (x.rpw.hasRoom_iff.mpr room)
  · exact x.journalOverflow_waits (mt (And.imp_right x.rpw.hasRoom_iff.mp) waits)
  · refine ⟨r.length_bytes time, ?_⟩
    have opening := r.take_bytes time
    cases r <;> exact opening
  · exact x.fillWriter_of_write (Option.isSome_iff_ne_none.mp write)
  · exact x.fillWriter_of_entry empty (list ▸ takeEntry_of_oldest e rest taken waiting)
  · rw [x.fillWriter_of_all_taken empty taken, x.takeStatus_of_pending pending]

end Sys2Proof.Machine
end

section
/-! PROOFS. The machine as a whole (chapter 0): what a step does with the queue, every command's next state, and the events that
come without their occasion; and the slot codec (12.4). -/

namespace Sys2Proof.Machine

/-- Settles O1: both arms of the step are what they are by definition. -/
theorem stepTakesTheFrontCommand : Obligations.StepTakesTheFrontCommand :=
  ⟨fun _ _ _ => rfl, fun _ => rfl⟩

/-- Settles O58, by the length of a slot and the reading back of each kind of command. -/
theorem slotCodecReadsBack : Obligations.SlotCodecReadsBack :=
  fun c form => ⟨encodeSlot_length c form, decodeSlot_encodeSlot c form⟩

/-! ## Every command's next state -/

/-- RESET, its release and a tick act on the part by themselves; every other command is an event. -/
theorem exec_completes (c : Instr) :
    ∃ f : Chip → Chip, ∀ s : State, exec c s = .next { chip := f s.chip, pending := s.pending } := by
  by_cases reset : c = .reset
  · exact ⟨Chip.assertReset, fun s => by rw [reset]; rfl⟩
  by_cases release : ∃ straps, c = .resetRelease straps
  · obtain ⟨straps, rfl⟩ := release
    exact ⟨fun x => x.releaseReset straps, fun _ => rfl⟩
  by_cases tick : c = .timeBaseTick
  · exact ⟨Chip.tick, fun s => by rw [tick]; rfl⟩
  obtain ⟨f, _, _, event⟩ := exec_event c reset (fun straps is => release ⟨straps, is⟩) tick
  exact ⟨fun x => x.event f, event⟩

/-! ## Timers that are not due (log entry 1) -/

theorem Chip.ranOut_iff (x : Chip) (timer : Option Nat) : x.ranOut timer = true ↔ ∃ t, timer = some t ∧ t ≤ x.now := by
  cases timer <;> simp [Chip.ranOut]

/-- A timer that counts only under a test. -/
theorem Chip.and_ranOut_iff (x : Chip) {p : Bool} {P : Prop} (test : p = true ↔ P) (timer : Option Nat) :
    (p && x.ranOut timer) = true ↔ ∃ t, P ∧ timer = some t ∧ t ≤ x.now := by
  rw [Bool.and_eq_true, test, x.ranOut_iff, exists_and_left]

theorem Chip.holdExpired_idle (x : Chip) (idle : ¬ ∃ t, x.sgt.holdTimer = some t ∧ t ≤ x.now) : x.holdExpired = x :=
  if_neg (mt (x.ranOut_iff _).mp idle)

theorem Chip.pollTag_idle (x : Chip) (k : Channel) (idle : ¬ ∃ t, (x.ink.get k).pollTimer = some t ∧ t ≤ x.now) :
    x.pollTag k = x := by
  unfold Chip.pollTag
  split
  · rfl
  · next t set => exact if_neg fun due => idle ⟨t, set, due⟩

theorem Chip.pollPump_idle (x : Chip) (k : Channel) (idle : ¬ ∃ t, (x.refill k).pollAt = some t ∧ t ≤ x.now) :
    x.pollPump k = x := by
  unfold Chip.pollPump
  split
  · rfl
  · next t set => exact if_neg fun due => idle ⟨t, set, due⟩

theorem Chip.pumpTimeout_idle (x : Chip) (k : Channel)
    (idle : ¬ ∃ t, (x.account k).refillState = .pumping ∧ (x.refill k).pumpDeadline = some t ∧ t ≤ x.now) :
    x.pumpTimeout k = x :=
  if_neg (mt (x.and_ranOut_iff beq_iff_eq _).mp idle)

theorem Chip.stopTimeout_idle (x : Chip) (k : Channel)
    (idle : ¬ ∃ t, (x.account k).refillState = .stopping ∧ (x.refill k).stopDeadline = some t ∧ t ≤ x.now) :
    x.stopTimeout k = x :=
  if_neg (mt (x.and_ranOut_iff beq_iff_eq _).mp idle)

theorem Chip.pollStation_idle (x : Chip)
    (idle : ¬ ∃ t, x.svc.cycle.phase = .polling t ∧ t ≤ x.now ∧ x.svc.cycle.state ≠ .abandoning) : x.pollStation = x := by
  cases phase : x.svc.cycle.phase with
  | polling t =>
    have stays : ¬ (decide (t ≤ x.now) && x.svc.cycle.state != .abandoning) = true := by
      rw [Bool.and_eq_true, decide_eq_true_iff, bne_iff_ne]
      exact fun polls => idle ⟨t, phase, polls⟩
    simp only [Chip.pollStation, phase, if_neg stays]
  | none | reserving | ordered | paging _ | waiting _ => simp only [Chip.pollStation, phase]

theorem Chip.stepTimeout_idle (x : Chip)
    (idle : ¬ ∃ t, x.svc.cycle.state.busy = true ∧ x.svc.cycle.stepDeadline = some t ∧ t ≤ x.now) : x.stepTimeout = x :=
  if_neg (mt (x.and_ranOut_iff Iff.rfl _).mp idle)

theorem Chip.waitElapsed_idle (x : Chip) (idle : ¬ ∃ t, x.svc.cycle.phase = .waiting t ∧ t ≤ x.now) :
    x.waitElapsed = x := by
  cases phase : x.svc.cycle.phase with
  | waiting t =>
    have early : ¬ t ≤ x.now := fun due => idle ⟨t, phase, due⟩
    simp only [Chip.waitElapsed, phase, if_neg early]
  | none | reserving | ordered | paging _ | polling _ => simp only [Chip.waitElapsed, phase]

theorem Chip.reservationTimeout_idle (x : Chip)
    (idle : ¬ ∃ t, x.svc.cycle.phase = .reserving ∧ x.svc.cycle.reservationDeadline = some t ∧ t ≤ x.now) :
    x.reservationTimeout = x :=
  if_neg (mt (x.and_ranOut_iff beq_iff_eq _).mp idle)

theorem Chip.pollFeed_idle (x : Chip) (idle : ¬ ∃ o t, x.fdc.order = some o ∧ o.pollAt = some t ∧ t ≤ x.now) :
    x.pollFeed = x := by
  unfold Chip.pollFeed
  split
  · rfl
  · next o order =>
    split
    · rfl
    · next t set => exact if_neg fun due => idle ⟨o, t, order, set, due⟩

theorem Chip.orderTimeout_idle (x : Chip) (idle : ¬ ∃ o, x.fdc.order = some o ∧ o.deadline ≤ x.now) :
    x.orderTimeout = x := by
  unfold Chip.orderTimeout
  split
  · rfl
  · next o order => exact if_neg fun due => idle ⟨o, order, due⟩

theorem Chip.dryTimeout_idle (x : Chip)
    (idle : ¬ ∃ t, x.fdc.feed = .drying ∧ x.fdc.dryTimer = some t ∧ t ≤ x.now) : x.dryTimeout = x :=
  if_neg (mt (x.and_ranOut_iff beq_iff_eq _).mp idle)

/-! ## Frames that the link does not carry, and answers to no read (log entry 1) -/

theorem Chip.lineCheckFailed_idle (x : Chip)
    (idle : ¬ ∃ o since, x.flm.link = .carrying o since ∧ since + 20000 ≤ x.now) : x.lineCheckFailed = x := by
  unfold Chip.lineCheckFailed
  split
  · next o since link => exact if_neg fun due => idle ⟨o, since, link, due⟩
  · rfl
  · rfl

theorem Chip.busyHoldFailed_idle (x : Chip)
    (idle : ¬ ∃ o since, x.flm.link = .carrying o since ∧
      since + min (Config.heldAtLineCheck x.flm.frames) 20000 + 50 + 20000 ≤ x.now) : x.busyHoldFailed = x := by
  unfold Chip.busyHoldFailed
  split
  · next o since link => exact if_neg fun due => idle ⟨o, since, link, due⟩
  · rfl
  · rfl

theorem Chip.frameEnd_idle (x : Chip) (kind : LinkOrder → Bool) (f : FrameEnd)
    (idle : ¬ ∃ o since, x.flm.link = .carrying o since ∧ kind o = true) : x.frameEnd kind f = x := by
  unfold Chip.frameEnd
  split
  · next o since link => exact if_neg fun own => idle ⟨o, since, link, own⟩
  · rfl
  · rfl

theorem Chip.memoryAnswer_idle (x : Chip) (a : MemoryAnswer) (idle : x.psw.outstanding = []) : x.memoryAnswer a = x := by
  simp only [Chip.memoryAnswer, idle]

/-- Outside RESET an event whose own effect is nothing leaves the part to the end of an event alone. -/
theorem State.event_idle (s : State) {f : Chip → Chip} (out : s.chip.inReset = false) (idle : f s.chip = s.chip) :
    (.next { s with chip := s.chip.event f } : Host.Outcome State Fault Refusal) = .next (s.after s.chip) :=
  s.event_next f out idle

/-- Settles O2: the next state of every command, and each event without its occasion by the lemma of its effect. -/
theorem everyCommandCompletes : Obligations.EveryCommandCompletes := by
  refine ⟨exec_completes, fun s out => ?_⟩
  have foreign (kind : LinkOrder → Bool) (f : FrameEnd) idle :=
    s.event_idle (f := fun x => x.frameEnd kind f) out (s.chip.frameEnd_idle kind f idle)
  exact ⟨fun idle => s.event_idle out (s.chip.holdExpired_idle idle),
    fun k idle => s.event_idle out (s.chip.pollTag_idle k idle),
    fun k idle => s.event_idle out (s.chip.pollPump_idle k idle),
    fun k idle => s.event_idle out (s.chip.pumpTimeout_idle k idle),
    fun k idle => s.event_idle out (s.chip.stopTimeout_idle k idle),
    fun idle => s.event_idle out (s.chip.pollStation_idle idle),
    fun idle => s.event_idle out (s.chip.stepTimeout_idle idle),
    fun idle => s.event_idle out (s.chip.waitElapsed_idle idle),
    fun idle => s.event_idle out (s.chip.reservationTimeout_idle idle),
    fun idle => s.event_idle out (s.chip.pollFeed_idle idle),
    fun idle => s.event_idle out (s.chip.orderTimeout_idle idle),
    fun idle => s.event_idle out (s.chip.dryTimeout_idle idle),
    fun idle => s.event_idle out (s.chip.lineCheckFailed_idle idle),
    fun idle => s.event_idle out (s.chip.busyHoldFailed_idle idle),
    fun idle a => s.event_idle out (s.chip.memoryAnswer_idle a idle),
    fun f => ⟨foreign LinkOrder.isReadTag f, foreign LinkOrder.isDebit f, foreign LinkOrder.isLevel f,
      foreign LinkOrder.isTransfer f, foreign LinkOrder.isStop f, foreign LinkOrder.isPumpStatus f,
      foreign LinkOrder.isStation f, foreign isStationStatus f, foreign LinkOrder.isCheckPage f,
      foreign LinkOrder.isFeed f, foreign LinkOrder.isFeedPoll f, foreign LinkOrder.isFeedCheck f⟩⟩

end Sys2Proof.Machine
end

section
/-! PROOFS. The machine as a whole (chapter 0): what RESET holds, the values it gives, and the limits that every step keeps. -/

namespace Sys2Proof.Machine

/-! ## The limits that every step keeps -/

/-- The invariant of the part in the three pieces that the laws about events speak of. -/
theorem Chip.invariant_iff (x : Chip) :
    x.invariant ↔ x.Limits ∧ (x.due = .nothing ∧ x.flm.link ≠ .ended) ∧ Books Good x := by
  constructor
  · rintro ⟨ports, ⟨due, unreserved, link⟩, ordered, queue, sheets, remainders, lists⟩
    exact ⟨⟨ports, unreserved, ordered, queue, sheets, remainders⟩, ⟨due, link⟩, Chip.good_of_listsAgree lists⟩
  · rintro ⟨l, ⟨due, link⟩, lists⟩
    exact ⟨l.ports, ⟨due, l.unreserved, link⟩, l.ordered, l.link, l.sheets, l.remainders, Chip.listsAgree_of_good lists⟩

theorem Chip.reset_limits (straps : BitVec 3) : (Chip.reset straps).Limits where
  ports := ⟨Nat.zero_le _, Nat.zero_le _⟩
  unreserved := rfl
  ordered := Nat.zero_le _
  link := Nat.zero_le _
  sheets := Nat.zero_le _
  remainders k := by simp [Chip.account, Chip.reset, InkChannel.reset, Account.reset]

theorem Chip.reset_invariant (straps : BitVec 3) : (Chip.reset straps).invariant :=
  (Chip.invariant_iff _).mpr ⟨Chip.reset_limits straps, ⟨rfl, by simp [Chip.reset]⟩, Chip.reset_books straps⟩

/-- The invariant does not look at the RESET input and at what has been sent. -/
theorem Chip.invariant_withReset {x : Chip} (h : x.invariant) (b : Bool) (sent : List Emission) :
    ({ x with inReset := b, sent := sent } : Chip).invariant := h

/-- The filling of the writer's forward queue changes neither the tests called for nor the link. -/
theorem Chip.fillWriter_between (x : Chip) : x.fillWriter.due = x.due ∧ x.fillWriter.flm = x.flm := by
  obtain ⟨w, o, l, c, e⟩ := x.fillWriter_eq
  rw [e]
  exact ⟨rfl, rfl⟩

theorem Chip.fillWriter_invariant {x : Chip} (h : x.invariant) : x.fillWriter.invariant := by
  obtain ⟨limits, between, lists⟩ := x.invariant_iff.mp h
  obtain ⟨due, link⟩ := x.fillWriter_between
  refine (Chip.invariant_iff _).mpr ⟨Chip.fillWriter_limits limits, ?_, lists.fillWriter⟩
  rw [due, link]
  exact between

theorem Chip.releaseReset_invariant {x : Chip} (h : x.invariant) (straps : BitVec 3) : (x.releaseReset straps).invariant := by
  unfold Chip.releaseReset
  split
  · exact Chip.fillWriter_invariant (Chip.invariant_withReset (Chip.reset_invariant straps) false x.sent)
  · exact h

theorem Chip.tick_invariant {x : Chip} (h : x.invariant) : x.tick.invariant := by
  unfold Chip.tick
  split
  · exact h
  · exact Chip.fillWriter_invariant h

/-- An event whose effect is a move that keeps the agreement of the lists keeps the invariant. -/
theorem Chip.event_invariant {x : Chip} {f : Chip → Chip} (move : ∀ y, Move y (f y)) (books : ∀ y, Books Good y → Books Good (f y))
    (h : x.invariant) : (x.event f).invariant := by
  obtain ⟨limits, between, lists⟩ := x.invariant_iff.mp h
  exact (Chip.invariant_iff _).mpr
    ⟨(x.event_move f move).limits limits, x.event_between f between, lists.event f (books x lists)⟩

/-- Every command keeps the invariant: RESET, its release and a tick each in its own way, every other one as an event. -/
theorem exec_invariant (c : Instr) {s t : State} (h : s.chip.invariant) (e : exec c s = .next t) : t.chip.invariant := by
  by_cases reset : c = .reset
  · subst reset
    cases e
    exact Chip.invariant_withReset (Chip.reset_invariant 0#3) true (s.chip.sent ++ s.chip.flm.link.cut)
  by_cases release : ∃ straps, c = .resetRelease straps
  · obtain ⟨straps, rfl⟩ := release
    cases e
    exact Chip.releaseReset_invariant h straps
  by_cases tick : c = .timeBaseTick
  · subst tick
    cases e
    exact Chip.tick_invariant h
  obtain ⟨f, move, books, next⟩ := exec_event c reset (fun straps g => release ⟨straps, g⟩) tick
  rw [next] at e
  cases e
  exact Chip.event_invariant move books h

/-- Settles O59: the command at the front of the queue keeps the invariant, and an empty queue changes nothing. -/
theorem stepsKeepTheLimits : Obligations.StepsKeepTheLimits := by
  intro s t h e
  obtain ⟨chip, pending⟩ := s
  match pending with
  | [] =>
    cases e
    exact h
  | c :: rest => exact exec_invariant c (s := ⟨chip, rest⟩) h e

/-- Settles O60: nothing is queued, bound, held or reserved after RESET. -/
theorem limitsHoldAtReset : Obligations.LimitsHoldAtReset :=
  ⟨Chip.reset_invariant 0#3, Chip.reset_invariant⟩

/-! ## RESET -/

/-- While RESET is asserted every command but RESET and its release leaves the state alone (R158). -/
theorem exec_inReset (c : Instr) (s : State) (held : s.chip.inReset = true) (reset : c ≠ .reset)
    (release : ∀ straps, c ≠ .resetRelease straps) : exec c s = .next s := by
  by_cases tick : c = .timeBaseTick
  · subst tick
    show Host.Outcome.next ({ s with chip := s.chip.tick } : State) = _
    simp [Chip.tick, held]
  · obtain ⟨f, -, -, next⟩ := exec_event c reset release tick
    rw [next, s.event_inReset f held]

/-- The lines of the link are driven in the state after RESET, and what has been sent and the RESET input do not matter. -/
theorem Chip.lineDrive_of_free {x : Chip} (free : x.flm.link = .free) :
    x.lineDrive = some { flckHigh := true, pullsFlda := false } := by
  simp [Chip.lineDrive, free]

theorem Chip.releaseReset_released (x : Chip) (straps : BitVec 3) (released : x.inReset = false) :
    x.releaseReset straps = x := by
  simp [Chip.releaseReset, released]

/-- The release takes the part to its values after RESET and takes the first pending status record for the writer (R168). -/
theorem Chip.releaseReset_asserted (x : Chip) (straps : BitVec 3) (asserted : x.inReset = true) :
    x.releaseReset straps =
      let y : Chip := { Chip.reset straps with sent := x.sent }
      { y with
        psw := { y.psw with writer := some { body := .status 0 (statusBytes y 0 1), fence := 0 } }
        rpw := { y.rpw with
          statusSet := [1, 2, 3, 4, 5, 6, 7, 8, 9, 10, 11, 12]
          updateCounts := y.rpw.updateCounts.set 0 1 } } := by
  unfold Chip.releaseReset
  rw [if_pos asserted, Chip.fillWriter_of_all_taken _ rfl (by simp [Chip.reset]), Chip.takeStatus_of_pending _ rfl]
  simp [Chip.reset, Chip.fence]

theorem exec_resetRelease (s : State) (straps : BitVec 3) :
    exec (.resetRelease straps) s = .next { s with chip := s.chip.releaseReset straps } := rfl

theorem Chip.releaseReset_link (x : Chip) (straps : BitVec 3) (asserted : x.inReset = true) :
    (x.releaseReset straps).flm.link = .free := by
  rw [x.releaseReset_asserted straps asserted]
  rfl

/-- Settles O3, by the kinds of command: RESET and its release by their own values, every other one as an event or a tick. -/
theorem resetHoldsThePart : Obligations.ResetHoldsThePart := by
  refine ⟨fun c s held reset release => exec_inReset c s held reset release, fun s => ?_, ?_, ?_, ?_⟩
  · show Host.Outcome.next ({ s with chip := s.chip.assertReset } : State) = _
    unfold Chip.assertReset LinkState.cut
    cases s.chip.flm.link <;> rfl
  · rintro c s t (rfl | ⟨asserted, straps, rfl⟩) e
    · cases e
      exact Chip.lineDrive_of_free rfl
    · cases e
      exact Chip.lineDrive_of_free (s.chip.releaseReset_link straps asserted)
  · intro s straps released
    rw [exec_resetRelease, s.chip.releaseReset_released straps released]
  · intro s straps asserted
    rw [exec_resetRelease, s.chip.releaseReset_asserted straps asserted]

/-- Settles O4, block by block: the values are those of the definition of the part after RESET. -/
theorem resetValues : Obligations.ResetValues := by
  intro straps
  have get (k : Channel) : (Chip.reset straps).ink.get k = .reset := Six.get_all _ k
  refine ⟨⟨rfl, PortSwitch.controlBase_eq _, rfl, rfl, rfl, rfl, rfl, rfl, rfl, rfl, rfl, rfl, rfl⟩,
    ⟨rfl, rfl, fun n => ?slots, fun n => ?shadows⟩, ⟨rfl, rfl, rfl, rfl, rfl, rfl, rfl⟩, fun k => ?ink, fun k => ?nozzles,
    ⟨rfl, rfl, rfl, rfl⟩, fun p => ?programs, ⟨rfl, rfl, rfl, rfl, rfl, rfl, rfl⟩, fun n => ?rolls,
    ⟨rfl, rfl, rfl, rfl, rfl, rfl, rfl, rfl, rfl⟩, ⟨rfl, rfl, rfl, ?rooms⟩,
    ⟨rfl, rfl, fun n => ?counts, rfl, rfl, rfl, rfl, rfl, rfl, rfl, rfl⟩⟩
  case slots => simp [Chip.reset, Vector.get_replicate]
  case shadows => simp [Chip.reset, Intake.shadow]
  case ink =>
    unfold Chip.account Chip.cartridge Chip.owed Chip.refill
    rw [get k]
    exact ⟨rfl, rfl, rfl, rfl, rfl⟩
  case nozzles => exact ⟨Six.get_all _ k, Six.get_all _ k, Six.get_all _ k⟩
  case programs => simp [Chip.reset, Chip.program, Counters.reset]
  case rolls => cases n <;> rfl
  case rooms => simp [Chip.reset, Room.reset]
  case counts => simp [Chip.reset]

end Sys2Proof.Machine
end

section
/-! PROOFS. The ink accounts (chapter 3): level status, available ink, reservations, consumption, the start of a refill, and SET
CHANNEL. -/

namespace Sys2Proof.Machine

/-! ## Conditions of an account -/

theorem Account.grants_iff (a : Account) (amount : Nat) : a.grants amount = true ↔ (amount ≠ 0 →
    a.inkType ≠ 0 ∧ a.levelState = .known ∧ a.holder = .none ∧ amount ≤ a.available) := by
  simp [Account.grants, Account.used, Account.isKnown, ← or_iff_not_imp_left, and_assoc]

theorem Account.short_iff (a : Account) (amount : Nat) : a.short amount = true ↔
    a.inkType ≠ 0 ∧ a.levelState = .known ∧ a.holder = .none ∧ a.available < amount := by
  simp [Account.short, Account.used, Account.isKnown, and_assoc]

theorem InkChannel.mayRefill_iff (i : InkChannel) (ignoreMark : Bool) : i.mayRefill ignoreMark = true ↔
    i.account.inkType ≠ 0 ∧ i.account.levelState = .known ∧ (ignoreMark = true ∨ i.account.level < i.account.refillMark) ∧
      i.account.refillState = .idle ∧ i.cartridge.state = .active ∧ 500 ≤ i.transferVolume := by
  simp only [InkChannel.mayRefill, Account.used, Account.isKnown, Bool.and_eq_true, Bool.or_eq_true, decide_eq_true_eq,
    beq_iff_eq, bne_iff_ne, and_assoc]
  rfl

theorem mem_channels (k : Channel) : k ∈ channels := by
  match k with
  | 0 | 1 | 2 | 3 | 4 | 5 => decide

theorem channels_nodup : channels.Nodup := by decide

/-! ## What the records and the orders leave alone -/

@[simp] theorem Chip.ink_journal (x : Chip) (r : JournalRecord) : (x.journal r).ink = x.ink := by
  obtain ⟨_, _, _, _, _, e⟩ := x.journal_rpw r
  rw [e]
  rfl

@[simp] theorem Chip.sgt_journal (x : Chip) (r : JournalRecord) : (x.journal r).sgt = x.sgt := by
  obtain ⟨_, _, _, _, _, e⟩ := x.journal_rpw r
  rw [e]
  rfl

@[simp] theorem Chip.svc_journal (x : Chip) (r : JournalRecord) : (x.journal r).svc = x.svc := by
  obtain ⟨_, _, _, _, _, e⟩ := x.journal_rpw r
  rw [e]
  rfl

@[simp] theorem Chip.account_journal (x : Chip) (r : JournalRecord) (j : Channel) : (x.journal r).account j = x.account j := by
  simp [Chip.account]

@[simp] theorem Chip.account_offer (x : Chip) (o : LinkOrder) (j : Channel) : (x.offer o).account j = x.account j := rfl

@[simp] theorem Chip.account_noticeInk (x : Chip) (j : Channel) : x.noticeInk.account j = x.account j := rfl

@[simp] theorem Chip.account_callAdmission (x : Chip) (j : Channel) : x.callAdmission.account j = x.account j := rfl

theorem Chip.account_onAccount (x : Chip) (j k : Channel) (f : Account → Account) :
    (x.onAccount k f).account j = if j = k then f (x.account k) else x.account j := by
  by_cases same : j = k
  · subst same
    simp
  · simp [same, Chip.account_onAccount_other]

@[simp] theorem Chip.account_setRemaining (x : Chip) (h : Holder) (k : Channel) (amount : Nat) (j : Channel) :
    (x.setRemaining h k amount).account j = x.account j := by
  cases h <;> rfl

/-! ## Level status and available ink (R47, R49) -/

theorem Account.levelStatus_of_unused (a : Account) (unused : a.inkType = 0) : a.levelStatus = .unused := by
  simp [Account.levelStatus, Account.used, unused]

theorem Account.levelStatus_of_unknown (a : Account) (used : a.inkType ≠ 0) (unknown : a.levelState = .unknown) :
    a.levelStatus = .unknown := by
  simp [Account.levelStatus, Account.used, Account.isKnown, used, unknown]

theorem Account.levelStatus_of_known (a : Account) (used : a.inkType ≠ 0) (known : a.levelState = .known) :
    a.levelStatus = if a.level ≤ a.floor then .dry else if a.level < a.lowMark then .low else .ready := by
  simp [Account.levelStatus, Account.used, Account.isKnown, used, known]

theorem LevelStatus.reported_iff (s : LevelStatus) : s.reported = true ↔ ¬ (s = .unused ∨ s = .unknown) := by
  cases s <;> simp [LevelStatus.reported]

theorem Chip.journalLevelStatus_eq (x : Chip) (k : Channel) (old : LevelStatus) :
    x.journalLevelStatus k old =
      let new := (x.account k).levelStatus
      if old = new ∨ old = .unused ∨ old = .unknown ∨ new = .unused ∨ new = .unknown then x
      else x.journal (.inkLevelStatus k old new (x.account k).level) := by
  unfold Chip.journalLevelStatus
  dsimp only
  rw [← ite_not]
  refine if_congr ?_ rfl rfl
  simp only [Bool.and_eq_true, LevelStatus.reported_iff, bne_iff_ne, ne_eq]
  tauto

/-- Settles O21, line by line of the table. -/
theorem levelStatusByTheTable : Obligations.LevelStatusByTheTable := by
  refine ⟨fun a => ⟨a.levelStatus_of_unused, a.levelStatus_of_unknown, fun used known dry => ?_,
    fun used known wet low => ?_, fun used known wet enough => ?_⟩, Chip.journalLevelStatus_eq⟩
  all_goals rw [a.levelStatus_of_known used known]
  · rw [if_pos dry]
  · rw [if_neg (Nat.not_le.mpr wet), if_pos low]
  · rw [if_neg (Nat.not_le.mpr wet), if_neg (Nat.not_lt.mpr enough)]

theorem Account.available_of_known (a : Account) (used : a.inkType ≠ 0) (known : a.levelState = .known) :
    a.available = a.level - a.floor - a.reserved := by
  simp [Account.available, Account.used, Account.isKnown, used, known]

theorem Account.available_of_not (a : Account) (none : a.inkType = 0 ∨ a.levelState = .unknown) : a.available = 0 := by
  rcases none with unused | unknown
  · simp [Account.available, Account.used, unused]
  · simp [Account.available, Account.isKnown, unknown]

theorem leBytes_length (width v : Nat) : (leBytes width v).length = width := by
  simp [leBytes]

theorem byte1_length (v : Nat) : (byte1 v).length = 1 := leBytes_length 1 v

/-- The available ink stands in bytes 20 to 23 of a CHANNEL record's fields (R49, 12.1). -/
theorem channelFields_available (x : Chip) (k : Channel) :
    ((channelFields x k).drop 20).take 4 = leBytes 4 (x.account k).available := by
  unfold channelFields
  dsimp only
  simp only [List.append_assoc, List.drop_append, byte1_length, leBytes_length, zeros_length]
  simp [List.drop_of_length_le, byte1_length, leBytes_length, zeros_length]

/-- Settles O22, clause by clause; in the CHANNEL record the figure stands behind 20 bytes of other fields. -/
theorem availableInkOfAChannel : Obligations.AvailableInkOfAChannel := by
  refine ⟨fun a => ⟨fun used known => ?_, a.available_of_not⟩, channelFields_available, fun a amount asked short => ?_,
    fun i => ?_⟩
  · rw [a.available_of_known used known]
    omega
  · refine Bool.eq_false_iff.mpr fun granted => ?_
    obtain ⟨-, -, -, enough⟩ := (a.grants_iff amount).mp granted asked
    omega
  · simp [InkChannel.findable]

/-! ## The start of a refill (R57) -/

/-- The channel's account with its refill QUEUED for a volume (R57). -/
def Account.withRefill (a : Account) (volume : Nat) : Account :=
  { a with refillState := .queued, transferRequested := volume }

theorem Chip.account_startRefill (x : Chip) (j k : Channel) (ignoreMark : Bool) :
    (x.startRefill k ignoreMark).account j =
      if j = k ∧ (x.ink.get k).mayRefill ignoreMark = true then (x.account k).withRefill (x.ink.get k).transferVolume
      else x.account j := by
  unfold Chip.startRefill
  dsimp only
  split
  · next may => simp [Chip.account_onAccount, may, Account.withRefill]
  · next may => simp [may]

theorem Chip.startRefill_sgt (x : Chip) (k : Channel) (ignoreMark : Bool) : (x.startRefill k ignoreMark).sgt = x.sgt := by
  unfold Chip.startRefill
  dsimp only
  split <;> rfl

theorem Chip.startRefill_svc (x : Chip) (k : Channel) (ignoreMark : Bool) : (x.startRefill k ignoreMark).svc = x.svc := by
  unfold Chip.startRefill
  dsimp only
  split <;> rfl

/-- Settles O25: the conditions of the definition as propositions. -/
theorem refillStartsByItsConditions : Obligations.RefillStartsByItsConditions := by
  intro x k ignoreMark
  unfold Chip.startRefill
  dsimp only
  exact if_congr ((x.ink.get k).mayRefill_iff ignoreMark) rfl rfl

/-! ## A holder's remaining reservation (R51) -/

/-- A remaining reservation is kept by the live swath's record or by the cycle, and by nothing else. -/
theorem Chip.remainingOf_congr {x y : Chip} (gate : y.sgt = x.sgt) (service : y.svc = x.svc) (h : Holder) (k : Channel) :
    y.remainingOf h k = x.remainingOf h k := by
  simp only [Chip.remainingOf, Chip.liveSwath, gate, service]

/-- A change of the live swath's record that keeps its state changes the live swath. -/
theorem Chip.liveSwath_onLiveSwath (x : Chip) {f : Swath → Swath} (stays : ∀ r, (f r).state = r.state) :
    (x.onLiveSwath f).liveSwath = x.liveSwath.map f := by
  have live (r : Swath) : (if r.live then f r else r).live = r.live := by
    split
    · exact congrArg (· != .bound) (stays r)
    · rfl
  unfold Chip.liveSwath Chip.onLiveSwath
  rw [Chip.onSgt_sgt, List.find?_map, show Swath.live ∘ (fun r => if r.live then f r else r) = Swath.live from funext live]
  cases found : x.sgt.swaths.find? Swath.live with
  | none => rfl
  | some r => simp [List.find?_some found]

theorem Chip.remainingOf_setRemaining_other (x : Chip) (h : Holder) {j k : Channel} (other : j ≠ k) (amount : Nat) :
    (x.setRemaining h k amount).remainingOf h j = x.remainingOf h j := by
  cases h with
  | none => rfl
  | prime => exact Six.get_set_other _ _ _ _ other
  | swath =>
    simp only [Chip.setRemaining, Chip.remainingOf,
      x.liveSwath_onLiveSwath (f := fun r => { r with reservation := r.reservation.set k amount }) fun _ => rfl]
    cases x.liveSwath with
    | none => rfl
    | some r => exact Six.get_set_other _ _ _ _ other

/-- An amount not above what the holder holds is what it then holds; a holder that keeps no books holds 0. -/
theorem Chip.remainingOf_setRemaining_same (x : Chip) (h : Holder) (k : Channel) {amount : Nat}
    (within : amount ≤ x.remainingOf h k) : (x.setRemaining h k amount).remainingOf h k = amount := by
  cases h with
  | none => exact (Nat.le_zero.mp within).symm
  | prime => exact Six.get_set_same _ _ _
  | swath =>
    simp only [Chip.remainingOf] at within
    simp only [Chip.setRemaining, Chip.remainingOf,
      x.liveSwath_onLiveSwath (f := fun r => { r with reservation := r.reservation.set k amount }) fun _ => rfl]
    cases live : x.liveSwath with
    | none => exact (Nat.le_zero.mp (by simpa [live] using within)).symm
    | some r => exact Six.get_set_same _ _ _

/-! ## Reservations (R50 to R53, R56) -/

/-- A fold over distinct entries, of which only `k`'s step changes a view: the view is unchanged when `k`'s turn comes, and what
the step makes of it stays. -/
theorem foldl_turn {α β γ : Type} (view : β → γ) {f : β → α → β} {k : α} (other : ∀ y j, j ≠ k → view (f y j) = view y)
    {l : List α} (distinct : l.Nodup) (mem : k ∈ l) (y : β) :
    ∃ (y' : β) (after : List α), view y' = view y ∧ l.foldl f y = after.foldl f (f y' k) ∧
      view (l.foldl f y) = view (f y' k) := by
  have passes (l : List α) (absent : k ∉ l) (y : β) : view (l.foldl f y) = view y := by
    induction l generalizing y with
    | nil => rfl
    | cons a l ih =>
      obtain ⟨ne, absent⟩ : k ≠ a ∧ k ∉ l := by simpa using absent
      rw [List.foldl_cons, ih absent, other y a (Ne.symm ne)]
  obtain ⟨before, after, rfl⟩ := List.append_of_mem mem
  have turn : (before ++ k :: after).foldl f y = after.foldl f (f (before.foldl f y) k) := by
    rw [List.foldl_append, List.foldl_cons]
  obtain ⟨-, rest, disjoint⟩ := List.nodup_append.mp distinct
  refine ⟨before.foldl f y, after, passes before (fun h => disjoint k h k List.mem_cons_self rfl) y, turn, ?_⟩
  rw [turn, passes after (List.nodup_cons.mp rest).1]

/-- What every step of a fold keeps holds at its end. -/
theorem foldl_keeps {α β : Type} (p : β → Prop) {f : β → α → β} (keeps : ∀ y a, p y → p (f y a)) (l : List α) {y : β}
    (start : p y) : p (l.foldl f y) := by
  induction l generalizing y with
  | nil => exact start
  | cons a l ih => exact ih (keeps y a start)

theorem ReportWriter.mem_mark (w : ReportWriter) (n m : Fin 13) : m ∈ (w.mark n).statusSet ↔ m = n ∨ m ∈ w.statusSet := by
  unfold ReportWriter.mark
  split
  · next known =>
    have known : n ∈ w.statusSet := by simpa using known
    exact ⟨Or.inr, fun h => h.elim (fun e => e ▸ known) id⟩
  · simp [or_comm]

theorem Chip.mem_markStatus (x : Chip) (n m : Fin 13) : m ∈ (x.markStatus n).rpw.statusSet ↔ m = n ∨ m ∈ x.rpw.statusSet :=
  x.rpw.mem_mark n m

theorem Chip.setRemaining_rpw (x : Chip) (h : Holder) (k : Channel) (amount : Nat) :
    (x.setRemaining h k amount).rpw = x.rpw := by
  cases h <;> rfl

/-- A granted request in one channel (R51). -/
def Chip.reserveChannel (x : Chip) (h : Holder) (amounts : Six Nat) (k : Channel) : Chip :=
  if amounts.get k = 0 then x
  else (x.onAccount k fun a => { a with reserved := a.reserved + amounts.get k, holder := h }).markStatus (channelStatus k)

theorem Chip.reserve_eq (x : Chip) (h : Holder) (amounts : Six Nat) :
    x.reserve h amounts = (channels.foldl (fun y k => y.reserveChannel h amounts k) x).noticeInk := rfl

theorem Chip.account_reserveChannel (x : Chip) (h : Holder) (amounts : Six Nat) (j k : Channel) :
    (x.reserveChannel h amounts k).account j =
      if j = k ∧ amounts.get k ≠ 0 then
        { x.account k with reserved := (x.account k).reserved + amounts.get k, holder := h }
      else x.account j := by
  unfold Chip.reserveChannel
  split
  · next zero => simp [zero]
  · next asked => simp [Chip.account_onAccount, asked]

theorem Chip.account_reserve (x : Chip) (h : Holder) (amounts : Six Nat) (k : Channel) :
    (x.reserve h amounts).account k =
      if amounts.get k = 0 then x.account k
      else { x.account k with reserved := (x.account k).reserved + amounts.get k, holder := h } := by
  obtain ⟨y, after, before, -, turn⟩ := foldl_turn (fun y : Chip => y.account k) (f := fun y k => y.reserveChannel h amounts k)
    (fun y j other => by simp [Chip.account_reserveChannel, Ne.symm other]) channels_nodup (mem_channels k) x
  rw [Chip.reserve_eq, Chip.account_noticeInk]
  rw [turn, Chip.account_reserveChannel, before]
  simp [ite_not]

theorem Chip.reserve_due (x : Chip) (h : Holder) (amounts : Six Nat) :
    (x.reserve h amounts).due = { x.due with arming := true, prime := true } := by
  have due : (channels.foldl (fun y k => y.reserveChannel h amounts k) x).due = x.due :=
    foldl_view Chip.due _ (fun y k => by unfold Chip.reserveChannel; split <;> rfl) channels x
  rw [Chip.reserve_eq, Chip.noticeInk_due, due]

theorem Chip.reserve_marks (x : Chip) (h : Holder) (amounts : Six Nat) (k : Channel) (asked : amounts.get k ≠ 0) :
    channelStatus k ∈ (x.reserve h amounts).rpw.statusSet := by
  obtain ⟨y, after, -, turn, -⟩ := foldl_turn (fun _ : Chip => ()) (f := fun y k => y.reserveChannel h amounts k)
    (fun _ _ _ => rfl) channels_nodup (mem_channels k) x
  rw [Chip.reserve_eq, Chip.noticeInk_rpw, turn]
  refine foldl_keeps (fun y : Chip => channelStatus k ∈ y.rpw.statusSet) (fun y j marked => ?_) after ?_
  · unfold Chip.reserveChannel
    split
    · exact marked
    · exact (Chip.mem_markStatus ..).mpr (.inr marked)
  · unfold Chip.reserveChannel
    rw [if_neg asked]
    exact (Chip.mem_markStatus ..).mpr (.inl rfl)

theorem Chip.canReserve_iff (x : Chip) (amounts : Six Nat) : x.canReserve amounts = true ↔ ∀ k, amounts.get k ≠ 0 →
    (x.account k).inkType ≠ 0 ∧ (x.account k).levelState = .known ∧ (x.account k).holder = .none ∧
      amounts.get k ≤ (x.account k).available := by
  unfold Chip.canReserve
  rw [List.all_eq_true]
  exact ⟨fun h k => ((x.account k).grants_iff _).mp (h k (mem_channels k)), fun h k _ => ((x.account k).grants_iff _).mpr (h k)⟩

theorem Chip.refuseReservation_eq (x : Chip) (amounts : Six Nat) :
    x.refuseReservation amounts = ([0, 1, 2, 3, 4, 5] : List Channel).foldl (fun y k =>
      if (x.account k).inkType ≠ 0 ∧ (x.account k).levelState = .known ∧ (x.account k).holder = .none ∧
          (x.account k).available < amounts.get k
      then y.startRefill k true else y) x := by
  unfold Chip.refuseReservation
  congr 1
  funext y k
  exact if_congr ((x.account k).short_iff _) rfl rfl

/-- A refill that starts leaves what its channel has reserved, and for whom. -/
theorem Chip.startRefill_reservation (x : Chip) (j k : Channel) (ignoreMark : Bool) :
    (((x.startRefill k ignoreMark).account j).reserved, ((x.startRefill k ignoreMark).account j).holder) =
      ((x.account j).reserved, (x.account j).holder) := by
  rw [Chip.account_startRefill]
  split
  · next starts => rw [starts.1]; rfl
  · rfl

theorem Chip.refuseReservation_reservation (x : Chip) (amounts : Six Nat) (k : Channel) :
    ((x.refuseReservation amounts).account k).reserved = (x.account k).reserved ∧
      ((x.refuseReservation amounts).account k).holder = (x.account k).holder := by
  have kept := foldl_view (fun y : Chip => ((y.account k).reserved, (y.account k).holder))
    (fun y j => if (x.account j).short (amounts.get j) then y.startRefill j true else y)
    (fun y j => by split <;> simp [y.startRefill_reservation]) channels x
  exact Prod.mk.inj kept

/-! ### Release -/

theorem Chip.releaseChannel_of_holder (x : Chip) {h : Holder} {k : Channel} (holds : (x.account k).holder = h) :
    x.releaseChannel h k =
      (((x.onAccount k fun a => { a with reserved := a.reserved - x.remainingOf h k, holder := .none }).markStatus
        (channelStatus k)).setRemaining h k 0).noticeInk.callAdmission := by
  simp [Chip.releaseChannel, holds]

theorem Chip.releaseChannel_of_other (x : Chip) {h : Holder} {k : Channel} (not : (x.account k).holder ≠ h) :
    x.releaseChannel h k = x := by
  simp [Chip.releaseChannel, not]

/-- What a release sees of a channel: its account, and what the holder still holds there. -/
def Chip.holding (x : Chip) (h : Holder) (k : Channel) : Account × Nat := (x.account k, x.remainingOf h k)

theorem Chip.holding_releaseChannel_other (x : Chip) (h : Holder) {j k : Channel} (other : j ≠ k) :
    (x.releaseChannel h j).holding h k = x.holding h k := by
  by_cases holds : (x.account j).holder = h
  · rw [x.releaseChannel_of_holder holds]
    refine Prod.ext ?_ ?_
    · simp [Chip.holding, Chip.account_onAccount, Ne.symm other]
    · exact (Chip.remainingOf_setRemaining_other _ h (Ne.symm other) 0).trans (Chip.remainingOf_congr rfl rfl h k)
  · rw [x.releaseChannel_of_other holds]

theorem Chip.holding_releaseChannel_same (x : Chip) (h : Holder) (k : Channel) :
    (x.releaseChannel h k).holding h k =
      if (x.account k).holder = h then
        ({ x.account k with reserved := (x.account k).reserved - x.remainingOf h k, holder := .none }, 0)
      else x.holding h k := by
  split
  · next holds =>
    rw [x.releaseChannel_of_holder holds]
    refine Prod.ext ?_ ?_
    · simp [Chip.holding]
    · exact Chip.remainingOf_setRemaining_same _ h k (Nat.zero_le _)
  · next not => rw [x.releaseChannel_of_other not]

/-- The turn of a channel in a release: it finds the channel as the release did, and the release leaves it as the turn did. -/
theorem Chip.release_turn (x : Chip) (h : Holder) (k : Channel) :
    ∃ (y : Chip) (after : List Channel), y.holding h k = x.holding h k ∧
      x.release h = after.foldl (fun y k => y.releaseChannel h k) (y.releaseChannel h k) ∧
      (x.release h).holding h k = (y.releaseChannel h k).holding h k :=
  foldl_turn (fun y : Chip => y.holding h k) (fun y _ other => y.holding_releaseChannel_other h other) channels_nodup
    (mem_channels k) x

theorem Chip.holding_release (x : Chip) (h : Holder) (k : Channel) :
    (x.release h).holding h k =
      if (x.account k).holder = h then
        ({ x.account k with reserved := (x.account k).reserved - x.remainingOf h k, holder := .none }, 0)
      else x.holding h k := by
  obtain ⟨y, after, before, -, turn⟩ := x.release_turn h k
  obtain ⟨account, remaining⟩ := Prod.mk.inj before
  rw [turn, y.holding_releaseChannel_same, before, account, remaining]

theorem Chip.release_marks (x : Chip) (h : Holder) (k : Channel) (holds : (x.account k).holder = h) :
    channelStatus k ∈ (x.release h).rpw.statusSet := by
  obtain ⟨y, after, before, turn, -⟩ := x.release_turn h k
  have holds : (y.account k).holder = h := (Prod.mk.inj before).1 ▸ holds
  rw [turn]
  refine foldl_keeps (fun y : Chip => channelStatus k ∈ y.rpw.statusSet) (fun y j marked => ?_) after ?_
  · by_cases holds : (y.account j).holder = h
    · rw [y.releaseChannel_of_holder holds, Chip.callAdmission_rpw, Chip.noticeInk_rpw, Chip.setRemaining_rpw]
      exact (Chip.mem_markStatus ..).mpr (.inr marked)
    · rwa [y.releaseChannel_of_other holds]
  · rw [y.releaseChannel_of_holder holds, Chip.callAdmission_rpw, Chip.noticeInk_rpw, Chip.setRemaining_rpw]
    exact (Chip.mem_markStatus ..).mpr (.inl rfl)

theorem Chip.release_due (x : Chip) (h : Holder) {k : Channel} (holds : (x.account k).holder = h) :
    (x.release h).due = { arming := true, prime := true, admission := true } := by
  obtain ⟨y, after, before, turn, -⟩ := x.release_turn h k
  have holds : (y.account k).holder = h := (Prod.mk.inj before).1 ▸ holds
  have called (z : Chip) (j : Channel) (holds : (z.account j).holder = h) :
      (z.releaseChannel h j).due = { arming := true, prime := true, admission := true } := by
    rw [z.releaseChannel_of_holder holds]
    rfl
  rw [turn]
  refine foldl_keeps (fun y : Chip => y.due = { arming := true, prime := true, admission := true }) (fun z j all => ?_) after
    (called y k holds)
  by_cases holds : (z.account j).holder = h
  · exact called z j holds
  · rwa [z.releaseChannel_of_other holds]

theorem Chip.release_of_none (x : Chip) (h : Holder) (none : ∀ k, (x.account k).holder ≠ h) : x.release h = x := by
  have same (l : List Channel) : l.foldl (fun y k => y.releaseChannel h k) x = x := by
    induction l with
    | nil => rfl
    | cons k l ih => rw [List.foldl_cons, x.releaseChannel_of_other (none k), ih]
  exact same channels

/-- Settles O23: grants, refusals and releases channel by channel, each by the turn of the channel in the fold over all six. -/
theorem reservationsAreGrantedAndReturned : Obligations.ReservationsAreGrantedAndReturned := by
  refine ⟨fun x amounts => ⟨x.canReserve_iff amounts, fun h k => x.account_reserve h amounts k, fun h => x.reserve_due h amounts,
    fun h k asked => x.reserve_marks h amounts k asked, x.refuseReservation_eq amounts,
    x.refuseReservation_reservation amounts⟩, fun x h k => ?_,
    fun x h => ⟨fun ⟨k, holds⟩ => x.release_due h holds, x.release_of_none h⟩⟩
  have view := x.holding_release h k
  refine ⟨?_, ?_, x.release_marks h k⟩
  · refine (congrArg Prod.fst view).trans ?_
    split <;> rfl
  · refine (congrArg Prod.snd view).trans ?_
    split <;> rfl

/-! ## Consumption (R54, R55) -/

theorem InkSource.isHolder_iff (source : InkSource) (h : Holder) :
    source.isHolder h = true ↔ source = .swath ∧ h = .swath ∨ source = .prime ∧ h = .prime := by
  cases source <;> simp [InkSource.isHolder]

/-- The amount taken from the level, which the CHANNEL record shows (R55, step 1). -/
def Chip.lowered (x : Chip) (k : Channel) (n : Nat) : Chip :=
  (x.onAccount k fun a => a.takeInk n).showChange x (channelStatus k)

/-- The record of a shortfall, where `a`, the account before, had none (R55, step 1). -/
def Chip.shortfallNoted (x : Chip) (k : Channel) (a : Account) (n : Nat) : Chip :=
  if a.isKnown && decide (a.level < n) && !a.shortfall then x.journal (.inkShortfall k (n - a.level)) else x

/-- The amount taken from the holder's reservation, where the source is the holder (R55, step 2). -/
def Chip.drawn (x : Chip) (k : Channel) (h : Holder) (n : Nat) (source : InkSource) : Chip :=
  if source.isHolder h then
    let d := min n (x.remainingOf h k)
    ((x.setRemaining h k (x.remainingOf h k - d)).onAccount k fun b => { b with reserved := b.reserved - d }).showChange x
      (channelStatus k)
  else x

/-- The start test of a channel's refill where the level is below the mark (R55, R57). -/
def Chip.refillTested (x : Chip) (k : Channel) : Chip :=
  if decide ((x.account k).level < (x.account k).refillMark) then x.startRefill k false else x

theorem Chip.applyConsumed_eq (x : Chip) (k : Channel) (n : Nat) (source : InkSource) :
    x.applyConsumed k n source =
      ((((x.lowered k n).shortfallNoted k (x.account k) n).drawn k (x.account k).holder n source).journalLevelStatus k
        (x.account k).levelStatus).refillTested k := rfl

theorem Account.takeInk_eq (a : Account) (n : Nat) : a.takeInk n =
    { a with level := if a.levelState = .known then a.level - n else a.level
             shortfall := a.shortfall || (a.levelState == .known && decide (a.level < n)) } := by
  by_cases known : a.levelState = .known
  · simp [Account.takeInk, Account.isKnown, known]
  · have unknown : (a.levelState == .known) = false := beq_eq_false_iff_ne.mpr known
    simp [Account.takeInk, Account.isKnown, known, unknown]

theorem Chip.account_lowered (x : Chip) (j k : Channel) (n : Nat) :
    (x.lowered k n).account j = if j = k then (x.account k).takeInk n else x.account j := by
  simp [Chip.lowered, Chip.account_onAccount]

theorem Chip.account_shortfallNoted (x : Chip) (j k : Channel) (a : Account) (n : Nat) :
    (x.shortfallNoted k a n).account j = x.account j := by
  unfold Chip.shortfallNoted
  split <;> simp

theorem Chip.account_drawn (x : Chip) (j k : Channel) (h : Holder) (n : Nat) (source : InkSource) :
    (x.drawn k h n source).account j =
      if j = k then
        { x.account k with reserved :=
            if source.isHolder h then (x.account k).reserved - min n (x.remainingOf h k) else (x.account k).reserved }
      else x.account j := by
  unfold Chip.drawn
  split
  · simp [Chip.account_onAccount]
  · by_cases same : j = k
    · simp [same]
    · simp [same]

theorem Chip.account_journalLevelStatus (x : Chip) (j k : Channel) (old : LevelStatus) :
    (x.journalLevelStatus k old).account j = x.account j := by
  rw [Chip.journalLevelStatus_eq]
  dsimp only
  split <;> simp

/-- What a refill's start leaves of an account. -/
def Account.books (a : Account) : Nat × LevelState × Nat × Bool × Holder × Nat :=
  (a.remainder, a.levelState, a.level, a.shortfall, a.holder, a.reserved)

theorem Chip.books_refillTested (x : Chip) (k : Channel) : ((x.refillTested k).account k).books = (x.account k).books := by
  unfold Chip.refillTested
  split
  · rw [Chip.account_startRefill]
    split <;> rfl
  · rfl

theorem Chip.account_refillTested_other (x : Chip) {j k : Channel} (other : j ≠ k) :
    (x.refillTested k).account j = x.account j := by
  unfold Chip.refillTested
  split
  · simp [Chip.account_startRefill, other]
  · rfl

/-- The holder's books are as before until ink is drawn on them. -/
theorem Chip.remainingOf_noted (x : Chip) (k : Channel) (a : Account) (n : Nat) (h : Holder) :
    ((x.lowered k n).shortfallNoted k a n).remainingOf h k = x.remainingOf h k := by
  unfold Chip.shortfallNoted
  split
  · exact Chip.remainingOf_congr (by rw [Chip.sgt_journal]; rfl) (by rw [Chip.svc_journal]; rfl) _ _
  · exact Chip.remainingOf_congr rfl rfl _ _

/-- The channel's account after a consumption, but for what the start of a refill shows (R55). -/
theorem Chip.books_applyConsumed (x : Chip) (k : Channel) (n : Nat) (source : InkSource) :
    ((x.applyConsumed k n source).account k).books =
      let a := x.account k
      (a.remainder, a.levelState, if a.levelState = .known then a.level - n else a.level,
        a.shortfall || (a.levelState == .known && decide (a.level < n)), a.holder,
        if source.isHolder a.holder then a.reserved - min n (x.remainingOf a.holder k) else a.reserved) := by
  rw [Chip.applyConsumed_eq, Chip.books_refillTested, Chip.account_journalLevelStatus, Chip.account_drawn, if_pos rfl,
    Chip.account_shortfallNoted, Chip.account_lowered, if_pos rfl, Chip.remainingOf_noted, Account.takeInk_eq]
  rfl

theorem Chip.account_applyConsumed_other (x : Chip) {j k : Channel} (other : j ≠ k) (n : Nat) (source : InkSource) :
    (x.applyConsumed k n source).account j = x.account j := by
  rw [Chip.applyConsumed_eq, Chip.account_refillTested_other _ other, Chip.account_journalLevelStatus, Chip.account_drawn,
    if_neg other, Chip.account_shortfallNoted, Chip.account_lowered, if_neg other]

theorem Chip.sgt_refillTested (x : Chip) (k : Channel) : (x.refillTested k).sgt = x.sgt := by
  unfold Chip.refillTested
  split
  · exact x.startRefill_sgt k false
  · rfl

theorem Chip.svc_refillTested (x : Chip) (k : Channel) : (x.refillTested k).svc = x.svc := by
  unfold Chip.refillTested
  split
  · exact x.startRefill_svc k false
  · rfl

theorem Chip.remainingOf_journalLevelStatus (x : Chip) (h : Holder) (k : Channel) (old : LevelStatus) :
    (x.journalLevelStatus k old).remainingOf h k = x.remainingOf h k := by
  rw [Chip.journalLevelStatus_eq]
  dsimp only
  split
  · rfl
  · exact Chip.remainingOf_congr (Chip.sgt_journal ..) (Chip.svc_journal ..) h k

theorem Chip.remainingOf_drawn (x : Chip) (k : Channel) (h : Holder) (n : Nat) (source : InkSource) :
    (x.drawn k h n source).remainingOf h k =
      if source.isHolder h then x.remainingOf h k - n else x.remainingOf h k := by
  unfold Chip.drawn
  split
  · have held : (x.setRemaining h k (x.remainingOf h k - min n (x.remainingOf h k))).remainingOf h k =
        x.remainingOf h k - min n (x.remainingOf h k) := x.remainingOf_setRemaining_same h k (Nat.sub_le ..)
    refine (Chip.remainingOf_congr rfl rfl h k).trans (held.trans ?_)
    omega
  · rfl

/-- The holder's remaining reservation falls by what is consumed, where the source is the holder (R55). -/
theorem Chip.remainingOf_applyConsumed (x : Chip) (k : Channel) (n : Nat) (source : InkSource) :
    (x.applyConsumed k n source).remainingOf (x.account k).holder k =
      if source.isHolder (x.account k).holder then x.remainingOf (x.account k).holder k - n
      else x.remainingOf (x.account k).holder k := by
  rw [Chip.applyConsumed_eq, Chip.remainingOf_congr (Chip.sgt_refillTested ..) (Chip.svc_refillTested ..),
    Chip.remainingOf_journalLevelStatus, Chip.remainingOf_drawn, Chip.remainingOf_noted]

/-- The whole nanolitres moved out of the remainder, which the CHANNEL record shows (R54). -/
def Chip.remainderMoved (x : Chip) (k : Channel) (pl : Nat) : Chip :=
  (x.onAccount k fun b => { b with remainder := ((x.account k).remainder + pl) % 1000 }).showChange x (channelStatus k)

theorem Chip.account_remainderMoved (x : Chip) (j k : Channel) (pl : Nat) :
    (x.remainderMoved k pl).account j =
      if j = k then { x.account k with remainder := ((x.account k).remainder + pl) % 1000 } else x.account j := by
  simp [Chip.remainderMoved, Chip.account_onAccount]

theorem Chip.consume_of_unused (x : Chip) (k : Channel) (pl : Nat) (source : InkSource) (unused : (x.account k).inkType = 0) :
    x.consume k pl source = x := by
  simp [Chip.consume, Account.used, unused]

theorem Chip.consume_of_used (x : Chip) (k : Channel) (pl : Nat) (source : InkSource) (used : (x.account k).inkType ≠ 0) :
    x.consume k pl source =
      let n := ((x.account k).remainder + pl) / 1000
      let tested := (x.remainderMoved k pl).applyConsumed k n source
      if n = 0 then tested else tested.noticeInk := by
  simp [Chip.consume, Account.used, used, Chip.remainderMoved]

/-- The notices of R53 change neither an account nor a holder's books. -/
theorem Chip.holding_noticed (x : Chip) (n : Nat) (h : Holder) (k : Channel) :
    (if n = 0 then x else x.noticeInk).holding h k = x.holding h k := by
  split <;> rfl

/-- A change of an account that gives what it gives there is the same change of the part. -/
theorem Chip.onAccount_congr (x : Chip) {k : Channel} {f g : Account → Account} (same : f (x.account k) = g (x.account k)) :
    x.onAccount k f = x.onAccount k g :=
  congrArg (fun a => { x with ink := x.ink.set k { x.ink.get k with account := a } }) same

theorem Chip.lowered_eq (x : Chip) (k : Channel) (n : Nat) :
    x.lowered k n = (x.onAccount k fun b => { b with
      level := if (x.account k).levelState = .known then (x.account k).level - n else (x.account k).level
      shortfall := (x.account k).shortfall || ((x.account k).levelState == .known && decide ((x.account k).level < n)) }).showChange
        x (channelStatus k) := by
  refine congrArg (fun y : Chip => y.showChange x (channelStatus k)) (x.onAccount_congr ?_)
  exact (x.account k).takeInk_eq n

theorem Chip.shortfallNoted_eq (x : Chip) (k : Channel) (a : Account) (n : Nat) :
    x.shortfallNoted k a n =
      if a.levelState = .known ∧ a.level < n ∧ a.shortfall = false then x.journal (.inkShortfall k (n - a.level)) else x := by
  unfold Chip.shortfallNoted
  refine if_congr ?_ rfl rfl
  simp [Account.isKnown, and_assoc]

theorem Chip.refillMark_told (x : Chip) (k : Channel) (a : Account) (h : Holder) (n : Nat) (source : InkSource) (old : LevelStatus) :
    (((((x.lowered k n).shortfallNoted k a n).drawn k h n source).journalLevelStatus k old).account k).refillMark =
      (x.account k).refillMark := by
  rw [Chip.account_journalLevelStatus, Chip.account_drawn, if_pos rfl, Chip.account_shortfallNoted, Chip.account_lowered,
    if_pos rfl, Account.takeInk_eq]

theorem Chip.remainingOf_remainderMoved (x : Chip) (k : Channel) (pl : Nat) (h : Holder) :
    (x.remainderMoved k pl).remainingOf h k = x.remainingOf h k := Chip.remainingOf_congr rfl rfl h k

theorem Chip.drawn_eq (x : Chip) (k : Channel) (h : Holder) (n : Nat) (source : InkSource) {rest : Nat}
    (holds : x.remainingOf h k = rest) :
    x.drawn k h n source =
      if source.isHolder h then
        ((x.setRemaining h k (rest - min n rest)).onAccount k fun b => { b with reserved := b.reserved - min n rest }).showChange x
          (channelStatus k)
      else x := by
  subst holds
  rfl

theorem Chip.refillTested_eq (x : Chip) (k : Channel) {mark : Nat} (marked : (x.account k).refillMark = mark) :
    x.refillTested k = if (x.account k).level < mark then x.startRefill k false else x := by
  subst marked
  exact if_congr decide_eq_true_iff rfl rfl

/-- Settles O24: the accounts and the holder's books after each stage of a consumption, and the stages in their order. -/
theorem consumptionLowersTheLevel : Obligations.ConsumptionLowersTheLevel := by
  intro x k pl source a n y
  have account : (x.remainderMoved k pl).account k = { a with remainder := (a.remainder + pl) % 1000 } := by
    rw [Chip.account_remainderMoved, if_pos rfl]
  refine ⟨x.consume_of_unused k pl source, fun used => ?fields, source.isHolder_iff a.holder, fun used => ?stages,
    fun j other => ?others⟩
  case fields =>
    have consumed : y = _ := x.consume_of_used k pl source used
    have seen := Chip.holding_noticed ((x.remainderMoved k pl).applyConsumed k n source) n a.holder k
    rw [← consumed] at seen
    obtain ⟨same, held⟩ := Prod.mk.inj seen
    have books := (x.remainderMoved k pl).books_applyConsumed k n source
    have remaining := (x.remainderMoved k pl).remainingOf_applyConsumed k n source
    simp only [account, Chip.remainingOf_remainderMoved] at books remaining
    rw [same, held, remaining]
    obtain ⟨remainder, state, level, shortfall, holder, reserved⟩ : _ ∧ _ ∧ _ ∧ _ ∧ _ ∧ _ := by
      simpa only [Account.books, Prod.mk.injEq] using books
    exact ⟨remainder, state, level, shortfall, holder, reserved, rfl⟩
  case stages =>
    intro shown kept lowered noted held drawn told tested
    have lowers : kept.lowered k n = lowered := by
      rw [Chip.lowered_eq, show kept.account k = _ from account]
    have notes : lowered.shortfallNoted k (kept.account k) n = noted := by
      rw [Chip.shortfallNoted_eq, show kept.account k = _ from account]
    have draws : noted.drawn k a.holder n source = drawn := by
      refine noted.drawn_eq k a.holder n source ?_
      rw [← notes, ← lowers, Chip.remainingOf_noted]
      exact x.remainingOf_remainderMoved k pl a.holder
    have tests : told.refillTested k = tested := by
      refine told.refillTested_eq k ?_
      rw [show told = drawn.journalLevelStatus k a.levelStatus from rfl, ← draws, ← notes, ← lowers, Chip.refillMark_told,
        show kept.account k = _ from account]
    have applied : kept.applyConsumed k n source = tested := by
      rw [Chip.applyConsumed_eq, lowers, notes, show kept.account k = _ from account, draws]
      exact tests
    refine (x.consume_of_used k pl source used).trans ?_
    exact congrArg (fun z : Chip => if n = 0 then z else z.noticeInk) applied
  case others =>
    by_cases used : a.inkType = 0
    · rw [show y = x from x.consume_of_unused k pl source used]
    · have consumed : y = _ := x.consume_of_used k pl source used
      have seen := Chip.holding_noticed ((x.remainderMoved k pl).applyConsumed k n source) n .none j
      rw [← consumed] at seen
      rw [(Prod.mk.inj seen).1, Chip.account_applyConsumed_other _ other, Chip.account_remainderMoved, if_neg other]

/-! ## SET CHANNEL (R44, R45) -/

end Sys2Proof.Machine

namespace Sys2Proof

open Machine

theorem SetChannelArgs.uses_iff (a : SetChannelArgs) : a.uses = true ↔ 1 ≤ a.inkType.toNat := by
  rw [SetChannelArgs.uses, bne_iff_ne, ne_eq, ← BitVec.toNat_inj, Nat.one_le_iff_ne_zero]
  rfl

theorem SetChannelArgs.marksOrdered_iff (a : SetChannelArgs) : a.marksOrdered = true ↔
    a.floor.toNat < a.lowMark.toNat ∧ a.lowMark.toNat ≤ a.refillMark.toNat ∧ a.refillMark.toNat < a.tankCapacity.toNat := by
  simp [SetChannelArgs.marksOrdered, and_assoc]

theorem SetChannelArgs.nozzlesBad_iff (a : SetChannelArgs) : (!a.nozzlesOk) = true ↔
    (a.idleLimit.toNat ≠ 0 ∧ (a.idleLimit.toNat < 100 ∨ 60000 < a.idleLimit.toNat)) ∨ 32 < a.spitCount.toNat := by
  have zero : a.idleLimit = 0#16 ↔ a.idleLimit.toNat = 0 := by rw [← BitVec.toNat_inj]; rfl
  rw [ne_eq, ← zero]
  simp only [SetChannelArgs.nozzlesOk, Bool.not_and, Bool.not_or, Bool.not_not, Bool.or_eq_true, Bool.and_eq_true, outside_iff,
    Bool.not_eq_true', beq_eq_false_iff_ne, decide_eq_false_iff_not, Nat.not_le]

theorem SetChannelArgs.store_eq (a : SetChannelArgs) : a.store = fun acc =>
    if 1 ≤ a.inkType.toNat then
      { acc with
        inkType := a.inkType.toNat, dropVolume := a.dropVolume.toNat
        tankCapacity := a.tankCapacity.toNat * 1000, floor := a.floor.toNat * 1000
        refillMark := a.refillMark.toNat * 1000, lowMark := a.lowMark.toNat * 1000
        level := 0, levelState := .unknown, shortfall := false }
    else
      { acc with
        inkType := 0, dropVolume := 0, tankCapacity := 0, floor := 0, refillMark := 0, lowMark := 0
        level := 0, levelState := .unknown, shortfall := false } := by
  funext acc
  by_cases used : 1 ≤ a.inkType.toNat
  · simp [SetChannelArgs.store, a.uses_iff, used]
  · have unused : a.inkType.toNat = 0 := by omega
    simp [SetChannelArgs.store, a.uses_iff, unused]

theorem SetChannelArgs.spit_eq (a : SetChannelArgs) : a.spit =
    if 1 ≤ a.inkType.toNat then { idleLimit := a.idleLimit.toNat, spitCount := a.spitCount.toNat }
    else { idleLimit := 0, spitCount := 0 } :=
  if_congr a.uses_iff rfl rfl

end Sys2Proof

namespace Sys2Proof.Machine

/-- SET CHANNEL in a RUNNING part is answered as the ink controller answers it. -/
theorem exec_setChannel (a : SetChannelArgs) (s : State) (ready : s.chip.readyForCommand)
    (running : s.chip.cmi.partState = .running) {owner : Chip × Answer}
    (h : (s.chip.taking (.setChannel a)).doSetChannel a = owner) :
    exec (.setChannel a) s = .next (s.replied (.setChannel a) owner.1 owner.2) :=
  congrArg Host.Outcome.next (s.command_owner (.setChannel a) ready rfl (decodeSlot_setChannel a)
    ((Chip.whenRunning_of_running (s.chip.taking (.setChannel a)) (fun y => y.doSetChannel a) running).trans h))

theorem Chip.doSetChannel_badChannel (x : Chip) (a : SetChannelArgs) (bad : 5 < a.channel.toNat) :
    x.doSetChannel a = (x, .arg 1 0) :=
  dif_neg (by omega)

/-- SET CHANNEL for one of the channels: the first row of R44 that holds refuses it, else it is accepted. -/
theorem Chip.doSetChannel_checked (x : Chip) (a : SetChannelArgs) (k : Channel) (channel : a.channel.toNat = k.val) :
    x.doSetChannel a =
      let used := 1 ≤ a.inkType.toNat
      if (x.account k).holder ≠ .none then (x, .state 2)
      else if (x.account k).refillState ≠ .idle then (x, .state 3)
      else if 15 < a.inkType.toNat then (x, .arg 4 0)
      else if used ∧ (a.dropVolume.toNat < 2 ∨ 16 < a.dropVolume.toNat) then (x, .arg 5 0)
      else if used ∧ (a.tankCapacity.toNat < 1000 ∨ 100000 < a.tankCapacity.toNat) then (x, .arg 6 0)
      else if used ∧ ¬ (a.floor.toNat < a.lowMark.toNat ∧ a.lowMark.toNat ≤ a.refillMark.toNat ∧
          a.refillMark.toNat < a.tankCapacity.toNat) then (x, .arg 7 0)
      else if used ∧ ((a.idleLimit.toNat ≠ 0 ∧ (a.idleLimit.toNat < 100 ∨ 60000 < a.idleLimit.toNat)) ∨
          32 < a.spitCount.toNat) then (x, .arg 8 0)
      else (x.applySetChannel k a, .done 0 0) := by
  have number : (⟨a.channel.toNat, channel ▸ k.isLt⟩ : Channel) = k := Fin.ext channel
  have table : x.doSetChannel a = x.answerBy (a.checks (x.account k)) (x.applySetChannel k a, .done 0 0) := by
    rw [← number]
    exact dif_pos (channel ▸ k.isLt)
  rw [table]
  simp only [SetChannelArgs.checks, Chip.answerBy_cons, Chip.answerBy_nil, bne_iff_ne, Bool.and_eq_true, a.uses_iff,
    outside_iff, a.nozzlesBad_iff, Bool.not_eq_true', ← Bool.not_eq_true, a.marksOrdered_iff, decide_eq_true_eq]

theorem Chip.judgeAgain_eq (x : Chip) (k : Channel) : x.judgeAgain k =
    if (x.cartridge k).state = .noCartridge ∨ (x.cartridge k).state = .reading then x else x.judge k := by
  unfold Chip.judgeAgain
  cases state : (x.cartridge k).state <;> simp

theorem Chip.cartridge_onAccount (x : Chip) (j k : Channel) (f : Account → Account) :
    (x.onAccount k f).cartridge j = x.cartridge j := by
  simp only [Chip.cartridge, Chip.onAccount, Chip.onInk_ink, Six.get_set]
  split
  · next same => rw [same]
  · rfl

theorem Chip.cartridge_offer (x : Chip) (o : LinkOrder) (j : Channel) : (x.offer o).cartridge j = x.cartridge j := rfl

theorem Chip.readLevel_eq (x : Chip) (k : Channel) : x.readLevel k =
    if (x.account k).levelReading = .idle then
      (x.onAccount k fun acc => { acc with levelReading := .pending }).offer (.level k)
    else x :=
  if_congr beq_iff_eq rfl rfl

theorem Chip.cartridge_readLevel (x : Chip) (j k : Channel) : (x.readLevel k).cartridge j = x.cartridge j := by
  unfold Chip.readLevel
  split
  · rw [Chip.cartridge_offer, Chip.cartridge_onAccount]
  · rfl

/-- The settings stored, and the level asked for where the channel is used (R45). -/
def Chip.channelStored (x : Chip) (k : Channel) (a : SetChannelArgs) : Chip :=
  if 1 ≤ a.inkType.toNat then (x.onAccount k a.store).readLevel k else x.onAccount k a.store

theorem Chip.channelStored_eq (x : Chip) (k : Channel) (a : SetChannelArgs) : x.channelStored k a =
    if 1 ≤ a.inkType.toNat ∧ (x.account k).levelReading = .idle then
      ((x.onAccount k a.store).onAccount k fun acc => { acc with levelReading := .pending }).offer (.level k)
    else x.onAccount k a.store := by
  have reading : ((x.onAccount k a.store).account k).levelReading = (x.account k).levelReading := by
    rw [Chip.account_onAccount_same]
    rfl
  unfold Chip.channelStored
  rw [Chip.readLevel_eq, reading, ← ite_and]

theorem Chip.applySetChannel_eq (x : Chip) (k : Channel) (a : SetChannelArgs) :
    x.applySetChannel k a =
      let handed := (x.channelStored k a).handSpit k a.spit
      (if (x.cartridge k).state = .noCartridge ∨ (x.cartridge k).state = .reading then handed
        else handed.judge k).callAdmission.noticeInk := by
  have cartridge : ((x.channelStored k a).handSpit k a.spit).cartridge k = x.cartridge k := by
    refine Eq.trans (b := (x.channelStored k a).cartridge k) rfl ?_
    unfold Chip.channelStored
    split
    · rw [Chip.cartridge_readLevel, Chip.cartridge_onAccount]
    · rw [Chip.cartridge_onAccount]
  have stored : (if a.uses = true then (x.onAccount k a.store).readLevel k else x.onAccount k a.store) = x.channelStored k a :=
    if_congr a.uses_iff rfl rfl
  unfold Chip.applySetChannel
  dsimp only
  rw [stored, Chip.judgeAgain_eq, cartridge]

/-- Settles O33: the channel number, then the rows of R44 in their order, and the settings stored. -/
theorem setChannelChecksAndEffects : Obligations.SetChannelChecksAndEffects := by
  intro a s ready running
  refine ⟨fun bad => ?_, fun k channel => ?_⟩
  · have refused := exec_setChannel a s ready running (Chip.doSetChannel_badChannel _ a bad)
    exact refused
  · rw [exec_setChannel a s ready running (Chip.doSetChannel_checked _ a k channel)]
    simp only [State.replied_ite, Chip.applySetChannel_eq, Chip.channelStored_eq, a.store_eq, a.spit_eq]
    rfl

end Sys2Proof.Machine
end

section
/-! PROOFS. Sheets and the carriage claim (chapters 6 and 7): the admission test of the oldest sheet, and the service controller's
claim. -/

namespace Sys2Proof.Machine

/-! ## The admission test (R58, R113 to R115) -/

theorem Chip.keepWaiting_eq (x : Chip) (h : Sheet) (cause : WaitingCause) (record : JournalRecord) :
    x.keepWaiting h cause record =
      let y := x.onSheet h.id fun a => { a with state := .waiting, waitingCause := some cause }
      if h.state = .queued ∨ h.waitingCause ≠ some cause then y.journal record else y := by
  simp only [Chip.keepWaiting, Bool.or_eq_true, beq_iff_eq, bne_iff_ne]

theorem FeedController.loadPlan_eq (d : FeedController) (n : RollNo) :
    d.loadPlan n = if d.threaded = .roll n then (if d.uncutTail = true then 1 else 2) else 5 :=
  if_congr beq_iff_eq rfl rfl

/-- The sheet's entry into LOADING on a roll, with the load plan of R131 (R115). -/
theorem Chip.admitTo_eq (x : Chip) (h : Sheet) (n : RollNo) :
    x.admitTo h n =
      let plan := if x.fdc.threaded = .roll n then (if x.fdc.uncutTail = true then 1 else 2) else 5
      let y := x.onSheet h.id fun a =>
        { a with state := .loading, waitingCause := none, assigned := some n, loadStep := 5 - plan }
      ((y.onFdc fun d => { d with feed := .loading }).callArming).runLoad plan := by
  rw [← FeedController.loadPlan_eq]
  rfl

/-- The channels before a channel in the order of their numbers are those of a lower number. -/
theorem channels_split (k : Channel) : channels = channels.takeWhile (· < k) ++ k :: channels.drop (k.val + 1) := by
  revert k
  decide

theorem Chip.shortChannel_none (x : Chip) {e : Six Nat} (found : ∀ k, e.get k * 1000 ≤ (x.ink.get k).findable) :
    x.shortChannel e = none := by
  refine List.find?_eq_none.mpr fun k _ => ?_
  simpa using found k

/-- The lowest-numbered short channel is the one before which no channel is short (R58). -/
theorem Chip.shortChannel_some (x : Chip) {e : Six Nat} {k : Channel} (short : (x.ink.get k).findable < e.get k * 1000)
    (lowest : ∀ j : Channel, j.val < k.val → e.get j * 1000 ≤ (x.ink.get j).findable) : x.shortChannel e = some k := by
  refine List.find?_eq_some_iff_append.mpr ⟨decide_eq_true short, _, _, channels_split k, fun j before => ?_⟩
  have lower : j < k := of_decide_eq_true (List.mem_takeWhile_imp (p := fun i => decide (i < k)) before)
  simpa using lowest j lower

theorem Chip.admissionCandidate_eq (x : Chip) : x.admissionCandidate =
    if x.cmi.partState = .running ∧ x.platen = none ∧ x.fdc.feed = .idle then x.fdc.sheets.head? else none := by
  simp only [Chip.admissionCandidate, Bool.and_eq_true, beq_iff_eq, Option.isNone_iff_eq_none, and_assoc]

theorem Chip.admissionTest_of_none (x : Chip) (none : x.admissionCandidate = none) : x.admissionTest = x := by
  simp only [Chip.admissionTest, none]

section
variable (x : Chip) {h : Sheet} (oldest : x.admissionCandidate = some h)
include oldest

theorem Chip.admissionTest_media (no_roll : x.fdc.chooseRoll h = none) : x.admissionTest =
    x.keepWaiting h .media (.sheetWaitingMedia h.id h.preference x.fdc.roll1.remaining x.fdc.roll2.remaining) := by
  simp only [Chip.admissionTest, oldest, no_roll]

theorem Chip.admissionTest_unestimated {n : RollNo} (roll : x.fdc.chooseRoll h = some n) (estimate : h.estimate = none) :
    x.admissionTest = x.admitTo h n := by
  simp only [Chip.admissionTest, oldest, roll, estimate]

theorem Chip.admissionTest_enough {n : RollNo} (roll : x.fdc.chooseRoll h = some n) {e : Six Nat}
    (estimate : h.estimate = some e) (enough : x.shortChannel e = none) : x.admissionTest = x.admitTo h n := by
  simp only [Chip.admissionTest, oldest, roll, estimate, enough]

theorem Chip.admissionTest_ink {n : RollNo} (roll : x.fdc.chooseRoll h = some n) {e : Six Nat}
    (estimate : h.estimate = some e) {k : Channel} (short : x.shortChannel e = some k) :
    x.admissionTest = x.keepWaiting h .ink (.sheetWaitingInk h.id k.val (e.get k) (x.ink.get k).findable) := by
  simp only [Chip.admissionTest, oldest, roll, estimate, short]

end

/-- Settles O27: the candidate, then the case of the roll choice and of the ink check that holds. -/
theorem admissionTestOfTheOldestSheet : Obligations.AdmissionTestOfTheOldestSheet := by
  intro x
  refine ⟨fun not => x.admissionTest_of_none ?_, fun h rest running platen idle sheets => ?_⟩
  · rw [Chip.admissionCandidate_eq]
    split
    · next tested =>
      obtain ⟨running, platen, idle⟩ := tested
      have empty : x.fdc.sheets = [] := by simpa [running, platen, idle] using not
      rw [empty]
      rfl
    · rfl
  · have oldest : x.admissionCandidate = some h := by
      rw [Chip.admissionCandidate_eq, if_pos ⟨running, platen, idle⟩, sheets]
      rfl
    simp only [← Chip.keepWaiting_eq, ← Chip.admitTo_eq]
    exact ⟨x.admissionTest_media oldest, fun n => x.admissionTest_unestimated oldest,
      fun n e roll estimate found => x.admissionTest_enough oldest roll estimate (x.shortChannel_none found),
      fun n e k roll estimate short lowest => x.admissionTest_ink oldest roll estimate (x.shortChannel_some short lowest)⟩

/-! ## The service controller's claim (R103 to R105) -/

/-- A sheet is in progress while the platen sheet is PRINTING and while a swath is ARMED or FIRING (R104). -/
theorem Chip.inProgress_iff (x : Chip) : x.inProgress = true ↔
    (∃ h, x.platen = some h ∧ h.state = .printing) ∨ ∃ r ∈ x.sgt.swaths, r.state = .armed ∨ r.state = .firing := by
  have live : x.liveSwath.isSome = true ↔ ∃ r ∈ x.sgt.swaths, r.state = .armed ∨ r.state = .firing := by
    simp [Chip.liveSwath_isSome]
  rw [Chip.inProgress, Bool.or_eq_true, live, or_comm]
  cases x.platen <;> simp

theorem Chip.eligible_iff (x : Chip) (e : Request) : x.eligible e = true ↔ ¬ x.inProgress = true ∨
    ∃ g, x.program e.program = some g ∧ g.urgency = .midSheet ∧ g.duration ≤ x.svc.budget := by
  unfold Chip.eligible
  cases x.inProgress with
  | false => simp
  | true => cases x.program e.program <;> simp

theorem Chip.hasEligible_iff (x : Chip) : x.hasEligible = true ↔ ∃ e ∈ x.svc.requests, x.eligible e = true :=
  List.any_eq_true

/-- The oldest eligible entry is granted the claim: those before it stay in the list in their order (R105). -/
theorem Chip.grantCycle_eq (x : Chip) {before rest : List Request} {e : Request} (list : x.svc.requests = before ++ e :: rest)
    (eligible : x.eligible e = true) (oldest : ∀ a ∈ before, x.eligible a = false) :
    x.grantCycle =
      let steps := match x.program e.program with
        | some g => g.steps
        | none => []
      ((((x.onSgt fun g => { g with claim := .service }).onSvc fun v =>
        { v with
          requests := before ++ rest
          cycle := { Cycle.idle with
            state := .running, kind := some (.program e.program), steps := steps
            startTime := x.rpw.timeBase } }).markStatus 11).callArming).runSteps steps := by
  have first : takeFirst x.eligible x.svc.requests = some (e, before ++ rest) :=
    list ▸ takeFirst_append rest oldest eligible
  simp only [Chip.grantCycle, first]
  rfl

theorem Chip.serviceNext_grant (x : Chip) (waits : x.svc.cycle.state = .none ∨ x.svc.cycle.state = .claiming)
    (eligible : x.hasEligible = true) (free : x.sgt.claim = .free) : x.serviceNext = some x.grantCycle := by
  rcases waits with state | state <;> simp [Chip.serviceNext, state, eligible, free]

theorem Chip.serviceNext_claim (x : Chip) (state : x.svc.cycle.state = .none) (eligible : x.hasEligible = true)
    (held : x.sgt.claim ≠ .free) : x.serviceNext = some (x.onCycle fun c => { c with state := .claiming }) := by
  simp [Chip.serviceNext, state, eligible, held]

theorem Chip.serviceNext_wait (x : Chip) (state : x.svc.cycle.state = .claiming) (eligible : x.hasEligible = true)
    (held : x.sgt.claim ≠ .free) : x.serviceNext = none := by
  simp [Chip.serviceNext, state, eligible, held]

theorem Chip.serviceNext_withdraw (x : Chip) (state : x.svc.cycle.state = .claiming) (none : x.hasEligible = false) :
    x.serviceNext = some (x.onCycle fun _ => .idle) := by
  simp [Chip.serviceNext, state, none]

theorem Chip.serviceNext_busy (x : Chip) (busy : x.svc.cycle.state.busy = true) : x.serviceNext = none := by
  unfold Chip.serviceNext
  cases state : x.svc.cycle.state with
  | none => simp [state, CycleState.busy] at busy
  | claiming => simp [state, CycleState.busy] at busy
  | running => rfl
  | recovering => rfl
  | abandoning => rfl

/-- Settles O28, by the cycle state and the claim. -/
theorem oldestEligibleEntryTakesTheClaim : Obligations.OldestEligibleEntryTakesTheClaim := by
  intro x
  refine ⟨fun e => ?_, x.hasEligible_iff, fun e before rest waits free list eligible oldest => ?_, x.serviceNext_claim,
    fun state eligible held => ?_, x.serviceNext_withdraw, fun busy => ?_⟩
  · rw [x.eligible_iff, x.inProgress_iff]
  · have member : e ∈ x.svc.requests := list ▸ List.mem_append_right before List.mem_cons_self
    exact (x.serviceNext_grant waits (x.hasEligible_iff.mpr ⟨e, member, eligible⟩) free).trans
      (congrArg some (x.grantCycle_eq list eligible oldest))
  · rw [x.serviceNext_wait state eligible held]
    rfl
  · rw [x.serviceNext_busy busy]
    rfl

end Sys2Proof.Machine
end

section
/-! PROOFS. The swath gate (chapters 1 and 2): the rewriting of a read's bytes, the classification of a head read, the arming test
and the hold timer. -/

namespace Sys2Proof.Machine

/-! ## One byte (R33, R34) -/

theorem popCount_eq_sum (b : Byte) : popCount b = ((List.range 8).map fun i => (b.getLsbD i).toNat).sum := by
  simp [popCount, List.range_succ, Bool.toNat, Bool.cond_eq_ite, Nat.add_assoc]

theorem bitAt_getLsbD (i : Nat) (v : Bool) {j : Nat} (byte : j < 8) : (bitAt i v).getLsbD j = (v && decide (i = j)) := by
  cases v with
  | false => simp [bitAt]
  | true =>
    simp only [bitAt, if_true, BitVec.getLsbD_shiftLeft, byte, decide_true, Bool.true_and, BitVec.getLsbD_one]
    rw [Bool.eq_iff_iff]
    simp
    omega

theorem substitutePair_eq (out0 out1 m0 m1 : Bool) :
    (substitutePair out0 out1 m0 m1).1 = (!out0 && (m0 || (out1 && m1))) ∧
      (substitutePair out0 out1 m0 m1).2.1 = (!out1 && (m1 || (out0 && m0))) := by
  revert out0 out1 m0 m1
  decide

/-- The marks of a pair are delivered or lost (R33). -/
theorem substitutePair_conserves (out0 out1 m0 m1 : Bool) :
    (substitutePair out0 out1 m0 m1).2.2 + (substitutePair out0 out1 m0 m1).1.toNat +
      (substitutePair out0 out1 m0 m1).2.1.toNat = m0.toNat + m1.toNat := by
  revert out0 out1 m0 m1
  decide

/-- The substitution of the pair whose even nozzle has bit `i`. -/
def pairAt (out b : Byte) (i : Nat) : Bool × Bool × Nat :=
  substitutePair (out.getLsbD i) (out.getLsbD (i + 1)) (b.getLsbD i) (b.getLsbD (i + 1))

theorem substitute_lost (out b : Byte) : (substitute out b).2 =
    0 + (pairAt out b 0).2.2 + (pairAt out b 2).2.2 + (pairAt out b 4).2.2 + (pairAt out b 6).2.2 := rfl

theorem substitute_byte (out b : Byte) : (substitute out b).1 =
    0#8 ||| bitAt 0 (pairAt out b 0).1 ||| bitAt 1 (pairAt out b 0).2.1 ||| bitAt 2 (pairAt out b 2).1 |||
      bitAt 3 (pairAt out b 2).2.1 ||| bitAt 4 (pairAt out b 4).1 ||| bitAt 5 (pairAt out b 4).2.1 |||
      bitAt 6 (pairAt out b 6).1 ||| bitAt 7 (pairAt out b 6).2.1 := rfl

/-- The bits of a substituted byte are those that the pairs deliver. -/
theorem substitute_bits (out b : Byte) :
    let d := (substitute out b).1
    (d.getLsbD 0 = (pairAt out b 0).1 ∧ d.getLsbD 1 = (pairAt out b 0).2.1) ∧
    (d.getLsbD 2 = (pairAt out b 2).1 ∧ d.getLsbD 3 = (pairAt out b 2).2.1) ∧
    (d.getLsbD 4 = (pairAt out b 4).1 ∧ d.getLsbD 5 = (pairAt out b 4).2.1) ∧
    (d.getLsbD 6 = (pairAt out b 6).1 ∧ d.getLsbD 7 = (pairAt out b 6).2.1) := by
  simp [substitute_byte, bitAt_getLsbD, -BitVec.getLsbD_eq_getElem]

/-- A mark is delivered where its nozzle works and it, or the mark of its partner that is out, was read (R33). -/
theorem substitute_getLsbD (out b : Byte) {i : Nat} (byte : i < 8) : (substitute out b).1.getLsbD i =
    (!out.getLsbD i && (b.getLsbD i || (out.getLsbD (partner i) && b.getLsbD (partner i)))) := by
  obtain ⟨⟨b0, b1⟩, ⟨b2, b3⟩, ⟨b4, b5⟩, ⟨b6, b7⟩⟩ := substitute_bits out b
  have even (i : Nat) : (pairAt out b i).1 = _ := (substitutePair_eq _ _ _ _).1
  have odd (i : Nat) : (pairAt out b i).2.1 = _ := (substitutePair_eq _ _ _ _).2
  match i with
  | 0 => exact b0.trans (even 0)
  | 1 => exact b1.trans (odd 0)
  | 2 => exact b2.trans (even 2)
  | 3 => exact b3.trans (odd 2)
  | 4 => exact b4.trans (even 4)
  | 5 => exact b5.trans (odd 4)
  | 6 => exact b6.trans (even 6)
  | 7 => exact b7.trans (odd 6)
  | n + 8 => exact absurd byte (by omega)

/-- The marks of a byte are delivered or lost (R33). -/
theorem substitute_conserves (out b : Byte) : (substitute out b).2 + popCount (substitute out b).1 = popCount b := by
  obtain ⟨⟨b0, b1⟩, ⟨b2, b3⟩, ⟨b4, b5⟩, ⟨b6, b7⟩⟩ := substitute_bits out b
  have pair (i : Nat) : (pairAt out b i).2.2 + (pairAt out b i).1.toNat + (pairAt out b i).2.1.toNat =
      (b.getLsbD i).toNat + (b.getLsbD (i + 1)).toNat := substitutePair_conserves _ _ _ _
  have p0 := pair 0; have p2 := pair 2; have p4 := pair 4; have p6 := pair 6
  simp only [Nat.reduceAdd] at p0 p2 p4 p6
  rw [popCount_eq_sum, popCount_eq_sum, substitute_lost]
  simp only [List.range_succ, List.range_zero, List.nil_append, List.cons_append, List.map_cons, List.map_nil, List.sum_cons,
    List.sum_nil, b0, b1, b2, b3, b4, b5, b6, b7]
  omega

/-- No mark is delivered for a nozzle that is out (R33). -/
theorem substitute_and_out (out b : Byte) : (substitute out b).1 &&& out = 0#8 := by
  refine BitVec.eq_of_getLsbD_eq fun i byte => ?_
  rw [BitVec.getLsbD_and, substitute_getLsbD out b byte]
  cases out.getLsbD i <;> simp

theorem inject_true (out b : Byte) : inject true out b = (b ||| ~~~out, popCount (~~~out &&& ~~~b)) := rfl

/-- Spit injection counts the marks it sets (R34). -/
theorem inject_conserves (spit : Bool) (out b : Byte) :
    popCount (inject spit out b).1 = popCount b + (inject spit out b).2 := by
  cases spit with
  | false => rfl
  | true =>
    rw [inject_true, popCount_eq_sum, popCount_eq_sum, popCount_eq_sum, ← List.sum_map_add]
    congr 1
    refine List.map_congr_left fun i mem => ?_
    have byte : i < 8 := List.mem_range.mp mem
    simp only [BitVec.getLsbD_or, BitVec.getLsbD_and, BitVec.getLsbD_not, byte, decide_true, Bool.true_and]
    cases b.getLsbD i <;> cases out.getLsbD i <;> rfl

/-- Spit injection sets no mark for a nozzle that is out (R34). -/
theorem inject_getLsbD_out (spit : Bool) {out b : Byte} {i : Nat} (isOut : out.getLsbD i = true) (unmarked : b.getLsbD i = false) :
    (inject spit out b).1.getLsbD i = false := by
  cases spit with
  | false => exact unmarked
  | true => simp [inject_true, isOut, unmarked]

/-- The bits of an out mask are the nozzles of the list that lie in its slice byte (R3). -/
theorem outMask_getLsbD (l : List OutEntry) (k : Channel) (j : Nat) {bit : Nat} (byte : bit < 8) :
    (outMask l k j).getLsbD bit = true ↔ ∃ e ∈ l, e.channel = k ∧ e.nozzle = 8 * j + bit := by
  have fold (m : Byte) : ((l.foldl (fun m e =>
      if e.channel == k && e.nozzle / 8 == j then m ||| (1#8 <<< (e.nozzle % 8)) else m) m).getLsbD bit = true ↔
      m.getLsbD bit = true ∨ ∃ e ∈ l, e.channel = k ∧ e.nozzle = 8 * j + bit) := by
    induction l generalizing m with
    | nil => simp
    | cons e l ih =>
      have head : (if e.channel == k && e.nozzle / 8 == j then m ||| (1#8 <<< (e.nozzle % 8)) else m).getLsbD bit = true ↔
          m.getLsbD bit = true ∨ e.channel = k ∧ e.nozzle = 8 * j + bit := by
        have mark : (1#8 <<< (e.nozzle % 8)).getLsbD bit = decide (e.nozzle % 8 = bit) := by
          simpa [bitAt] using bitAt_getLsbD (e.nozzle % 8) true byte
        split
        · next here =>
          obtain ⟨channel, slice⟩ : e.channel = k ∧ e.nozzle / 8 = j := by simpa using here
          rw [BitVec.getLsbD_or, mark, Bool.or_eq_true, decide_eq_true_eq]
          refine or_congr_right ⟨fun h => ⟨channel, by omega⟩, fun h => by omega⟩
        · next elsewhere =>
          refine (or_iff_left fun ⟨channel, nozzle⟩ => elsewhere ?_).symm
          simp only [channel, nozzle, beq_self_eq_true, Bool.true_and, beq_iff_eq]
          omega
      rw [List.foldl_cons, ih, head, or_assoc]
      exact or_congr_right (by simp)
  exact (fold 0#8).trans (by simp)

/-! ## A read (R33 to R35) -/

/-- The byte read at an offset, its pairs substituted (R33). -/
def Chip.substitutedByte (x : Chip) (o : Nat) (b : Byte) : Byte × Nat :=
  substitute (outMask x.nmn.outList (channelOf o) (o % 128)) b

/-- The byte after spit injection, with the marks it has set (R34). -/
def Chip.injectedByte (x : Chip) (r : Swath) (o : Nat) (b : Byte) : Byte × Nat :=
  inject (decide (o / 768 < min (x.nmn.spit.get (channelOf o)).spitCount x.sgt.spitColumns) &&
    (r.spitSet.get (channelOf o)).contains (o % 128 / 2))
    (outMask x.nmn.outList (channelOf o) (o % 128)) (x.substitutedByte o b).1

theorem Chip.deliveredByte_eq (x : Chip) (r : Swath) (o : Nat) (b : Byte) :
    x.deliveredByte r o b = (x.injectedByte r o b).1 := rfl

theorem Chip.rewriteByte_lost (x : Chip) (r : Swath) (w : Rewrite) (o : Nat) (b : Byte) :
    (x.rewriteByte r w o b).lost = w.lost + (x.substitutedByte o b).2 := rfl

theorem Chip.rewriteByte_injected (x : Chip) (r : Swath) (w : Rewrite) (o : Nat) (b : Byte) :
    (x.rewriteByte r w o b).injected = w.injected + (x.injectedByte r o b).2 := rfl

theorem Chip.rewrite_getD (x : Chip) (r : Swath) (offset : Nat) (data : List Byte) {i : Nat} (h : i < data.length) :
    (x.rewrite r offset data).data.getD i 0#8 = x.deliveredByte r (offset + i) (data.getD i 0#8) := by
  induction data using list_snoc_induction with
  | nil => exact absurd h (Nat.not_lt_zero i)
  | append_singleton data b ih =>
    rcases Nat.lt_or_ge i data.length with earlier | last
    · rw [x.rewrite_append_getD_of_lt r offset data b earlier, ih earlier, List.getD_append _ _ _ _ earlier]
    · obtain rfl : i = data.length := by simp at h; omega
      rw [x.rewrite_append_getD_last r offset data b, List.getD_append_right _ _ _ _ (Nat.le_refl _), Nat.sub_self]
      rfl

/-- A count that goes up with each byte is the sum over the bytes. -/
theorem sum_range_snoc (f : Nat → Byte → Nat) (data : List Byte) (b : Byte) :
    ((List.range (data ++ [b]).length).map fun i => f i ((data ++ [b]).getD i 0#8)).sum =
      ((List.range data.length).map fun i => f i (data.getD i 0#8)).sum + f data.length b := by
  have before : ((List.range data.length).map fun i => f i ((data ++ [b]).getD i 0#8)) =
      (List.range data.length).map fun i => f i (data.getD i 0#8) :=
    List.map_congr_left fun i mem => by rw [List.getD_append _ _ _ _ (List.mem_range.mp mem)]
  rw [List.length_append, List.length_singleton, List.range_succ, List.map_append, List.sum_append, before, List.map_singleton,
    List.sum_singleton, List.getD_append_right _ _ _ _ (Nat.le_refl _), Nat.sub_self]
  rfl

theorem Chip.rewrite_lost (x : Chip) (r : Swath) (offset : Nat) (data : List Byte) :
    (x.rewrite r offset data).lost =
      ((List.range data.length).map fun i => (x.substitutedByte (offset + i) (data.getD i 0#8)).2).sum := by
  induction data using list_snoc_induction with
  | nil => rfl
  | append_singleton data b ih =>
    rw [Chip.rewrite_append, Chip.rewriteByte_lost, ih, sum_range_snoc (fun i b => (x.substitutedByte (offset + i) b).2)]

theorem Chip.rewrite_injected (x : Chip) (r : Swath) (offset : Nat) (data : List Byte) :
    (x.rewrite r offset data).injected =
      ((List.range data.length).map fun i => (x.injectedByte r (offset + i) (data.getD i 0#8)).2).sum := by
  induction data using list_snoc_induction with
  | nil => rfl
  | append_singleton data b ih =>
    rw [Chip.rewrite_append, Chip.rewriteByte_injected, ih, sum_range_snoc (fun i b => (x.injectedByte r (offset + i) b).2)]

/-- Settles O16: one byte pair by pair, the mask by the list, and a read by its bytes. -/
theorem bytesAreSubstitutedAndInjected : Obligations.BytesAreSubstitutedAndInjected := by
  refine ⟨fun out b => ⟨fun i byte => substitute_getLsbD out b byte, substitute_conserves out b, substitute_and_out out b⟩,
    fun out b => ⟨rfl, rfl, inject_conserves true out b⟩, fun l k j bit byte => outMask_getLsbD l k j byte,
    fun x r offset data => ⟨fun i h => ?_, ?_, ?_⟩⟩
  · exact (x.rewrite_getD r offset data h).trans (x.deliveredByte_eq r _ _)
  · exact x.rewrite_lost r offset data
  · exact x.rewrite_injected r offset data

theorem Six.sum_set (v : Six Nat) (k : Channel) (n : Nat) : (v.set k (v.get k + n)).toList.sum = v.toList.sum + n := by
  match k with
  | 0 | 1 | 2 | 3 | 4 | 5 => simp only [Six.set, Six.get, Six.toList, List.sum_cons, List.sum_nil]; omega

/-- The marks of a byte read, with those injected, are delivered or lost (R33, R34). -/
theorem Chip.deliveredByte_conserves (x : Chip) (r : Swath) (o : Nat) (b : Byte) :
    popCount (x.deliveredByte r o b) + (x.substitutedByte o b).2 = popCount b + (x.injectedByte r o b).2 := by
  have injects : popCount (x.injectedByte r o b).1 = popCount (x.substitutedByte o b).1 + (x.injectedByte r o b).2 :=
    inject_conserves _ _ _
  have substitutes : (x.substitutedByte o b).2 + popCount (x.substitutedByte o b).1 = popCount b := substitute_conserves _ _
  rw [x.deliveredByte_eq]
  omega

theorem Chip.rewrite_conserves (x : Chip) (r : Swath) (offset : Nat) (data : List Byte) :
    (x.rewrite r offset data).delivered.toList.sum + (x.rewrite r offset data).lost =
      (data.map popCount).sum + (x.rewrite r offset data).injected := by
  induction data using list_snoc_induction with
  | nil => rfl
  | append_singleton data b ih =>
    have delivered : (x.rewrite r offset (data ++ [b])).delivered.toList.sum =
        (x.rewrite r offset data).delivered.toList.sum + popCount (x.deliveredByte r (offset + data.length) b) := by
      rw [Chip.rewrite_append]
      exact Six.sum_set _ _ _
    have byte := x.deliveredByte_conserves r (offset + data.length) b
    rw [delivered, Chip.rewrite_append, Chip.rewriteByte_lost, Chip.rewriteByte_injected, List.map_append, List.sum_append,
      List.map_singleton, List.sum_singleton]
    omega

/-- A byte delivered has no mark for a nozzle on the list (R33, R34). -/
theorem Chip.deliveredByte_out (x : Chip) (r : Swath) (o : Nat) (b : Byte) {e : OutEntry} {bit : Nat} (byte : bit < 8)
    (listed : e ∈ x.nmn.outList) (channel : e.channel = channelOf o) (nozzle : e.nozzle = 8 * (o % 128) + bit) :
    (x.deliveredByte r o b).getLsbD bit = false := by
  have isOut := (outMask_getLsbD x.nmn.outList (channelOf o) (o % 128) byte).mpr ⟨e, listed, channel, nozzle⟩
  rw [x.deliveredByte_eq]
  refine inject_getLsbD_out _ isOut ?_
  refine (substitute_getLsbD _ _ byte).trans ?_
  rw [isOut]
  rfl

/-- Settles O17: as many bytes as read, each without a mark for an out nozzle, and the marks of each byte conserved. -/
theorem noDeliveredMarkOnAnOutNozzle : Obligations.NoDeliveredMarkOnAnOutNozzle := by
  intro x r offset data
  refine ⟨x.rewrite_data_length r offset data, fun i bit e h byte listed channel nozzle => ?_, x.rewrite_conserves r offset data⟩
  rw [x.rewrite_getD r offset data h]
  exact x.deliveredByte_out r _ _ byte listed channel nozzle

/-! ## The classification of a head read (R25 to R28) -/

theorem Chip.hPortRead_accepted (x : Chip) (q : ReadRequest) (credit : 0 < x.psw.hCredits) (form : malformed q.addr q.len = false) :
    x.hPortRead q =
      if x.psw.window q.addr.toNat ≠ .swath then
        (x.enterHRead q .waiting).onPsw fun p => { p with hQueue := p.hQueue ++ [.read x.psw.nextRead q.addr q.len] }
      else (x.enterHRead q .waiting).presentRead x.psw.nextRead q := by
  rw [ite_not]
  unfold Chip.hPortRead
  rw [if_neg (Nat.ne_of_gt credit), if_neg (Bool.eq_false_iff.mp form)]
  exact if_congr beq_iff_eq rfl rfl

/-- A held read joins the hold queue; where it is the first the hold timer starts and the GATE record shows it (R27). -/
theorem Chip.holdRead_eq (x : Chip) (h : HeldRead) : x.holdRead h =
    if x.sgt.holdQueue = [] then
      (x.onSgt fun g => { g with holdQueue := [h], holdTimer := some (x.rpw.timeBase + g.holdLimit * 1000) }).markStatus 10
    else x.onSgt fun g => { g with holdQueue := g.holdQueue ++ [h] } := by
  cases held : x.sgt.holdQueue with
  | nil => simp [Chip.holdRead, Chip.onSgt, held, Chip.now]
  | cons a l => simp [Chip.holdRead, Chip.onSgt, held]

theorem Swath.live_eq_false_iff (r : Swath) : r.live = false ↔ r.state = .bound := by
  simp [Swath.live]

/-- A presented read by the swath record of its buffer (R25): none, one that is not the next, the next and BOUND, the next and
ARMED or FIRING. -/
theorem Chip.presentRead_eq (x : Chip) (id : Nat) (q : ReadRequest) : x.presentRead id q =
    match x.sgt.swaths.find? fun r => r.buffer == (x.psw.bufferAt q.addr.toNat).1 with
    | none => x.refuseRead id (x.psw.bufferAt q.addr.toNat).1 q.addr false
    | some r =>
      if x.nextRecord.map Swath.id ≠ some r.id then x.refuseRead id (x.psw.bufferAt q.addr.toNat).1 q.addr true
      else if r.state = .bound then x.holdRead { id := id, tag := q.tag, addr := q.addr, len := q.len, swath := r.id }
      else x.releaseRead id r.id q.addr q.len := by
  unfold Chip.presentRead
  dsimp only
  cases x.sgt.swaths.find? fun r => r.buffer == (x.psw.bufferAt q.addr.toNat).1 with
  | none => rfl
  | some r => simp only [ne_eq, ite_not, beq_iff_eq, ← Swath.live_eq_false_iff, ← Bool.not_eq_true]

/-- Settles O11: the window, then the record of the buffer the read names. -/
theorem headReadIsClassified : Obligations.HeadReadIsClassified := by
  intro q s out credit form
  rw [exec_headRead q s out, s.chip.hPortRead_accepted q credit form, Chip.presentRead_eq]
  simp only [Chip.holdRead_eq]
  rfl

/-! ## The arming test (R19 to R22, R28) -/

/-- The note of a held read that is released (R28). -/
def HeldRead.note (p : PortSwitch) (h : HeldRead) : ReadNote :=
  { id := h.id, swath := h.swath, offset := (p.bufferAt h.addr.toNat).2, len := h.len }

/-- Held reads are released one after the other, in the order of their queue (R28). -/
theorem Chip.foldl_releaseRead (x : Chip) (l : List HeldRead) :
    l.foldl (fun y r => y.releaseRead r.id r.swath r.addr r.len) x = { x with
      sgt := { x.sgt with notes := x.sgt.notes ++ l.map (HeldRead.note x.psw) }
      psw := { x.psw with hQueue := x.psw.hQueue ++ l.map fun h => .read h.id h.addr h.len } } := by
  induction l generalizing x with
  | nil => simp
  | cons a l ih =>
    rw [List.foldl_cons, ih]
    simp only [Chip.releaseRead, Chip.onSgt, Chip.onPsw, List.append_assoc, List.map_cons, List.singleton_append]
    rfl

theorem Chip.releaseHeld_eq (x : Chip) : x.releaseHeld = { x with
    sgt := { x.sgt with
      holdQueue := [], holdTimer := none, notes := x.sgt.notes ++ x.sgt.holdQueue.map (HeldRead.note x.psw) }
    psw := { x.psw with hQueue := x.psw.hQueue ++ x.sgt.holdQueue.map fun h => .read h.id h.addr h.len } } := by
  unfold Chip.releaseHeld
  rw [Chip.foldl_releaseRead]
  rfl

theorem Chip.platenReady_iff (x : Chip) (r : Swath) : x.platenReady r = true ↔
    ∃ h, x.platen = some h ∧ h.id = r.sheet ∧ (h.state = .ready ∨ h.state = .printing) ∧ h.cancel = false ∧
      x.fdc.positioned = some r.index := by
  unfold Chip.platenReady
  cases x.platen with
  | none => simp
  | some h => simp [and_assoc]

/-- The amounts of R20: the projected marks and the planned spit marks, in nL rounded up. -/
theorem Chip.askAmount_eq (x : Chip) (r : Swath) (spit : Six (List Nat)) : x.askAmount r spit = fun k =>
    if (x.account k).inkType = 0 then 0
    else ((r.projection.get k +
      workingNozzles x.nmn.outList k (spit.get k) * min (x.nmn.spit.get k).spitCount x.sgt.spitColumns) *
        (x.account k).dropVolume + 999) / 1000 := by
  funext k
  simp only [Chip.askAmount, Account.used_iff, ne_eq, ite_not]
  rfl

theorem Chip.arm_eq (x : Chip) (r : Swath) (spit : Six (List Nat)) (amounts : Six Nat) : x.arm r spit amounts =
    (((((x.reserve .swath amounts).onSgt fun g =>
      { g with
        claim := .swath
        swaths := g.swaths.map fun a =>
          if a.id = r.id then { a with spitSet := spit, reservation := amounts, state := .armed } else
            a }).releaseHeld.markStatus 10).refreshStatus x).onNmn fun n => { n with held := true }).markStatus 12 := by
  unfold Chip.arm
  dsimp only
  rw [Chip.onSwath_eq]
  rfl

theorem Chip.askWake_eq (x : Chip) (r : Swath) : x.askWake r =
    if (x.svc.location = .station ∨ x.svc.location = .capped) ∧ x.sgt.wakeAskedFor ≠ some r.id then
      { x with sgt := { x.sgt with wakeAskedFor := some r.id }, svc := { x.svc with wakeAsk := some r.id } }
    else x := by
  unfold Chip.askWake
  refine if_congr ?_ rfl rfl
  simp only [Bool.and_eq_true, Bool.or_eq_true, beq_iff_eq, bne_iff_ne]

section
variable (x : Chip) {r : Swath} (candidate : x.armingCandidate = some r)
include candidate

theorem Chip.armingTest_unready (unready : ¬ (x.platenReady r && x.sgt.claim == .free && !x.hasEligible) = true) :
    x.armingTest = x := by
  simp only [Chip.armingTest, candidate, if_neg unready]

theorem Chip.armingTest_ready (ready : (x.platenReady r && x.sgt.claim == .free && !x.hasEligible) = true) :
    x.armingTest =
      if x.svc.location = .printSide then
        if x.canReserve (.of (x.askAmount r x.spitSet)) = true then x.arm r x.spitSet (.of (x.askAmount r x.spitSet))
        else x.refuseReservation (.of (x.askAmount r x.spitSet))
      else x.askWake r := by
  simp only [Chip.armingTest, candidate, if_pos ready, beq_iff_eq]

end

theorem Chip.armingCandidate_eq (x : Chip) (running : x.cmi.partState = .running) (idle : x.liveSwath = none) :
    x.armingCandidate = x.nextRecord := by
  simp [Chip.armingCandidate, running, idle]

/-- Settles O20: the release of the held reads as one update, and the test by its conditions and the carriage's place. -/
theorem armingTestByItsConditions : Obligations.ArmingTestByItsConditions := by
  refine ⟨Chip.releaseHeld_eq, ?_⟩
  intro x r running idle next ready spit amounts
  have candidate : x.armingCandidate = some r := (x.armingCandidate_eq running idle).trans next
  have asked : Six.of (x.askAmount r x.spitSet) = amounts := congrArg Six.of (x.askAmount_eq r spit)
  have tested : (x.platenReady r && x.sgt.claim == .free && !x.hasEligible) = true ↔ ready := by
    simp only [Bool.and_eq_true, x.platenReady_iff, beq_iff_eq, Bool.not_eq_true', and_assoc, ready]
  refine ⟨fun unready => x.armingTest_unready candidate (mt tested.mp unready), ?_, ?_, ?_, ?_, ?_⟩
  all_goals
    intro meets location
    rw [x.armingTest_ready candidate (tested.mpr meets), asked]
  · intro granted
    rw [if_pos location, if_pos granted, Chip.arm_eq]
    rfl
  · intro refused
    rw [if_pos location, if_neg (Bool.eq_false_iff.mp refused)]
  · intro unasked
    rw [if_neg (by rcases location with l | l <;> simp [l]), Chip.askWake_eq, if_pos ⟨location, unasked⟩]
  · intro asked
    rw [if_neg (by rcases location with l | l <;> simp [l]), Chip.askWake_eq, if_neg (by simp [asked])]
  · rw [if_neg (by simp [location]), Chip.askWake_eq, if_neg (by simp [location])]

/-! ## The hold timer (R30, R123) -/

theorem Chip.holdsWithheld_eq (x : Chip) : x.holdsWithheld = x.holdsAnswered := by
  have entries : withheldEntries x.psw.hInFlight x.sgt.holdQueue = x.psw.hInFlight.map fun e =>
      if x.sgt.holdQueue.any fun h => h.id == e.id then { e with phase := .answered .withheld [] } else e := by
    refine List.map_congr_left fun e _ => if_congr ?_ rfl rfl
    simp
  unfold Chip.holdsWithheld Chip.holdsAnswered
  rw [entries]

theorem Chip.holdExpired_due (x : Chip) {t : Nat} {h : HeldRead} {rest : List HeldRead} {r : Swath}
    (timer : x.sgt.holdTimer = some t) (due : t ≤ x.now) (held : x.sgt.holdQueue = h :: rest)
    (record : (x.sgt.swaths.find? fun a => a.id == h.swath) = some r) :
    x.holdExpired =
      ((((x.holdsAnswered.showChange x 10).unbindSheet r.sheet).journal
        (.swathWithheld r.sheet r.index x.sgt.holdQueue.length x.sgt.holdLimit)).spoil r.sheet) := by
  have waited : (x.sgt.holdQueue.head?.bind fun r => x.swathById r.swath) = some r := by
    rw [held]
    exact record
  simp only [Chip.holdExpired, x.ranOut_of_due timer due, if_true, waited, Chip.dropHeld_all, Chip.holdsWithheld_eq]
  rfl

/-- The mark of a spoiled sheet (R123). -/
theorem Chip.markSpoiled_eq (x : Chip) (id : Nat) : (x.onSheet id fun a => { a with cause := some .spoiled }) =
    x.feedStage fun d => { d with
      sheets := d.sheets.map fun a => if a.id = id then { a with cause := some .spoiled } else a } := by
  simp only [Chip.onSheet, beq_iff_eq]

/-- Settles O41: the expiry with its reads, swaths and record, and the spoil by the sheet's state. -/
theorem holdTimerRunsOut : Obligations.HoldTimerRunsOut := by
  refine ⟨fun s t h rest r out timer due held record => ?_, fun x id h found => ?_⟩
  · exact s.event_next Chip.holdExpired out (s.chip.holdExpired_due timer due held record)
  · have sheet : x.sheet id = some h := found
    dsimp only
    rw [← Chip.markSpoiled_eq]
    refine ⟨?_, fun state => ?_, ?_, ?_⟩
    · rintro (state | state) <;> simp only [Chip.spoil, sheet, state]
    · simp only [Chip.spoil, sheet, state]
    · rintro (state | state) <;> simp only [Chip.spoil, sheet, state]
    · rintro (state | state | state | state) <;> simp only [Chip.spoil, sheet, state]

end Sys2Proof.Machine
end

section
/-! PROOFS. The service controller (chapter 6): LOAD PROGRAM and RUN PROGRAM, its triggers and its timers. -/

namespace Sys2Proof.Machine

/-! ## The request list (R103) -/

theorem Chip.listed_iff (x : Chip) (p : Fin 8) : x.listed p = true ↔ ∃ e ∈ x.svc.requests, e.program = p := by
  simp [Chip.listed]

theorem Chip.cycleProgram_iff (x : Chip) (p : Fin 8) :
    x.cycleProgram = some p ↔ x.svc.cycle.state.busy = true ∧ x.svc.cycle.kind = some (.program p) := by
  unfold Chip.cycleProgram
  cases x.svc.cycle.state.busy with
  | false => simp
  | true =>
    cases x.svc.cycle.kind with
    | none => simp
    | some kind => cases kind <;> simp

theorem Chip.listProgram_unlisted (x : Chip) (p : Fin 8) (cause : RequestCause) (unlisted : ¬ x.listed p = true) :
    x.listProgram p cause =
      ((x.onSvc fun v => { v with requests := v.requests ++ [{ program := p, cause := cause, time := x.rpw.timeBase }] }).markStatus
        11).callArming :=
  if_neg unlisted

/-! ## LOAD PROGRAM and RUN PROGRAM (R94, R95, R103) -/

theorem TriggerKind.ofCode_getD (n : Nat) : (TriggerKind.ofCode n).getD .command =
    match n with
    | 1 => .sheets
    | 2 => .printTime
    | 3 => .nozzle
    | 4 => .idle
    | _ => .command := by
  match n with
  | 0 | 1 | 2 | 3 | 4 | _ + 5 => rfl

theorem Urgency.ofCode_getD (n : Nat) : (Urgency.ofCode n).getD .boundary = if n = 0 then .midSheet else .boundary := by
  match n with
  | 0 | 1 | _ + 2 => rfl

theorem Urgency.ofCode_isNone_iff (n : Nat) : (Urgency.ofCode n).isNone = true ↔ 1 < n := by
  match n with
  | 0 | 1 | _ + 2 => simp [Urgency.ofCode]

theorem StepKind.ofCode_getD (n : Nat) : (StepKind.ofCode n).getD .carriageReturn =
    match n with
    | 0 => .park
    | 1 => .wipe
    | 2 => .prime
    | 3 => .check
    | 4 => .cap
    | 5 => .uncap
    | 6 => .wait
    | _ => .carriageReturn := by
  match n with
  | 0 | 1 | 2 | 3 | 4 | 5 | 6 | 7 | _ + 8 => rfl

theorem StepKind.ofCode_isNone_iff (n : Nat) : (StepKind.ofCode n).isNone = true ↔ 7 < n := by
  match n with
  | 0 | 1 | 2 | 3 | 4 | 5 | 6 | 7 | _ + 8 => simp [StepKind.ofCode]

/-- The six channels are the six low bits of a mask (R1). -/
theorem emptyMask_iff (m : BitVec 8) : emptyMask m = true ↔ m.toNat % 64 = 0 := by
  have low : (m &&& 0x3F#8).toNat = m.toNat % 64 := Nat.and_two_pow_sub_one_eq_mod m.toNat 6
  rw [emptyMask, beq_iff_eq, ← BitVec.toNat_inj, low]
  rfl

end Sys2Proof.Machine

namespace Sys2Proof

open Machine

theorem StepArgs.kindBad_eq : StepArgs.kindBad = fun st => decide (7 < st.kind.toNat) := by
  funext st
  rw [Bool.eq_iff_iff, decide_eq_true_iff]
  exact StepKind.ofCode_isNone_iff _

/-- Condition 7 of R95 by the step's kind. -/
theorem StepArgs.argumentBad_eq : StepArgs.argumentBad = fun st =>
    let outOf := fun lo hi : Nat => st.parameter.toNat < lo ∨ hi < st.parameter.toNat
    decide (st.kind.toNat = 2 ∧ (st.mask.toNat % 64 = 0 ∨ outOf 1 5000) ∨ st.kind.toNat = 3 ∧ st.mask.toNat % 64 = 0 ∨
      st.kind.toNat = 6 ∧ outOf 1 60000) := by
  funext st
  rw [Bool.eq_iff_iff, decide_eq_true_iff]
  unfold StepArgs.argumentBad
  generalize st.kind.toNat = kind
  match kind with
  | 2 => simp [StepKind.ofCode, emptyMask_iff, outside_iff]
  | 3 => simp [StepKind.ofCode, emptyMask_iff]
  | 6 => simp [StepKind.ofCode, outside_iff]
  | 0 | 1 | 4 | 5 | 7 | _ + 8 => simp [StepKind.ofCode]

theorem LoadProgramArgs.triggerBad_iff (a : LoadProgramArgs) : a.triggerBad = true ↔
    let trigger := a.triggerKind.toNat
    let parameter := a.triggerParameter.toNat
    4 < trigger ∨ trigger = 0 ∧ parameter ≠ 0 ∨ trigger = 1 ∧ (parameter < 1 ∨ 255 < parameter) ∨
      trigger = 2 ∧ (parameter < 1 ∨ 1440 < parameter) ∨ trigger = 3 ∧ (parameter < 1 ∨ 96 < parameter) ∨
      trigger = 4 ∧ (parameter < 10 ∨ 3600 < parameter) := by
  unfold LoadProgramArgs.triggerBad
  dsimp only
  generalize a.triggerKind.toNat = trigger
  match trigger with
  | 0 => simp [TriggerKind.ofCode, TriggerKind.parameterOk]
  | 1 | 2 | 3 | 4 => simp [TriggerKind.ofCode, TriggerKind.parameterOk, outside_iff]
  | _ + 5 => simp [TriggerKind.ofCode]

theorem LoadProgramArgs.durationBad_iff (a : LoadProgramArgs) : a.durationBad = true ↔
    1 < a.urgency.toNat ∨ a.duration.toNat < 1 ∨ 600000 < a.duration.toNat := by
  rw [LoadProgramArgs.durationBad, Bool.or_eq_true, Urgency.ofCode_isNone_iff, outside_iff]

theorem LoadProgramArgs.runs_iff (a : LoadProgramArgs) : (a.stepCount != 0#8) = true ↔ 1 ≤ a.stepCount.toNat := by
  rw [bne_iff_ne, ne_eq, ← BitVec.toNat_inj, Nat.one_le_iff_ne_zero]
  rfl

theorem StepArgs.step_eq (st : StepArgs) : st.step =
    { kind := match st.kind.toNat with
        | 0 => .park
        | 1 => .wipe
        | 2 => .prime
        | 3 => .check
        | 4 => .cap
        | 5 => .uncap
        | 6 => .wait
        | _ => .carriageReturn
      mask := st.mask, parameter := st.parameter.toNat } := by
  rw [StepArgs.step, StepKind.ofCode_getD]

theorem LoadProgramArgs.record_eq (a : LoadProgramArgs) : a.record =
    if a.stepCount.toNat = 0 then none else some
      { trigger := match a.triggerKind.toNat with
          | 1 => .sheets
          | 2 => .printTime
          | 3 => .nozzle
          | 4 => .idle
          | _ => .command
        parameter := a.triggerParameter.toNat
        urgency := if a.urgency.toNat = 0 then .midSheet else .boundary
        duration := a.duration.toNat
        steps := (a.steps.take a.stepCount.toNat).map StepArgs.step } := by
  rw [LoadProgramArgs.record, TriggerKind.ofCode_getD, Urgency.ofCode_getD]
  exact if_congr (BitVec.toNat_inj (y := 0#8)).symm rfl rfl

end Sys2Proof

namespace Sys2Proof.Machine

/-- LOAD PROGRAM in a RUNNING part is answered as the service controller answers it. -/
theorem exec_loadProgram (a : LoadProgramArgs) (s : State) (ready : s.chip.readyForCommand)
    (running : s.chip.cmi.partState = .running) (form : a.wellFormed = true) {owner : Chip × Answer}
    (h : (s.chip.taking (.loadProgram a)).doLoadProgram a = owner) :
    exec (.loadProgram a) s = .next (s.replied (.loadProgram a) owner.1 owner.2) :=
  congrArg Host.Outcome.next (s.command_owner (.loadProgram a) ready form (decodeSlot_loadProgram a form)
    ((Chip.whenRunning_of_running (s.chip.taking (.loadProgram a)) (fun y => y.doLoadProgram a) running).trans h))

/-- RUN PROGRAM in a RUNNING part is answered as the service controller answers it. -/
theorem exec_runProgram (program : BitVec 8) (s : State) (ready : s.chip.readyForCommand)
    (running : s.chip.cmi.partState = .running) {owner : Chip × Answer}
    (h : (s.chip.taking (.runProgram program)).doRunProgram program.toNat = owner) :
    exec (.runProgram program) s = .next (s.replied (.runProgram program) owner.1 owner.2) :=
  congrArg Host.Outcome.next (s.command_owner (.runProgram program) ready rfl (decodeSlot_runProgram program)
    ((Chip.whenRunning_of_running (s.chip.taking (.runProgram program)) (fun y => y.doRunProgram program.toNat) running).trans h))

theorem Chip.doLoadProgram_badProgram (x : Chip) (a : LoadProgramArgs) (bad : 7 < a.program.toNat) :
    x.doLoadProgram a = (x, .arg 1 0) :=
  dif_neg (by omega)

/-- The part when a LOAD PROGRAM has been accepted (R95, R101). -/
def Chip.programStored (x : Chip) (p : Fin 8) (record : Option Program) : Chip :=
  x.onSvc fun v => { v with
    programs := v.programs.set p record
    counters := v.counters.set p { sheets := 0, firing := 0, additions := 0, idleMark := x.rpw.timeBase, idleFired := false } }

/-- A row for the first step at fault is the case split on the search for one (R95). -/
theorem ite_stepAtFault (x : Chip) (p : StepArgs → Bool) (steps : List StepArgs) (detail : Nat) (rest : Chip × Answer) :
    (if (stepAtFault p steps).isSome = true then (x, Answer.arg detail ((stepAtFault p steps).getD 0)) else rest) =
      match steps.findIdx? p with
      | some i => (x, .arg detail (i + 1))
      | none => rest := by
  unfold stepAtFault
  cases steps.findIdx? p <;> rfl

/-- LOAD PROGRAM for one of the programs: the first row of R95 that holds refuses it, else it is stored. -/
theorem Chip.doLoadProgram_checked (x : Chip) (a : LoadProgramArgs) (p : Fin 8) (program : a.program.toNat = p.val) :
    x.doLoadProgram a =
      if (∃ e ∈ x.svc.requests, e.program = p) ∨
          (x.svc.cycle.state.busy = true ∧ x.svc.cycle.kind = some (.program p)) then (x, .state 2)
      else if 10 < a.stepCount.toNat then (x, .arg 3 0)
      else if 1 ≤ a.stepCount.toNat ∧ a.triggerBad = true then (x, .arg 4 0)
      else if 1 ≤ a.stepCount.toNat ∧ a.durationBad = true then (x, .arg 5 0)
      else match a.given.findIdx? StepArgs.kindBad with
        | some i => (x, .arg 6 (i + 1))
        | none =>
          match a.given.findIdx? StepArgs.argumentBad with
          | some i => (x, .arg 7 (i + 1))
          | none => (x.programStored p a.record, .done 0 p.val) := by
  have number : (⟨a.program.toNat, program ▸ p.isLt⟩ : Fin 8) = p := Fin.ext program
  have table : x.doLoadProgram a = x.answerBy (x.loadChecks a p) (x.programStored p a.record, .done 0 p.val) := by
    rw [← number]
    exact dif_pos (program ▸ p.isLt)
  rw [table, Chip.loadChecks]
  simp only [Chip.answerBy_cons, ite_stepAtFault, Chip.answerBy_nil, Bool.or_eq_true, x.listed_iff, beq_iff_eq,
    x.cycleProgram_iff, decide_eq_true_eq, Bool.and_eq_true, a.runs_iff]

theorem Chip.doRunProgram_badProgram (x : Chip) {program : Nat} (bad : 7 < program) : x.doRunProgram program = (x, .arg 1 0) :=
  dif_neg (by omega)

/-- RUN PROGRAM for one of the programs by the table of R103. -/
theorem Chip.doRunProgram_checked (x : Chip) {program : Nat} (p : Fin 8) (number : program = p.val) :
    x.doRunProgram program =
      if x.program p = none then (x, .state 2)
      else if ∃ e ∈ x.svc.requests, e.program = p then (x, .done 3 x.svc.requests.length)
      else (((x.onSvc fun v =>
          { v with requests := v.requests ++ [{ program := p, cause := .command, time := x.rpw.timeBase }] }).markStatus
            11).callArming, .done 4 (x.svc.requests.length + 1)) := by
  subst number
  unfold Chip.doRunProgram
  rw [dif_pos p.isLt]
  dsimp only
  refine if_congr Option.isNone_iff_eq_none rfl ?_
  by_cases listed : x.listed p = true
  · rw [if_pos listed, if_pos ((x.listed_iff p).mp listed)]
  · rw [if_neg listed, if_neg (mt (x.listed_iff p).mpr listed), x.listProgram_unlisted p .command listed]
    simp

/-- A reply that depends on a search is the reply of the case found. -/
theorem State.replied_findIdx (s : State) (c : RingCommand) (found : Option Nat) (hit : Nat → Chip × Answer) (miss : Chip × Answer) :
    s.replied c (match found with | some i => hit i | none => miss).1 (match found with | some i => hit i | none => miss).2 =
      match found with
      | some i => s.replied c (hit i).1 (hit i).2
      | none => s.replied c miss.1 miss.2 := by
  cases found <;> rfl

/-- Settles O40: the program number, then the rows of R95 and of R103 in their order. -/
theorem loadAndRunProgram : Obligations.LoadAndRunProgram := by
  refine ⟨fun a s ready running form => ⟨fun bad => ?_, fun p program => ?_⟩,
    fun program s ready running => ⟨fun bad => ?_, fun p number => ?_⟩⟩
  · have refused := exec_loadProgram a s ready running form (Chip.doLoadProgram_badProgram _ a bad)
    exact refused
  · rw [exec_loadProgram a s ready running form (Chip.doLoadProgram_checked _ a p program)]
    simp only [State.replied_ite, State.replied_findIdx, a.triggerBad_iff, a.durationBad_iff, a.record_eq,
      funext StepArgs.step_eq, StepArgs.kindBad_eq, StepArgs.argumentBad_eq] <;> rfl
  · have refused := exec_runProgram program s ready running (Chip.doRunProgram_badProgram _ bad)
    exact refused
  · rw [exec_runProgram program s ready running (Chip.doRunProgram_checked _ p number)]
    simp only [State.replied_ite]
    rfl

/-! ## Triggers (R101, R102) -/

theorem Chip.mayFire_iff (x : Chip) {p : Fin 8} {g : Program} (loaded : x.program p = some g) : x.mayFire p = true ↔
    (∀ e ∈ x.svc.requests, e.program ≠ p) ∧
      ¬ (x.svc.cycle.state.busy = true ∧ x.svc.cycle.kind = some (.program p)) := by
  simp only [Chip.mayFire, loaded, Option.isSome_some, Bool.true_and, Bool.and_eq_true, Bool.not_eq_true', ← Bool.not_eq_true,
    x.listed_iff, bne_iff_ne, ne_eq, x.cycleProgram_iff, not_exists, not_and]

/-- A program that may fire joins the request list (R103). -/
theorem Chip.listProgram_mayFire (x : Chip) {p : Fin 8} (may : x.mayFire p = true) :
    x.listProgram p .trigger =
      ((x.onSvc fun v => { v with requests := v.requests ++ [{ program := p, cause := .trigger, time := x.rpw.timeBase }] }).markStatus
        11).callArming := by
  simp only [Chip.mayFire, Bool.and_eq_true, Bool.not_eq_true'] at may
  obtain ⟨⟨-, unlisted⟩, -⟩ := may
  exact x.listProgram_unlisted p .trigger (Bool.eq_false_iff.mp unlisted)

theorem Chip.idleDue_iff (x : Chip) {p : Fin 8} {g : Program} (loaded : x.program p = some g) : x.idleDue p = true ↔
    g.trigger = .idle ∧ x.svc.idleStretch ≠ none ∧ (x.svc.counters.get p).idleFired = false ∧
      (x.svc.counters.get p).idleMark + g.parameter * 1000000 ≤ x.rpw.timeBase := by
  simp only [Chip.idleDue, loaded, Bool.and_eq_true, beq_iff_eq, Option.isSome_iff_ne_none, Bool.not_eq_true', decide_eq_true_eq,
    and_assoc]
  rfl

theorem Chip.printTimeDue_iff (x : Chip) {p : Fin 8} {g : Program} (loaded : x.program p = some g) : x.printTimeDue p = true ↔
    g.trigger = .printTime ∧ ∃ start, x.svc.firingPeriod = some start ∧
      g.parameter * 60000000 ≤ (x.svc.counters.get p).firing + (x.rpw.timeBase - start) := by
  unfold Chip.printTimeDue
  cases period : x.svc.firingPeriod with
  | none => simp [loaded]
  | some start =>
    simp only [loaded, Bool.and_eq_true, beq_iff_eq, decide_eq_true_eq, Option.some.injEq, exists_eq_left']
    rfl

theorem Chip.fireIdle_due (x : Chip) {p : Fin 8} (due : x.idleDue p = true) (may : x.mayFire p = true) :
    x.fireIdle p =
      (((x.onSvc fun v => { v with
        requests := v.requests ++ [{ program := p, cause := .trigger, time := x.rpw.timeBase }] }).markStatus 11).callArming).onSvc
        fun v => { v with counters := v.counters.set p { x.svc.counters.get p with idleFired := true } } := by
  simp only [Chip.fireIdle, due, may, Bool.and_self, if_true, x.listProgram_mayFire may]
  rfl

theorem Chip.fireIdle_not (x : Chip) {p : Fin 8} (not : ¬ (x.idleDue p = true ∧ x.mayFire p = true)) : x.fireIdle p = x :=
  if_neg (mt Bool.and_eq_true_iff.mp not)

theorem Chip.firePrintTime_due (x : Chip) {p : Fin 8} (due : x.printTimeDue p = true) (may : x.mayFire p = true) :
    x.firePrintTime p =
      ((x.onSvc fun v => { v with
        requests := v.requests ++ [{ program := p, cause := .trigger, time := x.rpw.timeBase }] }).markStatus 11).callArming := by
  simp only [Chip.firePrintTime, due, may, Bool.and_self, if_true, x.listProgram_mayFire may]

theorem Chip.firePrintTime_not (x : Chip) {p : Fin 8} (not : ¬ (x.printTimeDue p = true ∧ x.mayFire p = true)) :
    x.firePrintTime p = x :=
  if_neg (mt Bool.and_eq_true_iff.mp not)

/-- The triggers that a notice finds met fire in ascending number, each as a program not listed and not in its cycle (R102). -/
theorem Chip.fireTriggers_eq (x : Chip) (met : Program → Counters → Bool) : x.fireTriggers met =
    ([0, 1, 2, 3, 4, 5, 6, 7] : List (Fin 8)).foldl (fun (z : Chip) (p : Fin 8) =>
      match z.program p with
      | none => z
      | some g =>
        if met g (z.svc.counters.get p) = true ∧ (∀ e ∈ z.svc.requests, e.program ≠ p) ∧
            ¬ (z.svc.cycle.state.busy = true ∧ z.svc.cycle.kind = some (.program p))
        then ((z.onSvc fun v =>
          { v with requests := v.requests ++ [{ program := p, cause := .trigger, time := z.rpw.timeBase }] }).markStatus
            11).callArming
        else z) x := by
  unfold Chip.fireTriggers
  congr 1
  funext z p
  cases loaded : z.program p with
  | none => rfl
  | some g =>
    dsimp only
    by_cases may : z.mayFire p = true
    · rw [z.listProgram_mayFire may]
      exact if_congr (by rw [Bool.and_eq_true, z.mayFire_iff loaded]) rfl rfl
    · rw [if_neg (fun h => may (Bool.and_eq_true_iff.mp h).2), if_neg (fun h => may ((z.mayFire_iff loaded).mpr h.2))]

theorem mapTable_eq {α β : Type} {n : Nat} (f : α → β) (v : Vector α n) :
    mapTable f v = Vector.ofFn fun p : Fin n => f (v.get p) := by
  ext i h
  simp [mapTable, Vector.get]

theorem Chip.onCounters_eq (x : Chip) (f : Counters → Counters) : x.onCounters f =
    { x with svc := { x.svc with counters := Vector.ofFn fun p : Fin 8 => f (x.svc.counters.get p) } } := by
  unfold Chip.onCounters
  rw [← mapTable_eq]
  rfl

/-- The firing period's length added to the firing time of one program, where it is loaded (R101). -/
def Chip.firingAdded (x : Chip) (duration : Nat) (p : Fin 8) : Chip :=
  if (x.program p).isSome then
    x.onSvc fun v => { v with counters := v.counters.set p { v.counters.get p with firing := (v.counters.get p).firing + duration } }
  else x

theorem get_set_table {α : Type} {n : Nat} (v : Vector α n) (p q : Fin n) (a : α) :
    (v.set p a).get q = if q = p then a else v.get q := by
  rw [Vector.get_eq_getElem, Vector.get_eq_getElem, Vector.getElem_set]
  exact if_congr ⟨fun e => Fin.ext e.symm, fun e => e ▸ rfl⟩ rfl rfl

/-- One program's counters are added to, and nothing else is changed. -/
theorem Chip.firingAdded_eq (x : Chip) (duration : Nat) (p : Fin 8) :
    ∃ c : Vector Counters 8, x.firingAdded duration p = x.onSvc (fun v => { v with counters := c }) ∧
      ∀ q, c.get q = if q = p ∧ (x.program q).isSome = true then
        { x.svc.counters.get q with firing := (x.svc.counters.get q).firing + duration } else x.svc.counters.get q := by
  unfold Chip.firingAdded
  split
  · next loaded =>
    refine ⟨_, rfl, fun q => ?_⟩
    rw [get_set_table]
    by_cases same : q = p
    · subst same
      simp [loaded]
    · simp [same]
  · next unloaded =>
    refine ⟨x.svc.counters, rfl, fun q => ?_⟩
    refine (if_neg ?_).symm
    rintro ⟨rfl, loaded⟩
    exact unloaded loaded

/-- The additions for some of the programs: their counters, and no others, are added to. -/
theorem Chip.foldl_firingAdded (x : Chip) (duration : Nat) {l : List (Fin 8)} (distinct : l.Nodup) :
    l.foldl (fun y p => y.firingAdded duration p) x = x.onSvc fun v => { v with
      counters := Vector.ofFn fun p : Fin 8 =>
        if p ∈ l ∧ (x.program p).isSome = true then
          { v.counters.get p with firing := (v.counters.get p).firing + duration }
        else v.counters.get p } := by
  induction l generalizing x with
  | nil =>
    have same : (Vector.ofFn fun p : Fin 8 => x.svc.counters.get p) = x.svc.counters := by
      ext i h
      simp [Vector.get]
    simp [Chip.onSvc, same]
  | cons a l ih =>
    obtain ⟨absent, distinct⟩ := List.nodup_cons.mp distinct
    obtain ⟨c, added, counters⟩ := x.firingAdded_eq duration a
    rw [List.foldl_cons, added, ih _ distinct]
    refine congrArg (fun c => x.onSvc fun v => { v with counters := c }) (congrArg Vector.ofFn (funext fun p => ?_))
    show (if p ∈ l ∧ (x.program p).isSome = true then { c.get p with firing := (c.get p).firing + duration } else c.get p) = _
    rw [counters p]
    by_cases same : p = a
    · subst same
      simp [absent]
    · simp [same]

theorem mem_programNumbers (p : Fin 8) : p ∈ programNumbers := by
  revert p
  decide

theorem Chip.firingEnded_eq (x : Chip) : x.firingEnded =
    match x.svc.firingPeriod with
    | none => x
    | some start => { x with svc := { x.svc with
      firingPeriod := none
      counters := Vector.ofFn fun p : Fin 8 =>
        let c := x.svc.counters.get p
        if x.program p = none then c else { c with firing := c.firing + (x.rpw.timeBase - start) } } } := by
  unfold Chip.firingEnded
  cases x.svc.firingPeriod with
  | none => rfl
  | some start =>
    have closes := Chip.foldl_firingAdded (x.onSvc fun v => { v with firingPeriod := none }) (x.rpw.timeBase - start)
      (l := programNumbers) (by decide)
    refine Eq.trans closes ?_
    refine congrArg (fun c => x.onSvc fun v => { v with firingPeriod := none, counters := c })
      (congrArg Vector.ofFn (funext fun p => ?_))
    show (if p ∈ programNumbers ∧ (x.program p).isSome = true then _ else x.svc.counters.get p) = _
    cases loaded : x.program p with
    | none => simp
    | some g => simp [mem_programNumbers]

/-! ## The service timers (R96, R98, R101 to R103) -/

theorem Chip.stepTimeout_due (x : Chip) {t : Nat} (busy : x.svc.cycle.state.busy = true)
    (deadline : x.svc.cycle.stepDeadline = some t) (due : t ≤ x.now) : x.stepTimeout = x.endStep .timeout := by
  simp only [Chip.stepTimeout, busy, x.ranOut_of_due deadline due, Bool.and_self, if_true]

theorem Chip.waitElapsed_due (x : Chip) {t : Nat} (phase : x.svc.cycle.phase = .waiting t) (due : t ≤ x.now) :
    x.waitElapsed = x.endStep .done := by
  simp only [Chip.waitElapsed, phase, due, if_true]

theorem Chip.reservationTimeout_due (x : Chip) {t : Nat} (phase : x.svc.cycle.phase = .reserving)
    (deadline : x.svc.cycle.reservationDeadline = some t) (due : t ≤ x.now) : x.reservationTimeout = x.endStep .inkShort := by
  simp only [Chip.reservationTimeout, phase, x.ranOut_of_due deadline due, beq_self_eq_true, Bool.and_self, if_true]

theorem CycleState.busy_iff (c : CycleState) : c.busy = true ↔ c = .running ∨ c = .recovering ∨ c = .abandoning := by
  cases c <;> simp [CycleState.busy]

/-- Settles O44: the timers and the triggers that are due and those that are not, and the notices as folds over the programs. -/
theorem serviceTimersRunOut : Obligations.ServiceTimersRunOut := by
  refine ⟨fun s out => ⟨fun t busy deadline due => ?_, fun t phase due => ?_, fun t phase deadline due => ?_⟩,
    fun s p g out loaded => ?_, fun x => ?_⟩
  · exact s.event_next Chip.stepTimeout out (s.chip.stepTimeout_due ((CycleState.busy_iff _).mpr busy) deadline due)
  · exact s.event_next Chip.waitElapsed out (s.chip.waitElapsed_due phase due)
  · exact s.event_next Chip.reservationTimeout out (s.chip.reservationTimeout_due phase deadline due)
  · intro x now c unlisted entry idleDue printDue listed
    have may : x.mayFire p = true ↔ unlisted := x.mayFire_iff loaded
    have idle : x.idleDue p = true ↔ idleDue := x.idleDue_iff loaded
    have printTime : x.printTimeDue p = true ↔ printDue := x.printTimeDue_iff loaded
    rw [← may, ← idle, ← printTime]
    exact ⟨fun due may => s.event_next (fun x => x.fireIdle p) out (x.fireIdle_due due may),
      fun not => s.event_next (fun x => x.fireIdle p) out (x.fireIdle_not not),
      fun due may => s.event_next (fun x => x.firePrintTime p) out (x.firePrintTime_due due may),
      fun not => s.event_next (fun x => x.firePrintTime p) out (x.firePrintTime_not not)⟩
  · intro counting fires
    have fold (y : Chip) (met : Program → Counters → Bool) : y.fireTriggers met = fires y met := y.fireTriggers_eq met
    have counts (f : Counters → Counters) (met : Program → Counters → Bool) :
        (x.onCounters f).fireTriggers met = fires (counting f) met := by
      rw [fold, x.onCounters_eq]
    exact ⟨counts _ _, counts _ _, fold _ _, fold _ _, x.firingEnded_eq⟩

end Sys2Proof.Machine
end

section
/-! PROOFS. The steps of the service controller (chapter 6): the outcomes of a step's orders, and the end of a step. -/

namespace Sys2Proof.Machine

/-! ## What a step consumes and fires (R54, R78, R98, R99) -/

/-- A channel's groups fired where the channel is in the mask (R78). -/
theorem Chip.fireMasked_eq (x : Chip) (mask : BitVec 8) (a : Channel) :
    (if inMask mask a then x.fireChannel a else x) = x.onNmn fun n => { n with
      idle := .of fun k => if k = a ∧ inMask mask k = true then Vector.replicate 64 x.rpw.timeBase else n.idle.get k } := by
  have same (v : Six (Vector Nat 64)) (h : ∀ k, v.get k = (if k = a ∧ inMask mask k = true then
      Vector.replicate 64 x.rpw.timeBase else x.nmn.idle.get k)) :
      v = .of fun k => if k = a ∧ inMask mask k = true then Vector.replicate 64 x.rpw.timeBase else x.nmn.idle.get k :=
    Six.ext_get _ _ fun k => by rw [h k, Six.get_of]
  split
  · next masked =>
    refine congrArg (fun v => x.onNmn fun n => { n with idle := v }) (same _ fun k => ?_)
    rw [Six.get_set]
    by_cases at_a : k = a
    · subst at_a
      simp [masked, Chip.now]
    · simp [at_a]
  · next unmasked =>
    refine congrArg (fun v => x.onNmn fun n => { n with idle := v }) (same x.nmn.idle fun k => ?_)
    refine (if_neg ?_).symm
    rintro ⟨rfl, masked⟩
    exact unmasked masked

theorem Chip.fireMask_eq (x : Chip) (mask : BitVec 8) : x.fireMask mask = { x with nmn := { x.nmn with
    idle := .of fun k => if mask.getLsbD k.val = true then Vector.replicate 64 x.rpw.timeBase else x.nmn.idle.get k } } := by
  have fold (l : List Channel) (y : Chip) : l.foldl (fun y k => if inMask mask k then y.fireChannel k else y) y =
      y.onNmn fun n => { n with
        idle := .of fun k => if k ∈ l ∧ inMask mask k = true then Vector.replicate 64 y.rpw.timeBase else n.idle.get k } := by
    induction l generalizing y with
    | nil =>
      refine congrArg (fun v => y.onNmn fun n => { n with idle := v }) (Six.ext_get y.nmn.idle _ fun k => ?_)
      simp
    | cons a l ih =>
      rw [List.foldl_cons, Chip.fireMasked_eq, ih]
      refine congrArg (fun v => y.onNmn fun n => { n with idle := v }) (congrArg Six.of (funext fun k => ?_))
      by_cases at_a : k = a
      · subst at_a
        by_cases masked : inMask mask k = true
        · simp [masked]
        · simp [masked]
      · simp [at_a]
  refine (fold channels x).trans ?_
  refine congrArg (fun v => x.onNmn fun n => { n with idle := v }) (congrArg Six.of (funext fun k => ?_))
  exact if_congr (and_iff_right (mem_channels k)) rfl rfl

/-! ## The outcome of a step's order (R97) -/

section
variable (x : Chip) {step : Nat}

theorem Chip.takeStation_foreign (outcome : FrameOutcome)
    (foreign : ¬ ((x.svc.cycle.state.busy = true ∧ x.svc.nextStep = step) ∧ x.svc.cycle.phase = .ordered)) :
    x.takeStation step outcome = x := by
  refine if_neg ?_
  rwa [Bool.and_eq_true, x.isCurrentStep_iff, beq_iff_eq]

theorem Chip.takeStation_done (current : x.svc.cycle.state.busy = true ∧ x.svc.nextStep = step)
    (ordered : x.svc.cycle.phase = .ordered) (r : Reply) :
    x.takeStation step (.done r) =
      if x.svc.cycle.state = .abandoning then x.endStep .abandoned
      else x.onCycle fun c => { c with phase := .polling (x.rpw.timeBase + 50000) } := by
  have counted := x.takeStation_busyTimeout step
  rw [if_neg (not_not_intro ⟨current, ordered⟩)] at counted
  exact counted

theorem Chip.takeStation_failed (current : x.svc.cycle.state.busy = true ∧ x.svc.nextStep = step)
    (ordered : x.svc.cycle.phase = .ordered) {outcome : FrameOutcome} (failed : outcome = .absent ∨ outcome = .refused) :
    x.takeStation step outcome = x.endStep (.link outcome.kind) := by
  have taken : (x.isCurrentStep step && x.svc.cycle.phase == .ordered) = true := by
    rw [Bool.and_eq_true, x.isCurrentStep_iff, beq_iff_eq]
    exact ⟨current, ordered⟩
  rcases failed with rfl | rfl <;> exact if_pos taken

/-! ## The outcome of a station STATUS (R97 to R99, R109) -/

theorem StepPhase.isPolling_iff (p : StepPhase) : p.isPolling = true ↔ ∃ t, p = .polling t := by
  cases p <;> simp [StepPhase.isPolling]

theorem Chip.takeStationStatus_foreign (outcome : FrameOutcome)
    (foreign : ¬ ((x.svc.cycle.state.busy = true ∧ x.svc.nextStep = step) ∧ ∃ t, x.svc.cycle.phase = .polling t)) :
    x.takeStationStatus step outcome = x := by
  refine if_neg ?_
  rwa [Bool.and_eq_true, x.isCurrentStep_iff, StepPhase.isPolling_iff]

theorem Chip.endIfAbandoning_eq :
    x.endIfAbandoning = if x.svc.cycle.state = .abandoning then x.endStep .abandoned else x :=
  if_congr beq_iff_eq rfl rfl

/-- What a station STATUS does to the step that is polled, by its outcome. -/
theorem Chip.takeStationStatus_polled
    (polled : (x.svc.cycle.state.busy = true ∧ x.svc.nextStep = step) ∧ ∃ t, x.svc.cycle.phase = .polling t) :
    (∀ code, x.takeStationStatus step (.done (.station .done code)) = x.stationDone) ∧
    (∀ code, x.takeStationStatus step (.done (.station .fault code)) = x.endStep (.fault code)) ∧
    (∀ code, x.takeStationStatus step (.done (.station .busy code)) = x.endIfAbandoning) ∧
    (∀ outcome : FrameOutcome, (∀ r, outcome ≠ .done r) → x.takeStationStatus step outcome = x.endIfAbandoning) := by
  have taken : (x.isCurrentStep step && x.svc.cycle.phase.isPolling) = true := by
    rwa [Bool.and_eq_true, x.isCurrentStep_iff, StepPhase.isPolling_iff]
  refine ⟨fun code => if_pos taken, fun code => if_pos taken, fun code => if_pos taken, fun outcome failed => ?_⟩
  cases outcome with
  | done r => exact absurd rfl (failed r)
  | absent | refused | busyTimeout | checkError => exact if_pos taken

/-! ## The outcome of a CHECK PAGE (R99) -/

theorem Chip.takeCheckPage_foreign {page : Nat} (outcome : FrameOutcome)
    (foreign : ¬ ((x.svc.cycle.state.busy = true ∧ x.svc.nextStep = step) ∧ x.svc.cycle.phase = .paging page)) :
    x.takeCheckPage page step outcome = x := by
  refine if_neg ?_
  rwa [Bool.and_eq_true, x.isCurrentStep_iff, beq_iff_eq]

section
variable {page : Nat} (current : x.svc.cycle.state.busy = true ∧ x.svc.nextStep = step)
  (paging : x.svc.cycle.phase = .paging page)
include current paging

theorem Chip.takeCheckPage_failed {outcome : FrameOutcome} (failed : ∀ r, outcome ≠ .done r) :
    x.takeCheckPage page step outcome = x.endStep (.link outcome.kind) := by
  have taken : (x.isCurrentStep step && x.svc.cycle.phase == .paging page) = true := by
    rw [Bool.and_eq_true, x.isCurrentStep_iff, beq_iff_eq]
    exact ⟨current, paging⟩
  cases outcome with
  | done r => exact absurd rfl (failed r)
  | absent | refused | busyTimeout | checkError => exact if_pos taken

/-- A page joins the report; the next is asked for, the run of pages is too long, or the report is handed over (R99). -/
theorem Chip.takeCheckPage_page (more : Bool) (entries : List (Nat × Nat)) :
    x.takeCheckPage page step (.done (.page more entries)) =
      let y := x.onCycle fun c => { c with report := c.report ++ entries, pages := c.pages + 1 }
      if more = false then (y.takeReport x.svc.cycle.mask (x.svc.cycle.report ++ entries)).endStep .done
      else if 127 ≤ page then y.endStep .checkOverrun
      else if x.svc.cycle.state = .abandoning then y.endStep .abandoned
      else (y.onCycle fun c => { c with phase := .paging (page + 1) }).offer (.checkPage (page + 1) step) := by
  have taken : (x.isCurrentStep step && x.svc.cycle.phase == .paging page) = true := by
    rw [Bool.and_eq_true, x.isCurrentStep_iff, beq_iff_eq]
    exact ⟨current, paging⟩
  have taking : x.takeCheckPage page step (.done (.page more entries)) = x.takePage page more entries := if_pos taken
  rw [taking, ← current.2]
  unfold Chip.takePage
  dsimp only
  cases more with
  | false => rfl
  | true =>
    have pages : Config.checkPages = 128 := rfl
    have never : ¬ (true = false) := Bool.noConfusion
    by_cases last : 127 ≤ page
    · rw [if_pos rfl, pages, if_neg (show ¬ page + 1 < 128 by omega), if_neg never, if_pos last]
    · rw [if_pos rfl, pages, if_pos (show page + 1 < 128 by omega), if_neg never, if_neg last]
      exact if_congr beq_iff_eq rfl rfl

end

end

/-- A consumption leaves the number of the current step alone. -/
theorem Chip.nextStep_applyConsumed (x : Chip) (k : Channel) (n : Nat) (source : InkSource) :
    (x.applyConsumed k n source).svc.nextStep = x.svc.nextStep := by
  have noted (a : Account) : ((x.lowered k n).shortfallNoted k a n).svc.nextStep = x.svc.nextStep := by
    unfold Chip.shortfallNoted
    split
    · rw [Chip.svc_journal]
      rfl
    · rfl
  have drawn (y : Chip) (h : Holder) : (y.drawn k h n source).svc.nextStep = y.svc.nextStep := by
    unfold Chip.drawn
    split
    · cases h <;> rfl
    · rfl
  have told (y : Chip) (old : LevelStatus) : (y.journalLevelStatus k old).svc = y.svc := by
    rw [Chip.journalLevelStatus_eq]
    dsimp only
    split
    · rfl
    · exact Chip.svc_journal ..
  rw [Chip.applyConsumed_eq, Chip.svc_refillTested, told, drawn, noted]

theorem Chip.nextStep_consume (x : Chip) (k : Channel) (pl : Nat) (source : InkSource) :
    (x.consume k pl source).svc.nextStep = x.svc.nextStep := by
  by_cases used : (x.account k).inkType = 0
  · rw [x.consume_of_unused k pl source used]
  · rw [x.consume_of_used k pl source used]
    dsimp only
    split <;> exact Chip.nextStep_applyConsumed ..

theorem Chip.nextStep_consumeCheck (x : Chip) (mask : BitVec 8) : (x.consumeCheck mask).svc.nextStep = x.svc.nextStep :=
  foldl_view (fun y : Chip => y.svc.nextStep) _ (fun y k => by split <;> simp [y.nextStep_consume]) channels x

/-- The end of a step's order that the station has carried out, by its kind (R97 to R99, R78). -/
theorem Chip.stationDone_eq (x : Chip) {step : Nat} (current : x.svc.nextStep = step) :
    x.stationDone =
      let c := x.svc.cycle
      match c.current.kind with
      | .prime =>
        ((((x.consumePrime c.mask c.current.parameter).release .prime).onCycle fun c =>
          { c with granted := false, primeRemaining := .all 0 }).fireMask c.mask).endStep .done
      | .check =>
        let y := (x.consumeCheck c.mask).fireMask c.mask
        if c.state = .abandoning then y.endStep .done
        else (y.onCycle fun c => { c with phase := .paging 0 }).offer (.checkPage 0 step)
      | .uncap => x.fireAll.endStep .done
      | .park => x.endStep .done
      | .wipe => x.endStep .done
      | .cap => x.endStep .done
      | .wait => x.endStep .done
      | .carriageReturn => x.endStep .done := by
  subst current
  unfold Chip.stationDone
  dsimp only
  cases x.svc.cycle.current.kind with
  | check =>
    have current : ((x.consumeCheck x.svc.cycle.mask).fireMask x.svc.cycle.mask).svc.nextStep = x.svc.nextStep := by
      rw [Chip.fireMask_eq]
      exact x.nextStep_consumeCheck _
    dsimp only
    rw [current]
    exact if_congr beq_iff_eq rfl rfl
  | prime | uncap | park | wipe | cap | wait | carriageReturn => rfl

/-- Settles O51: the folds over the channels, then each outcome by the lemma for it. -/
theorem stationOutcomesAreTaken : Obligations.StationOutcomesAreTaken := by
  refine ⟨fun x mask ul => ⟨rfl, rfl, x.fireMask_eq mask, rfl⟩, ?_⟩
  intro s since step f out c now current abandoning
  refine ⟨fun so link => ⟨fun foreign => ?_, fun held ordered done => ?_, fun held ordered failed => ?_⟩,
    fun link => ⟨fun foreign => ?_, fun code polled done => ?_, fun code polled fault => ?_, fun code polled busy => ?_,
      fun polled failed => ?_⟩,
    fun page link => ⟨fun foreign => ?_, fun held paging failed => ?_, fun more entries held paging done => ?_⟩⟩
  · exact exec_ending_of_taken s f out link rfl (Chip.takeStation_foreign _ _ foreign)
  · exact exec_ending_of_taken s f out link done (Chip.takeStation_done (s.chip.frameOver _) held ordered .none)
  · exact exec_ending_of_taken s f out link rfl (Chip.takeStation_failed (s.chip.frameOver _) held ordered failed)
  · exact exec_ending_of_taken s f out link rfl (Chip.takeStationStatus_foreign _ _ foreign)
  · obtain ⟨taken, -, -, -⟩ := Chip.takeStationStatus_polled (s.chip.frameOver ((LinkOrder.stationStatus step).wire f)) polled
    exact exec_ending_of_taken s f out link done ((taken code).trans (Chip.stationDone_eq _ polled.1.2))
  · obtain ⟨-, taken, -, -⟩ := Chip.takeStationStatus_polled (s.chip.frameOver ((LinkOrder.stationStatus step).wire f)) polled
    exact exec_ending_of_taken s f out link fault (taken code)
  · obtain ⟨-, -, taken, -⟩ := Chip.takeStationStatus_polled (s.chip.frameOver ((LinkOrder.stationStatus step).wire f)) polled
    exact exec_ending_of_taken s f out link busy ((taken code).trans (Chip.endIfAbandoning_eq _))
  · obtain ⟨-, -, -, taken⟩ := Chip.takeStationStatus_polled (s.chip.frameOver ((LinkOrder.stationStatus step).wire f)) polled
    exact exec_ending_of_taken s f out link rfl
      ((taken _ (FrameOutcome.ne_done failed)).trans (Chip.endIfAbandoning_eq _))
  · exact exec_ending_of_taken s f out link rfl (Chip.takeCheckPage_foreign _ _ foreign)
  · exact exec_ending_of_taken s f out link rfl
      (Chip.takeCheckPage_failed (s.chip.frameOver _) held paging (FrameOutcome.ne_done failed))
  · exact exec_ending_of_taken s f out link done (Chip.takeCheckPage_page (s.chip.frameOver _) held paging more entries)

/-! ## The end of a step and of a cycle (R98, R100, R106 to R109) -/

/-- The carriage after a step that has ended DONE, by the table of R100. -/
theorem StepKind.locationAfter_eq (kind : StepKind) (l : Location) : kind.locationAfter l =
    match kind with
    | .park => if l = .stranded then .stranded else .station
    | .uncap => if l = .stranded then .stranded else .station
    | .cap => if l = .stranded then .stranded else .capped
    | .carriageReturn => .printSide
    | .wipe => l
    | .prime => l
    | .check => l
    | .wait => l := by
  cases kind <;> simp [StepKind.locationAfter]

theorem Chip.setLocation_cycle (x : Chip) (l : Location) : (x.setLocation l).svc.cycle = x.svc.cycle := by
  unfold Chip.setLocation
  split <;> rfl

/-- The end of a cycle of a kind: its record, the last cycle, and no cycle (R93, R106). -/
theorem Chip.endCycle_eq (x : Chip) {kind : CycleKind} (cycle : x.svc.cycle.kind = some kind) (outcome : StepOutcome)
    (recovery : Recovery) : x.endCycle outcome recovery =
      ((x.journal (.service kind outcome x.svc.cycle.stepReached (x.svc.cycle.reachedKind.getD .carriageReturn) recovery
        x.svc.location (Config.durationMs (x.now - x.svc.cycle.startTime)))).onSvc fun v =>
          { v with
            lastCycle := some { kind := kind, outcome := outcome, stepReached := v.cycle.stepReached }
            cycle := .idle }).markStatus 11 := by
  simp only [Chip.endCycle, cycle]
  rfl

section
variable (x : Chip)

theorem Chip.endStep_done (running : x.svc.cycle.state = .running) :
    x.endStep .done = (x.closeStep.setLocation (x.svc.cycle.current.kind.locationAfter x.closeStep.svc.location)).runSteps
      (x.svc.cycle.steps.drop x.svc.cycle.stepReached) := by
  simp [Chip.endStep, running]

theorem Chip.endStep_failed {outcome : StepOutcome} (running : x.svc.cycle.state = .running) (failed : outcome ≠ .done) :
    x.endStep outcome = x.closeStep.runningFailed outcome := by
  simp [Chip.endStep, running, failed]

theorem Chip.endStep_recovering (recovering : x.svc.cycle.state = .recovering) (outcome : StepOutcome) :
    x.endStep outcome = x.closeStep.recovered outcome := by
  simp [Chip.endStep, recovering]

theorem Chip.runningFailed_program {p : Fin 8} (program : x.svc.cycle.kind = some (.program p)) (outcome : StepOutcome) :
    x.runningFailed outcome = x.recover outcome := by
  simp only [Chip.runningFailed, program]

theorem Chip.runningFailed_wake (wake : x.svc.cycle.kind = some .wake) (outcome : StepOutcome) :
    x.runningFailed outcome = (((x.setLocation .stranded).endCycle outcome .none).freeClaim).wakeEnded := by
  simp only [Chip.runningFailed, wake]

theorem Chip.recovered_done {failure : StepOutcome} (cause : x.svc.cycle.failure = some failure) :
    x.recovered .done = ((x.setLocation .printSide).endCycle failure .returned).freeClaim := by
  simp [Chip.recovered, cause]

theorem Chip.recovered_failed {failure outcome : StepOutcome} (cause : x.svc.cycle.failure = some failure)
    (failed : outcome ≠ .done) :
    x.recovered outcome = ((x.setLocation .stranded).endCycle failure .stranded).freeClaim := by
  simp [Chip.recovered, cause, failed]

/-- The last step of a program has ended DONE (R106). -/
theorem Chip.runSteps_nil_program {p : Fin 8} (program : x.svc.cycle.kind = some (.program p)) :
    Chip.runSteps [] x = ((x.resetCounters p).endCycle .done .none).freeClaim := by
  simp only [Chip.runSteps, Chip.cycleSucceeds, program]

theorem Chip.runSteps_nil_wake (wake : x.svc.cycle.kind = some .wake) :
    Chip.runSteps [] x = ((x.endCycle .done .none).freeClaim).wakeEnded := by
  simp only [Chip.runSteps, Chip.cycleSucceeds, wake]

/-- A step begins; one that has nothing to do ends at once (R96). -/
theorem Chip.runSteps_cons (st : ServiceStep) (rest : List ServiceStep) : Chip.runSteps (st :: rest) x =
    let mask := if st.kind = .prime ∨ st.kind = .check then x.usedMask st.mask else st.mask
    let opened := ((x.onCycle fun c => { c with stepReached := c.stepReached + 1 }).openStep st mask).showChange x 11
    if (st.kind = .prime ∨ st.kind = .check) ∧ mask = 0#8 then Chip.runSteps rest opened.closeStep
    else opened.actStep st := by
  simp only [Chip.runSteps, ServiceStep.nothingToDo, Chip.stepMask, Bool.and_eq_true, Bool.or_eq_true, beq_iff_eq]

end

/-- The bits of a channel mask are the channels that meet its test (R1). -/
theorem maskOf_getLsbD (p : Channel → Bool) (k : Channel) : (maskOf p).getLsbD k.val = p k := by
  have fold (l : List Channel) (m : BitVec 8) :
      (l.foldl (fun m k => if p k then m ||| (1#8 <<< k.val) else m) m).getLsbD k.val =
        (m.getLsbD k.val || (decide (k ∈ l) && p k)) := by
    induction l generalizing m with
    | nil => simp
    | cons a l ih =>
      have bit : (1#8 <<< a.val).getLsbD k.val = decide (a.val = k.val) := by
        simpa [bitAt] using bitAt_getLsbD a.val true (j := k.val) (by omega)
      have head : (if p a then m ||| (1#8 <<< a.val) else m).getLsbD k.val = (m.getLsbD k.val || (decide (k = a) && p k)) := by
        by_cases here : k = a
        · subst here
          cases p k <;> simp [bit]
        · have apart : a.val ≠ k.val := fun e => here (Fin.ext e.symm)
          cases p a <;> simp [bit, here, apart]
      rw [List.foldl_cons, ih, head]
      by_cases here : k = a
      · subst here
        cases p k <;> simp
      · simp [here]
  exact (fold channels 0#8).trans (by simp [mem_channels])

theorem Chip.usedMask_getLsbD (x : Chip) (mask : BitVec 8) (k : Channel) :
    (x.usedMask mask).getLsbD k.val = (mask.getLsbD k.val && (x.account k).inkType != 0) :=
  maskOf_getLsbD _ k

/-! ## The ask of a PRIME step (R98) and the wake (R108) -/

theorem Chip.askPrime_granted (x : Chip) (granted : x.canReserve (primeAmounts x.svc.cycle.mask x.svc.cycle.current.parameter) = true) :
    x.askPrime = ((x.reserve .prime (primeAmounts x.svc.cycle.mask x.svc.cycle.current.parameter)).onCycle fun c =>
      { c with granted := true, primeRemaining := primeAmounts x.svc.cycle.mask x.svc.cycle.current.parameter
               reservationDeadline := none }).orderStep (.prime x.svc.cycle.mask x.svc.cycle.current.parameter) := by
  simp only [Chip.askPrime, granted, if_true]

theorem Chip.askPrime_refused (x : Chip) (refused : x.canReserve (primeAmounts x.svc.cycle.mask x.svc.cycle.current.parameter) = false) :
    x.askPrime = (x.onCycle fun c => { c with phase := .reserving }).refuseReservation
      (primeAmounts x.svc.cycle.mask x.svc.cycle.current.parameter) := by
  simp only [Chip.askPrime, refused, Bool.false_eq_true, if_false]

theorem Chip.serviceNext_wakeAsk (x : Chip) {id : Nat} (state : x.svc.cycle.state = .none) (none : x.hasEligible = false)
    (free : x.sgt.claim = .free) (ask : x.svc.wakeAsk = some id) : x.serviceNext = some (x.takeWakeAsk id) := by
  simp [Chip.serviceNext, state, none, free, ask]

theorem Chip.takeWakeAsk_stale (x : Chip) {id : Nat} (stale : x.nextRecord.map Swath.id ≠ some id) :
    x.takeWakeAsk id = x.clearWakeAsk :=
  if_pos (bne_iff_ne.mpr stale)

theorem Chip.takeWakeAsk_next (x : Chip) {id : Nat} (next : x.nextRecord.map Swath.id = some id) :
    x.takeWakeAsk id =
      if x.svc.location = .station ∨ x.svc.location = .capped then x.startWake else x.clearWakeAsk.wakeEnded := by
  simp only [Chip.takeWakeAsk, next, bne_self_eq_false, Bool.false_eq_true, if_false, Bool.or_eq_true, beq_iff_eq]

/-- The steps of the wake run with the claim (R108). -/
theorem Chip.startWake_eq (x : Chip) : x.startWake =
    let back : ServiceStep := { kind := .carriageReturn, mask := 0#8, parameter := 0 }
    let steps := if x.svc.location = .capped then [{ kind := .uncap, mask := 0#8, parameter := 0 }, back] else [back]
    Chip.runSteps steps { x with
      sgt := { x.sgt with claim := .service }
      svc := { x.svc with
        wakeAsk := none
        cycle := { Cycle.idle with
          state := .running, kind := some .wake, steps := steps, startTime := x.rpw.timeBase } } } := by
  simp only [Chip.startWake, wakeSteps, beq_iff_eq]
  rfl

/-- Settles O53: the end of a step by the state of its cycle, the steps that follow, and the acts of a PRIME and of a wake. -/
theorem endOfAStep : Obligations.EndOfAStep := by
  intro x outcome c now closing y ended freed moved told
  have ends (z : Chip) {kind : CycleKind} (cycle : z.svc.cycle.kind = some kind) (o : StepOutcome) (r : Recovery) :
      z.endCycle o r = ended z kind o r := z.endCycle_eq cycle o r
  have moves (z : Chip) (l : Location) : z.setLocation l = moved z l := z.setLocation_eq l
  have endsMoved (l : Location) {kind : CycleKind} (cycle : y.svc.cycle.kind = some kind) (o : StepOutcome) (r : Recovery) :
      (y.setLocation l).endCycle o r = ended (moved y l) kind o r := by
    rw [ends _ (by rw [Chip.setLocation_cycle]; exact cycle), moves]
  refine ⟨x.closeStep_eq, fun running done => ?_, fun p program running failed => ?_, fun wake running failed => ?_,
    fun kind failure cycle cause recovering => ⟨fun done => ?_, fun failed => ?_⟩, fun kind cycle abandoning => ?_,
    fun z => ⟨fun p program => ?_, fun wake => ?_, z.runSteps_cons⟩, Chip.usedMask_getLsbD, fun z st mask => rfl,
    fun z st => ?_, fun z id state none free ask => ?_⟩
  · rw [done, x.endStep_done running, moves]
    exact congrArg (fun l => Chip.runSteps _ (moved y l)) (StepKind.locationAfter_eq _ _)
  · rw [x.endStep_failed running failed, Chip.runningFailed_program _ program]
    rfl
  · rw [x.endStep_failed running failed, Chip.runningFailed_wake _ wake, endsMoved _ wake]
    rfl
  · rw [done, x.endStep_recovering recovering, Chip.recovered_done _ cause, endsMoved _ cycle]
    rfl
  · rw [x.endStep_recovering recovering, Chip.recovered_failed _ cause failed, endsMoved _ cycle]
    rfl
  · rw [x.endStep_abandoning _ abandoning, ends _ cycle]
  · rw [z.runSteps_nil_program program, ends (z.resetCounters p) program]
    rfl
  · rw [z.runSteps_nil_wake wake, ends z wake]
    rfl
  · refine ⟨?_, z.askPrime_granted, z.askPrime_refused, if_congr beq_iff_eq rfl rfl⟩
    cases kind : st.kind <;> simp only [Chip.actStep, kind] <;> rfl
  · rw [z.serviceNext_wakeAsk state none free ask]
    refine ⟨fun stale => ?_, fun next place => ?_, fun next place => ?_⟩
    · rw [z.takeWakeAsk_stale stale]
      rfl
    · rw [z.takeWakeAsk_next next, if_pos place, z.startWake_eq]
    · rw [z.takeWakeAsk_next next, if_neg (by rcases place with l | l <;> simp [l])]
      rfl

end Sys2Proof.Machine
end

section
/-! PROOFS. Cartridges and refill (chapter 4): the credit of the moved ink and the debt, the outcomes of READ TAG, LEVEL and
DEBIT. -/

namespace Sys2Proof.Machine

/-! ## The debt of a channel (R67) -/

@[simp] theorem Chip.owed_journal (x : Chip) (r : JournalRecord) (j : Channel) : (x.journal r).owed j = x.owed j := by
  simp [Chip.owed]

@[simp] theorem Chip.owed_onAccount (x : Chip) (j k : Channel) (f : Account → Account) :
    (x.onAccount k f).owed j = x.owed j := by
  simp only [Chip.owed, Chip.onAccount, Chip.onInk_ink, Six.get_set]
  split
  · next same => rw [same]
  · rfl

@[simp] theorem Chip.owed_onRefill (x : Chip) (j k : Channel) (f : Refill → Refill) :
    (x.onRefill k f).owed j = x.owed j := by
  simp only [Chip.owed, Chip.onRefill, Chip.onInk_ink, Six.get_set]
  split
  · next same => rw [same]
  · rfl

theorem Chip.owed_journalLevelStatus (x : Chip) (j k : Channel) (old : LevelStatus) :
    (x.journalLevelStatus k old).owed j = x.owed j := by
  rw [Chip.journalLevelStatus_eq]
  dsimp only
  split <;> simp

theorem Chip.discardDebt_none (x : Chip) (k : Channel) (none : x.owed k = none) : x.discardDebt k = x := by
  simp only [Chip.discardDebt, none]

theorem Chip.discardDebt_some (x : Chip) (k : Channel) {d : Owed} (some : x.owed k = some d) : x.discardDebt k =
    ((x.onInk k fun i => { i with owed := none }).showChange x (channelStatus k)).journal
      (.inkUnposted k d.serial d.amount) := by
  simp only [Chip.discardDebt, some]

/-- The debt of a channel written, whatever it was. -/
def Chip.owes (x : Chip) (k : Channel) (serial amount : Nat) : Chip :=
  x.onInk k fun i => { i with owed := some { serial := serial, amount := amount } }

@[simp] theorem Chip.owed_owes (x : Chip) (k : Channel) (serial amount : Nat) :
    (x.owes k serial amount).owed k = some { serial := serial, amount := amount } := by
  simp [Chip.owes, Chip.owed]

@[simp] theorem Chip.account_owes (x : Chip) (j k : Channel) (serial amount : Nat) :
    (x.owes k serial amount).account j = x.account j := by
  simp only [Chip.owes, Chip.account, Chip.onInk_ink, Six.get_set]
  split
  · next same => rw [same]
  · rfl

theorem Chip.account_discardDebt (x : Chip) (j k : Channel) : (x.discardDebt k).account j = x.account j := by
  cases debt : x.owed k with
  | none => rw [x.discardDebt_none k debt]
  | some d =>
    rw [x.discardDebt_some k debt, Chip.account_journal, Chip.account_showChange]
    simp only [Chip.account, Chip.onInk_ink, Six.get_set]
    split
    · next same => rw [same]
    · rfl

/-- What a credited volume adds to the debt of its serial, the debt of another serial being discarded first (R67). -/
theorem Chip.owe_eq (x : Chip) (k : Channel) (serial amount : Nat) : x.owe k serial amount =
    if amount = 0 then x
    else match x.owed k with
      | none => x.owes k serial amount
      | some d =>
        if d.serial = serial then x.owes k serial (d.amount + amount) else (x.discardDebt k).owes k serial amount := by
  cases debt : x.owed k with
  | none => simp only [Chip.owe, debt, Chip.owes]
  | some d =>
    by_cases same : d.serial = serial
    · subst same
      simp only [Chip.owe, debt, if_true, Chip.owes]
    · simp only [Chip.owe, debt, if_neg same, Chip.owes]

theorem Chip.account_owe (x : Chip) (j k : Channel) (serial amount : Nat) :
    (x.owe k serial amount).account j = x.account j := by
  rw [Chip.owe_eq]
  by_cases zero : amount = 0
  · rw [if_pos zero]
  · rw [if_neg zero]
    cases debt : x.owed k with
    | none => exact Chip.account_owes ..
    | some d =>
      dsimp only
      split
      · exact Chip.account_owes ..
      · rw [Chip.account_owes, Chip.account_discardDebt]

theorem Chip.owed_owe (x : Chip) (k : Channel) (serial amount : Nat) : (x.owe k serial amount).owed k =
    if amount = 0 then x.owed k
    else match x.owed k with
      | some d =>
        if d.serial = serial then some { d with amount := d.amount + amount } else some { serial := serial, amount := amount }
      | none => some { serial := serial, amount := amount } := by
  rw [Chip.owe_eq]
  by_cases zero : amount = 0
  · rw [if_pos zero, if_pos zero]
  · rw [if_neg zero, if_neg zero]
    cases debt : x.owed k with
    | none => exact Chip.owed_owes ..
    | some d =>
      by_cases same : d.serial = serial
      · subst same
        simp
      · simp [same]

/-! ## The credit of the moved volume (R48, R67, R71) -/

/-- The level raised by the moved volume, where the channel is used and its level KNOWN (R48). -/
def Chip.levelRaised (x : Chip) (k : Channel) : Chip :=
  if (x.account k).inkType ≠ 0 ∧ (x.account k).levelState = .known then
    (x.onAccount k fun b => { b with level := min (b.level + (x.refill k).moved * 1000) b.tankCapacity }).showChange x
      (channelStatus k)
  else x

theorem Chip.account_levelRaised (x : Chip) (k : Channel) : (x.levelRaised k).account k =
    let a := x.account k
    if a.inkType ≠ 0 ∧ a.levelState = .known then
      { a with level := min (a.level + (x.refill k).moved * 1000) a.tankCapacity } else a := by
  unfold Chip.levelRaised
  dsimp only
  split
  · rw [Chip.account_showChange, Chip.account_onAccount_same]
  · rfl

theorem Chip.owed_levelRaised (x : Chip) (j k : Channel) : (x.levelRaised k).owed j = x.owed j := by
  unfold Chip.levelRaised
  split
  · rw [Chip.owed_showChange, Chip.owed_onAccount]
  · rfl

theorem Chip.creditMoved_eq (x : Chip) (k : Channel) : x.creditMoved k =
    { ((x.levelRaised k).journalLevelStatus k (x.account k).levelStatus).owe k (x.refill k).source (x.refill k).moved with
      due := { arming := true, prime := true, admission := true } } := by
  simp only [Chip.creditMoved, Chip.levelRaised, Account.used, Account.isKnown, Bool.and_eq_true, bne_iff_ne, beq_iff_eq]
  rfl

theorem Chip.account_creditMoved (x : Chip) (k : Channel) : (x.creditMoved k).account k = (x.levelRaised k).account k := by
  rw [Chip.creditMoved_eq]
  exact (Chip.account_owe _ k k _ _).trans (Chip.account_journalLevelStatus ..)

theorem Chip.owed_creditMoved (x : Chip) (k : Channel) : (x.creditMoved k).owed k =
    let moved := (x.refill k).moved
    let source := (x.refill k).source
    if moved = 0 then x.owed k
    else match x.owed k with
      | some d =>
        if d.serial = source then some { d with amount := d.amount + moved } else some { serial := source, amount := moved }
      | none => some { serial := source, amount := moved } := by
  rw [Chip.creditMoved_eq]
  refine (Chip.owed_owe _ k _ _).trans ?_
  rw [Chip.owed_journalLevelStatus, Chip.owed_levelRaised]

/-! ## The refill IDLE, and the settling DEBIT (R67, R69, R75) -/

theorem isRefillOrderOf_eq (k : Channel) (o : LinkOrder) : isRefillOrderOf k o =
    (o == .stop k || o == .pumpStatus k || (match o with
      | .transfer j _ => j == k
      | _ => false)) := by
  rw [Bool.eq_iff_iff]
  cases o <;> simp [isRefillOrderOf]

theorem Chip.placeDebit_some (x : Chip) (k : Channel) {d : Owed} (some : x.owed k = some d) : x.placeDebit k =
    if (x.cartridge k).state ≠ .noCartridge ∧ (x.cartridge k).serial = d.serial ∧
        ∀ o ∈ x.flm.orders, isDebitOf k o = false
    then x.offer (.debit k d.amount d.serial) else x := by
  have debt : (x.ink.get k).owed = .some d := some
  have idle : (!x.flm.underWay (isDebitOf k)) = true ↔ ∀ o ∈ x.flm.orders, isDebitOf k o = false := by
    simp only [Bool.not_eq_true', ← Bool.not_eq_true, LinkMaster.underWay_iff, not_exists, not_and]
  have debtor : (x.ink.get k).holdsDebtor = true ↔
      (x.cartridge k).state ≠ .noCartridge ∧ (x.cartridge k).serial = d.serial := by
    simp [InkChannel.holdsDebtor, debt, Chip.cartridge]
  simp only [Chip.placeDebit, some]
  exact if_congr (by rw [Bool.and_eq_true, debtor, idle, and_assoc]) rfl rfl

/-- The account and the deadlines of a refill that enters DEBITING (R75). -/
def Chip.debiting (x : Chip) (k : Channel) : Chip :=
  (x.onAccount k fun a => { a with refillState := .debiting }).onRefill k fun f =>
    { f with pumpDeadline := none, stopDeadline := none, pollAt := none }

theorem Chip.enterDebiting_eq (x : Chip) (k : Channel) : x.enterDebiting k =
    if x.owed k = none then (x.debiting k).refillIdle k else (x.debiting k).placeDebit k := by
  simp only [Chip.enterDebiting, Chip.owed_onRefill, Chip.owed_onAccount, Option.isNone_iff_eq_none, Chip.debiting]

/-- Settles O50: the credit by its parts, the level raised and the debt; the way back to IDLE; the settling DEBIT. -/
theorem movedInkIsCreditedAndOwed : Obligations.MovedInkIsCreditedAndOwed := by
  intro x k
  refine ⟨x.discardDebt_none k, fun d => x.discardDebt_some k, ?_, ?_, ?_, ?_, ?_, fun none => ?_, fun owing => ?_,
    fun d => x.placeDebit_some k⟩
  · cases debt : x.owed k <;>
      rw [Chip.creditMoved_eq, Chip.owe_eq, Chip.owed_journalLevelStatus, Chip.owed_levelRaised, debt] <;> rfl
  · rw [Chip.account_creditMoved, Chip.account_levelRaised]
  · exact x.owed_creditMoved k
  · rw [Chip.creditMoved_eq]
  · have orders : isRefillOrderOf k = _ := funext (isRefillOrderOf_eq k)
    simp only [Chip.refillIdle, Room.discard, orders] <;> rfl
  · rw [Chip.enterDebiting_eq, if_pos none]
    rfl
  · rw [Chip.enterDebiting_eq, if_neg owing]
    rfl

/-! ## A cartridge's record and its state (R59, R63, R66) -/

@[simp] theorem Chip.cartridge_onCartridge_same (x : Chip) (k : Channel) (f : Cartridge → Cartridge) :
    (x.onCartridge k f).cartridge k = f (x.cartridge k) := by
  simp [Chip.cartridge, Chip.onCartridge]

@[simp] theorem Chip.refill_onCartridge (x : Chip) (j k : Channel) (f : Cartridge → Cartridge) :
    (x.onCartridge k f).refill j = x.refill j := by
  simp only [Chip.refill, Chip.onCartridge, Chip.onInk_ink, Six.get_set]
  split
  · next same => rw [same]
  · rfl

theorem InkChannel.sourcePresent_iff (i : InkChannel) :
    i.sourcePresent = true ↔ i.cartridge.state ≠ .noCartridge ∧ i.cartridge.serial = i.refill.source := by
  simp [InkChannel.sourcePresent]

theorem Chip.setCartridge_eq (x : Chip) (k : Channel) (state : CartridgeState) : x.setCartridge k state =
    let c := x.cartridge k
    if c.state = state then x
    else
      let y := ((x.onCartridge k fun c => { c with state := state }).markStatus (channelStatus k)).journal
        (.inkCartridge k c.state state c.inkType c.serial c.remaining)
      (if state = .active then y.startRefill k false else y).callAdmission := by
  simp only [Chip.setCartridge, beq_iff_eq, Chip.cartridge_markStatus, Chip.cartridge_onCartridge_same]

theorem Chip.judge_eq (x : Chip) (k : Channel) : x.judge k =
    let c := x.cartridge k
    x.setCartridge k
      (if c.inkType = 0 ∨ 15 < c.inkType ∨ c.inkType ≠ (x.account k).inkType then .wrongInk
      else if 500 ≤ c.remaining then .active else .spent) := rfl

theorem Chip.account_setCartridge (x : Chip) (j k : Channel) {state : CartridgeState} (inactive : state ≠ .active) :
    (x.setCartridge k state).account j = x.account j := by
  rw [Chip.setCartridge_eq]
  by_cases same : (x.cartridge k).state = state
  · simp [same]
  · simp [same, inactive]

theorem Chip.noticeRemaining_eq (x : Chip) (k : Channel) (old : Cartridge) : x.noticeRemaining k old =
    if old.state = .active ∧ (x.cartridge k).state = .active ∧ old.remaining ≠ (x.cartridge k).remaining then x.callAdmission
    else x := by
  simp only [Chip.noticeRemaining, Bool.and_eq_true, beq_iff_eq, bne_iff_ne, and_assoc]

/-! ## Removal, insertion, a reply with the known serial (R61 to R64, R73) -/

theorem Chip.removeCartridge_eq (x : Chip) (k : Channel) : x.removeCartridge k =
    let z := (x.onCartridge k fun c =>
      { c with serial := 0, inkType := 0, capacity := 0, remaining := 0, pollFault := false }).setCartridge k .noCartridge
    if (x.cartridge k).state ≠ .noCartridge ∧ (x.cartridge k).serial = (x.refill k).source ∧
        (x.account k).refillState = .pumping then z.enterStopping k .removed else z := by
  simp only [Chip.removeCartridge, Bool.and_eq_true, InkChannel.sourcePresent_iff, beq_iff_eq, and_assoc,
    Chip.account_setCartridge _ k k (by decide : CartridgeState.noCartridge ≠ .active), Chip.account_onCartridge]
  rfl

/-- A removal does not ask for the poll fault, which the outcome has cleared before it. -/
theorem Chip.removeCartridge_answered (x : Chip) (k : Channel) :
    (x.onCartridge k fun c => { c with pollFault := false }).removeCartridge k =
      let z := ((x.onCartridge k fun c => { c with pollFault := false }).onCartridge k fun c =>
        { c with serial := 0, inkType := 0, capacity := 0, remaining := 0, pollFault := false }).setCartridge k .noCartridge
      if (x.cartridge k).state ≠ .noCartridge ∧ (x.cartridge k).serial = (x.refill k).source ∧
          (x.account k).refillState = .pumping then z.enterStopping k .removed else z := by
  rw [Chip.removeCartridge_eq]
  simp only [Chip.cartridge_onCartridge_same, Chip.refill_onCartridge, Chip.account_onCartridge]

theorem Chip.insertCartridge_eq (x : Chip) (k : Channel) (inkType serial capacity remaining : Nat) :
    x.insertCartridge k inkType serial capacity remaining =
      let z := (x.onCartridge k fun c =>
        { c with serial := serial, inkType := inkType, capacity := capacity, remaining := remaining }).setCartridge k .reading
      match z.owed k with
      | none => z.judge k
      | some d => if d.serial = serial then z.placeDebit k else (z.discardDebt k).judge k := by
  unfold Chip.insertCartridge
  dsimp only
  split <;> simp only [*]

theorem Chip.rereadCartridge_eq (x : Chip) (k : Channel) (inkType capacity remaining : Nat)
    (present : (x.cartridge k).state ≠ .noCartridge) : x.rereadCartridge k inkType capacity remaining =
      let stored := x.onCartridge k fun c => { c with inkType := inkType, capacity := capacity, remaining := remaining }
      let y := if (x.cartridge k).state = .reading then stored else stored.judge k
      let z := if (x.cartridge k).state = .active ∧ (y.cartridge k).state = .active ∧
        (x.cartridge k).remaining ≠ (y.cartridge k).remaining then y.callAdmission else y
      if (x.cartridge k).state = .reading ∨ (z.account k).refillState = .idle then z.placeDebit k else z := by
  simp only [Chip.rereadCartridge, Chip.judgeAgain_eq, Chip.noticeRemaining_eq, Chip.cartridge_onCartridge_same, present,
    false_or, Bool.or_eq_true, beq_iff_eq]

/-! ## The outcomes of READ TAG (R61, R64, R65) -/

theorem Chip.takeReadTag_tag (x : Chip) (k : Channel) (inkType serial capacity remaining : Nat) :
    x.takeReadTag k (.done (.tag inkType serial capacity remaining)) =
      let answered := x.onCartridge k fun c => { c with pollFault := false }
      if (x.cartridge k).state = .noCartridge then answered.insertCartridge k inkType serial capacity remaining
      else if (x.cartridge k).serial = serial then answered.rereadCartridge k inkType capacity remaining
      else (answered.removeCartridge k).insertCartridge k inkType serial capacity remaining := by
  simp only [Chip.takeReadTag, beq_iff_eq, Chip.cartridge_onCartridge_same]

theorem Chip.takeReadTag_absent (x : Chip) (k : Channel) : x.takeReadTag k .absent =
    let answered := x.onCartridge k fun c => { c with pollFault := false }
    if (x.cartridge k).state = .noCartridge then answered else answered.removeCartridge k := by
  simp only [Chip.takeReadTag, beq_iff_eq, Chip.cartridge_onCartridge_same]

theorem Chip.takeReadTag_failed (x : Chip) (k : Channel) {outcome : FrameOutcome}
    (failed : outcome = .refused ∨ outcome = .checkError) : x.takeReadTag k outcome =
      if (x.cartridge k).pollFault = true then x
      else ((x.onCartridge k fun c => { c with pollFault := true }).markStatus (channelStatus k)).journal
        (.fieldFault (0x10 + k.val) 0x01 outcome.kind k none) := by
  rcases failed with rfl | rfl <;> rfl

/-- Settles O47: the end of the poll's frame, then the outcome taken; a removal and an insertion by their own lemmas. -/
theorem readTagOutcomeIsTaken : Obligations.ReadTagOutcomeIsTaken := by
  refine ⟨fun s k since f out link => ⟨fun inkType serial capacity remaining done => ⟨fun empty => ?_, fun present known => ?_,
    fun present other => ?_⟩, fun absent => ?_, fun failed => ?_⟩, fun x k => ⟨x.judge_eq k, fun state => x.setCartridge_eq k state⟩⟩
  · refine exec_ending_of_taken s f out link done ((Chip.takeReadTag_tag _ k _ _ _ _).trans ((if_pos empty).trans ?_))
    exact Chip.insertCartridge_eq ..
  · refine exec_ending_of_taken s f out link done
      ((Chip.takeReadTag_tag _ k _ _ _ _).trans ((if_neg present).trans ((if_pos known).trans ?_)))
    refine (Chip.rereadCartridge_eq _ k _ _ _ ?_).trans ?_
    · rw [Chip.cartridge_onCartridge_same]
      exact present
    · simp only [Chip.cartridge_onCartridge_same]
      rfl
  · refine exec_ending_of_taken s f out link done
      ((Chip.takeReadTag_tag _ k _ _ _ _).trans ((if_neg present).trans ((if_neg other).trans ?_)))
    refine (congrArg (fun y : Chip => y.insertCartridge k inkType serial capacity remaining)
      (Chip.removeCartridge_answered _ k)).trans ?_
    exact Chip.insertCartridge_eq ..
  · exact exec_ending_of_taken s f out link absent ((Chip.takeReadTag_absent _ k).trans
      (congrArg (ite _ _) (Chip.removeCartridge_answered _ k)))
  · exact exec_ending_of_taken s f out link rfl (Chip.takeReadTag_failed _ k failed)

/-! ## The outcome of LEVEL (R46) -/

theorem Chip.takeLevel_sensed (x : Chip) (k : Channel) (ul : Nat) : x.takeLevel k (.done (.sensed ul)) =
    let y := (x.onAccount k fun a => { a with levelReading := .idle }).showChange x (channelStatus k)
    if (x.account k).inkType = 0 then y
    else ((((y.onAccount k fun a =>
      { a with level := min (ul * 1000) a.tankCapacity, levelState := .known }).showChange y (channelStatus k)).journalLevelStatus
        k (x.account k).levelStatus).noticeInk.callAdmission).startRefill k false := by
  simp only [Chip.takeLevel, Account.used, bne_iff_ne, ne_eq, ite_not, Chip.account_showChange, Chip.account_onAccount_same]
  rfl

theorem Chip.takeLevel_failed (x : Chip) (k : Channel) {outcome : FrameOutcome} (failed : ∀ r, outcome ≠ .done r) :
    x.takeLevel k outcome = ((x.onAccount k fun a => { a with levelReading := .idle }).showChange x (channelStatus k)).journal
      (.fieldFault 0x20 0x11 outcome.kind k none) := by
  cases outcome with
  | done r => exact absurd rfl (failed r)
  | absent | refused | busyTimeout | checkError => rfl

/-! ## The outcome of DEBIT (R67, R68, R75) -/

@[simp] theorem Chip.cartridge_journal (x : Chip) (r : JournalRecord) (j : Channel) :
    (x.journal r).cartridge j = x.cartridge j := by
  simp [Chip.cartridge]

/-- The debt that a DEBIT was placed for, lowered by the amount it carried; a DEBIT without its debt makes a record (R68, log
entry 40). -/
def Chip.debitPosted (x : Chip) (k : Channel) (amount serial : Nat) : Chip :=
  match x.owed k with
  | some d =>
    if d.serial = serial then x.onInk k fun i => { i with owed := d.acknowledge amount }
    else x.journal (.fieldFault (0x10 + k.val) 0x02 .done k (some amount))
  | none => x.journal (.fieldFault (0x10 + k.val) 0x02 .done k (some amount))

theorem Chip.cartridge_debitPosted (x : Chip) (k : Channel) (amount serial : Nat) :
    (x.debitPosted k amount serial).cartridge k = x.cartridge k := by
  unfold Chip.debitPosted
  split
  · split
    · simp [Chip.cartridge]
    · simp
  · simp

/-- A cartridge in the socket is owed nothing where the channel's debt is not for its serial (log entry 22). -/
theorem InkChannel.debtSettled_iff (i : InkChannel) (present : i.cartridge.state ≠ .noCartridge) :
    i.debtSettled = true ↔ ¬ ∃ d ∈ i.owed, d.serial = i.cartridge.serial := by
  cases debt : i.owed <;> simp [InkChannel.debtSettled, InkChannel.holdsDebtor, debt, present,
    Eq.comm (a := i.cartridge.serial)]

/-- The judgement after a DEBIT: a cartridge in READING waits for its debt to be settled (R63, log entry 22). -/
def Chip.judgedAfterDebit (x : Chip) (k : Channel) (c : Cartridge) : Chip :=
  if c.state = .reading then (if ∃ d ∈ x.owed k, d.serial = c.serial then x else x.judge k) else x.judge k

theorem Chip.judgedAfterDebit_eq (x : Chip) (k : Channel) {c : Cartridge} (state : (x.cartridge k).state = c.state)
    (serial : (x.cartridge k).serial = c.serial) (present : c.state ≠ .noCartridge) :
    (if (c.state == .reading && (x.ink.get k).debtSettled) = true then x.judge k else x.judgeAgain k) =
      x.judgedAfterDebit k c := by
  have settled : (x.ink.get k).debtSettled = true ↔ ¬ ∃ d ∈ x.owed k, d.serial = c.serial := by
    rw [← serial]
    exact InkChannel.debtSettled_iff _ (state ▸ present)
  rw [Chip.judgeAgain_eq, Chip.judgedAfterDebit, state]
  simp only [Bool.and_eq_true, beq_iff_eq, settled]
  by_cases reading : c.state = .reading
  · simp only [reading, true_and, or_true, if_true, ite_not]
  · simp only [reading, present, false_and, or_self, if_false]

theorem Chip.debitDone_eq (x : Chip) (k : Channel) (amount serial ul : Nat) : x.debitDone k amount serial ul =
    let c := x.cartridge k
    let posted := x.debitPosted k amount serial
    let judged := (posted.onCartridge k fun c => { c with remaining := ul }).judgedAfterDebit k c
    if c.state = .noCartridge ∨ c.serial ≠ serial then posted
    else if c.state = .active ∧ (judged.cartridge k).state = .active ∧ c.remaining ≠ (judged.cartridge k).remaining
    then judged.callAdmission else judged := by
  have unfolded : x.debitDone k amount serial ul =
      if ((x.cartridge k).state != .noCartridge && (x.cartridge k).serial == serial) = true then
        let set := (x.debitPosted k amount serial).onCartridge k fun c => { c with remaining := ul }
        (if ((x.cartridge k).state == .reading && (set.ink.get k).debtSettled) = true then set.judge k
          else set.judgeAgain k).noticeRemaining k (x.cartridge k)
      else x.debitPosted k amount serial := rfl
  rw [unfolded]
  by_cases absent : (x.cartridge k).state = .noCartridge ∨ (x.cartridge k).serial ≠ serial
  · have not : ¬ ((x.cartridge k).state != .noCartridge && (x.cartridge k).serial == serial) = true := by
      simpa [← or_iff_not_imp_left] using absent
    exact (if_neg not).trans (if_pos absent).symm
  · have held : ((x.cartridge k).state != .noCartridge && (x.cartridge k).serial == serial) = true := by
      simpa [not_or] using absent
    have present : (x.cartridge k).state ≠ .noCartridge := fun none => absent (Or.inl none)
    rw [if_pos held]
    dsimp only
    rw [if_neg absent, Chip.judgedAfterDebit_eq _ k _ _ present, Chip.noticeRemaining_eq]
    · rw [Chip.cartridge_onCartridge_same, Chip.cartridge_debitPosted]
    · rw [Chip.cartridge_onCartridge_same, Chip.cartridge_debitPosted]

theorem Chip.debitingNext_eq (x : Chip) (k : Channel) (done : Bool) : x.debitingNext k done =
    if (x.account k).refillState ≠ .debiting then x
    else if x.owed k = none then x.refillIdle k
    else if done = true ∧ (x.ink.get k).sourcePresent = true then x.placeDebit k
    else x.refillIdle k := by
  simp only [Chip.debitingNext, beq_iff_eq, Option.isNone_iff_eq_none, Bool.and_eq_true, ne_eq, ite_not]

theorem Chip.takeDebit_reported (x : Chip) (k : Channel) (amount serial : Nat) {outcome : FrameOutcome}
    (failed : ∀ r, outcome ≠ .done r) : x.takeDebit k amount serial outcome =
      (x.journal (.fieldFault (0x10 + k.val) 0x02 outcome.kind k (some amount))).debitingNext k false := by
  cases outcome with
  | done r => exact absurd rfl (failed r)
  | absent | refused | busyTimeout | checkError => rfl

/-- Settles O48: the end of the order's frame, then what LEVEL and DEBIT set, and the table of R75 for DEBITING. -/
theorem levelAndDebitOutcomesAreTaken : Obligations.LevelAndDebitOutcomesAreTaken := by
  intro s k since f out
  refine ⟨fun link => ⟨fun ul done => ?_, fun failed => ?_⟩, fun amount serial link => ⟨fun ul done => ?_, fun failed => ?_⟩⟩
  · exact exec_ending_of_taken s f out link done (Chip.takeLevel_sensed _ k ul)
  · exact exec_ending_of_taken s f out link rfl (Chip.takeLevel_failed _ k (FrameOutcome.ne_done failed))
  · exact exec_ending_of_taken s f out link done
      ((congrArg (fun y : Chip => y.debitingNext k true) (Chip.debitDone_eq _ k amount serial ul)).trans
        (Chip.debitingNext_eq _ k true))
  · exact exec_ending_of_taken s f out link rfl
      ((Chip.takeDebit_reported _ k amount serial (FrameOutcome.ne_done failed)).trans (Chip.debitingNext_eq _ k false))

end Sys2Proof.Machine
end

section
/-! PROOFS. The end of an event: the status records that have changed, the held reads that are dropped, the idle stretch, the
responses, and a part with nothing left to do. -/

namespace Sys2Proof.Machine

/-! ## Pending status records (R168) -/

theorem Chip.markStatus_eq (x : Chip) (n : Fin 13) : x.markStatus n =
    if n ∈ x.rpw.statusSet then x else { x with rpw := { x.rpw with statusSet := x.rpw.statusSet ++ [n] } } := by
  simp only [Chip.markStatus, Chip.onRpw, ReportWriter.mark_eq, List.contains_eq_mem, decide_eq_true_eq]
  split <;> rfl

/-- Marking different records in turn appends those that are not yet pending, in the order of the marks. -/
theorem foldl_mark (same : Fin 13 → Bool) {ns : List (Fin 13)} (distinct : ns.Nodup) (w : ReportWriter) :
    ns.foldl (fun v n => if same n then v else v.mark n) w =
      { w with statusSet := w.statusSet ++ ns.filter fun n => decide (n ∉ w.statusSet ∧ same n = false) } := by
  induction ns generalizing w with
  | nil => simp
  | cons n ns ih =>
    obtain ⟨fresh, rest⟩ := List.nodup_cons.1 distinct
    rw [List.foldl_cons, ih rest, List.filter_cons]
    by_cases unmarked : n ∉ w.statusSet ∧ same n = false
    · obtain ⟨new, changed⟩ := unmarked
      have others : (ns.filter fun m => decide (m ∉ w.statusSet ++ [n] ∧ same m = false)) =
          ns.filter fun m => decide (m ∉ w.statusSet ∧ same m = false) := by
        refine List.filter_congr fun m mem => ?_
        have other : m ≠ n := fun e => fresh (e ▸ mem)
        simp [other]
      have marked : (if same n then w else w.mark n) = { w with statusSet := w.statusSet ++ [n] } := by
        simp [ReportWriter.mark_eq, new, changed]
      rw [marked, if_pos (by simpa using ⟨new, changed⟩)]
      dsimp only
      rw [others, List.append_assoc, List.singleton_append]
    · have kept : (if same n then w else w.mark n) = w := by
        by_cases shown : same n = true
        · exact if_pos shown
        · simp_all [ReportWriter.mark_eq]
      rw [kept, if_neg (by simpa using unmarked)]

theorem Chip.refreshStatus_appends (old x : Chip) : x.refreshStatus old = { x with rpw := { x.rpw with
    statusSet := x.rpw.statusSet ++ statusNumbers.filter fun n =>
      decide (n ∉ x.rpw.statusSet ∧ statusFields old n ≠ statusFields x n) } } := by
  have distinct : statusNumbers.Nodup := by decide
  simp only [Chip.refreshStatus, Chip.onRpw, foldl_mark _ distinct, beq_eq_false_iff_ne]

/-! ## Held reads for a record that is no longer the next (R29) -/

theorem Chip.dropHeld_eq (x : Chip) (p : HeldRead → Bool) : x.dropHeld p = { x with
    psw := { x.psw with hInFlight := withheldEntries x.psw.hInFlight (x.sgt.holdQueue.filter p) }
    sgt := { x.sgt with
      holdQueue := x.sgt.holdQueue.filter fun r => !p r
      holdTimer := if (x.sgt.holdQueue.filter fun r => !p r) = [] then none else x.sgt.holdTimer } } := by
  simp only [Chip.dropHeld, foldl_withhold, Chip.onPsw, Chip.onSgt, List.isEmpty_iff]

theorem Chip.dropStaleHolds_none (x : Chip) (none : x.sgt.holdQueue = []) : x.dropStaleHolds = x := by
  simp [Chip.dropStaleHolds, none]

theorem Chip.dropStaleHolds_some (x : Chip) (some : x.sgt.holdQueue ≠ []) :
    let next := x.nextRecord.map Swath.id
    let left := x.sgt.holdQueue.filter fun h => next == .some h.swath
    x.dropStaleHolds = Chip.refreshStatus { x with
      psw := { x.psw with hInFlight := x.psw.hInFlight.map fun e =>
        if ∃ h ∈ x.sgt.holdQueue, h.id = e.id ∧ next ≠ .some h.swath then { e with phase := .answered .withheld [] } else e }
      sgt := { x.sgt with holdQueue := left, holdTimer := if left = [] then none else x.sgt.holdTimer } } x := by
  intro next left
  have entries : withheldEntries x.psw.hInFlight (x.sgt.holdQueue.filter fun r => next != .some r.swath) =
      x.psw.hInFlight.map fun e =>
        if ∃ h ∈ x.sgt.holdQueue, h.id = e.id ∧ next ≠ .some h.swath then { e with phase := .answered .withheld [] } else e := by
    refine List.map_congr_left fun e _ => if_congr (exists_congr fun h => ?_) rfl rfl
    rw [List.mem_filter, bne_iff_ne, and_assoc, and_comm (a := next ≠ .some h.swath)]
  have stay : (x.sgt.holdQueue.filter fun r => !(next != .some r.swath)) = left := by
    simp only [bne, Bool.not_not, left]
  rw [Chip.dropStaleHolds, if_neg (List.isEmpty_iff.not.2 some), Chip.dropHeld_eq, entries, stay]

/-! ## The acts of the service controller (R105, R108) -/

theorem Chip.serviceLoop_some {x y : Chip} (n : Nat) (act : x.serviceNext = some y) :
    x.serviceLoop (n + 1) = (y.refreshStatus x).serviceLoop n := by
  simp only [Chip.serviceLoop, act]

theorem Chip.serviceLoop_none {x : Chip} (n : Nat) (none : x.serviceNext.isNone = true) : x.serviceLoop n = x := by
  cases n with
  | zero => rfl
  | succ n => simp only [Chip.serviceLoop, Option.isNone_iff_eq_none.1 none]

/-! ## The idle stretch (R101) -/

theorem Chip.idleHolds_iff (x : Chip) : x.idleHolds = true ↔ x.fdc.sheets = [] ∧ x.svc.location = .printSide := by
  simp [Chip.idleHolds]

theorem Chip.updateIdle_stands (x : Chip) (holds : x.idleHolds = true) (stretch : x.svc.idleStretch ≠ none) :
    x.updateIdle = x := by
  obtain ⟨since, stretch⟩ := Option.ne_none_iff_exists'.1 stretch
  simp only [Chip.updateIdle, holds, if_true, stretch]

theorem Chip.updateIdle_begins (x : Chip) (holds : x.idleHolds = true) (stretch : x.svc.idleStretch = none) :
    x.updateIdle = { x with svc := { x.svc with
      idleStretch := some x.rpw.timeBase
      counters := Vector.ofFn fun p : Fin 8 =>
        { x.svc.counters.get p with idleMark := x.rpw.timeBase, idleFired := false } } } := by
  simp only [Chip.updateIdle, holds, if_true, stretch, Chip.onCounters_eq]
  rfl

theorem Chip.updateIdle_ends (x : Chip) (fails : ¬ x.idleHolds = true) :
    x.updateIdle = { x with svc := { x.svc with idleStretch := none } } :=
  if_neg fails

/-! ## The link after a frame (R145, R147) -/

theorem Chip.releaseLink_ended (x : Chip) (ended : x.flm.link = .ended) :
    x.releaseLink = { x with flm := { x.flm with link := .free }.begin x.rpw.timeBase } := by
  simp only [Chip.releaseLink, ended]
  rfl

theorem Chip.releaseLink_other (x : Chip) (other : x.flm.link ≠ .ended) : x.releaseLink = x := by
  unfold Chip.releaseLink
  split
  · next ended => exact absurd ended other
  · rfl
  · rfl

/-! ## The responses (R153, R155) -/

/-- The response to an in-flight read. -/
def InFlight.response (port : Port) (e : InFlight) : Emission :=
  match e.phase with
  | .answered status data => .response port e.tag status data
  | .waiting => .response port e.tag .fault []
  | .issued => .response port e.tag .fault []

/-- The emission of one answer taken from the front of an in-flight list. -/
def emissionOf (port : Port) (r : InFlight × ReadStatus × List Byte) : Emission := .response port r.1.tag r.2.1 r.2.2

theorem foldl_respond (port : Port) (l : List (InFlight × ReadStatus × List Byte)) (x : Chip) :
    l.foldl (respond port) x = { x with sent := x.sent ++ l.map (emissionOf port) } := by
  induction l generalizing x with
  | nil => simp
  | cons r l ih =>
    rw [List.foldl_cons, ih]
    simp [respond, Chip.emit, emissionOf]

theorem answeredFront_of_none {l : List InFlight} (none : nothingAnswered l = true) : answeredFront l = ([], l) := by
  cases l with
  | nil => rfl
  | cons e l =>
    cases phase : e.phase <;> simp_all [nothingAnswered, InFlight.isAnswered, answeredFront]

/-- The answers at the front of a list, and what is left of it. -/
theorem answeredFront_append (port : Port) {front rest : List InFlight} (answered : ∀ e ∈ front, e.isAnswered = true)
    (none : nothingAnswered rest = true) :
    (answeredFront (front ++ rest)).1.map (emissionOf port) = front.map (InFlight.response port) ∧
      (answeredFront (front ++ rest)).1.length = front.length ∧ (answeredFront (front ++ rest)).2 = rest := by
  induction front with
  | nil => simp [answeredFront_of_none none]
  | cons e front ih =>
    obtain ⟨first, others⟩ := List.forall_mem_cons.1 answered
    obtain ⟨emitted, count, left⟩ := ih others
    cases phase : e.phase with
    | answered status data => simp [answeredFront, phase, emitted, count, left, emissionOf, InFlight.response]
    | waiting => simp [InFlight.isAnswered, phase] at first
    | issued => simp [InFlight.isAnswered, phase] at first

theorem Chip.sendResponses_front (x : Chip) {cFront cRest hFront hRest : List InFlight}
    (cSplit : x.psw.cInFlight = cFront ++ cRest) (hSplit : x.psw.hInFlight = hFront ++ hRest)
    (answered : ∀ e ∈ cFront ++ hFront, e.isAnswered = true) (cNone : nothingAnswered cRest = true)
    (hNone : nothingAnswered hRest = true) : x.sendResponses = { x with
      psw := { x.psw with
        cInFlight := cRest, cCredits := x.psw.cCredits + cFront.length
        hInFlight := hRest, hCredits := x.psw.hCredits + hFront.length }
      sent := x.sent ++ cFront.map (InFlight.response .cPort) ++ hFront.map (InFlight.response .hPort) } := by
  obtain ⟨cAnswered, hAnswered⟩ := List.forall_mem_append.1 answered
  obtain ⟨cSent, cCount, cLeft⟩ := answeredFront_append .cPort cAnswered cNone
  obtain ⟨hSent, hCount, hLeft⟩ := answeredFront_append .hPort hAnswered hNone
  simp only [Chip.sendResponses, Chip.onPsw, foldl_respond, cSplit, hSplit, cSent, cCount, cLeft, hSent, hCount, hLeft]

/-! ## A part with nothing left to do -/

/-- Whether the service controller has an act to make (R105, R108). -/
theorem Chip.serviceNext_isNone (x : Chip) : x.serviceNext.isNone = match x.svc.cycle.state with
    | .none => !x.hasEligible && (x.sgt.claim != .free || x.svc.wakeAsk.isNone)
    | .claiming => x.hasEligible && x.sgt.claim != .free
    | .running => true
    | .recovering => true
    | .abandoning => true := by
  unfold Chip.serviceNext
  cases x.svc.cycle.state <;> cases x.hasEligible <;> cases x.sgt.claim <;> simp

/-- The status records have no part in what is left to do. -/
theorem Chip.quiet_refreshStatus {x : Chip} (quiet : x.quiet) (old : Chip) : (x.refreshStatus old).quiet := by
  obtain ⟨due, held, act, stretch, link, cNone, hNone⟩ := quiet
  refine ⟨due, held, ?_, stretch, link, cNone, hNone⟩
  rw [Chip.serviceNext_isNone] at act ⊢
  exact act

theorem Chip.updateIdle_of_stretch (x : Chip) (stretch : x.svc.idleStretch.isSome = x.idleHolds) : x.updateIdle = x := by
  by_cases holds : x.idleHolds = true
  · exact x.updateIdle_stands holds (Option.isSome_iff_ne_none.1 (stretch.trans holds))
  · have none : x.svc.idleStretch = none := by simpa [holds] using stretch
    rw [x.updateIdle_ends holds, ← none]

theorem Chip.settle_of_quiet {x : Chip} (quiet : x.quiet) : x.settle = x := by
  obtain ⟨due, held, act, stretch, -⟩ := quiet
  have loop : x.serviceLoop serviceActs = x := Chip.serviceLoop_none serviceActs act
  have uncalled : x.due.prime = false ∧ x.due.admission = false ∧ x.due.arming = false := by
    rw [due]
    exact ⟨rfl, rfl, rfl⟩
  have same : ({ x with due := .nothing } : Chip) = x := by rw [← due]
  simp [Chip.settle, x.dropStaleHolds_none held, loop, uncalled, x.updateIdle_of_stretch stretch, same]

theorem Chip.sendResponses_of_none (x : Chip) (cNone : nothingAnswered x.psw.cInFlight = true)
    (hNone : nothingAnswered x.psw.hInFlight = true) : x.sendResponses = x := by
  simpa using x.sendResponses_front (cFront := []) (hFront := []) rfl rfl (by simp) cNone hNone

theorem conclude_of_quiet (old : Chip) {x : Chip} (quiet : x.quiet) : conclude old x = (x.refreshStatus old).fillWriter := by
  have still := Chip.quiet_refreshStatus quiet old
  have ⟨_, _, _, _, link, cNone, hNone⟩ := still
  rw [conclude, Chip.settle_of_quiet still, Chip.releaseLink_other _ link, Chip.sendResponses_of_none _ cNone hNone]

theorem conclude_kept (old x : Chip) : (conclude old x).kept = x.kept := by
  simp [conclude]

/-- Settles O56: each operation of the end of an event by its own lemma. -/
theorem endOfAnEvent : Obligations.EndOfAnEvent := by
  refine ⟨conclude_kept, fun old x => conclude_of_quiet old,
    fun old x => ⟨(conclude_time old x).1, (conclude_between old x).1⟩, fun old x => rfl, fun x => rfl,
    fun n x y => ⟨Chip.serviceLoop_some n, Chip.serviceLoop_none (n + 1)⟩,
    fun x => ⟨fun holds => ?_, fun holds => ?_, fun fails => ?_⟩,
    fun x => ⟨x.dropStaleHolds_none, x.dropStaleHolds_some⟩, fun x => ⟨x.releaseLink_ended, x.releaseLink_other⟩,
    fun x cFront cRest hFront hRest => x.sendResponses_front, Chip.markStatus_eq, Chip.refreshStatus_appends,
    fun old x n => ?_, fun x f => rfl⟩
  · exact x.updateIdle_stands (x.idleHolds_iff.2 holds)
  · exact x.updateIdle_begins (x.idleHolds_iff.2 holds)
  · exact x.updateIdle_ends (x.idleHolds_iff.not.2 fails)
  · rw [Chip.showChange_eq]
    simp only [beq_iff_eq]

end Sys2Proof.Machine
end
